-- ==== Sys2Proof/Word.lean ====
section
/-! DEFINITION. The byte, the unit of every link of the VK-24 (chapter 12). -/

namespace Sys2Proof

/-- One byte of a frame (R159). -/
abbrev Byte := BitVec 8

end Sys2Proof
end

