-- ==== Sys2Proof/Syntax.lean ====
section
/-! DEFINITION. The commands of the VK-24: one constructor of `Instr` per row of spec/opcode_table.json.

A command is an event at the block (00_scope.md, "Events and Time"): a frame or a byte arriving, a timer expiring, a
send completing, a request of the host. Operands are the bytes the frame carries, so that every length and every field
value the link can carry is an operand. -/

namespace Sys2Proof

/-- The two byte receivers (R159). -/
inductive Rx where
  | sense | control
deriving DecidableEq, Repr

/-- The three linearization tables LIN0, LIN1, LIN2 (R88): base, food and board channel. -/
inductive LinTable where
  | lin0 | lin1 | lin2
deriving DecidableEq, Repr

/-- The nine request kinds of the control link (R148, Table 12-2). -/
inductive RequestKind where
  | stepWrite | stepRead | entryWrite | entryRead | doCommand | inject | pass | getState | getChain
deriving DecidableEq, Repr

/-- The commands. In a request row `tag` is the host's tag byte and `body` (or `arg`) the bytes after the tag and after
the words the row itself names (the table code of an ENTRY row, the command word of a DO row). -/
inductive Instr where
  /-- POWER_ON_RESET (R19): power-up, brown-out or RESET#. -/
  | powerOnReset
  /-- FRAME_DISCARD (R159): a frame with an overlong length or a wrong check is discarded by a receiver. -/
  | frameDiscard (rx : Rx)
  /-- RECEIVER_GAP_TIMEOUT (R159): the gap count of a receiver that is mid-frame reaches 3. -/
  | receiverGapTimeout (rx : Rx)
  /-- SAMPLE_FORM_DISCARD (R139 item 1): the sense link delivers a frame of an unknown kind or of a wrong length. -/
  | sampleFormDiscard (kind : Byte) (payload : List Byte)
  /-- WEIGH_ARRIVAL (R69): sequence number and signed raw count. -/
  | weighArrival (seq : Byte) (raw : BitVec 24)
  /-- TEMP_ARRIVAL (R90): sequence number and the base, food and board raw values (low 12 bits taken, R161). -/
  | tempArrival (seq : Byte) (base food board : BitVec 16)
  /-- MOTOR_ARRIVAL (R123): sequence number, measured speed in rpm, measured current in mA. -/
  | motorArrival (seq : Byte) (speed current : BitVec 16)
  /-- LEVELS_ARRIVAL (R127): sequence number and the six line levels (bits 6 and 7 ignored, R161). -/
  | levelsArrival (seq : Byte) (levels : Byte)
  /-- ZERO_ARRIVAL (R106): sequence number. -/
  | zeroArrival (seq : Byte)
  | weighStall
  | tempStall
  | motorStall
  | levelsStall
  | mainsLoss
  | stepDurationExpiry
  | stepLimitExpiry
  | rampSecond
  | phaseEnd
  | stirRampStep
  | lockEngageTimeout
  | lockReleaseTimeout
  | coolDownComplete
  | supervisionExpiry
  | hostQuiet
  | readingInterval
  | spinRefresh
  | latchRefresh
  | driveSendComplete
  | upstreamSendComplete
  | hostWait
  | hostGo
  /-- REQUEST_ARRIVAL (R148): the control-link receiver delivers a request frame. -/
  | requestArrival (kind : RequestKind) (payload : List Byte)
  /-- MISPLACED_FRAME (R148): the control-link receiver delivers a frame that is neither a request nor WAIT nor GO. -/
  | misplacedFrame (kind : Byte) (payload : List Byte)
  | stepWrite (tag : Byte) (body : List Byte)
  | stepRead (tag : Byte) (body : List Byte)
  | entryWriteLin (tag : Byte) (table : LinTable) (body : List Byte)
  | entryWritePattern (tag : Byte) (body : List Byte)
  | entryWriteBind (tag : Byte) (body : List Byte)
  | entryWriteCal (tag : Byte) (body : List Byte)
  | entryWriteLimits (tag : Byte) (body : List Byte)
  | entryReadLin (tag : Byte) (table : LinTable) (body : List Byte)
  | entryReadPattern (tag : Byte) (body : List Byte)
  | entryReadBind (tag : Byte) (body : List Byte)
  | entryReadCal (tag : Byte) (body : List Byte)
  | entryReadLimits (tag : Byte) (body : List Byte)
  | doStart (tag : Byte) (arg : List Byte)
  | doPause (tag : Byte) (arg : List Byte)
  | doResume (tag : Byte) (arg : List Byte)
  | doSkip (tag : Byte) (arg : List Byte)
  | doStop (tag : Byte) (arg : List Byte)
  | doExtend (tag : Byte) (arg : List Byte)
  | doTare (tag : Byte) (arg : List Byte)
  | doZeroCal (tag : Byte) (arg : List Byte)
  | doSpanCal (tag : Byte) (arg : List Byte)
  | doClear (tag : Byte) (arg : List Byte)
  | doClearNotices (tag : Byte) (arg : List Byte)
  | doClearEdges (tag : Byte) (arg : List Byte)
  | doClearCapture (tag : Byte) (arg : List Byte)
  | doReset (tag : Byte) (arg : List Byte)
  | doSupervise (tag : Byte) (arg : List Byte)
  | doRehearse (tag : Byte) (arg : List Byte)
  /-- INJECT (R141): the whole payload, a sample kind byte and that kind's sense payload; no tag. -/
  | inject (payload : List Byte)
  /-- PASS (R146): the whole payload; no tag. -/
  | pass (payload : List Byte)
  | getState (tag : Byte) (body : List Byte)
  | getChain (tag : Byte) (body : List Byte)
  /-- BYTE_ARRIVAL (R159): a byte reaches a receiver. -/
  | byteArrival (rx : Rx) (byte : Byte)
deriving DecidableEq, Repr

end Sys2Proof
end

