-- ==== Sys2Proof/WellFormed.lean ====
section
/-! DEFINITION. Which terms of `Instr` are commands a link can carry: a payload fits the envelope (R159, at most 64
bytes), and the two discard rows carry a frame that their rule discards. -/

namespace Sys2Proof

/-- The payload lengths of Table 12-3 for the five sample kinds (R162), by kind code. -/
def sampleLength (kind : Byte) : Option Nat :=
  match kind.toNat with
  | 1 => some 4
  | 2 => some 7
  | 3 => some 5
  | 4 => some 2
  | 5 => some 1
  | _ => none

/-- A kind code the control link takes from the host: a request (0x21 to 0x29), WAIT or GO (Table 12-2). -/
def isHostKind (kind : Byte) : Bool :=
  (0x21 ≤ kind.toNat && kind.toNat ≤ 0x29) || kind.toNat == 0x2E || kind.toNat == 0x2F

/-- The length byte of the envelope is 0 to 64 (Table 12-1). -/
def fits (extra : Nat) (bytes : List Byte) : Bool :=
  decide (extra + bytes.length ≤ 64)

/-- Well-formed commands: every payload fits its frame, and a discard row carries a frame its rule discards. -/
def Instr.wellFormed : Instr → Bool
  | .sampleFormDiscard kind payload => fits 0 payload && sampleLength kind != some payload.length
  | .misplacedFrame kind payload => fits 0 payload && !isHostKind kind
  | .requestArrival _ payload => fits 0 payload
  | .stepWrite _ body => fits 1 body
  | .stepRead _ body => fits 1 body
  | .entryWriteLin _ _ body => fits 2 body
  | .entryWritePattern _ body => fits 2 body
  | .entryWriteBind _ body => fits 2 body
  | .entryWriteCal _ body => fits 2 body
  | .entryWriteLimits _ body => fits 2 body
  | .entryReadLin _ _ body => fits 2 body
  | .entryReadPattern _ body => fits 2 body
  | .entryReadBind _ body => fits 2 body
  | .entryReadCal _ body => fits 2 body
  | .entryReadLimits _ body => fits 2 body
  | .doStart _ arg => fits 2 arg
  | .doPause _ arg => fits 2 arg
  | .doResume _ arg => fits 2 arg
  | .doSkip _ arg => fits 2 arg
  | .doStop _ arg => fits 2 arg
  | .doExtend _ arg => fits 2 arg
  | .doTare _ arg => fits 2 arg
  | .doZeroCal _ arg => fits 2 arg
  | .doSpanCal _ arg => fits 2 arg
  | .doClear _ arg => fits 2 arg
  | .doClearNotices _ arg => fits 2 arg
  | .doClearEdges _ arg => fits 2 arg
  | .doClearCapture _ arg => fits 2 arg
  | .doReset _ arg => fits 2 arg
  | .doSupervise _ arg => fits 2 arg
  | .doRehearse _ arg => fits 2 arg
  | .inject payload => fits 0 payload
  | .pass payload => fits 0 payload
  | .getState _ body => fits 1 body
  | .getChain _ body => fits 1 body
  | .powerOnReset => true
  | .frameDiscard _ => true
  | .receiverGapTimeout _ => true
  | .weighArrival _ _ => true
  | .tempArrival _ _ _ _ => true
  | .motorArrival _ _ _ => true
  | .levelsArrival _ _ => true
  | .zeroArrival _ => true
  | .weighStall => true
  | .tempStall => true
  | .motorStall => true
  | .levelsStall => true
  | .mainsLoss => true
  | .stepDurationExpiry => true
  | .stepLimitExpiry => true
  | .rampSecond => true
  | .phaseEnd => true
  | .stirRampStep => true
  | .lockEngageTimeout => true
  | .lockReleaseTimeout => true
  | .coolDownComplete => true
  | .supervisionExpiry => true
  | .hostQuiet => true
  | .readingInterval => true
  | .spinRefresh => true
  | .latchRefresh => true
  | .driveSendComplete => true
  | .upstreamSendComplete => true
  | .hostWait => true
  | .hostGo => true
  | .byteArrival _ _ => true

end Sys2Proof
end

