-- ==== Sys2Proof/Decode.lean ====
section
/-! DEFINITION. The command a table word spells. spec/opcode_table.json gives no row any bits (every row's "fields" is
empty and none has a fixed pattern), so no word spells a command. The frames the links carry are decoded by the machine
itself, byte by byte (`Machine/Operands.lean`, `Machine/Frames.lean`, `Machine/SampleIntake.lean`, `Machine/Link.lean`). -/

namespace Sys2Proof

/-- The command spelled by a word of `nbits` bits: none, since the table gives no row bits. -/
def decodeTableWord (_nbits _w : Nat) : Option Instr := none

end Sys2Proof
end

