-- ==== Sys2Proof/Machine/State.lean ====
section
/-! DEFINITION. The state of the VK-24, block by block as the spec's chapters give it, and its power-on value. -/

namespace Sys2Proof.Machine

/-! ### The step table (chapter 1) -/

/-- The seven step kinds (R3, Table 1-1). -/
inductive StepKind where
  | empty | cook | add | waitUser | call | ret | finish
deriving DecidableEq, Repr

/-- The five conditions of a timed step (Table 1-2). -/
inductive Condition where
  | time | temp | weight | torque | user
deriving DecidableEq, Repr

/-- The four flags of a timed record (R5). -/
structure StepFlags where
  announce : Bool
  userEnd : Bool
  forceLock : Bool
  atTemp : Bool
deriving DecidableEq, Repr

/-- One step record (R4, Table 1-2). A numeric field's absent value is 0. -/
structure StepRecord where
  kind : StepKind
  flags : StepFlags
  target : Nat
  ramp : Nat
  pattern : Option Nat
  duration : Nat
  condition : Option Condition
  limit : Nat
  amount : Nat
  tolerance : Nat
  routine : Nat
  repeats : Nat
deriving DecidableEq, Repr

/-- No flag set. -/
def StepFlags.none : StepFlags := ⟨false, false, false, false⟩

/-- The record of kind EMPTY with every other field absent (R2). -/
def StepRecord.blank : StepRecord :=
  { kind := .empty, flags := .none, target := 0, ramp := 0, pattern := .none, duration := 0, condition := .none,
    limit := 0, amount := 0, tolerance := 0, routine := 0, repeats := 0 }

/-! ### The step engine (chapter 2) -/

/-- Table 2-1. -/
inductive EngineState where
  | idle | running | held | ending | faulted
deriving DecidableEq, Repr

/-- The phase of a timed step (Table 2-3). -/
inductive Phase where
  | none | entry | active
deriving DecidableEq, Repr

/-- The sub-phase of a timed step (Table 2-2). -/
inductive SubPhase where
  | none | approach | reached | addRef | addFill | waiting
deriving DecidableEq, Repr

/-- The set of hold reasons (Table 2-6). -/
structure Holds where
  pause : Bool
  lid : Bool
  bowl : Bool
  mains : Bool
  sensor : Bool
  starved : Bool
deriving DecidableEq, Repr

/-- The empty hold set. -/
def Holds.empty : Holds := ⟨false, false, false, false, false, false⟩

/-- Table 2-7, in its order. -/
inductive FaultCode where
  | stepRange | callDepth | callPool | returnEmpty | contextKind | patternEmpty | uncalibrated | lockTimeout
  | lockBreach | lockLost | stall | overload | cutout | foodSensor | baseOver | boardOver | hostLost
deriving DecidableEq, Repr

/-- The outcomes of a step (R34). -/
inductive StepOutcome where
  | completed | limit | skipped
deriving DecidableEq, Repr

/-- The outcomes of a recipe (Table 2-3). -/
inductive RecipeOutcome where
  | completed | stopped
deriving DecidableEq, Repr

/-- The engine state variables of Table 2-3 (R19). -/
structure Engine where
  state : EngineState
  index : Nat
  phase : Phase
  sub : SubPhase
  elapsed : Nat
  limitElapsed : Nat
  reached : Bool
  lockNeed : Bool
  clampedTarget : Nat
  previousTarget : Nat
  holds : Holds
  fault : Option FaultCode
  further : Bool
  lastOutcome : Option StepOutcome
  recipeOutcome : Option RecipeOutcome
deriving DecidableEq, Repr

/-- Table 2-3, the column common to both resets. -/
def Engine.reset : Engine :=
  { state := .idle, index := 0, phase := .none, sub := .none, elapsed := 0, limitElapsed := 0, reached := false,
    lockNeed := false, clampedTarget := 0, previousTarget := 0, holds := .empty, fault := .none, further := false,
    lastOutcome := .none, recipeOutcome := .none }

/-! ### The context pool (chapter 3) -/

/-- A CALL record (R53, Table 3-1). -/
structure CallRecord where
  returnIndex : Nat
  routine : Nat
  remaining : Nat
deriving DecidableEq, Repr

/-- A SUSPEND record with started = true (R54, Table 3-3). -/
structure HeldRecord where
  reasons : Holds
  index : Nat
  phase : Phase
  sub : SubPhase
  elapsed : Nat
  limitElapsed : Nat
  reached : Bool
  addReference : Option Int
  setpoint : Int
  rampAccumulator : Nat
  integrator : Int
  phaseIndex : Nat
  phaseElapsed : Nat
  torqueCount : Nat
  overloadCap : Option Nat
deriving DecidableEq, Repr

/-- A context record: CALL, SUSPEND with started = false (Table 3-2: reason set at save and pending index), or
SUSPEND with started = true. -/
inductive Context where
  | call (r : CallRecord)
  | starved (reasons : Holds) (pendingIndex : Nat)
  | held (r : HeldRecord)
deriving DecidableEq, Repr

/-- The context pool (R51): the free list and the active chain, each head first (the links are the lists' order; a slot
on the chain stands with its record), and the call depth (R55). -/
structure Pool where
  free : List Nat
  chain : List (Nat × Context)
  depth : Nat
deriving DecidableEq, Repr

/-- The rebuilt pool (R51): slots 0 to 11 free in order, the chain empty, the depth 0. -/
def Pool.rebuilt : Pool := { free := [0, 1, 2, 3, 4, 5, 6, 7, 8, 9, 10, 11], chain := [], depth := 0 }

/-! ### The weighing channel (chapter 4) -/

/-- The calibration record (Table 4-2). -/
structure Calibration where
  zero : Int
  gain : Nat
  drift : Int
  tcal : Int
  blockLength : Nat
  band : Nat
  countM : Nat
  gateSpeed : Nat
deriving DecidableEq, Repr

/-- Table 4-2's power-on values. -/
def Calibration.reset : Calibration :=
  { zero := 0, gain := 0, drift := 0, tcal := 50, blockLength := 8, band := 5, countM := 4, gateSpeed := 600 }

/-- Table 4-4, in the order of Table 4-1. -/
inductive WeighStatus where
  | valid | noData | overload | gated | stalled | uncalibrated | clamped
deriving DecidableEq, Repr

/-- The weighing channel state of Table 4-1 (R67), the calibration record apart. -/
structure Weigh where
  blockSum : Int
  blockCount : Nat
  gateClosed : Bool
  average : Int
  gross : Int
  net : Int
  added : Int
  status : WeighStatus
  anchor : Option Int
  stability : Nat
  stable : Bool
  tare : Int
  tarePending : Bool
  addReference : Option Int
deriving DecidableEq, Repr

/-- Table 4-1's power-on values. -/
def Weigh.reset : Weigh :=
  { blockSum := 0, blockCount := 0, gateClosed := false, average := 0, gross := 0, net := 0, added := 0,
    status := .noData, anchor := .none, stability := 0, stable := false, tare := 0, tarePending := false,
    addReference := .none }

/-! ### The thermal regulator (chapter 5) -/

/-- One temperature channel (R87, Table 5-1). -/
structure Channel where
  points : Vector Int 33
  written : Vector Bool 33
  loaded : Bool
  value : Option Int
  faulted : Bool
  outRun : Nat
  goodRun : Nat
deriving DecidableEq, Repr

/-- Table 5-1's power-on values. -/
def Channel.reset : Channel :=
  { points := .replicate 33 0, written := .replicate 33 false, loaded := false, value := .none, faulted := true,
    outRun := 0, goodRun := 0 }

/-- The regulator state of Table 5-4 (R95). -/
structure Regulator where
  target : Nat
  ramp : Nat
  setpoint : Int
  rampAccumulator : Nat
  rampCount : Nat
  integrator : Int
  lastK : Nat
  kB : Nat
  kS : Nat
  baseCut : Bool
  boardDerate : Bool
  baseOver : Bool
  boardOver : Bool
deriving DecidableEq, Repr

/-- Table 5-4, after either reset. -/
def Regulator.reset : Regulator :=
  { target := 0, ramp := 0, setpoint := 0, rampAccumulator := 0, rampCount := 0, integrator := 0, lastK := 0,
    kB := 0, kS := 0, baseCut := false, boardDerate := false, baseOver := false, boardOver := false }

/-! ### The limits record (R151, Tables 5-3, 6-2, 7-3, 8-2, R55) -/

/-- The limits record, in the order of Table 12-5. -/
structure Limits where
  maxFoodTarget : Nat
  keepWarm : Nat
  lockTemp : Nat
  unlockTemp : Nat
  baseLimit : Nat
  boardDerate : Nat
  boardLimit : Nat
  lidFreeSpeed : Nat
  hotCapTemp : Nat
  hotCapSpeed : Nat
  maxSpeed : Nat
  stopThreshold : Nat
  overloadCurrent : Nat
  readingInterval : Nat
  lockTimeout : Nat
  band : Nat
  derateBand : Nat
  hardMargin : Nat
  frameLength : Nat
  startB : Nat
  windowB : Nat
  startS : Nat
  windowS : Nat
  exclusive : Bool
  kp : Nat
  ki : Nat
  depthLimit : Nat
  warnLevel : Nat
  debounce : Nat
deriving DecidableEq, Repr

/-- The power-on values of the limits record. -/
def Limits.reset : Limits :=
  { maxFoodTarget := 320, keepWarm := 140, lockTemp := 120, unlockTemp := 180, baseLimit := 440, boardDerate := 170,
    boardLimit := 200, lidFreeSpeed := 500, hotCapTemp := 120, hotCapSpeed := 3000, maxSpeed := 10000,
    stopThreshold := 50, overloadCurrent := 4000, readingInterval := 200, lockTimeout := 2000, band := 6,
    derateBand := 40, hardMargin := 40, frameLength := 20, startB := 0, windowB := 12, startS := 10, windowS := 10,
    exclusive := true, kp := 48, ki := 4, depthLimit := 6, warnLevel := 2, debounce := 3 }

/-! ### The cycle scheduler (chapter 6) -/

/-- One HEAT decision: cycle position and the states of elements B and S (R111). -/
structure Heat where
  position : Nat
  b : Bool
  s : Bool
deriving DecidableEq, Repr

/-- The scheduler state of Table 6-1 (R104). -/
structure Scheduler where
  mainsPresent : Bool
  position : Nat
  kB : Nat
  kS : Nat
  lastHeat : Heat
deriving DecidableEq, Repr

/-- Table 6-1's power-on values. -/
def Scheduler.reset : Scheduler :=
  { mainsPresent := false, position := 0, kB := 0, kS := 0, lastHeat := ⟨0, false, false⟩ }

/-! ### The stir drive (chapter 7) -/

/-- A phase or motor direction (Table 7-1). -/
inductive Direction where
  | fwd | rev
deriving DecidableEq, Repr

/-- One phase of a pattern (Table 7-1). -/
structure StirPhase where
  speed : Nat
  direction : Direction
  duration : Nat
  acceleration : Nat
deriving DecidableEq, Repr

/-- One pattern entry (R115, Table 7-1). -/
structure Pattern where
  count : Nat
  loop : Nat
  phases : Vector StirPhase 8
deriving DecidableEq, Repr

/-- R115's power-on phase: speed 0, FWD, duration 0, acceleration 1. -/
def StirPhase.reset : StirPhase := { speed := 0, direction := .fwd, duration := 0, acceleration := 1 }

/-- R115's power-on pattern. -/
def Pattern.reset : Pattern := { count := 0, loop := 0, phases := .replicate 8 .reset }

/-- The stir drive state of Table 7-2 (R116). -/
structure Stir where
  running : Option Nat
  kind : Option StepKind
  phaseIndex : Nat
  phaseElapsed : Nat
  target : Nat
  commanded : Nat
  direction : Direction
  lastDirection : Option Direction
  reversal : Bool
  rampCount : Nat
  speed : Nat
  current : Nat
  slowRun : Nat
  stallRun : Nat
  overloadRun : Nat
  overloadCap : Option Nat
  blockSum : Nat
  blockCount : Nat
  blockSteady : Bool
  torqueCount : Nat
deriving DecidableEq, Repr

/-- Table 7-2's power-on values. -/
def Stir.reset : Stir :=
  { running := .none, kind := .none, phaseIndex := 0, phaseElapsed := 0, target := 0, commanded := 0,
    direction := .fwd, lastDirection := .none, reversal := false, rampCount := 0, speed := 0, current := 0,
    slowRun := 0, stallRun := 0, overloadRun := 0, overloadCap := .none, blockSum := 0, blockCount := 0,
    blockSteady := true, torqueCount := 0 }

/-! ### The input line monitor and the lock controller (chapter 8) -/

/-- The six input lines (Table 8-1), in line order. -/
inductive LineId where
  | lid | locked | bowl | knob | cutout | spare
deriving DecidableEq, Repr

/-- A debounced level (R127). -/
inductive Level where
  | unknown | low | high
deriving DecidableEq, Repr

/-- The three items the monitor holds for one line (R127). -/
structure Line where
  level : Level
  candidate : Bool
  agreement : Nat
deriving DecidableEq, Repr

/-- Power-on: level unknown, agreement count 0 (R127).
DESIGN CHOICE (log 11), unsafe: candidate 0; the spec gives it no power-on value. -/
def Line.reset : Line := { level := .unknown, candidate := false, agreement := 0 }

/-- The action of a binding (R130). -/
inductive Action where
  | none | notify | pause | resume | endStep | capture
deriving DecidableEq, Repr

/-- One binding (R130). -/
structure Binding where
  enable : Bool
  action : Action
deriving DecidableEq, Repr

/-- The capture record (R132, Table 8-3). -/
structure Capture where
  line : Nat
  falling : Bool
  net : Int
  stable : Bool
  food : Int
  foodFault : Bool
  stepIndex : Nat
  stepElapsed : Nat
deriving DecidableEq, Repr, Inhabited

/-- The input line monitor: six lines (R127), twelve bindings (R130), the pending-edge set as a mask of binding indices
(R131), the capture record and its overrun flag (R132). -/
structure Lines where
  lid : Line
  locked : Line
  bowl : Line
  knob : Line
  cutout : Line
  spare : Line
  bindings : Vector Binding 12
  edges : BitVec 12
  capture : Option Capture
  captureOverrun : Bool
deriving DecidableEq, Repr

/-- The power-on state of the monitor (R127, R130, R131, R132). -/
def Lines.reset : Lines :=
  { lid := .reset, locked := .reset, bowl := .reset, knob := .reset, cutout := .reset, spare := .reset,
    bindings := .replicate 12 ⟨false, .none⟩, edges := 0, capture := .none, captureOverrun := false }

/-- The lock state (Table 8-4). -/
inductive LockState where
  | unknown | released | engaging | engaged | releasing
deriving DecidableEq, Repr

/-- The latch command (R133). -/
inductive Latch where
  | rest | engage | release
deriving DecidableEq, Repr

/-- The request the engine keeps standing (R133). -/
inductive LockRequest where
  | engage | release
deriving DecidableEq, Repr

/-- The lock controller state of Table 8-4 (R133). -/
structure Lock where
  state : LockState
  standing : LockRequest
  releaseWait : Bool
  latch : Latch
  timer : Nat
  coolDown : Nat
deriving DecidableEq, Repr

/-- Table 8-4's power-on values. -/
def Lock.reset : Lock :=
  { state := .unknown, standing := .release, releaseWait := false, latch := .rest, timer := 0, coolDown := 0 }

/-! ### The sample intake and the drive output (chapter 9) -/

/-- The five sample kinds (R138). -/
inductive StreamId where
  | weigh | temp | motor | levels | zero
deriving DecidableEq, Repr

/-- A stream's state and the time since its last frame (Table 9-1). -/
structure Stream where
  live : Bool
  since : Nat
deriving DecidableEq, Repr

/-- The sample intake state of Table 9-1 (R138). -/
structure Intake where
  lastSeq : Option Byte
  weigh : Stream
  temp : Stream
  motor : Stream
  levels : Stream
  zero : Stream
deriving DecidableEq, Repr

/-- Table 9-1's power-on values. -/
def Intake.reset : Intake :=
  { lastSeq := .none, weigh := ⟨false, 0⟩, temp := ⟨false, 0⟩, motor := ⟨false, 0⟩, levels := ⟨false, 0⟩,
    zero := ⟨false, 0⟩ }

/-- A drive frame as it is sent (Table 12-3). -/
inductive DriveFrame where
  | heat (h : Heat)
  | spin (speed : Nat) (direction : Direction)
  | latch (c : Latch)
  | pass (payload : List Byte)
deriving DecidableEq, Repr

/-- The drive output state of Table 9-2 (R142): the three latest-value slots with their marks, the PASS queue (oldest
first), the refresh timers and the frame in transmission. -/
structure Drive where
  heat : Option Heat
  heatMarked : Bool
  spinSpeed : Nat
  spinDirection : Direction
  spinMarked : Bool
  latch : Latch
  latchMarked : Bool
  passQueue : List (List Byte)
  spinTimer : Nat
  latchTimer : Nat
  sending : Option DriveFrame
deriving DecidableEq, Repr

/-- Table 9-2's power-on values, before the first pick. -/
def Drive.reset : Drive :=
  { heat := .none, heatMarked := false, spinSpeed := 0, spinDirection := .fwd, spinMarked := true, latch := .rest,
    latchMarked := true, passQueue := [], spinTimer := 0, latchTimer := 0, sending := .none }

/-- The drive output right after power-on: SPIN 0 is the first pick and in transmission, LATCH REST waits behind it (R142,
R144; log 27). -/
def Drive.poweredOn : Drive := { Drive.reset with spinMarked := false, sending := some (.spin 0 .fwd) }

/-! ### The control link interface and the receivers (chapters 10 and 12) -/

/-- A request frame in the command queue (R147). -/
structure Request where
  kind : RequestKind
  payload : List Byte
deriving DecidableEq, Repr

/-- A flow state or flow frame (R148, R149). -/
inductive Flow where
  | go | wait
deriving DecidableEq, Repr

/-- The supervision state (R153). -/
inductive Supervision where
  | disarmed | running | expired
deriving DecidableEq, Repr

/-- The control link interface state of Table 10-1 (R147). -/
structure Control where
  queue : List Request
  overrun : Bool
  signalled : Flow
  flowSlot : Option Flow
  permission : Flow
  rehearsal : Bool
  supervision : Supervision
  period : Nat
  supervisionCount : Nat
  quietCount : Nat
  quietRaised : Bool
deriving DecidableEq, Repr

/-- Table 10-1's power-on values. -/
def Control.reset : Control :=
  { queue := [], overrun := false, signalled := .go, flowSlot := .none, permission := .go, rehearsal := false,
    supervision := .disarmed, period := 2550, supervisionCount := 0, quietCount := 0, quietRaised := false }

/-- The state of a byte receiver (R159). -/
inductive RxState where
  | hunt | kind | length | payload | check
deriving DecidableEq, Repr

/-- One byte receiver (R159). -/
structure Receiver where
  state : RxState
  kind : Byte
  length : Nat
  payload : List Byte
  gap : Nat
deriving DecidableEq, Repr

/-- HUNT with the gap count 0 (R159).
DESIGN CHOICE (log 11), unsafe: kind and length 0 and no payload byte, for which the spec gives no value in HUNT; after a
discard the gap count too is 0, which R159 gives only for power-on and a byte arrival. -/
def Receiver.hunting : Receiver := { state := .hunt, kind := 0, length := 0, payload := [], gap := 0 }

/-! ### The report unit (chapter 11) -/

/-- The notice classes in the order of Table 11-1. -/
inductive Notice where
  | restart | step | done | held | fault | limit | overfill | starved | poolLow | edge | capture | derate | sensor
  | link | hostQuiet | lockStuck
deriving DecidableEq, Repr

/-- A frame of the envelope: kind byte and payload (Table 12-1). -/
structure Frame where
  kind : Byte
  payload : List Byte
deriving DecidableEq, Repr

/-- The report unit (R155 to R158): the pending set as the mask of R163, the announce flag, the last announced step, the
answer lane and the reading lane (oldest first), the reading count, whether the answer lane's head is an unsent ANSWER
to DO RESET, and the upstream frame in transmission. -/
structure Report where
  pendingSet : BitVec 16
  announce : Bool
  lastAnnounced : Option Nat
  answers : List Frame
  readings : List Frame
  readingCount : Nat
  resetAnswer : Bool
  sending : Option Frame
deriving DecidableEq, Repr

/-- The power-on state of the report unit, before the first pick: only RESTART (bit 0) pending, announced (R155, R156,
R157, R158). -/
def Report.reset : Report :=
  { pendingSet := 1, announce := true, lastAnnounced := .none, answers := [], readings := [], readingCount := 0,
    resetAnswer := false, sending := .none }

/-- The report unit right after power-on: the NOTICE of R156 is the first pick (R158; log 27). It carries RESTART, no fault,
no recipe outcome and no announced step (R164). -/
def Report.poweredOn : Report :=
  { Report.reset with announce := false, sending := some { kind := 0x32, payload := [0, 1, 0, 0, 0xFF, 0xFF] } }

/-! ### The whole block -/

/-- Why a command stops the machine. No constructor: the spec gives every command an effect in every state, so no
meaning of this model faults (log 33). Safe: nothing can be proved of a fault that never happens. -/
inductive Fault where
deriving DecidableEq, Repr

/-- Why the model gives a command no meaning. -/
inductive Refusal where
  /-- Raised by `exec` alone, for a command that has no meaning yet; no arm of this model answers with it. Safe. -/
  | notModelled (mnemonic : String)
deriving DecidableEq, Repr

/-- The whole state of the VK-24, one field per block or host-loaded table, the commands that wait (`pending`, oldest
first) and `choices`, the MODEL's own counter of the free choices made (log 2). -/
structure State where
  pending : List Instr
  choices : Nat
  steps : Vector StepRecord 256
  engine : Engine
  pool : Pool
  weigh : Weigh
  cal : Calibration
  base : Channel
  food : Channel
  board : Channel
  reg : Regulator
  limits : Limits
  sched : Scheduler
  patterns : Vector Pattern 16
  stir : Stir
  lines : Lines
  lock : Lock
  intake : Intake
  drive : Drive
  ctl : Control
  senseRx : Receiver
  ctlRx : Receiver
  report : Report
deriving DecidableEq, Repr

/-- The state after power-on reset (R19 and the power-on column of every block's table).
DESIGN CHOICE (log 11), unsafe: `choices` starts at 0; no statement rests on it. DEDUCED (log 27): the reset is an event,
at whose end both free transmitters have picked. -/
def State.reset : State :=
  { pending := [], choices := 0, steps := .replicate 256 .blank, engine := .reset, pool := .rebuilt, weigh := .reset,
    cal := .reset, base := .reset, food := .reset, board := .reset, reg := .reset, limits := .reset, sched := .reset,
    patterns := .replicate 16 .reset, stir := .reset, lines := .reset, lock := .reset, intake := .reset,
    drive := .poweredOn, ctl := .reset, senseRx := .hunting, ctlRx := .hunting, report := .poweredOn }

/-! ### The state with one block replaced -/

/-- The state with `pending` replaced. -/
def State.withPending (s : State) (x : List Instr) : State := { s with pending := x }

/-- The state with `choices` replaced. -/
def State.withChoices (s : State) (x : Nat) : State := { s with choices := x }

/-- The state with `steps` replaced. -/
def State.withSteps (s : State) (x : Vector StepRecord 256) : State := { s with steps := x }

/-- The state with `engine` replaced. -/
def State.withEngine (s : State) (x : Engine) : State := { s with engine := x }

/-- The state with `pool` replaced. -/
def State.withPool (s : State) (x : Pool) : State := { s with pool := x }

/-- The state with `weigh` replaced. -/
def State.withWeigh (s : State) (x : Weigh) : State := { s with weigh := x }

/-- The state with `cal` replaced. -/
def State.withCal (s : State) (x : Calibration) : State := { s with cal := x }

/-- The state with `base` replaced. -/
def State.withBase (s : State) (x : Channel) : State := { s with base := x }

/-- The state with `food` replaced. -/
def State.withFood (s : State) (x : Channel) : State := { s with food := x }

/-- The state with `board` replaced. -/
def State.withBoard (s : State) (x : Channel) : State := { s with board := x }

/-- The state with `reg` replaced. -/
def State.withReg (s : State) (x : Regulator) : State := { s with reg := x }

/-- The state with `limits` replaced. -/
def State.withLimits (s : State) (x : Limits) : State := { s with limits := x }

/-- The state with `sched` replaced. -/
def State.withSched (s : State) (x : Scheduler) : State := { s with sched := x }

/-- The state with `patterns` replaced. -/
def State.withPatterns (s : State) (x : Vector Pattern 16) : State := { s with patterns := x }

/-- The state with `stir` replaced. -/
def State.withStir (s : State) (x : Stir) : State := { s with stir := x }

/-- The state with `lines` replaced. -/
def State.withLines (s : State) (x : Lines) : State := { s with lines := x }

/-- The state with `lock` replaced. -/
def State.withLock (s : State) (x : Lock) : State := { s with lock := x }

/-- The state with `intake` replaced. -/
def State.withIntake (s : State) (x : Intake) : State := { s with intake := x }

/-- The state with `drive` replaced. -/
def State.withDrive (s : State) (x : Drive) : State := { s with drive := x }

/-- The state with `ctl` replaced. -/
def State.withCtl (s : State) (x : Control) : State := { s with ctl := x }

/-- The state with `senseRx` replaced. -/
def State.withSenseRx (s : State) (x : Receiver) : State := { s with senseRx := x }

/-- The state with `ctlRx` replaced. -/
def State.withCtlRx (s : State) (x : Receiver) : State := { s with ctlRx := x }

/-- The state with `report` replaced. -/
def State.withReport (s : State) (x : Report) : State := { s with report := x }

end Sys2Proof.Machine
end

