-- ==== Sys2Proof/Machine/Arith.lean ====
section
/-! DEFINITION. The arithmetic every block shares: rounded division (R1), clamping, and reading and writing big-endian
fields of a payload (R161). -/

namespace Sys2Proof.Machine

/-- Rounded division (R1): floor((x + floor(d/2))/d) for a positive divisor d. -/
def roundDiv (x : Int) (d : Nat) : Int := (x + (d / 2 : Nat)) / (d : Int)

/-- `x` limited to the range `lo` to `hi`. -/
def clampInt (lo hi x : Int) : Int := if x < lo then lo else if hi < x then hi else x

/-- Whether `lo ≤ x ≤ hi`. -/
def inRange (lo hi x : Int) : Bool := decide (lo ≤ x) && decide (x ≤ hi)

/-- The byte at position `i` of a payload (0 past its end). -/
def byteAt (bytes : List Byte) (i : Nat) : Nat := (bytes.getD i 0).toNat

/-- The unsigned two-byte field at position `i`, most significant byte first (R161). -/
def wordAt (bytes : List Byte) (i : Nat) : Nat := 256 * byteAt bytes i + byteAt bytes (i + 1)

/-- The unsigned three-byte field at position `i` (R161). -/
def tripleAt (bytes : List Byte) (i : Nat) : Nat := 256 * wordAt bytes i + byteAt bytes (i + 2)

/-- The value of an unsigned field of `bits` bits read in two's complement (R161). -/
def signed (bits n : Nat) : Int := if n < 2 ^ (bits - 1) then (n : Int) else (n : Int) - (2 ^ bits : Nat)

/-- One byte holding `n` modulo 256. -/
def byte (n : Nat) : Byte := BitVec.ofNat 8 n

/-- Two bytes holding `n` modulo 65,536, most significant first (R161). -/
def word (n : Nat) : List Byte := [byte (n / 256), byte n]

/-- One byte holding a signed value in two's complement (R161). -/
def byteInt (x : Int) : Byte := BitVec.ofInt 8 x

/-- Two bytes holding a signed value in two's complement (R161). -/
def wordInt (x : Int) : List Byte := word (BitVec.ofInt 16 x).toNat

/-- Three bytes holding a signed value in two's complement (R161). -/
def tripleInt (x : Int) : List Byte :=
  let n := (BitVec.ofInt 24 x).toNat
  [byte (n / 65536), byte (n / 256), byte n]

/-- A truth value as bit `i` of a byte or word. -/
def bit (i : Nat) (b : Bool) : Nat := if b then 2 ^ i else 0

end Sys2Proof.Machine
end

