-- ==== Sys2Proof/Machine/Ops.lean ====
section
/-! DEFINITION. The named operations over the state that several blocks use: reading the tables, raising a notice,
handing a drive frame to its slot, and the save, restore, free and rebuild of the context pool. -/

namespace Sys2Proof.Machine

/-! ### Tables and named parts -/

/-- The record stored at a step index (R2); EMPTY outside the table. -/
def State.step (s : State) (i : Nat) : StepRecord := s.steps[i]?.getD .blank

/-- The table with the record at index `i` replaced whole (R2, R7). -/
def State.storeStep (s : State) (i : Nat) (r : StepRecord) : State := s.withSteps (s.steps.setIfInBounds i r)

/-- The pattern stored at an index (R115). -/
def State.pattern (s : State) (i : Nat) : Pattern := s.patterns[i]?.getD .reset

/-- The phase of a pattern at an index (R115). -/
def Pattern.phase (p : Pattern) (i : Nat) : StirPhase := p.phases[i]?.getD .reset

/-- Whether a record is a timed step (R3, Table 1-1). -/
def StepKind.timed : StepKind → Bool
  | .cook => true
  | .add => true
  | .waitUser => true
  | .empty => false
  | .call => false
  | .ret => false
  | .finish => false

/-- A line of the monitor by its name (Table 8-1). -/
def Lines.line (l : Lines) : LineId → Line
  | .lid => l.lid
  | .locked => l.locked
  | .bowl => l.bowl
  | .knob => l.knob
  | .cutout => l.cutout
  | .spare => l.spare

/-- The monitor with one line replaced. -/
def Lines.setLine (l : Lines) (n : LineId) (x : Line) : Lines :=
  match n with
  | .lid => { l with lid := x }
  | .locked => { l with locked := x }
  | .bowl => { l with bowl := x }
  | .knob => { l with knob := x }
  | .cutout => { l with cutout := x }
  | .spare => { l with spare := x }

/-- The number of a line (Table 8-1). -/
def LineId.number : LineId → Nat
  | .lid => 0
  | .locked => 1
  | .bowl => 2
  | .knob => 3
  | .cutout => 4
  | .spare => 5

/-- A stream of the intake by its kind (Table 9-1). -/
def Intake.stream (k : Intake) : StreamId → Stream
  | .weigh => k.weigh
  | .temp => k.temp
  | .motor => k.motor
  | .levels => k.levels
  | .zero => k.zero

/-- The intake with one stream replaced. -/
def Intake.setStream (k : Intake) (n : StreamId) (x : Stream) : Intake :=
  match n with
  | .weigh => { k with weigh := x }
  | .temp => { k with temp := x }
  | .motor => { k with motor := x }
  | .levels => { k with levels := x }
  | .zero => { k with zero := x }

/-- The stall deadline of a kind in milliseconds (R140). -/
def StreamId.deadline : StreamId → Nat
  | .weigh => 20
  | .temp => 100
  | .motor => 20
  | .levels => 50
  | .zero => 50

/-! ### Hold sets -/

/-- The union of two hold sets (R41). -/
def Holds.union (a b : Holds) : Holds :=
  { pause := a.pause || b.pause, lid := a.lid || b.lid, bowl := a.bowl || b.bowl, mains := a.mains || b.mains,
    sensor := a.sensor || b.sensor, starved := a.starved || b.starved }

/-- Whether every reason is within PAUSE and STARVED (Table 2-4, R110). -/
def Holds.gentle (h : Holds) : Bool := !h.lid && !h.bowl && !h.mains && !h.sensor

/-! ### Notices (R155) -/

/-- The bit of a notice class in the mask (R163): the order of Table 11-1, RESTART at bit 0. -/
def Notice.bit : Notice → Nat
  | .restart => 0
  | .step => 1
  | .done => 2
  | .held => 3
  | .fault => 4
  | .limit => 5
  | .overfill => 6
  | .starved => 7
  | .poolLow => 8
  | .edge => 9
  | .capture => 10
  | .derate => 11
  | .sensor => 12
  | .link => 13
  | .hostQuiet => 14
  | .lockStuck => 15

/-- The mask of one class. -/
def Notice.mask (n : Notice) : BitVec 16 := 1#16 <<< n.bit

/-- Whether a class is pending. -/
def Report.isPending (r : Report) (n : Notice) : Bool := r.pendingSet.getLsbD n.bit

/-- R155: a class not pending is added and the announce flag set; a class already pending changes nothing. -/
def Report.raise (r : Report) (n : Notice) : Report :=
  if r.isPending n then r else { r with pendingSet := r.pendingSet ||| n.mask, announce := true }

/-- A block raises a notice class (R155). -/
def State.raise (s : State) (n : Notice) : State := s.withReport (s.report.raise n)

/-! ### Handing frames to the drive slots (R142) -/

/-- A HEAT frame is handed: it replaces the slot's frame and is marked to be sent. -/
def State.handHeat (s : State) (h : Heat) : State :=
  s.withDrive { s.drive with heat := some h, heatMarked := true }

/-- A SPIN frame with the commanded speed and direction is handed (R121); with a speed above 0 its direction becomes
the last nonzero direction. -/
def State.handSpin (s : State) : State :=
  let st := s.stir
  let st' := if st.commanded > 0 then { st with lastDirection := some st.direction } else st
  (s.withStir st').withDrive
    { s.drive with spinSpeed := st.commanded, spinDirection := st.direction, spinMarked := true }

/-- The latch command becomes `c`; a LATCH frame is handed when that changes it (R133). -/
def State.setLatch (s : State) (c : Latch) : State :=
  if s.lock.latch = c then s
  else (s.withLock { s.lock with latch := c }).withDrive { s.drive with latch := c, latchMarked := true }

/-! ### The context pool (R51, R52) -/

/-- Save (R52): the free list's head takes the record and becomes the chain's head. With no free slot nothing is saved
(log 13: R56 rules that out whenever a save is made). -/
def Pool.save (p : Pool) (c : Context) : Pool :=
  match p.free with
  | [] => p
  | slot :: rest => { p with free := rest, chain := (slot, c) :: p.chain }

/-- Restore (R52): the chain's head leaves the chain and its slot becomes the free list's head. -/
def Pool.restore (p : Pool) : Pool :=
  match p.chain with
  | [] => p
  | (slot, _) :: rest => { p with free := slot :: p.free, chain := rest }

/-- The saving of a CALL record (R57 item 3): the depth rises by 1. -/
def Pool.saveCall (p : Pool) (r : CallRecord) : Pool :=
  { p.save (.call r) with depth := p.depth + 1 }

/-- The removal of a CALL record by a RETURN (R59 case 4): the depth falls by 1. -/
def Pool.dropCall (p : Pool) : Pool := { p.restore with depth := p.depth - 1 }

/-- Restores made one after another until the chain is empty (R63), the slots returned to the free list's head. -/
def freeSlots : List (Nat × Context) → List Nat → List Nat
  | [], free => free
  | (slot, _) :: rest, free => freeSlots rest (slot :: free)

/-- Freeing the whole chain (R63): restores until the chain is empty, the depth 0. -/
def Pool.freeAll (p : Pool) : Pool := { free := freeSlots p.chain p.free, chain := [], depth := 0 }

/-- The held step's SUSPEND record, when the chain's head is one with started = true (R54). -/
def Pool.heldRecord (p : Pool) : Option HeldRecord :=
  match p.chain with
  | (_, .held r) :: _ => some r
  | _ => none

/-- The pending index, when the chain's head is a SUSPEND record with started = false (R54). -/
def Pool.pendingIndex (p : Pool) : Option Nat :=
  match p.chain with
  | (_, .starved _ i) :: _ => some i
  | _ => none

/-! ### The step in progress (R12) -/

/-- The index of the step in progress: RUNNING, or HELD with a started step saved (R12, R14). -/
def State.stepInProgress (s : State) : Option Nat :=
  match s.engine.state with
  | .running => some s.engine.index
  | .held => s.pool.heldRecord.map (·.index)
  | .idle => none
  | .ending => none
  | .faulted => none

/-- The step record of the step in progress. -/
def State.recordInProgress (s : State) : Option StepRecord := s.stepInProgress.map s.step

/-- Whether the engine is RUNNING with the step in ACTIVE. -/
def State.active (s : State) : Bool :=
  decide (s.engine.state = .running) && decide (s.engine.phase = .active)

/-- Whether the engine is RUNNING with the step in ENTRY. -/
def State.inEntry (s : State) : Bool :=
  decide (s.engine.state = .running) && decide (s.engine.phase = .entry)

/-- The record of the current index, the step's own while one is in progress (R12). -/
def State.current (s : State) : StepRecord := s.step s.engine.index

/-! ### The causes of STILL_PRESENT (R50) -/

/-- Whether a temperature value is at or above a threshold; none meets no threshold (R87). -/
def atOrAbove (value : Option Int) (threshold : Int) : Bool :=
  match value with
  | none => false
  | some v => decide (threshold ≤ v)

/-- Whether a temperature value is below a threshold; none meets no threshold (R87). -/
def below (value : Option Int) (threshold : Int) : Bool :=
  match value with
  | none => false
  | some v => decide (v < threshold)

/-- The condition of BASE_OVER (R93): the base value at or above Lb plus the hard margin. -/
def State.baseOverNow (s : State) : Bool :=
  atOrAbove s.base.value ((s.limits.baseLimit : Int) + s.limits.hardMargin)

/-- The condition of BOARD_OVER (R93). -/
def State.boardOverNow (s : State) : Bool := atOrAbove s.board.value s.limits.boardLimit

/-- A cause of a fault is present (R50): CUTOUT at 1, BASE_OVER's or BOARD_OVER's condition. -/
def State.causePresent (s : State) : Bool :=
  decide (s.lines.cutout.level = .high) || s.baseOverNow || s.boardOverNow

end Sys2Proof.Machine
end

