-- ==== Sys2Proof/Machine/Stir.lean ====
section
/-! DEFINITION. The stir drive (chapter 7): the capped target speed, reversal through stop, and the directions the
engine hands it. The tests a MOTOR sample makes stand in `Machine/Motor.lean`. -/

namespace Sys2Proof.Machine

/-- The hot cap is in force (R119 item 4): the food at or above the hot-cap temperature, or its channel faulted. -/
def State.hotCapped (s : State) : Bool := atOrAbove s.food.value s.limits.hotCapTemp || s.food.faulted

/-- The caps of R119, each as the cap speed while it is in force. -/
def State.speedCaps (s : State) : List Nat :=
  [s.limits.maxSpeed]
    ++ (if s.lock.state = .engaged then [] else [s.limits.lidFreeSpeed])
    ++ (if s.hotCapped then [s.limits.hotCapSpeed] else [])
    ++ (if s.stir.kind = some .add then [s.cal.gateSpeed] else [])
    ++ s.stir.overloadCap.toList

/-- The phase speed limited by every cap in force (R119). -/
def State.cappedSpeed (s : State) (phaseSpeed : Nat) : Nat := s.speedCaps.foldl min phaseSpeed

/-- The current phase of the running pattern (R118). -/
def State.stirPhase (s : State) : Option StirPhase :=
  s.stir.running.map fun i => (s.pattern i).phase s.stir.phaseIndex

/-- A target that begins no reversal (R119, R122): a target below the commanded speed is taken at once; while no
reversal is pending and the target is above 0 the commanded direction becomes the phase's; a SPIN frame is handed when
either changed (R121). DEDUCED (log 20), safe: the ramp count becomes 0 at any fall. -/
def State.takeTarget (s : State) (t : Nat) (dir : Direction) : State :=
  let st := s.stir
  let fallen := decide (t < st.commanded)
  let turned := !st.reversal && decide (0 < t) && decide (st.direction ≠ dir)
  let st' := { st with
    target := t
    commanded := if fallen then t else st.commanded
    rampCount := if fallen then 0 else st.rampCount
    direction := if turned then dir else st.direction }
  if fallen || turned then (s.withStir st').handSpin else s.withStir st'

/-- A reversal begins (R122): reversal pending, the commanded speed 0, SPIN 0 handed with the direction unchanged.
DEDUCED (log 18), unsafe: SPIN 0 is handed also when the commanded speed was 0 already. -/
def State.beginReversal (s : State) (t : Nat) : State :=
  (s.withStir { s.stir with target := t, reversal := true, commanded := 0, rampCount := 0 }).handSpin

/-- The computation of the target speed (R119) with R122's comparison of directions. DESIGN CHOICE (log 51), unsafe: after a
wait has ended and before the first rise, a computation compares with the old last nonzero direction, as R122's words say, and
begins another reversal, though in Table 7-4 the ramp goes on. -/
def State.computeTarget (s : State) : State :=
  match s.stirPhase with
  | none => s.takeTarget 0 s.stir.direction
  | some ph =>
    let t := s.cappedSpeed ph.speed
    let opposite := match s.stir.lastDirection with
      | none => false
      | some d => decide (d ≠ ph.direction)
    if decide (0 < t) && opposite && !s.stir.reversal then s.beginReversal t
    else s.takeTarget t ph.direction

/-- The runs and the partial torque block that every start, resume and direction 0 clears (R117). -/
def Stir.clearRuns (st : Stir) : Stir :=
  { st with stallRun := 0, overloadRun := 0, blockSum := 0, blockCount := 0, blockSteady := true }

/-- Start of a pattern at a fresh ACTIVE entry (R117). -/
def State.startPattern (s : State) (r : StepRecord) : State :=
  (s.withStir { s.stir.clearRuns with
    running := r.pattern, kind := some r.kind, phaseIndex := 0, phaseElapsed := 0 }).computeTarget

/-- Resume of the pattern at an ACTIVE entry after a hold (R117): the phase, its elapsed time, the torque count and the
overload cap have been restored by `State.restoreStir`. -/
def State.resumePattern (s : State) (r : StepRecord) : State :=
  (s.withStir { s.stir.clearRuns with running := r.pattern, kind := some r.kind }).computeTarget

/-- The stir values of a SUSPEND record handed back to the stir drive (R46). -/
def State.restoreStir (s : State) (h : HeldRecord) : State :=
  s.withStir { s.stir with
    phaseIndex := h.phaseIndex, phaseElapsed := h.phaseElapsed, torqueCount := h.torqueCount,
    overloadCap := h.overloadCap }

/-- Direction 0 (R117): no pattern runs, target and commanded speed 0, the runs cleared; SPIN 0 is handed if the
commanded speed was above 0. Reversal pending is not changed. -/
def State.stirZero (s : State) : State :=
  let st' := { s.stir.clearRuns with running := none, target := 0, commanded := 0, rampCount := 0 }
  if 0 < s.stir.commanded then (s.withStir st').handSpin else s.withStir st'

/-- The torque count and the overload cap are discarded (R22 item 5, R34 item 3, R117). -/
def State.clearStepSupervision (s : State) : State :=
  s.withStir { s.stir with torqueCount := 0, overloadCap := none }

/-- The highest phase speed of a step's pattern, before any cap (R24): 0 without a pattern. -/
def State.highestSpeed (s : State) (r : StepRecord) : Nat :=
  match r.pattern with
  | none => 0
  | some i =>
    let p := s.pattern i
    (List.range p.count).foldl (fun m j => max m (p.phase j).speed) 0

/-- The end of the current phase (R118): the next phase, or the loop phase after the last; the target is computed. -/
def State.endPhase (s : State) : State :=
  match s.stir.running with
  | none => s
  | some i =>
    let p := s.pattern i
    let next := if s.stir.phaseIndex + 1 = p.count then p.loop else s.stir.phaseIndex + 1
    (s.withStir { s.stir with phaseIndex := next, phaseElapsed := 0 }).computeTarget

/-- Whether the phase timer runs (R118): RUNNING, ACTIVE, a pattern running in a phase of nonzero duration. -/
def State.phaseTimed (s : State) : Bool :=
  s.active && match s.stirPhase with
    | none => false
    | some ph => decide (0 < ph.duration)

/-- The rise of the commanded speed at the end of a full 100 ms of the ramp count (R120). -/
def State.rampStep (s : State) : State :=
  let acceleration := (s.stirPhase.map (·.acceleration)).getD 0
  (s.withStir { s.stir with
    rampCount := 0, commanded := min s.stir.target (s.stir.commanded + 10 * acceleration) }).handSpin

/-- Whether the stir ramp runs (R120): the commanded speed below the target and no reversal pending. -/
def State.ramping (s : State) : Bool := decide (s.stir.commanded < s.stir.target) && !s.stir.reversal

/-- R122's end of the wait at a MOTOR sample below the stop threshold: the direction becomes that of the phase then
current (log 19: unchanged with no pattern running), SPIN handed if it changed, and the ramp restarts from 0. -/
def State.endReversal (s : State) : State :=
  let dir := (s.stirPhase.map (·.direction)).getD s.stir.direction
  let st' := { s.stir with reversal := false, direction := dir, rampCount := 0 }
  if s.stir.direction ≠ dir then (s.withStir st').handSpin else s.withStir st'

end Sys2Proof.Machine
end

