-- ==== Sys2Proof/Machine/Lock.lean ====
section
/-! DEFINITION. The lock controller (chapter 8): requests, and the unlock conditions. What ends an ENTRY phase of the
engine stands in `Machine/LockEvents.lean`, above the engine. -/

namespace Sys2Proof.Machine

/-- A change of the lock state, handed to the stir drive, which computes its target again (R133, R119).
DESIGN CHOICE (log 25): the stir drive has the change before the engine. -/
def State.setLockState (s : State) (st : LockState) : State :=
  (s.withLock { s.lock with state := st }).computeTarget

/-- The engage begins (R134): latch command ENGAGE, state ENGAGING, the operation timer at 0. -/
def State.beginEngage (s : State) : State :=
  let s := s.setLatch .engage
  (s.withLock { s.lock with timer := 0 }).setLockState .engaging

/-- A request of the engine (R134): it replaces the standing request; ENGAGE clears the release wait and engages from
RELEASED; RELEASE in ENGAGED begins the wait. In every other state it is kept standing. -/
def State.lockRequest (s : State) (r : LockRequest) : State :=
  match r with
  | .engage =>
    let s := s.withLock { s.lock with standing := .engage, releaseWait := false }
    if s.lock.state = .released then s.beginEngage else s
  | .release =>
    s.withLock { s.lock with
      standing := .release
      releaseWait := if s.lock.state = .engaged then true else s.lock.releaseWait }

/-- The unlock conditions (R135): the motor stream LIVE with a slow run of 20, and the temperature below the unlock
temperature by food, else by base, else ten minutes without heat. -/
def State.unlockConditions (s : State) : Bool :=
  let motor := s.intake.motor.live && decide (s.stir.slowRun = 20)
  let temperature :=
    if !s.food.faulted then below s.food.value s.limits.unlockTemp
    else if !s.base.faulted then below s.base.value s.limits.unlockTemp
    else decide (600000 ≤ s.lock.coolDown)
  motor && temperature

end Sys2Proof.Machine
end

