-- ==== Sys2Proof/Machine/Engine.lean ====
section
/-! DEFINITION. The step engine and the context pool's part in it (chapters 2 and 3): faults, directions, holds, step
start, step end, resume. -/

namespace Sys2Proof.Machine

/-! ### Faults (R48, R49) -/

/-- The heater direction of IDLE, ENDING and FAULTED (R35, R96). -/
def State.heaterOff (s : State) : State :=
  s.withReg { s.reg with target := 0, setpoint := 0, ramp := 0, rampAccumulator := 0, rampCount := 0 }

/-- The ADD reference becomes absent (R81). -/
def State.clearReference (s : State) : State := s.withWeigh { s.weigh with addReference := none }

/-- The engine's own copies of a step in progress at the values of no step (R34, R40, R41, R48). -/
def Engine.noStep (e : Engine) : Engine :=
  { e with phase := .none, sub := .none, elapsed := 0, limitElapsed := 0, reached := false }

/-- The directions of a state with no step in progress (Table 2-4: IDLE, ENDING, FAULTED): heater 0, stir 0, release.
DEDUCED (log 36): the release is handed at every entry to these states, also where the lock has it already. -/
def State.restOutputs (s : State) : State := s.heaterOff.stirZero.lockRequest .release

/-- A fault is raised (R48; R49 while FAULTED). DESIGN CHOICE (log 52), unsafe: a LOCK_BREACH raised while FAULTED hands no
RELEASE request (R49), though R137 says that the fault hands one. -/
def State.raiseFault (s : State) (code : FaultCode) : State :=
  if s.engine.state = .faulted then
    if s.engine.further then s else (s.withEngine { s.engine with further := true }).raise .fault
  else
    let e := { s.engine.noStep with state := .faulted, fault := some code, further := false, holds := .empty }
    (s.withEngine e).restOutputs.clearStepSupervision.clearReference.raise .fault

/-! ### Directions in HELD (R35, Table 2-4) -/

/-- The keep-warm value (R35). -/
def State.keepWarmValue (s : State) : Nat :=
  min s.limits.keepWarm (if s.pool.heldRecord.isSome then s.engine.clampedTarget else s.engine.previousTarget)

/-- The heater target of HELD: the keep-warm value while every reason is within PAUSE and STARVED, else 0. -/
def State.heldTarget (s : State) : Nat := if s.engine.holds.gentle then s.keepWarmValue else 0

/-- The directions of HELD, handed at hold entry and at each change of the hold reasons (R35): the heater target as
setpoint without a ramp (log 22), stir 0, release. A target above 0 with the food channel faulted raises FOOD_SENSOR
(R93). -/
def State.heldOutputs (s : State) : State :=
  let t := s.heldTarget
  let s := (s.withReg { s.reg with target := t, setpoint := t, ramp := 0 }).stirZero.lockRequest .release
  if decide (0 < t) && s.food.faulted then s.raiseFault .foodSensor else s

/-! ### Relevance of a stream (R44) -/

/-- The table of R44, for RUNNING and HELD, over the record of the step in progress or of the saved started step. -/
def State.relevantTo (s : State) (k : StreamId) : Bool :=
  match k with
  | .levels => true
  | .zero => false
  | .weigh => match s.recordInProgress with
    | some r => decide (r.kind = .add)
    | none => false
  | .temp => match s.recordInProgress with
    | some _ => decide (0 < s.engine.clampedTarget)
    | none => decide (0 < s.engine.previousTarget)
  | .motor => match s.recordInProgress with
    | some r => r.pattern.isSome
    | none => false

/-- Whether a stream is relevant to the engine's situation (R44): in RUNNING and HELD alone. -/
def State.relevant (s : State) (k : StreamId) : Bool :=
  match s.engine.state with
  | .idle => false
  | .ending => false
  | .faulted => false
  | .running => s.relevantTo k
  | .held => s.relevantTo k

/-- Whether some relevant stream is STALLED. -/
def State.relevantStalled (s : State) : Bool :=
  [StreamId.weigh, .temp, .motor, .levels].any fun k => s.relevant k && !(s.intake.stream k).live

/-! ### Holds (R41, R45) -/

/-- The SUSPEND record of the step in progress (R41, R54). DEDUCED (log 21): the
pattern's phase is 0 for a step without a pattern. DESIGN CHOICE (log 43), unsafe: the ADD reference is copied as it
stands, also where a step in ADD_FILL is held again in ENTRY. -/
def State.suspendRecord (s : State) (reasons : Holds) : HeldRecord :=
  let e := s.engine
  let patterned := s.current.pattern.isSome
  { reasons := reasons, index := e.index, phase := e.phase, sub := e.sub, elapsed := e.elapsed,
    limitElapsed := e.limitElapsed, reached := e.reached, addReference := s.weigh.addReference,
    setpoint := s.reg.setpoint, rampAccumulator := s.reg.rampAccumulator, integrator := s.reg.integrator,
    phaseIndex := if patterned then s.stir.phaseIndex else 0,
    phaseElapsed := if patterned then s.stir.phaseElapsed else 0,
    torqueCount := s.stir.torqueCount, overloadCap := s.stir.overloadCap }

/-- Hold entry from RUNNING (R41): the step is saved, the engine is HELD with the arriving reasons, HELD is raised, and
the directions of HELD are handed. -/
def State.enterHold (s : State) (reasons : Holds) : State :=
  let s := s.withPool (s.pool.save (.held (s.suspendRecord reasons)))
  let s := s.withEngine { s.engine.noStep with state := .held, holds := reasons }
  (s.raise .held).heldOutputs

/-- Hold reasons arrive (R41): from RUNNING the hold is entered; in HELD new reasons are added and reasons already
present change nothing; in any other state they do not reach the engine. -/
def State.addHold (s : State) (reasons : Holds) : State :=
  match s.engine.state with
  | .running => s.enterHold reasons
  | .held =>
    let h := s.engine.holds.union reasons
    if h = s.engine.holds then s else (s.withEngine { s.engine with holds := h }).heldOutputs
  | .idle => s
  | .ending => s
  | .faulted => s

/-- A STARVED hold at pending index `i` (R45). -/
def State.enterStarved (s : State) (i : Nat) : State :=
  let tempStalled := decide (0 < s.engine.previousTarget) && !s.intake.temp.live
  let reasons : Holds := { Holds.empty with
    starved := true, mains := !s.sched.mainsPresent, sensor := !s.intake.levels.live || tempStalled }
  let s := s.withPool (s.pool.save (.starved reasons i))
  let s := s.withEngine { s.engine.noStep with state := .held, index := i, holds := reasons }
  ((s.raise .starved).raise .held).heldOutputs

/-! ### Entry, lock need and ACTIVE (R24 to R26) -/

/-- The lock need of a step (R24). -/
def State.lockNeeded (s : State) (r : StepRecord) : Bool :=
  r.flags.forceLock || decide (s.limits.lidFreeSpeed < s.highestSpeed r)
    || decide (s.limits.lockTemp < s.engine.clampedTarget)

/-- The sub-phase a step takes at its first ACTIVE entry (R26), REACHED for a COOK step with clamped target 0. -/
def firstSubPhase (kind : StepKind) (reached : Bool) : SubPhase :=
  match kind with
  | .cook => if reached then .reached else .approach
  | .add => .addRef
  | .waitUser => .waiting
  | .empty => .none
  | .call => .none
  | .ret => .none
  | .finish => .none

/-- ACTIVE entry (R26): fresh with sub-phase none, else from the restored values. -/
def State.enterActive (s : State) : State :=
  let r := s.current
  if s.engine.sub = .none then
    let hit := s.engine.reached || decide (s.engine.clampedTarget = 0)
    let e := { s.engine with phase := .active, reached := hit, sub := firstSubPhase r.kind hit }
    (s.withEngine e).startPattern r
  else
    (s.withEngine { s.engine with phase := .active }).resumePattern r

/-- The engine acts on the lock need and the lock state (R24), the lock request being Table 2-4's (log 23). -/
def State.decideEntry (s : State) : State :=
  let need := s.lockNeeded s.current
  let s := s.withEngine { s.engine with lockNeed := need }
  if need then
    if s.lock.state = .engaged then (s.lockRequest .engage).enterActive
    else ((s.withEngine { s.engine with phase := .entry }).stirZero).lockRequest .engage
  else (s.lockRequest .release).enterActive

/-! ### Step start (R20 to R23) -/

/-- The heater target and ramp of a timed step start (R22 items 3 and 4, R96). -/
def State.handStepTarget (s : State) (r : StepRecord) (target : Nat) : State :=
  let ramped := decide (0 < r.ramp) && decide (0 < target)
  let integrator := if target = s.engine.previousTarget then s.reg.integrator else 0
  (s.withReg { s.reg with
    integrator := integrator
    target := target
    ramp := if ramped then r.ramp else 0
    setpoint := if ramped then clampInt 0 400 (s.food.value.getD 0) else target
    rampAccumulator := 0
    rampCount := 0 }).withEngine
      { s.engine with clampedTarget := target, previousTarget := target }

/-- The two checks of R22 before a timed step starts. DESIGN CHOICE (log 47), unsafe: where both fail the first is the one
fault raised. -/
def State.startCheck (s : State) (r : StepRecord) : Option FaultCode :=
  let hollow := match r.pattern with
    | none => false
    | some p => decide ((s.pattern p).count = 0)
  if hollow then some .patternEmpty
  else if r.kind = .add && s.cal.gain = 0 then some .uncalibrated
  else none

/-- R22 item 6: an ANNOUNCE step raises STEP and is recorded as the last announced step. -/
def State.announceStep (s : State) (r : StepRecord) (i : Nat) : State :=
  if r.flags.announce then
    (s.withReport { s.report with lastAnnounced := some i }).raise .step
  else s

/-- The standing hold conditions at a timed step start (R23). -/
def State.standingHolds (s : State) : Holds :=
  { Holds.empty with mains := !s.sched.mainsPresent, sensor := s.relevantStalled }

/-- A timed step start at index `i` (R22), with the record found there. -/
def State.startTimed (s : State) (i : Nat) (r : StepRecord) : State :=
  let s := s.withEngine { s.engine with index := i }
  match s.startCheck r with
  | some code => s.raiseFault code
  | none =>
    let s := (s.withEngine { s.engine with state := .running, holds := .empty }).handStepTarget r
      (min r.target s.limits.maxFoodTarget)
    if decide (0 < s.reg.target) && s.food.faulted then s.raiseFault .foodSensor
    else
      let s := (s.withEngine s.engine.noStep).clearStepSupervision.clearReference.announceStep r i
      let h := s.standingHolds
      if h = .empty then s.decideEntry
      else (s.withEngine { s.engine with phase := .entry }).enterHold h

/-- ENDING is entered (R47): the outcome, the chain freed, the directions of Table 2-4. -/
def State.enterEnding (s : State) (outcome : RecipeOutcome) : State :=
  let s := s.withPool s.pool.freeAll
  let e := { s.engine.noStep with state := .ending, holds := .empty, recipeOutcome := some outcome }
  (s.withEngine e).restOutputs.clearStepSupervision.clearReference

/-- R58: a CALL save that crosses the warn level raises POOL_LOW. -/
def State.poolLowTest (s : State) (before : Nat) : State :=
  if s.limits.warnLevel < before && s.pool.free.length ≤ s.limits.warnLevel then s.raise .poolLow else s

/-- A number of records no chain of immediate records exceeds (log 12): R21 gives the chain finite, each CALL adding a
context and each RETURN consuming a repeat or a context. -/
def chainFuel : Nat := 2 ^ 200

/-- A step start at index `i` (R20), following immediate records (R21, R57, R59) until a timed step, an EMPTY entry,
END or a fault. -/
def stepStart : Nat → Nat → State → State
  | 0, _, s => s
  | fuel + 1, i, s =>
    if 256 ≤ i then s.raiseFault .stepRange
    else
      let r := s.step i
      let here := s.withEngine { s.engine with index := i }
      match r.kind with
      | .empty => s.enterStarved i
      | .call =>
        if s.pool.depth = s.limits.depthLimit then here.raiseFault .callDepth
        else if s.pool.free.length ≤ 1 then here.raiseFault .callPool
        else
          let saved := here.withPool
            (s.pool.saveCall { returnIndex := i + 1, routine := r.routine, remaining := r.repeats - 1 })
          stepStart fuel r.routine (saved.poolLowTest s.pool.free.length)
      | .ret =>
        match s.pool.chain with
        | [] => here.raiseFault .returnEmpty
        | (slot, .call c) :: rest =>
          if 0 < c.remaining then
            let c' := { c with remaining := c.remaining - 1 }
            stepStart fuel c.routine (here.withPool { s.pool with chain := (slot, .call c') :: rest })
          else stepStart fuel c.returnIndex (here.withPool s.pool.dropCall)
        | (_, .starved _ _) :: _ => here.raiseFault .contextKind
        | (_, .held _) :: _ => here.raiseFault .contextKind
      | .finish => here.enterEnding .completed
      | .cook => s.startTimed i r
      | .add => s.startTimed i r
      | .waitUser => s.startTimed i r

/-- A step start at index `i` with fuel for every chain of immediate records. -/
def State.startStep (s : State) (i : Nat) : State := stepStart chainFuel i s

/-- The step in progress ends with an outcome, and the engine starts the next index (R34). -/
def State.endStep (s : State) (outcome : StepOutcome) : State :=
  let e := { s.engine.noStep with lastOutcome := some outcome }
  ((s.withEngine e).clearStepSupervision.clearReference).startStep (s.engine.index + 1)

/-! ### Resume (R46, R61) -/

/-- The restored values of a held step, handed to the engine, the weighing channel and the regulator (R46). -/
def State.restoreHeld (s : State) (h : HeldRecord) : State :=
  let s := s.withEngine { s.engine with
    state := .running, index := h.index, sub := h.sub, elapsed := h.elapsed, limitElapsed := h.limitElapsed,
    reached := h.reached }
  let s := s.withWeigh { s.weigh with addReference := h.addReference }
  s.withReg { s.reg with
    setpoint := h.setpoint, rampAccumulator := h.rampAccumulator, integrator := h.integrator,
    target := s.engine.clampedTarget, ramp := (s.step h.index).ramp, rampCount := 0 }

/-- The hold set has become empty: the engine resumes (R46). -/
def State.resume (s : State) : State :=
  match s.pool.chain with
  | (_, .starved _ i) :: _ =>
    ((s.withPool s.pool.restore).withEngine { s.engine with state := .running }).startStep i
  | (_, .held h) :: _ =>
    let s := (s.withPool s.pool.restore).restoreHeld h
    if decide (0 < s.reg.target) && s.food.faulted then s.raiseFault .foodSensor
    else (s.restoreStir h).decideEntry
  | (_, .call _) :: _ => s.raiseFault .contextKind
  | [] => s.raiseFault .contextKind

/-- The hold set becomes `h` by a removal (Table 2-6): the engine resumes when it is empty, else the directions of HELD
are handed anew. A removal that changes nothing, or outside HELD, does nothing. -/
def State.keepHolds (s : State) (h : Holds) : State :=
  if s.engine.state ≠ .held || h = s.engine.holds then s
  else
    let s := s.withEngine { s.engine with holds := h }
    if h = .empty then s.resume else s.heldOutputs

/-- Reason LID is removed (R42). -/
def State.dropLid (s : State) : State := s.keepHolds { s.engine.holds with lid := false }

/-- Reason BOWL is removed (R42). -/
def State.dropBowl (s : State) : State := s.keepHolds { s.engine.holds with bowl := false }

/-- Reason MAINS is removed (R43). -/
def State.dropMains (s : State) : State := s.keepHolds { s.engine.holds with mains := false }

/-- Reason SENSOR is removed when every relevant stream is LIVE (R44). -/
def State.dropSensor (s : State) : State :=
  if s.relevantStalled then s else s.keepHolds { s.engine.holds with sensor := false }

/-- Reason STARVED is removed (R16). -/
def State.dropStarved (s : State) : State := s.keepHolds { s.engine.holds with starved := false }

/-! ### What a host command or a bound edge asks of the engine (R37 to R40) -/

/-- PAUSE as the only reason. -/
def Holds.pauseOnly : Holds := { Holds.empty with pause := true }

/-- The effect of PAUSE (R37). -/
def State.pause (s : State) : State := s.addHold .pauseOnly

/-- The effect of RESUME (R38): PAUSE is removed when it is the sole reason. -/
def State.unpause (s : State) : State :=
  if s.engine.state = .held && s.engine.holds = .pauseOnly then s.keepHolds .empty else s

/-- A bound END_STEP edge (R32). -/
def State.endStepEdge (s : State) : State :=
  let r := s.current
  if s.engine.state = .running && (r.condition = some .user || r.flags.userEnd) then s.endStep .completed else s

/-! ### What the engine reports of a held step (R19) -/

/-- The phase, sub-phase, elapsed time and reached flag reported: the SUSPEND record's while HELD with a started step,
else the engine's own (R19, R157). -/
def State.reported (s : State) : Phase × SubPhase × Nat × Bool :=
  match s.engine.state, s.pool.heldRecord with
  | .held, some h => (h.phase, h.sub, h.elapsed, h.reached)
  | _, _ => (s.engine.phase, s.engine.sub, s.engine.elapsed, s.engine.reached)

/-- The setpoint, integrator and overload cap GET_STATE reports: the SUSPEND record's while HELD with a started step (R65),
else those of the regulator (R95) and of the stir drive (R116). DEDUCED (log 49), unsafe: R65's sentence about the held step
goes before R95 and R151, which name the two blocks' values for every state. -/
def State.reportedControl (s : State) : Int × Int × Option Nat :=
  match s.engine.state, s.pool.heldRecord with
  | .held, some h => (h.setpoint, h.integrator, h.overloadCap)
  | _, _ => (s.reg.setpoint, s.reg.integrator, s.stir.overloadCap)

/-- Elapsed milliseconds as reported seconds (R27). -/
def seconds (ms : Nat) : Nat := (roundDiv ms 1000).toNat

end Sys2Proof.Machine
end

