-- ==== Sys2Proof/Machine/LockEvents.lean ====
section
/-! DEFINITION. The lock controller's events above the engine (R134 to R137): the lock becoming ENGAGED, the judgement
of the unlock conditions, the LOCKED edges and the two timeouts. -/

namespace Sys2Proof.Machine

/-- The lock becomes ENGAGED (R134, R137): latch command ENGAGE, the release wait as given, the change handed to the
stir drive and then to the engine, where it ends an ENTRY phase (R25; log 24). -/
def State.lockEngaged (s : State) (wait : Bool) : State :=
  let s := s.setLatch .engage
  let s := (s.withLock { s.lock with releaseWait := wait }).setLockState .engaged
  if s.inEntry then s.enterActive else s

/-- The lock becomes ENGAGED with the release wait true while RELEASE stands (R134). -/
def State.lockEngagedWaiting (s : State) : State := s.lockEngaged (decide (s.lock.standing = .release))

/-- The lock becomes RELEASED with latch command REST (R136, R137). -/
def State.lockReleased (s : State) : State :=
  let s := s.setLatch .rest
  (s.withLock { s.lock with releaseWait := false }).setLockState .released

/-- A release completes (R136): a standing ENGAGE begins an engage at once (R134). -/
def State.releaseCompleted (s : State) : State :=
  let s := s.lockReleased
  if s.lock.standing = .engage then s.beginEngage else s

/-- The release begins (R136). -/
def State.beginRelease (s : State) : State :=
  let s := s.setLatch .release
  (s.withLock { s.lock with timer := 0, releaseWait := false }).setLockState .releasing

/-- A judgement of the unlock conditions (R135, R136): in ENGAGED with the release wait true it may begin the release,
in RELEASING it may abandon it. -/
def State.judgeLock (s : State) : State :=
  match s.lock.state with
  | .engaged => if s.lock.releaseWait && s.unlockConditions then s.beginRelease else s
  | .releasing => if s.unlockConditions then s else s.lockEngagedWaiting
  | .unknown => s
  | .released => s
  | .engaging => s

/-- The LOCKED line rising, or first accepted at 1 (R137, R134). -/
def State.lockedRises (s : State) : State :=
  match s.lock.state with
  | .unknown => s.lockEngagedWaiting
  | .released => s.lockEngagedWaiting
  | .engaging => s.lockEngagedWaiting
  | .engaged => s
  | .releasing => s

/-- The LOCKED line falling, or first accepted at 0 (R137, R136). In ENGAGED the latch has let go: LOCK_LOST is raised
when the engine is RUNNING in ACTIVE with lock need true (R24). DEDUCED (log 37): an edge for which no rule names the state changes nothing. -/
def State.lockedFalls (s : State) : State :=
  match s.lock.state with
  | .unknown =>
    let s := (s.withLock { s.lock with releaseWait := false }).setLockState .released
    if s.lock.standing = .engage then s.beginEngage else s
  | .engaged =>
    let t := s.lockReleased
    if s.active && s.engine.lockNeed then t.raiseFault .lockLost else t
  | .releasing => s.releaseCompleted
  | .released => s
  | .engaging => s

/-- The engage timeout (R134, R25): RELEASED with latch command REST; LOCK_TIMEOUT when the engine is in ENTRY. -/
def State.engageTimedOut (s : State) : State :=
  let entry := s.inEntry
  let s := s.lockReleased
  if entry then s.raiseFault .lockTimeout else s

/-- The release timeout (R136): ENGAGED with latch command ENGAGE and the release wait false; LOCK_STUCK. -/
def State.releaseTimedOut (s : State) : State := (s.raise .lockStuck).lockEngaged false

/-- A HEAT frame with an element on, reported outside rehearsal (R111): the cool-down count restarts, and the
conditions are judged (R135). -/
def State.heatReport (s : State) : State := (s.withLock { s.lock with coolDown := 0 }).judgeLock

end Sys2Proof.Machine
end

