-- ==== Sys2Proof/Machine/LineEvents.lean ====
section
/-! DEFINITION. The input line monitor (R127 to R132): debouncing, fixed actions, bound actions, the capture. -/

namespace Sys2Proof.Machine

/-- Whether a sample equals a debounced level; an unknown level equals no sample (R127). -/
def Level.agrees (l : Level) (sample : Bool) : Bool :=
  match l with
  | .unknown => false
  | .low => !sample
  | .high => sample

/-- The level a sample stands for. -/
def Level.ofSample (sample : Bool) : Level := if sample then .high else .low

/-- One line at a LEVELS arrival (R127): its items before acceptance is judged. -/
def Line.count (x : Line) (sample : Bool) : Line :=
  if x.level.agrees sample then { x with agreement := 0 }
  else if x.candidate = sample then { x with agreement := x.agreement + 1 }
  else { x with candidate := sample, agreement := 1 }

/-- Acceptance (R127): the agreement count has reached D. -/
def Line.accepts (x : Line) (d : Nat) : Bool := decide (0 < x.agreement) && decide (d ≤ x.agreement)

/-- A line after acceptance (R127). -/
def Line.accept (x : Line) : Line := { x with level := .ofSample x.candidate, agreement := 0 }

/-- The LID and PAUSE reasons of R42. -/
def Holds.lidPause : Holds := { Holds.empty with lid := true, pause := true }

/-- The BOWL and PAUSE reasons of R42. -/
def Holds.bowlPause : Holds := { Holds.empty with bowl := true, pause := true }

/-- The fixed action of a rising edge (R129). -/
def State.fixedRise (s : State) (n : LineId) : State :=
  match n with
  | .lid => s.dropLid
  | .locked => s.lockedRises
  | .bowl => s.dropBowl
  | .knob => s
  | .cutout => s.raiseFault .cutout
  | .spare => s

/-- The fixed action of a falling edge (R129). -/
def State.fixedFall (s : State) (n : LineId) : State :=
  match n with
  | .lid => if s.lock.state = .engaged then s.raiseFault .lockBreach else s.addHold .lidPause
  | .locked => s.lockedFalls
  | .bowl => s.addHold .bowlPause
  | .knob => s
  | .cutout => s
  | .spare => s

/-- The capture of R132 for an edge of a line. -/
def State.captureNow (s : State) (n : LineId) (falling : Bool) : Capture :=
  { line := n.number, falling := falling, net := s.weigh.net, stable := s.weigh.stable,
    food := s.food.value.getD 0, foodFault := s.food.faulted, stepIndex := s.engine.index,
    stepElapsed := seconds s.reported.2.2.1 }

/-- A CAPTURE edge (R132). -/
def State.takeCapture (s : State) (n : LineId) (falling : Bool) : State :=
  (s.withLines { s.lines with
    captureOverrun := s.lines.captureOverrun || s.lines.capture.isSome
    capture := some (s.captureNow n falling) }).raise .capture

/-- The binding index of an edge (R130): 2n rising, 2n + 1 falling. -/
def bindingIndex (n : LineId) (falling : Bool) : Nat := 2 * n.number + if falling then 1 else 0

/-- A binding by its index (R130). -/
def Lines.binding (l : Lines) (i : Nat) : Binding := l.bindings[i]?.getD ⟨false, .none⟩

/-- The action of an enabled binding (R131). -/
def State.boundAction (s : State) (a : Action) (n : LineId) (falling : Bool) : State :=
  match a with
  | .none => s
  | .notify => s.raise .edge
  | .pause => (s.raise .edge).pause
  | .resume => (s.raise .edge).unpause
  | .endStep => (s.raise .edge).endStepEdge
  | .capture => (s.raise .edge).takeCapture n falling

/-- The bound action of an edge (R131): an enabled binding records its index as pending and acts. -/
def State.boundEdge (s : State) (n : LineId) (falling : Bool) : State :=
  let i := bindingIndex n falling
  let b := s.lines.binding i
  if b.enable then
    (s.withLines { s.lines with edges := s.lines.edges ||| (1#12 <<< i) }).boundAction b.action n falling
  else s

/-- A rising edge: fixed action, then bound action (R128). -/
def State.rise (s : State) (n : LineId) : State := (s.fixedRise n).boundEdge n false

/-- A falling edge: fixed action, then bound action (R128). -/
def State.fall (s : State) (n : LineId) : State := (s.fixedFall n).boundEdge n true

/-- What an acceptance gives rise to (R128): an edge; from unknown to 0 nothing, but an adoption on LOCKED (R137). -/
def State.accepted (s : State) (n : LineId) (was : Level) (sample : Bool) : State :=
  match was, sample with
  | _, true => s.rise n
  | .high, false => s.fall n
  | .low, false => s
  | .unknown, false => if n = .locked then s.lockedFalls else s

/-- One line of a LEVELS arrival (R127, R128). -/
def State.sampleLine (s : State) (n : LineId) (sample : Bool) : State :=
  let was := (s.lines.line n).level
  let x := (s.lines.line n).count sample
  if x.accepts s.limits.debounce then
    (s.withLines (s.lines.setLine n x.accept)).accepted n was sample
  else s.withLines (s.lines.setLine n x)

/-- A LEVELS sample delivered: the lines in line order, LID first and SPARE last (R127, R128). -/
def State.levelsSample (s : State) (levels : Byte) : State :=
  [LineId.lid, .locked, .bowl, .knob, .cutout, .spare].foldl
    (fun s n => s.sampleLine n (levels.getLsbD n.number)) s

/-- Every agreement count set to 0 (R127). -/
def Lines.clearCounts (l : Lines) : Lines :=
  { l with
    lid := { l.lid with agreement := 0 }, locked := { l.locked with agreement := 0 },
    bowl := { l.bowl with agreement := 0 }, knob := { l.knob with agreement := 0 },
    cutout := { l.cutout with agreement := 0 }, spare := { l.spare with agreement := 0 } }

/-- A LEVELS stall at the monitor (R127). -/
def State.levelsStalled (s : State) : State := s.withLines s.lines.clearCounts

end Sys2Proof.Machine
end

