-- ==== Sys2Proof/Config.lean ====
section
/-! DEFINITION. The free values: what the spec leaves open, as constants with no body, so that nothing can be proved of
their values. Each is applied to the model's counter of choices or to the operand it depends on. -/

namespace Sys2Proof.Config

/-- R113: whether the engine's resume is taken before the scheduler's frame end at a mains return (log 8). -/
opaque resumeFirst : Nat → Bool

/-- The order, as the number of a permutation, in which the expiries of one 1 ms tick are taken (log 2). -/
opaque tickOrder : Nat → Nat

/-- R83 with a latest average outside the range of the zero field (Table 4-2): the zero that is then stored (log 9). -/
opaque zeroBeyondRange : Int → Int

/-- Table 12-6: what the ADD reference bytes of GET_STATE hold while the reference is absent (log 10). -/
opaque absentReference : Nat → Int

/-- Table 12-6: what the last-sequence-number byte of GET_STATE holds while there is none (log 10). -/
opaque absentSequence : Nat → Byte

/-- Table 12-6: what the capture fields of GET_STATE hold while the capture record is absent (log 10). -/
opaque absentCapture : Nat → Machine.Capture

end Sys2Proof.Config
end

