-- ==== Sys2Proof/Machine/Frames.lean ====
section
/-! DEFINITION. Frame formats (chapter 12): the check byte, the codes, the record layouts and the upstream payloads. -/

namespace Sys2Proof.Machine

/-! ### Envelope and check (R159, R160) -/

/-- One shift of the check register (R160). -/
def crcShift (r : Byte) : Byte := if r.getLsbD 7 then (r <<< 1) ^^^ 0x07#8 else r <<< 1

/-- One byte taken into the check register (R160): exclusive-or, then eight shifts. -/
def crcByte (r b : Byte) : Byte :=
  crcShift (crcShift (crcShift (crcShift (crcShift (crcShift (crcShift (crcShift (r ^^^ b))))))))

/-- The check over a run of bytes (R160). -/
def crc (bytes : List Byte) : Byte := bytes.foldl crcByte 0

/-- The check of a frame: over kind, length and payload (R160). -/
def Frame.check (f : Frame) : Byte := crc (f.kind :: byte f.payload.length :: f.payload)

/-- The bytes of a frame on a link (Table 12-1). -/
def Frame.bytes (f : Frame) : List Byte :=
  0xC3#8 :: f.kind :: byte f.payload.length :: (f.payload ++ [f.check])

/-! ### Codes (R163, R164) -/

/-- Step kind codes (Table 12-4). -/
def StepKind.code : StepKind → Nat
  | .empty => 0
  | .cook => 1
  | .add => 2
  | .waitUser => 3
  | .call => 4
  | .ret => 5
  | .finish => 6

/-- Condition codes (Table 12-4), 0 absent. -/
def conditionCode : Option Condition → Nat
  | none => 0
  | some .time => 1
  | some .temp => 2
  | some .weight => 3
  | some .torque => 4
  | some .user => 5

/-- Action codes (Table 12-5). -/
def Action.code : Action → Nat
  | .none => 0
  | .notify => 1
  | .pause => 2
  | .resume => 3
  | .endStep => 4
  | .capture => 5

/-- Engine state codes (R164: the order of Table 2-1). -/
def EngineState.code : EngineState → Nat
  | .idle => 0
  | .running => 1
  | .held => 2
  | .ending => 3
  | .faulted => 4

/-- Phase codes (R164). -/
def Phase.code : Phase → Nat
  | .none => 0
  | .entry => 1
  | .active => 2

/-- Sub-phase codes (R164). -/
def SubPhase.code : SubPhase → Nat
  | .none => 0
  | .approach => 1
  | .reached => 2
  | .addRef => 3
  | .addFill => 4
  | .waiting => 5

/-- Weigh status codes (R164: the order of Table 4-1). -/
def WeighStatus.code : WeighStatus → Nat
  | .valid => 0
  | .noData => 1
  | .overload => 2
  | .gated => 3
  | .stalled => 4
  | .uncalibrated => 5
  | .clamped => 6

/-- Lock state codes (R164: the order of Table 8-4). -/
def LockState.code : LockState → Nat
  | .unknown => 0
  | .released => 1
  | .engaging => 2
  | .engaged => 3
  | .releasing => 4

/-- Fault codes (R164: 1 to 17 in the order of Table 2-7, 0 none). -/
def faultCode : Option FaultCode → Nat
  | none => 0
  | some .stepRange => 1
  | some .callDepth => 2
  | some .callPool => 3
  | some .returnEmpty => 4
  | some .contextKind => 5
  | some .patternEmpty => 6
  | some .uncalibrated => 7
  | some .lockTimeout => 8
  | some .lockBreach => 9
  | some .lockLost => 10
  | some .stall => 11
  | some .overload => 12
  | some .cutout => 13
  | some .foodSensor => 14
  | some .baseOver => 15
  | some .boardOver => 16
  | some .hostLost => 17

/-- Step outcome codes (Table 12-6). -/
def stepOutcomeCode : Option StepOutcome → Nat
  | none => 0
  | some .completed => 1
  | some .limit => 2
  | some .skipped => 3

/-- Recipe outcome codes (R164). -/
def recipeOutcomeCode : Option RecipeOutcome → Nat
  | none => 0
  | some .completed => 1
  | some .stopped => 2

/-- Supervision state codes (Table 12-6). -/
def Supervision.code : Supervision → Nat
  | .disarmed => 0
  | .running => 1
  | .expired => 2

/-- Latch command codes (Table 12-3). -/
def Latch.code : Latch → Nat
  | .rest => 0
  | .engage => 1
  | .release => 2

/-- Direction codes (R161). DESIGN CHOICE (log 39), unsafe: REV is sent as 1; R161 gives 0 as FWD and reads any other value
as REV. -/
def Direction.code : Direction → Nat
  | .fwd => 0
  | .rev => 1

/-- Hold reasons as bits 0 to 5 (R164). -/
def Holds.code (h : Holds) : Nat :=
  bit 0 h.pause + bit 1 h.lid + bit 2 h.bowl + bit 3 h.mains + bit 4 h.sensor + bit 5 h.starved

/-- The answer statuses in the order of Table 10-2. -/
inductive Status where
  | ok | busy | isProtected | badField | badFrame | notReady | unstable | range | locked | holdCause | notHeld | held
  | noTimer | stillPresent
deriving DecidableEq, Repr

/-- Status codes (R164). -/
def Status.code : Status → Nat
  | .ok => 0
  | .busy => 1
  | .isProtected => 2
  | .badField => 3
  | .badFrame => 4
  | .notReady => 5
  | .unstable => 6
  | .range => 7
  | .locked => 8
  | .holdCause => 9
  | .notHeld => 10
  | .held => 11
  | .noTimer => 12
  | .stillPresent => 13

/-! ### Records (Table 12-4, Table 12-5) -/

/-- A step record as bytes (Table 12-4). -/
def StepRecord.encode (r : StepRecord) : List Byte :=
  [byte r.kind.code,
   byte (bit 0 r.flags.announce + bit 1 r.flags.userEnd + bit 2 r.flags.forceLock + bit 3 r.flags.atTemp)]
    ++ word r.target ++ [byte r.ramp, byte (r.pattern.getD 255)] ++ word r.duration ++ [byte (conditionCode r.condition)]
    ++ word r.limit ++ word r.amount ++ [byte r.tolerance, byte r.routine, byte r.repeats]

/-- One phase of a pattern as bytes (Table 12-5). -/
def StirPhase.encode (p : StirPhase) : List Byte :=
  word p.speed ++ [byte p.direction.code, byte p.duration, byte p.acceleration]

/-- A pattern entry as bytes (Table 12-5). -/
def Pattern.encode (p : Pattern) : List Byte :=
  [byte p.count, byte p.loop] ++ (List.range 8).flatMap fun i => (p.phase i).encode

/-- A binding as bytes (Table 12-5). DESIGN CHOICE (log 39), unsafe: a true enable is sent as 1. -/
def Binding.encode (b : Binding) : List Byte := [byte (bit 0 b.enable), byte b.action.code]

/-- The calibration record as bytes (Table 12-5). -/
def Calibration.encode (c : Calibration) : List Byte :=
  tripleInt c.zero ++ word c.gain ++ [byteInt c.drift] ++ wordInt c.tcal
    ++ [byte c.blockLength, byte c.band, byte c.countM] ++ word c.gateSpeed

/-- The limits record as bytes (Table 12-5). DESIGN CHOICE (log 39), unsafe: a true exclusive is sent as 1. -/
def Limits.encode (l : Limits) : List Byte :=
  [l.maxFoodTarget, l.keepWarm, l.lockTemp, l.unlockTemp, l.baseLimit, l.boardDerate, l.boardLimit, l.lidFreeSpeed,
    l.hotCapTemp, l.hotCapSpeed, l.maxSpeed, l.stopThreshold, l.overloadCurrent, l.readingInterval,
    l.lockTimeout].flatMap word
  ++ [l.band, l.derateBand, l.hardMargin, l.frameLength, l.startB, l.windowB, l.startS, l.windowS,
    bit 0 l.exclusive, l.kp, l.ki, l.depthLimit, l.warnLevel, l.debounce].map byte

/-! ### Drive frames (Table 12-3) -/

/-- A drive frame in its envelope's fields (R162). -/
def DriveFrame.frame : DriveFrame → Frame
  | .heat h => ⟨0x11, [byte h.position, byte (bit 0 h.b + bit 1 h.s)]⟩
  | .spin speed dir => ⟨0x12, word speed ++ [byte dir.code]⟩
  | .latch c => ⟨0x13, [byte c.code]⟩
  | .pass payload => ⟨0x14, payload⟩

/-! ### Upstream payloads (R164) -/

/-- A flow frame (Table 12-2). The worked example of the check sends GO with length 0. DESIGN CHOICE (log 54), unsafe: WAIT is
sent with no payload too. -/
def Flow.frame : Flow → Frame
  | .wait => ⟨0x2E, []⟩
  | .go => ⟨0x2F, []⟩

/-- An ANSWER frame: tag, status and content (R164). -/
def answerFrame (tag : Byte) (status : Status) (content : List Byte) : Frame :=
  ⟨0x33, tag :: byte status.code :: content⟩

/-- The NOTICE frame built from the state (R156, R164). -/
def State.noticeFrame (s : State) : Frame :=
  ⟨0x32, word s.report.pendingSet.toNat
    ++ [byte (faultCode s.engine.fault + bit 7 s.engine.further), byte (recipeOutcomeCode s.engine.recipeOutcome)]
    ++ word (s.report.lastAnnounced.getD 0xFFFF)⟩

/-- READING byte 0 (R164): engine state, phase, sub-phase. -/
def State.engineByte (s : State) : Byte :=
  byte (s.engine.state.code + 8 * s.reported.1.code + 32 * s.reported.2.1.code)

/-- A temperature as reported: none as 0 (R87). -/
def reportedTemp (v : Option Int) : List Byte := wordInt (v.getD 0)

/-- The six line levels, unknown reported as 0 (R128). -/
def Lines.levelBits (l : Lines) : Nat :=
  bit 0 (l.lid.level = .high) + bit 1 (l.locked.level = .high) + bit 2 (l.bowl.level = .high)
    + bit 3 (l.knob.level = .high) + bit 4 (l.cutout.level = .high) + bit 5 (l.spare.level = .high)

/-- Call depth and free count in one byte (R164). -/
def Pool.byte (p : Pool) : Byte := Machine.byte (p.depth + 16 * p.free.length)

/-- The fault flags of food, base and board in bits 0 to 2 (R164). -/
def State.channelFlags (s : State) : Nat := bit 0 s.food.faulted + bit 1 s.base.faulted + bit 2 s.board.faulted

/-- The READING frame built from the state (R157, R164). While HELD with a started step its phase, sub-phase and elapsed time
are the SUSPEND record's (R65, R157); it has no other item that the record holds. -/
def State.readingFrame (s : State) : Frame :=
  ⟨0x31,
    [s.engineByte, byte (s.engine.holds.code + bit 7 s.ctl.rehearsal), byte s.engine.index]
    ++ word (seconds s.reported.2.2.1)
    ++ tripleInt s.weigh.gross ++ tripleInt s.weigh.net ++ tripleInt s.weigh.added
    ++ [byte (s.weigh.status.code + bit 3 s.weigh.stable)]
    ++ reportedTemp s.food.value ++ reportedTemp s.base.value ++ reportedTemp s.board.value
    ++ [byte s.channelFlags, byte s.reg.kB, byte s.reg.kS]
    ++ word s.stir.commanded ++ word s.stir.speed
    ++ [byte s.lock.state.code, byte s.lines.levelBits]
    ++ word s.lines.edges.toNat ++ word s.report.pendingSet.toNat
    ++ [s.pool.byte]⟩

/-- The four bytes of one record in a GET_CHAIN answer (R65, R164). -/
def contextSummary : Nat × Context → List Byte
  | (slot, .call r) =>
    [byte (slot % 16 + bit 6 (256 ≤ r.returnIndex)), byte r.returnIndex, byte r.routine, byte r.remaining]
  | (slot, .starved reasons i) => [byte (slot % 16 + 16), byte i, byte reasons.code, 0]
  | (slot, .held r) => [byte (slot % 16 + 16 + 32), byte r.index, byte r.reasons.code, byte r.phase.code]

/-- The content of a GET_CHAIN answer (R65, R164). -/
def Pool.summary (p : Pool) : List Byte :=
  [Machine.byte p.chain.length, Machine.byte p.depth, Machine.byte p.free.length] ++ p.chain.flatMap contextSummary

/-- The content of a GET_STATE answer (R151, Table 12-6). Fields of an absent reference, sequence number or capture are
free values (log 10). While HELD with a started step the timers, setpoint, integrator and overload cap are the SUSPEND
record's (R65; log 49). DESIGN CHOICE (log 53), unsafe: the signalled state of a GET_STATE whose own taking brings the count to 4 is the one after R149's mark. -/
def State.stateContent (s : State) : List Byte :=
  let e := s.engine
  let w := s.weigh
  let k := s.intake
  let l := s.lines
  let reference := w.addReference.getD (Config.absentReference s.choices)
  let c := l.capture.getD (Config.absentCapture s.choices)
  [s.engineByte, byte e.index,
    byte (e.holds.code + bit 6 s.reported.2.2.2 + bit 7 e.further),
    byte (faultCode e.fault + 32 * recipeOutcomeCode e.recipeOutcome),
    byte (stepOutcomeCode e.lastOutcome + bit 2 s.ctl.rehearsal + bit 3 k.lastSeq.isSome + 16 * w.stability)]
  ++ word (seconds s.reported.2.2.1)
  ++ tripleInt w.gross ++ tripleInt w.net ++ tripleInt w.added ++ tripleInt w.tare ++ tripleInt reference
  ++ [byte (w.status.code + bit 3 w.stable + bit 4 w.tarePending + bit 5 w.addReference.isSome + bit 6 w.gateClosed)]
  ++ reportedTemp s.food.value ++ reportedTemp s.base.value ++ reportedTemp s.board.value
  ++ [byte (s.channelFlags + bit 3 s.food.loaded + bit 4 s.base.loaded + bit 5 s.board.loaded + bit 6 s.reg.baseCut
      + bit 7 s.reg.boardDerate)]
  ++ word s.reg.target ++ wordInt s.reportedControl.1 ++ wordInt s.reportedControl.2.1
  ++ [byte s.reg.lastK, byte s.reg.kB, byte s.reg.kS, byte (s.sched.position + bit 7 s.sched.mainsPresent)]
  ++ word s.stir.commanded ++ word s.stir.speed ++ word (s.reportedControl.2.2.getD 0)
  ++ [byte (l.levelBits + bit 6 (s.stir.direction = .rev) + bit 7 s.stir.reversal),
    byte (s.lock.state.code + bit 3 (!k.weigh.live) + bit 4 (!k.temp.live) + bit 5 (!k.motor.live)
      + bit 6 (!k.levels.live) + bit 7 (!k.zero.live))]
  ++ word (l.edges.toNat + bit 12 l.capture.isSome + bit 13 l.captureOverrun + bit 14 c.falling + bit 15 c.stable)
  ++ [byte (c.line % 8 + bit 3 c.foodFault + 16 * s.ctl.supervision.code)]
  ++ tripleInt c.net ++ wordInt c.food ++ [byte c.stepIndex] ++ word c.stepElapsed
  ++ [s.pool.byte, k.lastSeq.getD (Config.absentSequence s.choices),
    byte (s.ctl.queue.length + bit 5 s.ctl.overrun + bit 6 (s.ctl.signalled = .wait)
      + bit 7 (s.ctl.permission = .wait))]

end Sys2Proof.Machine
end

