-- ==== Sys2Proof/Machine/Operands.lean ====
section
/-! DEFINITION. The operands of the requests decoded from their bytes (R161, R163), and the validation of records. -/

namespace Sys2Proof.Machine

/-- Step kinds by code (Table 12-4); an unknown code has no meaning (R8 item 1). -/
def readKind : Nat → Option StepKind
  | 0 => some .empty
  | 1 => some .cook
  | 2 => some .add
  | 3 => some .waitUser
  | 4 => some .call
  | 5 => some .ret
  | 6 => some .finish
  | _ => none

/-- Conditions by code (Table 12-4), absent as `some none`; an unknown code is out of range (R161). -/
def readCondition : Nat → Option (Option Condition)
  | 0 => some none
  | 1 => some (some .time)
  | 2 => some (some .temp)
  | 3 => some (some .weight)
  | 4 => some (some .torque)
  | 5 => some (some .user)
  | _ => none

/-- The pattern byte (Table 12-4): 0 to 15 or 0xFF absent; any other value is R8 item 6's failure. -/
def readPattern (n : Nat) : Option (Option Nat) :=
  if n < 16 then some (some n) else if n = 255 then some none else none

/-- The flags byte (R5, R8 item 7): a bit other than the four is refused. -/
def readFlags (n : Nat) : Option StepFlags :=
  if n < 16 then
    some { announce := n % 2 = 1, userEnd := n / 2 % 2 = 1, forceLock := n / 4 % 2 = 1, atTemp := n / 8 % 2 = 1 }
  else none

/-- The fields of a step record's 16 bytes (Table 12-4). The routine and repeats bytes carry no field in a kind other
than CALL (R161). -/
def readStep (b : List Byte) : Option StepRecord := do
  let kind ← readKind (byteAt b 0)
  let flags ← readFlags (byteAt b 1)
  let pattern ← readPattern (byteAt b 5)
  let condition ← readCondition (byteAt b 8)
  return {
    kind := kind, flags := flags, target := wordAt b 2, ramp := byteAt b 4, pattern := pattern,
    duration := wordAt b 6, condition := condition, limit := wordAt b 9, amount := wordAt b 11,
    tolerance := byteAt b 13,
    routine := if kind = .call then byteAt b 14 else 0
    repeats := if kind = .call then byteAt b 15 else 0 }

/-- Every field of the timed kinds absent (R8 items 2 and 3). -/
def StepRecord.fieldsAbsent (r : StepRecord) : Bool :=
  decide (r.flags = .none) && r.target == 0 && r.ramp == 0 && r.pattern.isNone && r.duration == 0
    && r.condition.isNone && r.limit == 0 && r.amount == 0 && r.tolerance == 0

/-- The row of Table 1-3 for a COOK record (R6, R8 items 4, 5 and 8). -/
def StepRecord.validCook (r : StepRecord) : Bool :=
  match r.condition with
  | some .time => decide (0 < r.duration) && r.amount == 0 && r.tolerance == 0
  | some .temp => decide (0 < r.target) && r.duration == 0 && r.amount == 0 && r.tolerance == 0 && !r.flags.atTemp
  | some .torque =>
    r.pattern.isSome && decide (0 < r.amount) && r.duration == 0 && !r.flags.atTemp && decide (0 < r.tolerance)
  | some .user => r.duration == 0 && r.amount == 0 && r.tolerance == 0 && !r.flags.atTemp
  | some .weight => false
  | none => false

/-- Structural validation (R8, Table 1-3) of a record whose kind, flags, pattern and condition are in range. -/
def StepRecord.valid (r : StepRecord) : Bool :=
  match r.kind with
  | .empty => r.fieldsAbsent
  | .ret => r.fieldsAbsent
  | .finish => r.fieldsAbsent
  | .call => r.fieldsAbsent && decide (0 < r.repeats)
  | .cook => r.validCook
  | .add => decide (r.condition = some .weight) && decide (0 < r.amount) && r.duration == 0 && !r.flags.atTemp
  | .waitUser =>
    decide (r.condition = some .user) && r.duration == 0 && r.amount == 0 && r.tolerance == 0 && !r.flags.atTemp

/-- The record as stored: a target above 400 is stored as 400 (R4). -/
def StepRecord.stored (r : StepRecord) : StepRecord := { r with target := min r.target 400 }

/-- A phase direction byte (R161): 0 FWD, any other value REV. -/
def readDirection (n : Nat) : Direction := if n = 0 then .fwd else .rev

/-- The phase of a pattern entry at bytes `i` to `i + 4` (Table 12-5). -/
def readPhase (b : List Byte) (i : Nat) : StirPhase :=
  { speed := wordAt b i, direction := readDirection (byteAt b (i + 2)), duration := byteAt b (i + 3),
    acceleration := byteAt b (i + 4) }

/-- The fields of a pattern entry's 42 bytes (Table 12-5). -/
def readPatternEntry (b : List Byte) : Pattern :=
  { count := byteAt b 0, loop := byteAt b 1, phases := .ofFn fun i => readPhase b (2 + 5 * i.val) }

/-- A phase in use within its ranges (Table 7-1). -/
def StirPhase.valid (p : StirPhase) : Bool := decide (p.speed ≤ 10000) && decide (1 ≤ p.acceleration)

/-- The ranges of R115 item 3, the index apart. -/
def Pattern.valid (p : Pattern) : Bool :=
  decide (p.count ≤ 8) && (if p.count = 0 then p.loop == 0 else decide (p.loop < p.count))
    && (List.range p.count).all fun i => (p.phase i).valid

/-- Binding actions by code (Table 12-5). -/
def readAction : Nat → Option Action
  | 0 => some .none
  | 1 => some .notify
  | 2 => some .pause
  | 3 => some .resume
  | 4 => some .endStep
  | 5 => some .capture
  | _ => none

/-- The fields of a calibration record's 13 bytes (Table 12-5). -/
def readCalibration (b : List Byte) : Calibration :=
  { zero := signed 24 (tripleAt b 0), gain := wordAt b 3, drift := signed 8 (byteAt b 5),
    tcal := signed 16 (wordAt b 6), blockLength := byteAt b 8, band := byteAt b 9, countM := byteAt b 10,
    gateSpeed := wordAt b 11 }

/-- The ranges of Table 4-2 (R68 item 4); zero, gain and drift fill their fields. -/
def Calibration.valid (c : Calibration) : Bool :=
  inRange (-100) 600 c.tcal && [4, 8, 16, 32].contains c.blockLength && decide (1 ≤ c.band)
    && decide (2 ≤ c.countM) && decide (c.countM ≤ 15) && decide (c.gateSpeed ≤ 10000)

/-- The fields of a limits record's 44 bytes (Table 12-5). -/
def readLimits (b : List Byte) : Limits :=
  { maxFoodTarget := wordAt b 0, keepWarm := wordAt b 2, lockTemp := wordAt b 4, unlockTemp := wordAt b 6,
    baseLimit := wordAt b 8, boardDerate := wordAt b 10, boardLimit := wordAt b 12, lidFreeSpeed := wordAt b 14,
    hotCapTemp := wordAt b 16, hotCapSpeed := wordAt b 18, maxSpeed := wordAt b 20, stopThreshold := wordAt b 22,
    overloadCurrent := wordAt b 24, readingInterval := wordAt b 26, lockTimeout := wordAt b 28,
    band := byteAt b 30, derateBand := byteAt b 31, hardMargin := byteAt b 32, frameLength := byteAt b 33,
    startB := byteAt b 34, windowB := byteAt b 35, startS := byteAt b 36, windowS := byteAt b 37,
    exclusive := byteAt b 38 ≠ 0, kp := byteAt b 39, ki := byteAt b 40, depthLimit := byteAt b 41,
    warnLevel := byteAt b 42, debounce := byteAt b 43 }

/-- The ranges of the limits record (Tables 5-3, 6-2, 7-3, 8-2, R55, R105, R151). -/
def Limits.valid (l : Limits) : Bool :=
  decide (l.maxFoodTarget ≤ 400) && decide (l.keepWarm ≤ 400) && decide (l.lockTemp ≤ 400)
    && decide (l.unlockTemp ≤ 400) && decide (l.baseLimit ≤ 1200) && decide (l.boardDerate ≤ 1200)
    && decide (l.boardLimit ≤ 1200) && decide (l.lidFreeSpeed ≤ 10000) && decide (l.hotCapTemp ≤ 400)
    && decide (l.hotCapSpeed ≤ 10000) && decide (l.maxSpeed ≤ 10000)
    && decide (1 ≤ l.stopThreshold) && decide (l.stopThreshold ≤ 1000) && decide (1 ≤ l.overloadCurrent)
    && decide (50 ≤ l.readingInterval) && decide (l.readingInterval ≤ 1000)
    && decide (100 ≤ l.lockTimeout) && decide (l.lockTimeout ≤ 10000)
    && decide (l.band ≤ 40) && decide (1 ≤ l.derateBand)
    && decide (10 ≤ l.frameLength) && decide (l.frameLength ≤ 100)
    && decide (l.startB < l.frameLength) && decide (1 ≤ l.windowB) && decide (l.windowB ≤ l.frameLength)
    && decide (l.startS < l.frameLength) && decide (1 ≤ l.windowS) && decide (l.windowS ≤ l.frameLength)
    && decide (1 ≤ l.depthLimit) && decide (l.depthLimit ≤ 15) && decide (l.warnLevel ≤ 11)
    && decide (1 ≤ l.debounce) && decide (l.debounce ≤ 8)

end Sys2Proof.Machine
end

