-- ==== Sys2Proof/Machine/Weighing.lean ====
section
/-! DEFINITION. The weighing channel (chapter 4): gate, block, output, tare, calibration. -/

namespace Sys2Proof.Machine

/-- The ends of the weight range (R75). -/
def clampWeight (x : Int) : Int := clampInt (-20000) 80000 x

/-- The current block discarded and the stability test restarted (R70, R71, R72, R82, R85). -/
def Weigh.discard (w : Weigh) : Weigh :=
  { w with blockSum := 0, blockCount := 0, stability := 0, stable := false, anchor := none }

/-- The base temperature of the drift correction (R73): Tcal before the base channel has a good value. -/
def State.driftBase (s : State) : Int := s.base.value.getD s.cal.tcal

/-- The average of a block sum over N samples (R73). -/
def blockAverage (sum : Int) (n : Nat) : Int := roundDiv sum n

/-- The drift correction c (R73): half the drift field times the base's distance from Tcal, rounded. -/
def driftCorrection (drift tb tcal : Int) : Int := roundDiv (drift * (tb - tcal)) 2

/-- The unclamped gross (R74). -/
def rawGross (average zero : Int) (gain : Nat) : Int := roundDiv ((average - zero) * gain) 65536

/-- The stability test on value `v` (R76). -/
def Weigh.judgeStable (w : Weigh) (c : Calibration) (v : Int) : Weigh :=
  match w.anchor with
  | none => { w with anchor := some v, stability := 0, stable := decide (c.countM ≤ 0) }
  | some a =>
    if (v - a).natAbs ≤ c.band then
      let n := min (w.stability + 1) c.countM
      { w with stability := n, stable := decide (c.countM ≤ n) }
    else { w with anchor := some v, stability := 0, stable := decide (c.countM ≤ 0) }

/-- The pending tare at an output with gross `g` (R80). -/
def Weigh.takeTare (w : Weigh) (g : Int) : Weigh :=
  if w.tarePending && w.stable then { w with tare := g, tarePending := false } else w

/-- Net, added and status of an output whose unclamped gross is `raw` (R74, R75). -/
def Weigh.report (w : Weigh) (raw : Int) : Weigh :=
  let g := clampWeight raw
  let net := g - w.tare
  let added := match w.addReference with
    | none => 0
    | some a => g - a
  let clamped := decide (clampWeight raw ≠ raw) || decide (clampWeight net ≠ net) || decide (clampWeight added ≠ added)
  { w with
    gross := g, net := clampWeight net, added := clampWeight added
    status := if clamped then .clamped else .valid }

/-- Whether the engine waits in ADD_REF for a reference (R30, R81). -/
def State.inAddRef (s : State) : Bool :=
  s.active && decide (s.current.kind = .add) && decide (s.engine.sub = .addRef)

/-- Whether the engine judges the added weight (R30). -/
def State.inAddFill (s : State) : Bool :=
  s.active && decide (s.current.kind = .add) && decide (s.engine.sub = .addFill)

/-- The engine takes an output in ADD_FILL (R30): completion, with OVERFILL above amount plus tolerance. DESIGN CHOICE
(log 55), unsafe: with amount less tolerance at or below 0 and an added weight below it, the step goes on. -/
def State.judgeFill (s : State) : State :=
  let r := s.current
  if s.weigh.stable && decide ((r.amount : Int) - r.tolerance ≤ s.weigh.added) then
    let s := if (r.amount : Int) + r.tolerance < s.weigh.added then s.raise .overfill else s
    s.endStep .completed
  else s

/-- The stages of an output with a gross (Table 4-3, from gross on): stability, pending tare, ADD reference, net and
added, delivery to the engine. -/
def State.formWeight (s : State) (raw : Int) : State :=
  let g := clampWeight raw
  let w := (s.weigh.judgeStable s.cal g).takeTare g
  let taken := s.inAddRef && w.stable
  let fill := s.inAddFill
  let w := if taken then { w with addReference := some g } else w
  let s := s.withWeigh (w.report raw)
  let s := if taken then s.withEngine { s.engine with sub := .addFill } else s
  if fill then s.judgeFill else s

/-- One output formed from a complete block (R73, R74, Table 4-3). -/
def State.formOutput (s : State) (sum : Int) : State :=
  let a := blockAverage sum s.cal.blockLength - driftCorrection s.cal.drift s.driftBase s.cal.tcal
  let s := s.withWeigh { s.weigh with blockSum := 0, blockCount := 0, average := a }
  if s.cal.gain = 0 then
    s.withWeigh { s.weigh.judgeStable s.cal a with status := .uncalibrated }
  else s.formWeight (rawGross a s.cal.zero s.cal.gain)

/-- A sample the gate lets pass (R69, R70): saturated, or added to the block. -/
def State.takeSample (s : State) (r : Int) : State :=
  if r = -8388608 ∨ r = 8388607 then
    s.withWeigh { s.weigh.discard with status := .overload }
  else
    let sum := s.weigh.blockSum + r
    let count := s.weigh.blockCount + 1
    if s.cal.blockLength ≤ count then s.formOutput sum
    else s.withWeigh { s.weigh with blockSum := sum, blockCount := count }

/-- A WEIGH sample delivered (R69, R71). -/
def State.weighSample (s : State) (r : Int) : State :=
  if s.cal.gateSpeed < s.stir.speed then
    if s.weigh.gateClosed then s
    else s.withWeigh { s.weigh.discard with gateClosed := true, status := .gated }
  else (s.withWeigh { s.weigh with gateClosed := false }).takeSample r

/-- A sequence gap at the weighing channel (R72). -/
def State.weighGap (s : State) : State := s.withWeigh s.weigh.discard

/-- A WEIGH stall at the weighing channel (R72). -/
def State.weighStalled (s : State) : State := s.withWeigh { s.weigh.discard with status := .stalled }

/-- A calibration change (R82). -/
def State.calibrationChange (s : State) : State :=
  s.withWeigh { s.weigh.discard with status := .noData, tarePending := false }

end Sys2Proof.Machine
end

