-- ==== Sys2Proof/Machine/TableRequests.lean ====
section
/-! DEFINITION. The table requests at their taking: step table (R7, R11, R16), ENTRY_WRITE and ENTRY_READ of every
table, GET_STATE and GET_CHAIN. `body` is what follows the tag, and for an ENTRY request the table code too. -/

namespace Sys2Proof.Machine

/-- An answer is appended to the answer lane (R150, R158). -/
def State.answer (s : State) (tag : Byte) (status : Status) (content : List Byte) : State :=
  s.withReport { s.report with answers := s.report.answers ++ [answerFrame tag status content] }

/-- An accepted STEP_WRITE informs the engine (R16): a record other than EMPTY at the pending index of a STARVED hold
removes STARVED. -/
def State.starvedWrite (s : State) (i : Nat) (kind : StepKind) : State :=
  if s.engine.state = .held && s.engine.holds.starved && s.pool.pendingIndex = some i && kind ≠ .empty then
    s.dropStarved
  else s

/-- STEP_WRITE (R7, R8, R12, R16). -/
def takeStepWrite (tag : Byte) (body : List Byte) (s : State) : State :=
  if body.length ≠ 17 then s.answer tag .badFrame []
  else
    let i := byteAt body 0
    if s.stepInProgress = some i then s.answer tag .isProtected []
    else match readStep (body.drop 1) with
      | none => s.answer tag .badField []
      | some r =>
        if r.valid then ((s.storeStep i r.stored).answer tag .ok []).starvedWrite i r.kind
        else s.answer tag .badField []

/-- STEP_READ (R11). -/
def takeStepRead (tag : Byte) (body : List Byte) (s : State) : State :=
  if body.length ≠ 1 then s.answer tag .badFrame []
  else
    let i := byteAt body 0
    s.answer tag .ok (byte i :: (s.step i).encode)

/-- The channel of a linearization table (R88). -/
def State.linChannel (s : State) : LinTable → Channel
  | .lin0 => s.base
  | .lin1 => s.food
  | .lin2 => s.board

/-- The state with the channel of a linearization table replaced. -/
def State.setLinChannel (s : State) (t : LinTable) (c : Channel) : State :=
  match t with
  | .lin0 => s.withBase c
  | .lin1 => s.withFood c
  | .lin2 => s.withBoard c

/-- The code of a linearization table (R163). -/
def linCode : LinTable → Byte
  | .lin0 => 0
  | .lin1 => 1
  | .lin2 => 2

/-- A point written (R88 item 4): its index joins the written set; with all 33 the table is loaded, and stays so. -/
def Channel.writePoint (c : Channel) (i : Nat) (v : Int) : Channel :=
  let written := c.written.setIfInBounds i true
  { c with
    points := c.points.setIfInBounds i v, written := written, loaded := c.loaded || written.toList.all (fun x => x) }

/-- ENTRY_WRITE to LIN0, LIN1 or LIN2 (R88). -/
def takeWriteLin (tag : Byte) (t : LinTable) (body : List Byte) (s : State) : State :=
  if body.length ≠ 3 then s.answer tag .badFrame []
  else if s.engine.state ≠ .idle then s.answer tag .busy []
  else
    let i := byteAt body 0
    let v := signed 16 (wordAt body 1)
    if 32 < i ∨ !inRange (-200) 1200 v then s.answer tag .badField []
    else (s.setLinChannel t ((s.linChannel t).writePoint i v)).answer tag .ok []

/-- ENTRY_READ of LIN0, LIN1 or LIN2 (R89, R164). -/
def takeReadLin (tag : Byte) (t : LinTable) (body : List Byte) (s : State) : State :=
  if body.length ≠ 1 then s.answer tag .badFrame []
  else
    let i := byteAt body 0
    if 32 < i then s.answer tag .badField []
    else
      let c := s.linChannel t
      let v := c.points[i]?.getD 0
      s.answer tag .ok (linCode t :: byte i :: (wordInt v ++ [byte (bit 0 (c.written[i]?.getD false))]))

/-- The pattern named by the step in progress (R115 item 2). -/
def State.patternInUse (s : State) : Option Nat := s.recordInProgress.bind (·.pattern)

/-- ENTRY_WRITE to PATTERN (R115). -/
def takeWritePattern (tag : Byte) (body : List Byte) (s : State) : State :=
  if body.length ≠ 43 then s.answer tag .badFrame []
  else
    let i := byteAt body 0
    if s.patternInUse = some i then s.answer tag .isProtected []
    else
      let p := readPatternEntry (body.drop 1)
      if 15 < i ∨ !p.valid then s.answer tag .badField []
      else (s.withPatterns (s.patterns.setIfInBounds i p)).answer tag .ok []

/-- ENTRY_READ of PATTERN (R115). -/
def takeReadPattern (tag : Byte) (body : List Byte) (s : State) : State :=
  if body.length ≠ 1 then s.answer tag .badFrame []
  else
    let i := byteAt body 0
    if 15 < i then s.answer tag .badField []
    else s.answer tag .ok (3 :: byte i :: (s.pattern i).encode)

/-- ENTRY_WRITE to BIND (R130). -/
def takeWriteBind (tag : Byte) (body : List Byte) (s : State) : State :=
  if body.length ≠ 3 then s.answer tag .badFrame []
  else
    let i := byteAt body 0
    match readAction (byteAt body 2) with
    | none => s.answer tag .badField []
    | some a =>
      if 11 < i then s.answer tag .badField []
      else
        let b : Binding := { enable := byteAt body 1 ≠ 0, action := a }
        (s.withLines { s.lines with bindings := s.lines.bindings.setIfInBounds i b }).answer tag .ok []

/-- ENTRY_READ of BIND (R130). -/
def takeReadBind (tag : Byte) (body : List Byte) (s : State) : State :=
  if body.length ≠ 1 then s.answer tag .badFrame []
  else
    let i := byteAt body 0
    if 11 < i then s.answer tag .badField []
    else s.answer tag .ok (4 :: byte i :: (s.lines.bindings[i]?.getD ⟨false, .none⟩).encode)

/-- ENTRY_WRITE to CAL (R68, R82). -/
def takeWriteCal (tag : Byte) (body : List Byte) (s : State) : State :=
  if body.length ≠ 14 then s.answer tag .badFrame []
  else if byteAt body 0 ≠ 0 then s.answer tag .badField []
  else if s.engine.state ≠ .idle then s.answer tag .busy []
  else
    let c := readCalibration (body.drop 1)
    if c.valid then ((s.withCal c).calibrationChange).answer tag .ok [] else s.answer tag .badField []

/-- ENTRY_READ of CAL (R68; any other index is refused, R163). -/
def takeReadCal (tag : Byte) (body : List Byte) (s : State) : State :=
  if body.length ≠ 1 then s.answer tag .badFrame []
  else if byteAt body 0 ≠ 0 then s.answer tag .badField []
  else s.answer tag .ok (5 :: 0 :: s.cal.encode)

/-- The frame and window fields whose change ends the frame in progress (R105). -/
def Limits.layout (l : Limits) : List Nat := [l.frameLength, l.startB, l.windowB, l.startS, l.windowS]

/-- The limits record replaced whole, each block applying its changes: the cycle position (R105), the agreement counts
(R127), the reading count (R157). DESIGN CHOICE (log 46), unsafe: no judgement of the unlock conditions is made here. -/
def State.replaceLimits (s : State) (l : Limits) : State :=
  let old := s.limits
  let s := s.withLimits l
  let s := if l.layout = old.layout then s else s.withSched { s.sched with position := l.frameLength - 1 }
  let s := if l.debounce = old.debounce then s else s.withLines s.lines.clearCounts
  if l.readingInterval = old.readingInterval then s else s.withReport { s.report with readingCount := 0 }

/-- ENTRY_WRITE to LIMITS (R151, R105). -/
def takeWriteLimits (tag : Byte) (body : List Byte) (s : State) : State :=
  if body.length ≠ 45 then s.answer tag .badFrame []
  else if byteAt body 0 ≠ 0 then s.answer tag .badField []
  else if s.engine.state ≠ .idle then s.answer tag .busy []
  else
    let l := readLimits (body.drop 1)
    if l.valid then (s.replaceLimits l).answer tag .ok [] else s.answer tag .badField []

/-- ENTRY_READ of LIMITS (R151). -/
def takeReadLimits (tag : Byte) (body : List Byte) (s : State) : State :=
  if body.length ≠ 1 then s.answer tag .badFrame []
  else if byteAt body 0 ≠ 0 then s.answer tag .badField []
  else s.answer tag .ok (6 :: 0 :: s.limits.encode)

/-- GET_STATE (R151, R164). The model's counter moves on, so that no two answers share a free value (log 10). -/
def takeGetState (tag : Byte) (body : List Byte) (s : State) : State :=
  if body.length ≠ 0 then s.answer tag .badFrame []
  else (s.answer tag .ok s.stateContent).withChoices (s.choices + 1)

/-- GET_CHAIN (R65). -/
def takeGetChain (tag : Byte) (body : List Byte) (s : State) : State :=
  if body.length ≠ 0 then s.answer tag .badFrame []
  else s.answer tag .ok s.pool.summary

end Sys2Proof.Machine
end

