-- ==== Sys2Proof/Machine/Reset.lean ====
section
/-! DEFINITION. The soft reset of every block (R154 items 1 to 3, with each chapter's soft-reset column) and the power-on
reset. -/

namespace Sys2Proof.Machine

/-- A frame placed in the flow slot (R149): it cancels an opposite frame still unsent. -/
def Control.placeFlow (c : Control) (f : Flow) : Control :=
  match c.flowSlot with
  | none => { c with flowSlot := some f }
  | some g => if g = f then { c with flowSlot := some f } else { c with flowSlot := none }

/-- Signalled GO, with a GO frame placed, when WAIT was signalled (R149, R154). -/
def Control.signalGo (c : Control) : Control :=
  if c.signalled = .wait then ({ c with signalled := .go }).placeFlow .go else c

/-- The interface at a soft reset (R154 item 1, Table 10-1). -/
def Control.softReset (c : Control) : Control :=
  { c.signalGo with
    queue := [], overrun := false, rehearsal := false
    supervision := if c.supervision = .disarmed then .disarmed else .running
    supervisionCount := 0, quietCount := 0, quietRaised := false }

/-- The weighing channel at a soft reset (R85). -/
def Weigh.softReset (w : Weigh) : Weigh :=
  { w.discard with gateClosed := false, status := .noData, addReference := none, tarePending := false }

/-- The stir drive at a soft reset (Table 7-2): direction, last nonzero direction and reversal pending are kept. -/
def Stir.softReset (st : Stir) : Stir :=
  { Stir.reset with direction := st.direction, lastDirection := st.lastDirection, reversal := st.reversal }

/-- The input line monitor at a soft reset (R127, R130, R131, R132). -/
def Lines.softReset (l : Lines) : Lines :=
  { l.clearCounts with edges := 0, capture := none, captureOverrun := false }

/-- The report unit at a soft reset (R154 item 3, R156, R157): lanes emptied, only RESTART pending and announced. -/
def Report.softReset (r : Report) : Report := { Report.reset with sending := r.sending }

/-- Every block at a soft reset (R154). The stir drive hands SPIN 0 (R116; log 28) and the lock takes the RELEASE of the
engine's entry to IDLE (R137). DESIGN CHOICE (log 46), unsafe: a lock RELEASING is not judged here. -/
def State.softReset (s : State) : State :=
  let s := s.withCtl s.ctl.softReset
  let s := (s.withEngine .reset).withPool .rebuilt
  let s := (s.withWeigh s.weigh.softReset).withReg .reset
  let s := s.withSched { s.sched with kB := 0, kS := 0 }
  let s := (s.withStir s.stir.softReset).handSpin
  let s := s.withLines s.lines.softReset
  let s := s.withIntake { s.intake with lastSeq := none }
  let s := s.withDrive { s.drive with passQueue := [] }
  let s := (s.withLock { s.lock with releaseWait := false }).lockRequest .release
  s.withReport s.report.softReset

/-- Power-on reset (R19 and every block's power-on column): the commands that wait outside the block, and the model's own
counter of choices, are no state of the block and stay (DESIGN CHOICE, log 29). -/
def State.powerOn (s : State) : State := (State.reset.withPending s.pending).withChoices s.choices

end Sys2Proof.Machine
end

