-- ==== Sys2Proof/Machine/DoRequests.lean ====
section
/-! DEFINITION. The sixteen DO commands at their taking (R152). `arg` is what follows the command word; an argument of
the wrong length is refused BAD_FRAME. -/

namespace Sys2Proof.Machine

/-- Readiness for DO START (R36). -/
def State.ready (s : State) : Bool :=
  s.base.loaded && s.food.loaded && s.board.loaded && decide (s.lines.lid.level = .high)
    && decide (s.lines.bowl.level = .high) && !s.causePresent

/-- DO START (R36). -/
def takeStart (tag : Byte) (arg : List Byte) (s : State) : State :=
  if arg.length ≠ 1 then s.answer tag .badFrame []
  else if s.engine.state ≠ .idle then s.answer tag .busy []
  else if !s.ready then s.answer tag .notReady []
  else
    let s := s.answer tag .ok []
    let e := { s.engine with lastOutcome := none, recipeOutcome := none, previousTarget := 0 }
    (s.withEngine e).startStep (byteAt arg 0)

/-- DO PAUSE (R37). -/
def takePause (tag : Byte) (arg : List Byte) (s : State) : State :=
  if arg.length ≠ 0 then s.answer tag .badFrame []
  else match s.engine.state with
    | .running => (s.answer tag .ok []).pause
    | .held => (s.answer tag .ok []).pause
    | .idle => s.answer tag .busy []
    | .ending => s.answer tag .busy []
    | .faulted => s.answer tag .busy []

/-- DO RESUME (R38). -/
def takeResume (tag : Byte) (arg : List Byte) (s : State) : State :=
  if arg.length ≠ 0 then s.answer tag .badFrame []
  else if s.engine.state ≠ .held then s.answer tag .notHeld []
  else if s.engine.holds = .pauseOnly then (s.answer tag .ok []).unpause
  else s.answer tag .holdCause []

/-- DO SKIP (R39). -/
def takeSkip (tag : Byte) (arg : List Byte) (s : State) : State :=
  if arg.length ≠ 0 then s.answer tag .badFrame []
  else match s.engine.state with
    | .running => (s.answer tag .ok []).endStep .skipped
    | .held => s.answer tag .held []
    | .idle => s.answer tag .busy []
    | .ending => s.answer tag .busy []
    | .faulted => s.answer tag .busy []

/-- DO STOP (R40). -/
def takeStop (tag : Byte) (arg : List Byte) (s : State) : State :=
  if arg.length ≠ 0 then s.answer tag .badFrame []
  else match s.engine.state with
    | .running => (s.answer tag .ok []).enterEnding .stopped
    | .held => (s.answer tag .ok []).enterEnding .stopped
    | .idle => s.answer tag .busy []
    | .ending => s.answer tag .busy []
    | .faulted => s.answer tag .busy []

/-- The record EXTEND leaves (R14), or none where there is nothing to extend. -/
def StepRecord.extended (r : StepRecord) (seconds : Nat) : Option StepRecord :=
  if r.condition = some .time then some { r with duration := min (r.duration + seconds) 65535 }
  else if 0 < r.limit then some { r with limit := min (r.limit + seconds) 65535 }
  else none

/-- DO EXTEND (R14). DEDUCED (log 30): with nothing to extend the answer is NO_TIMER, whatever the seconds. -/
def takeExtend (tag : Byte) (arg : List Byte) (s : State) : State :=
  if arg.length ≠ 2 then s.answer tag .badFrame []
  else match s.stepInProgress with
    | none => s.answer tag .noTimer []
    | some i => match (s.step i).extended (wordAt arg 0) with
      | none => s.answer tag .noTimer []
      | some r => (s.storeStep i r).answer tag .ok []

/-- DO TARE (R79). -/
def takeTare (tag : Byte) (arg : List Byte) (s : State) : State :=
  if arg.length ≠ 0 then s.answer tag .badFrame []
  else if s.cal.gain = 0 then s.answer tag .notReady []
  else if s.weigh.stable then
    (s.withWeigh { s.weigh with tare := s.weigh.gross, tarePending := false, net := 0 }).answer tag .ok []
  else (s.withWeigh { s.weigh with tarePending := true }).answer tag .ok []

/-- The zero ZERO_CAL stores (R83): the latest average; outside the range of the zero field (Table 4-2), which the spec
does not treat, a free value within that range (log 9). -/
def newZero (average : Int) : Int :=
  if inRange (-8388608) 8388607 average then average
  else clampInt (-8388608) 8388607 (Config.zeroBeyondRange average)

/-- DO ZERO_CAL (R83). DESIGN CHOICE (log 44), unsafe: the calibration temperature becomes Tb also where Tb lies outside the
range of Table 4-2. -/
def takeZeroCal (tag : Byte) (arg : List Byte) (s : State) : State :=
  if arg.length ≠ 0 then s.answer tag .badFrame []
  else if s.engine.state ≠ .idle then s.answer tag .busy []
  else if !s.weigh.stable then s.answer tag .unstable []
  else
    let c := { s.cal with zero := newZero s.weigh.average, tcal := s.driftBase }
    ((s.withCal c).calibrationChange).answer tag .ok []

/-- The gain SPAN_CAL computes (R84 item 5) for a reference weight and an offset D. -/
def spanGain (reference : Nat) (d : Nat) : Int := roundDiv (reference * 65536) d

/-- DO SPAN_CAL (R84). -/
def takeSpanCal (tag : Byte) (arg : List Byte) (s : State) : State :=
  if arg.length ≠ 3 then s.answer tag .badFrame []
  else if s.engine.state ≠ .idle then s.answer tag .busy []
  else
    let reference := tripleAt arg 0
    if reference < 1 ∨ 80000 < reference then s.answer tag .range []
    else if !s.weigh.stable then s.answer tag .unstable []
    else
      let d := s.weigh.average - s.cal.zero
      let gain := spanGain reference d.toNat
      if d < 1000 then s.answer tag .range []
      else if gain < 1 ∨ 65535 < gain then s.answer tag .range []
      else ((s.withCal { s.cal with gain := gain.toNat }).calibrationChange).answer tag .ok []

/-- CLEAR accepted (R50): the pool rebuilt, the fault record cleared, IDLE entered. -/
def State.clearFault (s : State) : State :=
  ((s.withPool .rebuilt).withEngine
    { s.engine with state := .idle, fault := none, further := false, previousTarget := 0 }).restOutputs

/-- DO CLEAR (R50). -/
def takeClear (tag : Byte) (arg : List Byte) (s : State) : State :=
  if arg.length ≠ 0 then s.answer tag .badFrame []
  else if s.engine.state ≠ .faulted then s.answer tag .busy []
  else if s.causePresent then s.answer tag .stillPresent []
  else s.clearFault.answer tag .ok []

/-- DO CLEAR_NOTICES (R155): the named classes leave the pending set; LINK among the removed clears the overrun flag
(R148); an empty set clears the announce flag. -/
def takeClearNotices (tag : Byte) (arg : List Byte) (s : State) : State :=
  if arg.length ≠ 2 then s.answer tag .badFrame []
  else
    let mask := BitVec.ofNat 16 (wordAt arg 0)
    let left := s.report.pendingSet &&& ~~~mask
    let linkGone := s.report.isPending .link && mask.getLsbD Notice.link.bit
    let s := s.withReport { s.report with
      pendingSet := left, announce := if left = 0 then false else s.report.announce }
    let s := if linkGone then s.withCtl { s.ctl with overrun := false } else s
    s.answer tag .ok []

/-- DO CLEAR_EDGES (R131): mask positions above 11 are ignored. -/
def takeClearEdges (tag : Byte) (arg : List Byte) (s : State) : State :=
  if arg.length ≠ 2 then s.answer tag .badFrame []
  else
    let mask := BitVec.ofNat 12 (wordAt arg 0)
    (s.withLines { s.lines with edges := s.lines.edges &&& ~~~mask }).answer tag .ok []

/-- DO CLEAR_CAPTURE (R132). -/
def takeClearCapture (tag : Byte) (arg : List Byte) (s : State) : State :=
  if arg.length ≠ 0 then s.answer tag .badFrame []
  else (s.withLines { s.lines with capture := none, captureOverrun := false }).answer tag .ok []

/-- DO RESET (R154): the soft reset, then its ANSWER, alone in the lane, is the one frame that may be picked (R158).
DESIGN CHOICE (log 48), unsafe: the BAD_FRAME answer of one of the wrong length goes as any other answer does. -/
def takeReset (tag : Byte) (arg : List Byte) (s : State) : State :=
  if arg.length ≠ 0 then s.answer tag .badFrame []
  else
    let s := s.softReset.answer tag .ok []
    s.withReport { s.report with resetAnswer := true }

/-- DO SUPERVISE (R153). -/
def takeSupervise (tag : Byte) (arg : List Byte) (s : State) : State :=
  if arg.length ≠ 1 then s.answer tag .badFrame []
  else if s.ctl.supervision ≠ .disarmed then s.answer tag .locked []
  else
    let v := max 9 (min (byteAt arg 0) 254)
    (s.withCtl { s.ctl with supervision := .running, period := (v + 1) * 10, supervisionCount := 0 }).answer tag .ok []

/-- DO REHEARSE (R152, R141): a change makes the last sequence number absent. -/
def takeRehearse (tag : Byte) (arg : List Byte) (s : State) : State :=
  if arg.length ≠ 1 then s.answer tag .badFrame []
  else if s.engine.state ≠ .idle then s.answer tag .busy []
  else
    let on := decide (byteAt arg 0 ≠ 0)
    if on = s.ctl.rehearsal then s.answer tag .ok []
    else
      ((s.withCtl { s.ctl with rehearsal := on }).withIntake { s.intake with lastSeq := none }).answer tag .ok []

end Sys2Proof.Machine
end

