-- ==== Sys2Proof/Machine/Thermal.lean ====
section
/-! DEFINITION. The thermal regulator (chapter 5): conversion, channel faults, the temperature tests at a TEMP arrival,
the setpoint ramp and the frame-end computation. -/

namespace Sys2Proof.Machine

/-- The linearization point at an index (R88). -/
def Channel.point (c : Channel) (i : Nat) : Int := c.points[i]?.getD 0

/-- The interpolated temperature of an in-range raw count (R90). -/
def Channel.convert (c : Channel) (r : Nat) : Int :=
  let seg := r / 128
  c.point seg + roundDiv ((c.point (seg + 1) - c.point seg) * (r % 128 : Nat)) 128

/-- Whether a raw count is in range (R90). -/
def rawInRange (r : Nat) : Bool := decide (16 ≤ r) && decide (r ≤ 4079)

/-- One channel at a TEMP arrival (R90, Table 5-2). -/
def Channel.sample (c : Channel) (r : Nat) : Channel :=
  if c.faulted then
    if rawInRange r then
      if c.loaded then
        if 2 ≤ c.goodRun then
          { c with faulted := false, value := some (c.convert r), outRun := 0, goodRun := 0 }
        else { c with goodRun := c.goodRun + 1 }
      else c
    else { c with goodRun := 0 }
  else
    if rawInRange r then { c with value := some (c.convert r), outRun := 0 }
    else if 2 ≤ c.outRun then { c with faulted := true, outRun := 0, goodRun := 0 }
    else { c with outRun := c.outRun + 1 }

/-- The three channels of one TEMP arrival updated (R90, R91); SENSOR for a channel newly faulted (R92). -/
def State.sampleChannels (s : State) (base food board : Nat) : State :=
  let b := s.base.sample base
  let f := s.food.sample food
  let h := s.board.sample board
  let fell := (!s.base.faulted && b.faulted) || (!s.food.faulted && f.faulted) || (!s.board.faulted && h.faulted)
  let s := ((s.withBase b).withFood f).withBoard h
  if fell then s.raise .sensor else s

/-- The temperature faults of one TEMP arrival (R93), in the order BASE_OVER, BOARD_OVER, FOOD_SENSOR; `foodFell` says
that the food channel's flag became true at this arrival. DEDUCED (log 16): the conditions are judged before the first
of the faults is taken. -/
def State.temperatureFaults (s : State) (foodFell : Bool) : State :=
  let wasFaulted := decide (s.engine.state = .faulted)
  let base := s.baseOverNow
  let board := s.boardOverNow
  let raiseBase := base && (!wasFaulted || !s.reg.baseOver)
  let raiseBoard := board && (!wasFaulted || !s.reg.boardOver)
  let raiseFood := foodFell && decide (0 < s.reg.target)
  let s := s.withReg { s.reg with baseOver := base, boardOver := board }
  let s := if raiseBase then s.raiseFault .baseOver else s
  let s := if raiseBoard then s.raiseFault .boardOver else s
  if raiseFood then s.raiseFault .foodSensor else s

/-- The engine's comparison for "reached" (R28). -/
def State.judgeReached (s : State) : State :=
  if s.active && !s.engine.reached && !s.food.faulted
      && atOrAbove s.food.value ((s.engine.clampedTarget : Int) - s.limits.band) then
    let sub := if s.engine.sub = .approach then .reached else s.engine.sub
    let s := s.withEngine { s.engine with reached := true, sub := sub }
    if s.current.condition = some .temp then s.endStep .completed else s
  else s

/-- A TEMP sample delivered (R90, R91, R119, R135). DESIGN CHOICE (log 14), unsafe: after the regulator's tests the stir drive
computes its target and then the lock controller judges. -/
def State.tempSample (s : State) (base food board : Nat) : State :=
  let was := s.food.faulted
  let s := s.sampleChannels base food board
  (((s.temperatureFaults (!was && s.food.faulted)).judgeReached).computeTarget).judgeLock

/-- Whether the setpoint ramp advances (R97). -/
def State.rampAdvances (s : State) : Bool :=
  decide (s.engine.state = .running) && decide (0 < s.reg.ramp) && decide (0 < s.reg.target)
    && decide (s.reg.setpoint ≠ s.reg.target)

/-- R97 item 2: the setpoint moves one unit toward the target for each 60 of the accumulator. -/
def rampMove : Nat → Int → Int → Nat → Int × Nat
  | 0, _, setpoint, acc => (setpoint, acc)
  | fuel + 1, target, setpoint, acc =>
    if 60 ≤ acc ∧ setpoint ≠ target then
      rampMove fuel target (if setpoint < target then setpoint + 1 else setpoint - 1) (acc - 60)
    else (setpoint, acc)

/-- A ramp second (R97). The ramp that has ended is no longer in force (log 32). -/
def Regulator.rampSecond (g : Regulator) : Regulator :=
  let acc := g.rampAccumulator + g.ramp
  let (sp, rest) := rampMove acc g.target g.setpoint acc
  if sp = g.target then { g with setpoint := sp, rampAccumulator := 0, rampCount := 0, ramp := 0 }
  else { g with setpoint := sp, rampAccumulator := rest, rampCount := 0 }

/-! ### The frame end (R98 to R102) -/

/-- The board value calls for the board derate (R98). -/
def State.boardHot (s : State) : Bool := atOrAbove s.board.value s.limits.boardDerate

/-- kmax (R98). -/
def State.kmax (s : State) : Nat :=
  let full := s.limits.windowB + s.limits.windowS
  if s.boardHot then (roundDiv full 2).toNat else full

/-- The error e (R99). A food value of none, which R93 rules out here, counts as 0 (log 35). -/
def State.heatError (s : State) : Int := clampInt (-600) 600 (s.reg.setpoint - s.food.value.getD 0)

/-- The integrator of a frame end with a heater target above 0 (R99 item 3). -/
def State.nextIntegrator (s : State) : Int :=
  let ceiling : Int := (s.kmax : Int) * 256
  let e := s.heatError
  let skip := (decide (s.kmax ≤ s.reg.lastK) && decide (0 < e)) || (decide (s.reg.lastK = 0) && decide (e < 0))
  if skip then min s.reg.integrator ceiling
  else clampInt 0 ceiling (s.reg.integrator + s.limits.ki * e)

/-- The on-count k of a frame end (R99). -/
def State.nextK (s : State) : Nat :=
  if s.reg.target = 0 then 0
  else (clampInt 0 s.kmax (roundDiv (s.limits.kp * s.heatError + s.nextIntegrator) 256)).toNat

/-- The base allowance (R100). -/
def State.allowance (s : State) : Nat :=
  if s.base.faulted then 0
  else match s.base.value with
    | none => 0
    | some tb =>
      let lb : Int := s.limits.baseLimit
      if tb < lb - s.limits.derateBand then s.limits.windowB
      else if tb < lb then (roundDiv (s.limits.windowB * (lb - tb)) s.limits.derateBand).toNat
      else 0

/-- Base cut after a frame end (R100). DESIGN CHOICE (log 17), unsafe: unchanged while the base channel is faulted, also where
the flag and the held value disagree. -/
def State.nextBaseCut (s : State) : Bool :=
  if s.base.faulted then s.reg.baseCut else atOrAbove s.base.value s.limits.baseLimit

/-- The frame-end computation (R98 to R102), its on-counts handed to the scheduler. -/
def State.frameEnd (s : State) : State :=
  let k := s.nextK
  let kB := min k s.allowance
  let kS := min (k - kB) s.limits.windowS
  let derated := (s.boardHot && !s.reg.boardDerate) || (s.nextBaseCut && !s.reg.baseCut)
  let g := { s.reg with
    integrator := if s.reg.target = 0 then 0 else s.nextIntegrator
    lastK := k, kB := kB, kS := kS, baseCut := s.nextBaseCut, boardDerate := s.boardHot }
  let s := (s.withReg g).withSched { s.sched with kB := kB, kS := kS }
  if derated then s.raise .derate else s

end Sys2Proof.Machine
end

