-- ==== Sys2Proof/Machine/Cycles.lean ====
section
/-! DEFINITION. The cycle scheduler (chapter 6): windows, due positions, the exclusive rule, the off-conditions, mains
loss and return. -/

namespace Sys2Proof.Machine

/-- The window offset of a cycle position (R107): (c − start) mod P. -/
def windowOffset (position start frame : Nat) : Nat := (((position : Int) - start) % (frame : Int)).toNat

/-- Whether an element with on-count `k` is due at window offset `j` of a window of length `w` (R107, R108): a multiple
of w lies above k·j and at or below k·(j + 1). -/
def due (k w j : Nat) : Bool := decide (j < w) && decide (k * j / w < k * (j + 1) / w)

/-- Element B is due at the scheduler's position (R108). -/
def State.dueB (s : State) : Bool :=
  due s.sched.kB s.limits.windowB (windowOffset s.sched.position s.limits.startB s.limits.frameLength)

/-- Element S is due at the scheduler's position (R108). -/
def State.dueS (s : State) : Bool :=
  due s.sched.kS s.limits.windowS (windowOffset s.sched.position s.limits.startS s.limits.frameLength)

/-- The conditions of R110, all of which must hold for an element to be on. -/
def State.heatAllowed (s : State) : Bool :=
  decide (s.lines.lid.level = .high) && decide (s.lines.bowl.level = .high) && !s.food.faulted
    && match s.engine.state with
      | .running => true
      | .held => s.engine.holds.gentle
      | .idle => false
      | .ending => false
      | .faulted => false

/-- The HEAT frame decided for the present position (R108, R109, R110). -/
def State.decideHeat (s : State) : Heat :=
  let b := s.dueB
  let sOn := s.dueS && !(s.limits.exclusive && b)
  { position := s.sched.position, b := s.heatAllowed && b, s := s.heatAllowed && sOn }

/-- A HEAT frame is handed to the drive output and becomes the last HEAT (R111); one with an element on is reported to
the lock controller while rehearsal is off. -/
def State.giveHeat (s : State) (h : Heat) : State :=
  let s := (s.withSched { s.sched with lastHeat := h }).handHeat h
  if (h.b || h.s) && !s.ctl.rehearsal then s.heatReport else s

/-- Steps 3 and 4 of a cycle event (R106). -/
def State.cycleHeat (s : State) : State := s.giveHeat s.decideHeat

/-- A cycle event with the mains PRESENT (R106). -/
def State.cycleEvent (s : State) : State :=
  let next := (s.sched.position + 1) % s.limits.frameLength
  let s := s.withSched { s.sched with position := next }
  (if next = 0 then s.frameEnd else s).cycleHeat

/-- The mains return (R113). When the engine holds MAINS, the order of its removal and of the frame end is a free
choice (log 8); otherwise there is nothing to remove. -/
def State.mainsReturn (s : State) : State :=
  let s := s.withSched { s.sched with mainsPresent := true, position := 0 }
  if s.engine.state = .held && s.engine.holds.mains then
    let n := s.choices
    let s := s.withChoices (n + 1)
    if Config.resumeFirst n then s.dropMains.frameEnd.cycleHeat else s.frameEnd.cycleHeat.dropMains
  else s.frameEnd.cycleHeat

/-- A ZERO mark delivered (R106, R113). -/
def State.zeroSample (s : State) : State := if s.sched.mainsPresent then s.cycleEvent else s.mainsReturn

/-- The MAINS reason. -/
def Holds.mainsOnly : Holds := { Holds.empty with mains := true }

/-- The mains loss at the scheduler (R112). -/
def State.mainsLost (s : State) : State :=
  if s.sched.mainsPresent then
    let s := s.withSched { s.sched with mainsPresent := false }
    (s.giveHeat { position := s.sched.lastHeat.position, b := false, s := false }).addHold .mainsOnly
  else s

end Sys2Proof.Machine
end

