-- ==== Sys2Proof/Machine/Motor.lean ====
section
/-! DEFINITION. What a MOTOR sample does (R123): latest values, slow run, reversal, and the stall, overload and torque
tests, then the engine's test for leaving ENDING and the lock controller's judgement. -/

namespace Sys2Proof.Machine

/-- Items 1 and 2 of R123: the latest values and the slow run. -/
def State.takeMotorValues (s : State) (speed current : Nat) : State :=
  s.withStir { s.stir with
    speed := speed, current := current
    slowRun := if speed < s.limits.stopThreshold then min (s.stir.slowRun + 1) 20 else 0 }

/-- Item 3 of R123: a pending reversal ends at a sample below the stop threshold (R122). -/
def State.motorReversal (s : State) (speed : Nat) : State :=
  if s.stir.reversal && decide (speed < s.limits.stopThreshold) then s.endReversal else s

/-- The stall test (R124). -/
def State.stallTest (s : State) (speed : Nat) : State :=
  if 100 ≤ s.stir.commanded ∧ 8 * speed < s.stir.commanded then
    if 149 ≤ s.stir.stallRun then s.raiseFault .stall
    else s.withStir { s.stir with stallRun := s.stir.stallRun + 1 }
  else s.withStir { s.stir with stallRun := 0 }

/-- The overload test (R125). -/
def State.overloadTest (s : State) (current : Nat) : State :=
  if s.limits.overloadCurrent ≤ current then
    match s.stir.overloadCap with
    | none =>
      if 99 ≤ s.stir.overloadRun then
        let cap := max 100 (roundDiv s.stir.commanded 2).toNat
        ((s.withStir { s.stir with overloadRun := 0, overloadCap := some cap }).raise .derate).computeTarget
      else s.withStir { s.stir with overloadRun := s.stir.overloadRun + 1 }
    | some _ =>
      if 249 ≤ s.stir.overloadRun then s.raiseFault .overload
      else s.withStir { s.stir with overloadRun := s.stir.overloadRun + 1 }
  else s.withStir { s.stir with overloadRun := 0 }

/-- Whether a sample lies within one-eighth of the commanded speed, which is not 0 (R126 item 2). -/
def steadySample (commanded speed : Nat) : Bool :=
  decide (commanded ≠ 0) && decide (8 * ((speed : Int) - commanded).natAbs ≤ commanded)

/-- A complete torque block (R126 item 3, R31). -/
def State.torqueBlock (s : State) (sum : Nat) (steady : Bool) : State :=
  let r := s.current
  let average := roundDiv sum 16
  let count := if steady && decide ((r.amount : Int) ≤ average) then s.stir.torqueCount + 1 else 0
  let s := s.withStir { s.stir with blockSum := 0, blockCount := 0, blockSteady := true, torqueCount := count }
  if 0 < count ∧ r.tolerance ≤ count then s.endStep .completed else s

/-- The torque block of a COOK step with condition TORQUE (R126). -/
def State.torqueTest (s : State) (speed current : Nat) : State :=
  let r := s.current
  if r.kind = .cook ∧ r.condition = some .torque then
    let steady := s.stir.blockSteady && steadySample s.stir.commanded speed
    let sum := s.stir.blockSum + current
    let count := s.stir.blockCount + 1
    if 16 ≤ count then s.torqueBlock sum steady
    else s.withStir { s.stir with blockSum := sum, blockCount := count, blockSteady := steady }
  else s

/-- Item 4 of R123: each test is applied while the engine is RUNNING with the step in ACTIVE. -/
def State.motorTests (s : State) (speed current : Nat) : State :=
  let s := if s.active then s.stallTest speed else s
  let s := if s.active then s.overloadTest current else s
  if s.active then s.torqueTest speed current else s

/-- R47: in ENDING a sample below the stop threshold takes the engine to IDLE and raises DONE. -/
def State.leaveEnding (s : State) : State :=
  ((s.withEngine { s.engine with state := .idle }).restOutputs).raise .done

/-- A MOTOR sample delivered (R123, R47, R135). DESIGN CHOICE (log 15), unsafe: the test of R47 is made on an engine that was
ENDING when the sample arrived, after the stir drive's items and before the lock controller's judgement. -/
def State.motorSample (s : State) (speed current : Nat) : State :=
  let ending := decide (s.engine.state = .ending)
  let s := ((s.takeMotorValues speed current).motorReversal speed).motorTests speed current
  let s := if ending && decide (speed < s.limits.stopThreshold) then s.leaveEnding else s
  s.judgeLock

/-- A MOTOR stall at the stir drive and the lock controller (R123, R135): the slow run becomes 0 and the conditions are
judged. -/
def State.motorStalled (s : State) : State := (s.withStir { s.stir with slowRun := 0 }).judgeLock

end Sys2Proof.Machine
end

