-- ==== Sys2Proof/Machine/SampleIntake.lean ====
section
/-! DEFINITION. The sample intake (R138 to R141): form, sequence, stream, delivery, stalls. -/

namespace Sys2Proof.Machine

/-- A sample frame of the right form, its fields decoded (Table 12-3, R161). -/
inductive Sample where
  | weigh (raw : Int)
  | temp (base food board : Nat)
  | motor (speed current : Nat)
  | levels (levels : Byte)
  | zero
deriving DecidableEq, Repr

/-- The stream a sample belongs to. -/
def Sample.stream : Sample → StreamId
  | .weigh _ => .weigh
  | .temp _ _ _ => .temp
  | .motor _ _ => .motor
  | .levels _ => .levels
  | .zero => .zero

/-- The low 12 bits of a TEMP raw field (R161). -/
def low12 (n : Nat) : Nat := n % 4096

/-- The form test of R139 item 1 and the decoding of Table 12-3: the sequence number and the sample. -/
def readSample (kind : Byte) (payload : List Byte) : Option (Byte × Sample) :=
  if sampleLength kind = some payload.length then
    let seq := payload.getD 0 0
    match kind.toNat with
    | 1 => some (seq, .weigh (signed 24 (tripleAt payload 1)))
    | 2 => some (seq, .temp (low12 (wordAt payload 1)) (low12 (wordAt payload 3)) (low12 (wordAt payload 5)))
    | 3 => some (seq, .motor (wordAt payload 1) (wordAt payload 3))
    | 4 => some (seq, .levels (payload.getD 1 0))
    | 5 => some (seq, .zero)
    | _ => none
  else none

/-- R139 item 2: a sequence number that is not one more than the last raises LINK and discards the weighing block.
DESIGN CHOICE (log 50), unsafe: the first WEIGH frame after a WEIGH stall is compared like any other when frames of other
kinds have made the last number present again, though R72 says that it is not a gap. -/
def State.checkSequence (s : State) (seq : Byte) : State :=
  let gap := match s.intake.lastSeq with
    | none => false
    | some l => decide (seq ≠ l + 1)
  let s := if gap then (s.raise .link).weighGap else s
  s.withIntake { s.intake with lastSeq := some seq }

/-- R139 item 3: the kind's time becomes 0; a STALLED stream becomes LIVE, and the return is handed to the engine
(R44) and, for MOTOR, to the lock controller (R135, R140). -/
def State.streamArrival (s : State) (k : StreamId) : State :=
  let was := (s.intake.stream k).live
  let s := s.withIntake (s.intake.setStream k ⟨true, 0⟩)
  if was then s
  else
    let s := s.dropSensor
    if k = .motor then s.judgeLock else s

/-- R139 item 4: the sample is handed to its owner. -/
def State.deliver (s : State) (x : Sample) : State :=
  match x with
  | .weigh raw => s.weighSample raw
  | .temp base food board => s.tempSample base food board
  | .motor speed current => s.motorSample speed current
  | .levels levels => s.levelsSample levels
  | .zero => s.zeroSample

/-- Items 2 to 4 of R139 for a frame of the right form, in that order. DESIGN CHOICE (log 41), unsafe: at a TEMP arrival that
returns its stream, what the engine's resume reads of the channels is as before the arrival (R139 item 3 before R91). -/
def State.takeFrame (s : State) (seq : Byte) (x : Sample) : State :=
  ((s.checkSequence seq).streamArrival x.stream).deliver x

/-- A frame taken by R139 from item 1 onward. -/
def State.intakeFrame (s : State) (kind : Byte) (payload : List Byte) : State :=
  match readSample kind payload with
  | none => s.raise .link
  | some (seq, x) => s.takeFrame seq x

/-- A frame the sense-link receiver delivers (R139; R141: discarded silently with rehearsal on). -/
def State.senseFrame (s : State) (kind : Byte) (payload : List Byte) : State :=
  if s.ctl.rehearsal then s else s.intakeFrame kind payload

/-- A sample of the right form arriving on the sense link (R139, R141). -/
def State.senseSample (s : State) (seq : Byte) (x : Sample) : State :=
  if s.ctl.rehearsal then s else s.takeFrame seq x

/-- The frame an INJECT payload carries (R141, R163): a kind code and that kind's sense payload. With rehearsal off it
is discarded with LINK, and so is a payload without a kind code (DEDUCED, log 38). -/
def State.injectFrame (s : State) (payload : List Byte) : State :=
  if s.ctl.rehearsal then
    match payload with
    | [] => s.raise .link
    | kind :: rest => s.intakeFrame kind rest
  else s.raise .link

/-- The SENSOR reason. -/
def Holds.sensorOnly : Holds := { Holds.empty with sensor := true }

/-- What the readers of a kind do at its stall (R140). -/
def State.stallReaders (s : State) (k : StreamId) : State :=
  match k with
  | .weigh => s.weighStalled
  | .temp => s
  | .motor => s.motorStalled
  | .levels => s.levelsStalled
  | .zero => s.mainsLost

/-- The stall of a stream (R140): its deadline has passed while LIVE; the last sequence number becomes absent, and the
stall is handed to the readers of the kind and to the engine (R44). A STALLED stream's deadline does not expire.
DESIGN CHOICE (log 42), unsafe: the readers take it before the engine, so at a MOTOR stall the lock is judged first. -/
def State.stall (s : State) (k : StreamId) : State :=
  if (s.intake.stream k).live then
    let s := s.withIntake { s.intake.setStream k ⟨false, k.deadline⟩ with lastSeq := none }
    let s := s.stallReaders k
    if s.relevant k then s.addHold .sensorOnly else s
  else s

end Sys2Proof.Machine
end

