-- ==== Sys2Proof/Machine/Transmit.lean ====
section
/-! DEFINITION. The two transmitters: the picks of the drive link (R144, R145) and of the upstream link (R158), and the
completions of their sends (R143). The time a send takes is the link's and is not in the model (log 7). -/

namespace Sys2Proof.Machine

/-- A slot's frame as it goes out: substituted in rehearsal (R145), unchanged otherwise. DESIGN CHOICE (log 46), unsafe: a
LATCH RELEASE goes out as the slot holds it, with no judgement beyond those R135 lists. -/
def State.outgoing (s : State) (f : DriveFrame) : DriveFrame :=
  if s.ctl.rehearsal then
    match f with
    | .heat h => .heat { h with b := false, s := false }
    | .spin _ dir => .spin 0 dir
    | .latch c => .latch (if c = .release && s.unlockConditions then .release else .rest)
    | .pass payload => .pass payload
  else f

/-- The drive pick (R144): HEAT, SPIN, LATCH by their marks, then the head of the PASS queue; only while the transmitter
is free. -/
def State.pickDrive (s : State) : State :=
  let d := s.drive
  if d.sending.isSome then s
  else match d.heatMarked, d.heat with
  | true, some h => s.withDrive { d with heatMarked := false, sending := some (s.outgoing (.heat h)) }
  | _, _ =>
    if d.spinMarked then
      s.withDrive { d with spinMarked := false, sending := some (s.outgoing (.spin d.spinSpeed d.spinDirection)) }
    else if d.latchMarked then
      s.withDrive { d with latchMarked := false, sending := some (s.outgoing (.latch d.latch)) }
    else match d.passQueue with
      | [] => s
      | p :: rest => s.withDrive { d with passQueue := rest, sending := some (.pass p) }

/-- A drive send completes (R143, R144): the refresh timer of its kind becomes 0 and the transmitter is free. -/
def Drive.sendDone (d : Drive) : Drive :=
  match d.sending with
  | none => d
  | some (.spin _ _) => { d with spinTimer := 0, sending := none }
  | some (.latch _) => { d with latchTimer := 0, sending := none }
  | some (.heat _) => { d with sending := none }
  | some (.pass _) => { d with sending := none }

/-- The upstream pick (R158), only while the transmitter is free. -/
def State.pickUpstream (s : State) : State :=
  let r := s.report
  let go := decide (s.ctl.permission = .go)
  if r.sending.isSome then s
  else if r.resetAnswer then
    match go, r.answers with
    | true, a :: rest => s.withReport { r with answers := rest, resetAnswer := false, sending := some a }
    | _, _ => s
  else match s.ctl.flowSlot with
  | some f => (s.withCtl { s.ctl with flowSlot := none }).withReport { r with sending := some f.frame }
  | none =>
    if !go then s
    else if r.announce then s.withReport { r with announce := false, sending := some s.noticeFrame }
    else match r.answers with
      | a :: rest => s.withReport { r with answers := rest, sending := some a }
      | [] => match r.readings with
        | a :: rest => s.withReport { r with readings := rest, sending := some a }
        | [] => s

/-- Both picks. -/
def State.picks (s : State) : State := s.pickDrive.pickUpstream

end Sys2Proof.Machine
end

