-- ==== Sys2Proof/Machine/Link.lean ====
section
/-! DEFINITION. The control link interface (chapter 10): arrivals, the flow marks, the command queue and the taking of
its head, and what follows every event: the picks of the transmitters and the takings they allow. -/

namespace Sys2Proof.Machine

/-! ### The requests by their bytes (R151, R152, R163) -/

/-- A table request whose body begins with a table code (R151): an unknown code is refused BAD_FIELD before the length
is judged; a body without a code is of the wrong length (log 26). -/
def takeEntry (tag : Byte) (body : List Byte)
    (lin : LinTable → List Byte → State → State)
    (pattern bind cal limits : List Byte → State → State) (s : State) : State :=
  match body with
  | [] => s.answer tag .badFrame []
  | code :: rest =>
    match code.toNat with
    | 0 => lin .lin0 rest s
    | 1 => lin .lin1 rest s
    | 2 => lin .lin2 rest s
    | 3 => pattern rest s
    | 4 => bind rest s
    | 5 => cal rest s
    | 6 => limits rest s
    | _ => s.answer tag .badField []

/-- ENTRY_WRITE (R151). -/
def takeEntryWrite (tag : Byte) (body : List Byte) (s : State) : State :=
  takeEntry tag body (takeWriteLin tag) (takeWritePattern tag) (takeWriteBind tag) (takeWriteCal tag)
    (takeWriteLimits tag) s

/-- ENTRY_READ (R151). -/
def takeEntryRead (tag : Byte) (body : List Byte) (s : State) : State :=
  takeEntry tag body (takeReadLin tag) (takeReadPattern tag) (takeReadBind tag) (takeReadCal tag)
    (takeReadLimits tag) s

/-- DO (R152, Table 10-4): the command word, then its argument; a word outside the sixteen is refused BAD_FIELD. -/
def takeDo (tag : Byte) (body : List Byte) (s : State) : State :=
  match body with
  | [] => s.answer tag .badFrame []
  | code :: arg =>
    match code.toNat with
    | 0 => takeStart tag arg s
    | 1 => takePause tag arg s
    | 2 => takeResume tag arg s
    | 3 => takeSkip tag arg s
    | 4 => takeStop tag arg s
    | 5 => takeExtend tag arg s
    | 6 => takeTare tag arg s
    | 7 => takeZeroCal tag arg s
    | 8 => takeSpanCal tag arg s
    | 9 => takeClear tag arg s
    | 10 => takeClearNotices tag arg s
    | 11 => takeClearEdges tag arg s
    | 12 => takeClearCapture tag arg s
    | 13 => takeReset tag arg s
    | 14 => takeSupervise tag arg s
    | 15 => takeRehearse tag arg s
    | _ => s.answer tag .badField []

/-- An answered request with its tag taken off (R150): one without a tag is discarded with LINK and not answered. -/
def takeTagged (payload : List Byte) (act : Byte → List Byte → State → State) (s : State) : State :=
  match payload with
  | [] => s.raise .link
  | tag :: body => act tag body s

/-- A request carried out whole at its taking (R150, Table 10-3). -/
def carryOut (r : Request) (s : State) : State :=
  match r.kind with
  | .stepWrite => takeTagged r.payload takeStepWrite s
  | .stepRead => takeTagged r.payload takeStepRead s
  | .entryWrite => takeTagged r.payload takeEntryWrite s
  | .entryRead => takeTagged r.payload takeEntryRead s
  | .doCommand => takeTagged r.payload takeDo s
  | .inject => s.injectFrame r.payload
  | .pass => s.withDrive { s.drive with passQueue := s.drive.passQueue ++ [r.payload] }
  | .getState => takeTagged r.payload takeGetState s
  | .getChain => takeTagged r.payload takeGetChain s

/-! ### Taking the head of the queue (R149, R150) -/

/-- A DO request whose command word is RESET, its argument not judged: DESIGN CHOICE (log 40), unsafe: one of the wrong
length waits for the empty answer lane as a well-formed DO RESET does. -/
def Request.isReset (r : Request) : Bool :=
  decide (r.kind = .doCommand) && match r.payload with
    | _ :: code :: _ => decide (code.toNat = 13)
    | _ => false

/-- The conditions on the queue's head (R150): room for an answer, room in the PASS queue, an empty answer lane for
DO RESET. -/
def State.canTake (s : State) (r : Request) : Bool :=
  match r.kind with
  | .inject => true
  | .pass => decide (s.drive.passQueue.length < 4)
  | .doCommand =>
    if r.isReset then s.report.answers.isEmpty else decide (s.report.answers.length < 4)
  | .stepWrite => decide (s.report.answers.length < 4)
  | .stepRead => decide (s.report.answers.length < 4)
  | .entryWrite => decide (s.report.answers.length < 4)
  | .entryRead => decide (s.report.answers.length < 4)
  | .getState => decide (s.report.answers.length < 4)
  | .getChain => decide (s.report.answers.length < 4)

/-- The head leaves the queue; a count of 4 with WAIT signalled signals GO (R149). -/
def Control.dequeue (c : Control) (rest : List Request) : Control :=
  let c := { c with queue := rest }
  if rest.length = 4 then c.signalGo else c

/-- What follows an event (R144, R150, R158): the free transmitters pick, and each head request whose conditions then
hold is taken, with the picks its taking allows. `fuel` is the length of the queue. DESIGN CHOICE (log 53), unsafe: the GO
mark of R149 is made at the removal from the queue, before the request is carried out. -/
def settleWith : Nat → State → State
  | 0, s => s.picks
  | fuel + 1, s =>
    let s := s.picks
    match s.ctl.queue with
    | [] => s
    | r :: rest =>
      if s.canTake r then settleWith fuel (carryOut r (s.withCtl (s.ctl.dequeue rest))) else s

/-- What follows an event, with fuel for every request in the queue. -/
def State.settle (s : State) : State := settleWith s.ctl.queue.length s

/-! ### Arrivals (R148, R149) -/

/-- The watch on the host restarts (R148). -/
def Control.hostSeen (c : Control) : Control :=
  { c with
    supervisionCount := 0
    supervision := if c.supervision = .expired then .running else c.supervision
    quietCount := 0, quietRaised := false }

/-- Any frame the control-link receiver delivers restarts the watch (R148). -/
def State.hostSeen (s : State) : State := s.withCtl s.ctl.hostSeen

/-- The WAIT mark of R149: an arrival that brings the count to 12 while GO is signalled. -/
def Control.waitMark (c : Control) : Control :=
  if c.queue.length = 12 ∧ c.signalled = .go then ({ c with signalled := .wait }).placeFlow .wait else c

/-- A request frame at the queue's tail, or discarded with LINK and overrun at sixteen (R148). -/
def State.enqueue (s : State) (r : Request) : State :=
  if s.ctl.queue.length < 16 then s.withCtl ({ s.ctl with queue := s.ctl.queue ++ [r] }).waitMark
  else (s.withCtl { s.ctl with overrun := true }).raise .link

/-- A request handed to the command queue, and what follows (log 4): with the queue empty and the conditions of R150 met
it is taken at once. -/
def State.request (s : State) (kind : RequestKind) (payload : List Byte) : State := (s.enqueue ⟨kind, payload⟩).settle

/-- A WAIT or GO frame of the host (R148). -/
def State.hostFlow (s : State) (f : Flow) : State := s.withCtl { s.ctl with permission := f }

/-- A table request that carries a table code (R151, R163). -/
def State.tableRequest (s : State) (kind : RequestKind) (code tag : Byte) (body : List Byte) : State :=
  s.request kind (tag :: code :: body)

/-- A DO request with its command word (R152, Table 10-4). -/
def State.doRequest (s : State) (code tag : Byte) (arg : List Byte) : State :=
  s.request .doCommand (tag :: code :: arg)

/-- The request kinds by code (Table 12-2). -/
def readRequestKind : Nat → Option RequestKind
  | 0x21 => some .stepWrite
  | 0x22 => some .stepRead
  | 0x23 => some .entryWrite
  | 0x24 => some .entryRead
  | 0x25 => some .doCommand
  | 0x26 => some .inject
  | 0x27 => some .pass
  | 0x28 => some .getState
  | 0x29 => some .getChain
  | _ => none

/-- A frame the control-link receiver delivers (R148). -/
def State.controlFrame (s : State) (kind : Byte) (payload : List Byte) : State :=
  let s := s.hostSeen
  if kind = 0x2E then s.hostFlow .wait
  else if kind = 0x2F then s.hostFlow .go
  else match readRequestKind kind.toNat with
    | some k => s.enqueue ⟨k, payload⟩
    | none => s.raise .link

end Sys2Proof.Machine
end

