-- ==== Sys2Proof/Machine/DoCommands.lean ====
section
/-! DEFINITION. The sixteen DO rows, each the request with its command word of Table 10-4 (R152; log 4). -/

namespace Sys2Proof.Machine

/-- DO_START (R36). -/
def execDoStart (tag : Byte) (arg : List Byte) (s : State) : Host.Outcome State Fault Refusal :=
  .next (s.doRequest 0 tag arg)

/-- DO_PAUSE (R37). -/
def execDoPause (tag : Byte) (arg : List Byte) (s : State) : Host.Outcome State Fault Refusal :=
  .next (s.doRequest 1 tag arg)

/-- DO_RESUME (R38). -/
def execDoResume (tag : Byte) (arg : List Byte) (s : State) : Host.Outcome State Fault Refusal :=
  .next (s.doRequest 2 tag arg)

/-- DO_SKIP (R39). -/
def execDoSkip (tag : Byte) (arg : List Byte) (s : State) : Host.Outcome State Fault Refusal :=
  .next (s.doRequest 3 tag arg)

/-- DO_STOP (R40). -/
def execDoStop (tag : Byte) (arg : List Byte) (s : State) : Host.Outcome State Fault Refusal :=
  .next (s.doRequest 4 tag arg)

/-- DO_EXTEND (R14). -/
def execDoExtend (tag : Byte) (arg : List Byte) (s : State) : Host.Outcome State Fault Refusal :=
  .next (s.doRequest 5 tag arg)

/-- DO_TARE (R79). -/
def execDoTare (tag : Byte) (arg : List Byte) (s : State) : Host.Outcome State Fault Refusal :=
  .next (s.doRequest 6 tag arg)

/-- DO_ZERO_CAL (R83). -/
def execDoZeroCal (tag : Byte) (arg : List Byte) (s : State) : Host.Outcome State Fault Refusal :=
  .next (s.doRequest 7 tag arg)

/-- DO_SPAN_CAL (R84). -/
def execDoSpanCal (tag : Byte) (arg : List Byte) (s : State) : Host.Outcome State Fault Refusal :=
  .next (s.doRequest 8 tag arg)

/-- DO_CLEAR (R50). -/
def execDoClear (tag : Byte) (arg : List Byte) (s : State) : Host.Outcome State Fault Refusal :=
  .next (s.doRequest 9 tag arg)

/-- DO_CLEAR_NOTICES (R155). -/
def execDoClearNotices (tag : Byte) (arg : List Byte) (s : State) : Host.Outcome State Fault Refusal :=
  .next (s.doRequest 10 tag arg)

/-- DO_CLEAR_EDGES (R131). -/
def execDoClearEdges (tag : Byte) (arg : List Byte) (s : State) : Host.Outcome State Fault Refusal :=
  .next (s.doRequest 11 tag arg)

/-- DO_CLEAR_CAPTURE (R132). -/
def execDoClearCapture (tag : Byte) (arg : List Byte) (s : State) : Host.Outcome State Fault Refusal :=
  .next (s.doRequest 12 tag arg)

/-- DO_RESET (R154). -/
def execDoReset (tag : Byte) (arg : List Byte) (s : State) : Host.Outcome State Fault Refusal :=
  .next (s.doRequest 13 tag arg)

/-- DO_SUPERVISE (R153). -/
def execDoSupervise (tag : Byte) (arg : List Byte) (s : State) : Host.Outcome State Fault Refusal :=
  .next (s.doRequest 14 tag arg)

/-- DO_REHEARSE (R152). -/
def execDoRehearse (tag : Byte) (arg : List Byte) (s : State) : Host.Outcome State Fault Refusal :=
  .next (s.doRequest 15 tag arg)

end Sys2Proof.Machine
end

