-- ==== Sys2Proof/Machine/LinkCommands.lean ====
section
/-! DEFINITION. The rows of the links: the completions of sends and the arrivals on the control link. -/

namespace Sys2Proof.Machine

/-- DRIVE_SEND_COMPLETE (R143, R144). -/
def execDriveSendComplete (s : State) : Host.Outcome State Fault Refusal :=
  .next (s.withDrive s.drive.sendDone).settle

/-- UPSTREAM_SEND_COMPLETE (R158). -/
def execUpstreamSendComplete (s : State) : Host.Outcome State Fault Refusal :=
  .next (s.withReport { s.report with sending := none }).settle

/-- HOST_WAIT (R148). -/
def execHostWait (s : State) : Host.Outcome State Fault Refusal :=
  .next (s.hostSeen.hostFlow .wait).settle

/-- HOST_GO (R148). -/
def execHostGo (s : State) : Host.Outcome State Fault Refusal :=
  .next (s.hostSeen.hostFlow .go).settle

/-- REQUEST_ARRIVAL (R148). -/
def execRequestArrival (kind : RequestKind) (payload : List Byte) (s : State) : Host.Outcome State Fault Refusal :=
  .next (s.hostSeen.request kind payload)

/-- MISPLACED_FRAME (R148). -/
def execMisplacedFrame (kind : Byte) (payload : List Byte) (s : State) : Host.Outcome State Fault Refusal :=
  .next (s.controlFrame kind payload).settle

end Sys2Proof.Machine
end

