-- ==== Sys2Proof/Machine/Receivers.lean ====
section
/-! DEFINITION. The two byte receivers (R159). -/

namespace Sys2Proof.Machine

/-- A receiver of the state. -/
def State.receiver (s : State) : Rx → Receiver
  | .sense => s.senseRx
  | .control => s.ctlRx

/-- The state with a receiver replaced. -/
def State.setReceiver (s : State) (rx : Rx) (x : Receiver) : State :=
  match rx with
  | .sense => s.withSenseRx x
  | .control => s.withCtlRx x

/-- A frame discarded by a receiver, which returns to HUNT; at the control link this raises LINK (R159). -/
def State.discardFrame (s : State) (rx : Rx) : State :=
  let s := s.setReceiver rx .hunting
  match rx with
  | .sense => s
  | .control => s.raise .link

/-- A frame a receiver delivers (R159): to the sample intake or to the control link interface. -/
def State.deliverFrame (s : State) (rx : Rx) (f : Frame) : State :=
  match rx with
  | .sense => s.senseFrame f.kind f.payload
  | .control => s.controlFrame f.kind f.payload

/-- A byte arrival (R159): the gap count becomes 0 and the receiver acts by state. -/
def State.byteArrives (s : State) (rx : Rx) (b : Byte) : State :=
  let x := { s.receiver rx with gap := 0 }
  match x.state with
  | .hunt => s.setReceiver rx (if b = 0xC3 then { Receiver.hunting with state := .kind } else x)
  | .kind => s.setReceiver rx { x with state := .length, kind := b }
  | .length =>
    if 64 < b.toNat then s.discardFrame rx
    else s.setReceiver rx { x with
      state := if b.toNat = 0 then .check else .payload, length := b.toNat, payload := [] }
  | .payload =>
    let payload := x.payload ++ [b]
    s.setReceiver rx { x with
      payload := payload, state := if x.length ≤ payload.length then .check else .payload }
  | .check =>
    let f : Frame := ⟨x.kind, x.payload⟩
    if b = crc (x.kind :: byte x.length :: x.payload) then (s.setReceiver rx .hunting).deliverFrame rx f
    else s.discardFrame rx

/-- The gap count reaches 3 (R159): a receiver that is mid-frame discards its frame. -/
def State.gapTimeout (s : State) (rx : Rx) : State :=
  if (s.receiver rx).state = .hunt then s else s.discardFrame rx

/-- One 1 ms expiry at a receiver (R159). -/
def State.gapTick (s : State) (rx : Rx) : State :=
  let x := s.receiver rx
  if x.state = .hunt then s
  else if 3 ≤ x.gap + 1 then s.gapTimeout rx
  else s.setReceiver rx { x with gap := x.gap + 1 }

end Sys2Proof.Machine
end

