-- ==== Sys2Proof/Machine/Timebase.lean ====
section
/-! DEFINITION. The 1 ms timebase: what each timer's expiry does, and one millisecond of the timebase as the expiries of
every running timer, taken in an order the spec leaves open. -/

namespace Sys2Proof.Machine

/-! ### The expiries (each under the rule of its row; log 3)

Each expiry does nothing unless its timer runs, so that a row of the table that names an expiry is an expiry only in the
states in which its timer can expire. -/

/-- Whether the elapsed timer counts (R27): RUNNING and ACTIVE, but for a TIME step carrying AT_TEMP before reached. -/
def State.elapsedRuns (s : State) : Bool :=
  s.active && !(decide (s.current.condition = some .time) && s.current.flags.atTemp && !s.engine.reached)

/-- Elapsed reaches the duration of a TIME step (R29). -/
def State.durationExpires (s : State) : State :=
  if s.elapsedRuns && decide (s.current.condition = some .time) then s.endStep .completed else s

/-- Whether a step's limit is evaluated (R33, R10). -/
def State.limitRuns (s : State) : Bool :=
  s.active && decide (s.current.condition ≠ some .time) && decide (0 < s.current.limit)

/-- Limit-elapsed reaches the limit (R33). -/
def State.limitExpires (s : State) : State := if s.limitRuns then (s.raise .limit).endStep .limit else s

/-- A ramp second (R97). -/
def State.rampSecondExpires (s : State) : State := if s.rampAdvances then s.withReg s.reg.rampSecond else s

/-- The end of a timed phase (R118). -/
def State.phaseExpires (s : State) : State := if s.phaseTimed then s.endPhase else s

/-- The end of a full 100 ms of the stir ramp count (R120). -/
def State.stirRampExpires (s : State) : State := if s.ramping then s.rampStep else s

/-- The operation timer stands at the lock timeout. -/
def State.lockTimerFull (s : State) : State := s.withLock { s.lock with timer := s.limits.lockTimeout }

/-- The engage timeout (R134). -/
def State.engageExpires (s : State) : State :=
  if s.lock.state = .engaging then s.lockTimerFull.engageTimedOut else s

/-- The release timeout (R136). -/
def State.releaseExpires (s : State) : State :=
  if s.lock.state = .releasing then s.lockTimerFull.releaseTimedOut else s

/-- The cool-down count reaches 600,000 (R135). -/
def State.coolDownExpires (s : State) : State :=
  if s.lock.coolDown < 600000 then (s.withLock { s.lock with coolDown := 600000 }).judgeLock else s

/-- The supervision count reaches the period (R153). -/
def State.supervisionExpires (s : State) : State :=
  if s.ctl.supervision = .running then
    (s.withCtl { s.ctl with supervision := .expired, supervisionCount := s.ctl.period }).raiseFault .hostLost
  else s

/-- Whether the quiet count runs (R153). -/
def Control.quietRuns (c : Control) : Bool := decide (c.supervision = .disarmed) && !c.quietRaised

/-- The quiet count reaches 2,550 (R153). -/
def State.quietExpires (s : State) : State :=
  if s.ctl.quietRuns then (s.withCtl { s.ctl with quietCount := 2550, quietRaised := true }).raise .hostQuiet else s

/-- A lane of at most four readings with one appended, the oldest removed when it held four (R157). -/
def appendReading (lane : List Frame) (f : Frame) : List Frame := (if 4 ≤ lane.length then lane.tail else lane) ++ [f]

/-- The reading count reaches the interval (R157). -/
def State.readingExpires (s : State) : State :=
  s.withReport { s.report with readingCount := 0, readings := appendReading s.report.readings s.readingFrame }

/-- The SPIN refresh timer reaches 50 (R143). -/
def State.spinRefreshExpires (s : State) : State :=
  if s.drive.spinTimer < 50 then s.withDrive { s.drive with spinTimer := 50, spinMarked := true } else s

/-- The LATCH refresh timer reaches 100 (R143). -/
def State.latchRefreshExpires (s : State) : State :=
  if s.drive.latchTimer < 100 then s.withDrive { s.drive with latchTimer := 100, latchMarked := true } else s

/-! ### One millisecond at each timer -/

/-- The timers of the timebase. -/
inductive Timer where
  | step | ramp | phase | stirRamp | lock | coolDown | stream (k : StreamId) | watch | reading | spin | latch
  | gap (rx : Rx)
deriving DecidableEq, Repr

/-- Every timer, once. -/
def allTimers : List Timer :=
  [.step, .ramp, .phase, .stirRamp, .lock, .coolDown, .stream .weigh, .stream .temp, .stream .motor, .stream .levels,
    .stream .zero, .watch, .reading, .spin, .latch, .gap .sense, .gap .control]

/-- Where a step timer stops (R27). -/
def timerTop : Nat := 65535000

/-- The step timers (R27, R29, R33). -/
def State.stepTick (s : State) : State :=
  if s.active then
    let e := { s.engine with
      limitElapsed := min (s.engine.limitElapsed + 1) timerTop
      elapsed := if s.elapsedRuns then min (s.engine.elapsed + 1) timerTop else s.engine.elapsed }
    let s := s.withEngine e
    if s.current.condition = some .time then
      if s.current.duration * 1000 ≤ s.engine.elapsed then s.durationExpires else s
    else if s.current.limit * 1000 ≤ s.engine.limitElapsed then s.limitExpires
    else s
  else s

/-- The setpoint ramp count (R97). -/
def State.rampTick (s : State) : State :=
  if s.rampAdvances then
    if 1000 ≤ s.reg.rampCount + 1 then s.rampSecondExpires
    else s.withReg { s.reg with rampCount := s.reg.rampCount + 1 }
  else s

/-- The phase timer (R118). -/
def State.phaseTick (s : State) : State :=
  match s.stirPhase with
  | none => s
  | some ph =>
    if s.phaseTimed then
      if ph.duration * 100 ≤ s.stir.phaseElapsed + 1 then s.phaseExpires
      else s.withStir { s.stir with phaseElapsed := s.stir.phaseElapsed + 1 }
    else s

/-- The stir ramp count (R120). -/
def State.stirRampTick (s : State) : State :=
  if s.ramping then
    if 100 ≤ s.stir.rampCount + 1 then s.stirRampExpires
    else s.withStir { s.stir with rampCount := s.stir.rampCount + 1 }
  else s

/-- The operation timer of the lock (R133). DESIGN CHOICE (log 45), unsafe: a lock timeout that a LIMITS write has brought to
or below the timer's count expires at the next millisecond. -/
def State.lockTick (s : State) : State :=
  if s.lock.state = .engaging ∨ s.lock.state = .releasing then
    if s.limits.lockTimeout ≤ s.lock.timer + 1 then s.engageExpires.releaseExpires
    else s.withLock { s.lock with timer := s.lock.timer + 1 }
  else s

/-- The cool-down count (R135). -/
def State.coolDownTick (s : State) : State :=
  if 600000 ≤ s.lock.coolDown + 1 then s.coolDownExpires
  else s.withLock { s.lock with coolDown := s.lock.coolDown + 1 }

/-- The time since the last frame of a kind (R140). -/
def State.streamTick (s : State) (k : StreamId) : State :=
  let x := s.intake.stream k
  if x.live then
    if k.deadline ≤ x.since + 1 then s.stall k
    else s.withIntake (s.intake.setStream k { x with since := x.since + 1 })
  else s

/-- The supervision count and the quiet count, of which one runs at a time (R153). -/
def State.watchTick (s : State) : State :=
  if s.ctl.supervision = .running then
    if s.ctl.period ≤ s.ctl.supervisionCount + 1 then s.supervisionExpires
    else s.withCtl { s.ctl with supervisionCount := s.ctl.supervisionCount + 1 }
  else if s.ctl.quietRuns then
    if 2550 ≤ s.ctl.quietCount + 1 then s.quietExpires
    else s.withCtl { s.ctl with quietCount := s.ctl.quietCount + 1 }
  else s

/-- The reading count (R157). -/
def State.readingTick (s : State) : State :=
  if s.limits.readingInterval ≤ s.report.readingCount + 1 then s.readingExpires
  else s.withReport { s.report with readingCount := s.report.readingCount + 1 }

/-- The SPIN refresh timer (R143), which counts on while the frame is marked but not sent (log 34). -/
def State.spinTick (s : State) : State :=
  if s.drive.spinTimer + 1 = 50 then s.spinRefreshExpires
  else s.withDrive { s.drive with spinTimer := s.drive.spinTimer + 1 }

/-- The LATCH refresh timer (R143; log 34). -/
def State.latchTick (s : State) : State :=
  if s.drive.latchTimer + 1 = 100 then s.latchRefreshExpires
  else s.withDrive { s.drive with latchTimer := s.drive.latchTimer + 1 }

/-- One millisecond at one timer, and what follows the event (log 5). -/
def State.timerTick (s : State) (t : Timer) : State :=
  (match t with
  | .step => s.stepTick
  | .ramp => s.rampTick
  | .phase => s.phaseTick
  | .stirRamp => s.stirRampTick
  | .lock => s.lockTick
  | .coolDown => s.coolDownTick
  | .stream k => s.streamTick k
  | .watch => s.watchTick
  | .reading => s.readingTick
  | .spin => s.spinTick
  | .latch => s.latchTick
  | .gap rx => s.gapTick rx).settle

/-! ### One millisecond of the whole timebase (log 1, log 2) -/

/-- The permutation of a list that a number names: the first factor picks the first element, and so on. -/
def permutation {α : Type} : Nat → List α → Nat → List α
  | 0, _, _ => []
  | fuel + 1, l, n =>
    match l[n % l.length]? with
    | none => []
    | some x => x :: permutation fuel (l.eraseIdx (n % l.length)) (n / l.length)

/-- One millisecond at each timer of a list, in its order. -/
def State.tickIn (s : State) (order : List Timer) : State := order.foldl State.timerTick s

/-- One millisecond: every timer once, in the order the free value names. -/
def State.tick (s : State) : State :=
  (s.withChoices (s.choices + 1)).tickIn (permutation allTimers.length allTimers (Config.tickOrder s.choices))

end Sys2Proof.Machine
end

