-- ==== Sys2Proof/Machine/SampleCommands.lean ====
section
/-! DEFINITION. The rows at the sense link, at both receivers and of power-up: reset, discards, byte and sample arrivals. -/

namespace Sys2Proof.Machine

/-- POWER_ON_RESET (R19 and the power-on column of every block). -/
def execPowerOnReset (s : State) : Host.Outcome State Fault Refusal :=
  .next s.powerOn

/-- FRAME_DISCARD (R159; log 6). -/
def execFrameDiscard (rx : Rx) (s : State) : Host.Outcome State Fault Refusal :=
  .next (s.discardFrame rx).settle

/-- RECEIVER_GAP_TIMEOUT (R159). -/
def execReceiverGapTimeout (rx : Rx) (s : State) : Host.Outcome State Fault Refusal :=
  .next (s.gapTimeout rx).settle

/-- SAMPLE_FORM_DISCARD (R139 item 1; discarded silently with rehearsal on, R141). -/
def execSampleFormDiscard (kind : Byte) (payload : List Byte) (s : State) : Host.Outcome State Fault Refusal :=
  .next (s.senseFrame kind payload).settle

/-- WEIGH_ARRIVAL (R69). -/
def execWeighArrival (seq : Byte) (raw : BitVec 24) (s : State) : Host.Outcome State Fault Refusal :=
  .next (s.senseSample seq (.weigh raw.toInt)).settle

/-- TEMP_ARRIVAL (R90): the low 12 bits of each raw field (R161). -/
def execTempArrival (seq : Byte) (base food board : BitVec 16) (s : State) : Host.Outcome State Fault Refusal :=
  .next (s.senseSample seq (.temp (low12 base.toNat) (low12 food.toNat) (low12 board.toNat))).settle

/-- MOTOR_ARRIVAL (R123). -/
def execMotorArrival (seq : Byte) (speed current : BitVec 16) (s : State) : Host.Outcome State Fault Refusal :=
  .next (s.senseSample seq (.motor speed.toNat current.toNat)).settle

/-- LEVELS_ARRIVAL (R127). -/
def execLevelsArrival (seq levels : Byte) (s : State) : Host.Outcome State Fault Refusal :=
  .next (s.senseSample seq (.levels levels)).settle

/-- ZERO_ARRIVAL (R106). -/
def execZeroArrival (seq : Byte) (s : State) : Host.Outcome State Fault Refusal :=
  .next (s.senseSample seq .zero).settle

/-- BYTE_ARRIVAL (R159). -/
def execByteArrival (rx : Rx) (byte : Byte) (s : State) : Host.Outcome State Fault Refusal :=
  .next (s.byteArrives rx byte).settle

end Sys2Proof.Machine
end

