-- ==== Sys2Proof/Machine/TableCommands.lean ====
section
/-! DEFINITION. The request rows but for DO: table writes and reads, queries, INJECT and PASS (log 4). -/

namespace Sys2Proof.Machine

/-- STEP_WRITE (R7). -/
def execStepWrite (tag : Byte) (body : List Byte) (s : State) : Host.Outcome State Fault Refusal :=
  .next (s.request .stepWrite (tag :: body))

/-- STEP_READ (R11). -/
def execStepRead (tag : Byte) (body : List Byte) (s : State) : Host.Outcome State Fault Refusal :=
  .next (s.request .stepRead (tag :: body))

/-- ENTRY_WRITE_LIN (R88). -/
def execEntryWriteLin (tag : Byte) (table : LinTable) (body : List Byte) (s : State) : Host.Outcome State Fault Refusal :=
  .next (s.tableRequest .entryWrite (linCode table) tag body)

/-- ENTRY_WRITE_PATTERN (R115). -/
def execEntryWritePattern (tag : Byte) (body : List Byte) (s : State) : Host.Outcome State Fault Refusal :=
  .next (s.tableRequest .entryWrite 3 tag body)

/-- ENTRY_WRITE_BIND (R130). -/
def execEntryWriteBind (tag : Byte) (body : List Byte) (s : State) : Host.Outcome State Fault Refusal :=
  .next (s.tableRequest .entryWrite 4 tag body)

/-- ENTRY_WRITE_CAL (R68). -/
def execEntryWriteCal (tag : Byte) (body : List Byte) (s : State) : Host.Outcome State Fault Refusal :=
  .next (s.tableRequest .entryWrite 5 tag body)

/-- ENTRY_WRITE_LIMITS (R151). -/
def execEntryWriteLimits (tag : Byte) (body : List Byte) (s : State) : Host.Outcome State Fault Refusal :=
  .next (s.tableRequest .entryWrite 6 tag body)

/-- ENTRY_READ_LIN (R89). -/
def execEntryReadLin (tag : Byte) (table : LinTable) (body : List Byte) (s : State) : Host.Outcome State Fault Refusal :=
  .next (s.tableRequest .entryRead (linCode table) tag body)

/-- ENTRY_READ_PATTERN (R115). -/
def execEntryReadPattern (tag : Byte) (body : List Byte) (s : State) : Host.Outcome State Fault Refusal :=
  .next (s.tableRequest .entryRead 3 tag body)

/-- ENTRY_READ_BIND (R130). -/
def execEntryReadBind (tag : Byte) (body : List Byte) (s : State) : Host.Outcome State Fault Refusal :=
  .next (s.tableRequest .entryRead 4 tag body)

/-- ENTRY_READ_CAL (R68). -/
def execEntryReadCal (tag : Byte) (body : List Byte) (s : State) : Host.Outcome State Fault Refusal :=
  .next (s.tableRequest .entryRead 5 tag body)

/-- ENTRY_READ_LIMITS (R151). -/
def execEntryReadLimits (tag : Byte) (body : List Byte) (s : State) : Host.Outcome State Fault Refusal :=
  .next (s.tableRequest .entryRead 6 tag body)

/-- GET_STATE (R151, Table 12-6). -/
def execGetState (tag : Byte) (body : List Byte) (s : State) : Host.Outcome State Fault Refusal :=
  .next (s.request .getState (tag :: body))

/-- GET_CHAIN (R65). -/
def execGetChain (tag : Byte) (body : List Byte) (s : State) : Host.Outcome State Fault Refusal :=
  .next (s.request .getChain (tag :: body))

/-- INJECT (R141). -/
def execInject (payload : List Byte) (s : State) : Host.Outcome State Fault Refusal :=
  .next (s.request .inject payload)

/-- PASS (R146). -/
def execPass (payload : List Byte) (s : State) : Host.Outcome State Fault Refusal :=
  .next (s.request .pass payload)

end Sys2Proof.Machine
end

