-- ==== Sys2Proof/Machine/TimerCommands.lean ====
section
/-! DEFINITION. The rows of the timebase: each expiry, when its timer runs (log 3). -/

namespace Sys2Proof.Machine

/-- WEIGH_STALL (R140, R72). -/
def execWeighStall (s : State) : Host.Outcome State Fault Refusal :=
  .next (s.stall .weigh).settle

/-- TEMP_STALL (R140, R91). -/
def execTempStall (s : State) : Host.Outcome State Fault Refusal :=
  .next (s.stall .temp).settle

/-- MOTOR_STALL (R140, R123, R135). -/
def execMotorStall (s : State) : Host.Outcome State Fault Refusal :=
  .next (s.stall .motor).settle

/-- LEVELS_STALL (R140, R127). -/
def execLevelsStall (s : State) : Host.Outcome State Fault Refusal :=
  .next (s.stall .levels).settle

/-- MAINS_LOSS (R112, R140). -/
def execMainsLoss (s : State) : Host.Outcome State Fault Refusal :=
  .next (s.stall .zero).settle

/-- STEP_DURATION_EXPIRY (R29). -/
def execStepDurationExpiry (s : State) : Host.Outcome State Fault Refusal :=
  .next s.durationExpires.settle

/-- STEP_LIMIT_EXPIRY (R33). -/
def execStepLimitExpiry (s : State) : Host.Outcome State Fault Refusal :=
  .next s.limitExpires.settle

/-- RAMP_SECOND (R97). -/
def execRampSecond (s : State) : Host.Outcome State Fault Refusal :=
  .next s.rampSecondExpires.settle

/-- PHASE_END (R118). -/
def execPhaseEnd (s : State) : Host.Outcome State Fault Refusal :=
  .next s.phaseExpires.settle

/-- STIR_RAMP_STEP (R120). -/
def execStirRampStep (s : State) : Host.Outcome State Fault Refusal :=
  .next s.stirRampExpires.settle

/-- LOCK_ENGAGE_TIMEOUT (R134, R25). -/
def execLockEngageTimeout (s : State) : Host.Outcome State Fault Refusal :=
  .next s.engageExpires.settle

/-- LOCK_RELEASE_TIMEOUT (R136). -/
def execLockReleaseTimeout (s : State) : Host.Outcome State Fault Refusal :=
  .next s.releaseExpires.settle

/-- COOL_DOWN_COMPLETE (R135). -/
def execCoolDownComplete (s : State) : Host.Outcome State Fault Refusal :=
  .next s.coolDownExpires.settle

/-- SUPERVISION_EXPIRY (R153). -/
def execSupervisionExpiry (s : State) : Host.Outcome State Fault Refusal :=
  .next s.supervisionExpires.settle

/-- HOST_QUIET (R153). -/
def execHostQuiet (s : State) : Host.Outcome State Fault Refusal :=
  .next s.quietExpires.settle

/-- READING_INTERVAL (R157). -/
def execReadingInterval (s : State) : Host.Outcome State Fault Refusal :=
  .next s.readingExpires.settle

/-- SPIN_REFRESH (R143). -/
def execSpinRefresh (s : State) : Host.Outcome State Fault Refusal :=
  .next s.spinRefreshExpires.settle

/-- LATCH_REFRESH (R143). -/
def execLatchRefresh (s : State) : Host.Outcome State Fault Refusal :=
  .next s.latchRefreshExpires.settle

end Sys2Proof.Machine
end

