-- ==== Sys2Proof/Machine/Dispatch.lean ====
section
/-! DEFINITION. The meaning of every command: one arm per row of spec/opcode_table.json. -/

namespace Sys2Proof.Machine

def exec (i : Instr) (s : State) : Host.Outcome State Fault Refusal :=
  match i with
  | .powerOnReset => Sys2Proof.Machine.execPowerOnReset s
  | .frameDiscard rx => Sys2Proof.Machine.execFrameDiscard rx s
  | .receiverGapTimeout rx => Sys2Proof.Machine.execReceiverGapTimeout rx s
  | .sampleFormDiscard kind payload => Sys2Proof.Machine.execSampleFormDiscard kind payload s
  | .weighArrival seq raw => Sys2Proof.Machine.execWeighArrival seq raw s
  | .tempArrival seq base food board => Sys2Proof.Machine.execTempArrival seq base food board s
  | .motorArrival seq speed current => Sys2Proof.Machine.execMotorArrival seq speed current s
  | .levelsArrival seq levels => Sys2Proof.Machine.execLevelsArrival seq levels s
  | .zeroArrival seq => Sys2Proof.Machine.execZeroArrival seq s
  | .weighStall => Sys2Proof.Machine.execWeighStall s
  | .tempStall => Sys2Proof.Machine.execTempStall s
  | .motorStall => Sys2Proof.Machine.execMotorStall s
  | .levelsStall => Sys2Proof.Machine.execLevelsStall s
  | .mainsLoss => Sys2Proof.Machine.execMainsLoss s
  | .stepDurationExpiry => Sys2Proof.Machine.execStepDurationExpiry s
  | .stepLimitExpiry => Sys2Proof.Machine.execStepLimitExpiry s
  | .rampSecond => Sys2Proof.Machine.execRampSecond s
  | .phaseEnd => Sys2Proof.Machine.execPhaseEnd s
  | .stirRampStep => Sys2Proof.Machine.execStirRampStep s
  | .lockEngageTimeout => Sys2Proof.Machine.execLockEngageTimeout s
  | .lockReleaseTimeout => Sys2Proof.Machine.execLockReleaseTimeout s
  | .coolDownComplete => Sys2Proof.Machine.execCoolDownComplete s
  | .supervisionExpiry => Sys2Proof.Machine.execSupervisionExpiry s
  | .hostQuiet => Sys2Proof.Machine.execHostQuiet s
  | .readingInterval => Sys2Proof.Machine.execReadingInterval s
  | .spinRefresh => Sys2Proof.Machine.execSpinRefresh s
  | .latchRefresh => Sys2Proof.Machine.execLatchRefresh s
  | .driveSendComplete => Sys2Proof.Machine.execDriveSendComplete s
  | .upstreamSendComplete => Sys2Proof.Machine.execUpstreamSendComplete s
  | .hostWait => Sys2Proof.Machine.execHostWait s
  | .hostGo => Sys2Proof.Machine.execHostGo s
  | .requestArrival kind payload => Sys2Proof.Machine.execRequestArrival kind payload s
  | .misplacedFrame kind payload => Sys2Proof.Machine.execMisplacedFrame kind payload s
  | .stepWrite tag body => Sys2Proof.Machine.execStepWrite tag body s
  | .stepRead tag body => Sys2Proof.Machine.execStepRead tag body s
  | .entryWriteLin tag table body => Sys2Proof.Machine.execEntryWriteLin tag table body s
  | .entryWritePattern tag body => Sys2Proof.Machine.execEntryWritePattern tag body s
  | .entryWriteBind tag body => Sys2Proof.Machine.execEntryWriteBind tag body s
  | .entryWriteCal tag body => Sys2Proof.Machine.execEntryWriteCal tag body s
  | .entryWriteLimits tag body => Sys2Proof.Machine.execEntryWriteLimits tag body s
  | .entryReadLin tag table body => Sys2Proof.Machine.execEntryReadLin tag table body s
  | .entryReadPattern tag body => Sys2Proof.Machine.execEntryReadPattern tag body s
  | .entryReadBind tag body => Sys2Proof.Machine.execEntryReadBind tag body s
  | .entryReadCal tag body => Sys2Proof.Machine.execEntryReadCal tag body s
  | .entryReadLimits tag body => Sys2Proof.Machine.execEntryReadLimits tag body s
  | .doStart tag arg => Sys2Proof.Machine.execDoStart tag arg s
  | .doPause tag arg => Sys2Proof.Machine.execDoPause tag arg s
  | .doResume tag arg => Sys2Proof.Machine.execDoResume tag arg s
  | .doSkip tag arg => Sys2Proof.Machine.execDoSkip tag arg s
  | .doStop tag arg => Sys2Proof.Machine.execDoStop tag arg s
  | .doExtend tag arg => Sys2Proof.Machine.execDoExtend tag arg s
  | .doTare tag arg => Sys2Proof.Machine.execDoTare tag arg s
  | .doZeroCal tag arg => Sys2Proof.Machine.execDoZeroCal tag arg s
  | .doSpanCal tag arg => Sys2Proof.Machine.execDoSpanCal tag arg s
  | .doClear tag arg => Sys2Proof.Machine.execDoClear tag arg s
  | .doClearNotices tag arg => Sys2Proof.Machine.execDoClearNotices tag arg s
  | .doClearEdges tag arg => Sys2Proof.Machine.execDoClearEdges tag arg s
  | .doClearCapture tag arg => Sys2Proof.Machine.execDoClearCapture tag arg s
  | .doReset tag arg => Sys2Proof.Machine.execDoReset tag arg s
  | .doSupervise tag arg => Sys2Proof.Machine.execDoSupervise tag arg s
  | .doRehearse tag arg => Sys2Proof.Machine.execDoRehearse tag arg s
  | .inject payload => Sys2Proof.Machine.execInject payload s
  | .pass payload => Sys2Proof.Machine.execPass payload s
  | .getState tag body => Sys2Proof.Machine.execGetState tag body s
  | .getChain tag body => Sys2Proof.Machine.execGetChain tag body s
  | .byteArrival rx byte => Sys2Proof.Machine.execByteArrival rx byte s

end Sys2Proof.Machine
end

