-- ==== Sys2Proof/Safety.lean ====
section
/-! DEFINITION. The terms in which claims about the block are stated: what a transmitter's pick leaves alone, what has
been handed to the host or to the power stage, what a timed step start and a frame end leave, and the invariants of a
sound state. -/

namespace Sys2Proof.Machine

/-! ### What a pick leaves alone

The two transmitters pick at the end of every event (R144, R158). A pick clears a mark, or moves a frame from a queue or
lane into transmission, and touches nothing else. The content of a state is the state with marks, lanes, queue and
transmissions put aside. -/

/-- The drive output without marks, PASS queue and transmission: its slots' frames and its refresh timers. -/
def Drive.content (d : Drive) : Drive :=
  { d with heatMarked := false, spinMarked := false, latchMarked := false, passQueue := [], sending := none }

/-- The control link interface without the flow slot. -/
def Control.content (c : Control) : Control := { c with flowSlot := none }

/-- The report unit without announce flag, lanes and transmission. -/
def Report.content (r : Report) : Report :=
  { r with announce := false, answers := [], readings := [], resetAnswer := false, sending := none }

/-- The content of a state. -/
def State.content (s : State) : State :=
  ((s.withDrive s.drive.content).withCtl s.ctl.content).withReport s.report.content

/-! ### What has been handed on -/

/-- An ANSWER is on its way to the host: in the answer lane, or in transmission. -/
def State.answered (s : State) (f : Frame) : Prop := f ∈ s.report.answers ∨ s.report.sending = some f

/-- A READING is on its way to the host: in the reading lane, or in transmission. -/
def State.reports (s : State) (f : Frame) : Prop := f ∈ s.report.readings ∨ s.report.sending = some f

/-- A class newly raised is on its way to the host: announced, or a NOTICE is in transmission (R155, R156). -/
def State.announced (s : State) : Prop := s.report.announce = true ∨ (s.report.sending.map (·.kind)) = some 0x32

/-- No request waits in the command queue. -/
def State.calm (s : State) : Prop := s.ctl.queue = []

/-- No request waits, and the answer lane has room: the next request is taken at once (R150). -/
def State.free (s : State) : Prop := s.ctl.queue = [] ∧ s.report.answers.length < 4

/-- An arriving sequence number makes no gap (R139 item 2). -/
def State.inSequence (s : State) (seq : Byte) : Prop :=
  match s.intake.lastSeq with
  | none => True
  | some l => seq = l + 1

/-- The sense link's frames are taken (rehearsal off), and `seq` makes no gap. -/
def State.senses (s : State) (seq : Byte) : Prop := s.ctl.rehearsal = false ∧ s.inSequence seq

/-- The intake after a frame of a LIVE or STALLED stream with number `seq` (R139). -/
def State.seen (s : State) (k : StreamId) (seq : Byte) : State :=
  s.withIntake { s.intake.setStream k ⟨true, 0⟩ with lastSeq := some seq }

/-- A list of commands carried out one after another. -/
def runCommands : List Instr → State → Host.Outcome State Fault Refusal
  | [], s => .next s
  | c :: rest, s =>
    match exec c s with
    | .next t => runCommands rest t
    | .fault f => .fault f
    | .refused r => .refused r

/-- A request is refused: the answer carries the status and no content of the state changes (R150). -/
def State.refuses (s : State) (c : Instr) (tag : Byte) (status : Status) : Prop :=
  ∃ t, exec c s = .next t ∧ t.content = s.content ∧ t.answered (answerFrame tag status [])

/-- A request is answered OK with `bytes`, and the state becomes that of `x` but for what the picks may move. -/
def State.accepts (s : State) (c : Instr) (tag : Byte) (bytes : List Byte) (x : State) : Prop :=
  ∃ t, exec c s = .next t ∧ t.content = x.content ∧ t.answered (answerFrame tag .ok bytes)

/-- A command leads to the content of `x`. -/
def State.leadsTo (s : State) (c : Instr) (x : State) : Prop := ∃ t, exec c s = .next t ∧ t.content = x.content

/-- One millisecond at a timer leads to the content of `x`. -/
def State.elapses (s : State) (timer : Timer) (x : State) : Prop := (s.timerTick timer).content = x.content

/-- A command leads to exactly `t`. -/
def State.expiresAs (s : State) (c : Instr) (t : State) : Prop := exec c s = .next t

/-! ### Tables of responses -/

/-- The temperature a raw count converts to (R90), by the table's points. -/
def Channel.interpolated (c : Channel) (r : Nat) : Int :=
  c.point (r / 128) + ((c.point (r / 128 + 1) - c.point (r / 128)) * (r % 128 : Nat) + 64) / 128

/-- Table 5-2: what a channel `c` becomes, `d`, at a raw count `r`. -/
def Channel.responds (c : Channel) (r : Nat) (d : Channel) : Prop :=
  (c.faulted = false → 16 ≤ r ∧ r ≤ 4079 → d = { c with value := some (c.interpolated r), outRun := 0 })
    ∧ (c.faulted = false → ¬(16 ≤ r ∧ r ≤ 4079) → c.outRun < 2 → d = { c with outRun := c.outRun + 1 })
    ∧ (c.faulted = false → ¬(16 ≤ r ∧ r ≤ 4079) → 2 ≤ c.outRun → d = { c with faulted := true, outRun := 0, goodRun := 0 })
    ∧ (c.faulted = true → 16 ≤ r ∧ r ≤ 4079 → c.loaded = true → c.goodRun < 2 → d = { c with goodRun := c.goodRun + 1 })
    ∧ (c.faulted = true → 16 ≤ r ∧ r ≤ 4079 → c.loaded = true → 2 ≤ c.goodRun →
        d = { c with faulted := false, value := some (c.interpolated r), outRun := 0, goodRun := 0 })
    ∧ (c.faulted = true → 16 ≤ r ∧ r ≤ 4079 → c.loaded = false → d = c)
    ∧ (c.faulted = true → ¬(16 ≤ r ∧ r ≤ 4079) → d = { c with goodRun := 0 })

/-- R127: what a line `x` becomes, `y`, at a sample with debounce count `d`. -/
def Line.debounced (x : Line) (d : Nat) (sample : Bool) (y : Line) : Prop :=
  (x.level = .ofSample sample → y = { x with agreement := 0 })
    ∧ (x.level ≠ .ofSample sample → x.candidate = sample → x.agreement + 1 < d →
        y = { x with agreement := x.agreement + 1 })
    ∧ (x.level ≠ .ofSample sample → x.candidate = sample → d ≤ x.agreement + 1 →
        y = { level := .ofSample sample, candidate := sample, agreement := 0 })
    ∧ (x.level ≠ .ofSample sample → x.candidate ≠ sample → 1 < d → y = { x with candidate := sample, agreement := 1 })
    ∧ (x.level ≠ .ofSample sample → x.candidate ≠ sample → d ≤ 1 →
        y = { level := .ofSample sample, candidate := sample, agreement := 0 })

/-- The sample of a line in a LEVELS frame (R127). -/
def sampleOf (levels : Byte) (n : LineId) : Bool := levels.getLsbD n.number

/-- A sample completes the acceptance of a new level on line `n` (R127), and every other line agrees with its sample. -/
def State.onlyAccepts (s : State) (n : LineId) (levels : Byte) : Prop :=
  ((s.lines.line n).level ≠ .ofSample (sampleOf levels n) ∧ (s.lines.line n).candidate = sampleOf levels n
      ∧ s.limits.debounce ≤ (s.lines.line n).agreement + 1)
    ∧ ∀ m, m ≠ n → (s.lines.line m).level = .ofSample (sampleOf levels m)

/-- An element with on-count `k` and window `start`, `w` is due at position `c` of a frame of `p` cycles (R107, R108). -/
def elementDue (k start w p c : Nat) : Prop :=
  let j := (((c : Int) - start) % (p : Int)).toNat
  j < w ∧ ∃ m : Nat, k * j < m * w ∧ m * w ≤ k * (j + 1)

/-- The conditions of R110. -/
def State.mayHeat (s : State) : Prop :=
  s.lines.lid.level = .high ∧ s.lines.bowl.level = .high ∧ s.food.faulted = false
    ∧ (s.engine.state = .running ∨ (s.engine.state = .held ∧ s.engine.holds.lid = false
      ∧ s.engine.holds.bowl = false ∧ s.engine.holds.mains = false ∧ s.engine.holds.sensor = false))

/-- What entry to FAULTED leaves (R48): the code, no step, no hold reason, heater 0, motor 0, RELEASE standing, the pool
as it was, FAULT pending. -/
def State.faultedWith (s t : State) (code : FaultCode) : Prop :=
  t.engine.state = .faulted ∧ t.engine.fault = some code ∧ t.engine.phase = .none ∧ t.engine.sub = .none
    ∧ t.engine.elapsed = 0 ∧ t.engine.limitElapsed = 0 ∧ t.engine.reached = false ∧ t.engine.holds = .empty
    ∧ t.engine.index = s.engine.index ∧ t.reg.target = 0 ∧ t.reg.setpoint = 0 ∧ t.stir.commanded = 0
    ∧ t.stir.target = 0 ∧ t.stir.running = none ∧ t.lock.standing = .release ∧ t.weigh.addReference = none
    ∧ t.pool = s.pool ∧ t.report.isPending .fault = true

/-! ### Starts and frame ends -/

/-- The state one cycle before a frame end, with the mains PRESENT and the ZERO stream LIVE. -/
def State.atLastPosition (s : State) : State :=
  ((s.withSched { s.sched with mainsPresent := true, position := s.limits.frameLength - 1 }).withIntake
    { s.intake with lastSeq := none, zero := ⟨true, 0⟩ }).withCtl { s.ctl with queue := [], rehearsal := false }

/-- `g` is the regulator after the frame-end computation at `s` (R98 to R102): the one that the cycle event ending a frame
leaves there. -/
def State.frameEnds (s : State) (g : Regulator) : Prop := ∃ u, exec (.zeroArrival 0) s.atLastPosition = .next u ∧ u.reg = g

/-- The record of a timed step names a pattern without phases (R22). -/
def State.hollow (s : State) (r : StepRecord) : Prop := ∃ p, r.pattern = some p ∧ (s.pattern p).count = 0

/-- The lock need of a step with the clamped target `target` (R24). -/
def State.needsLock (s : State) (r : StepRecord) (target : Nat) : Prop :=
  r.flags.forceLock = true
    ∨ (∃ p, r.pattern = some p ∧ ∃ j, j < (s.pattern p).count ∧ s.limits.lidFreeSpeed < ((s.pattern p).phase j).speed)
    ∨ s.limits.lockTemp < target

/-- A stream relevant to a step start of the record with the clamped target `target` is STALLED (R23, R44). -/
def State.startStalled (s : State) (r : StepRecord) (target : Nat) : Prop :=
  s.intake.levels.live = false ∨ (0 < target ∧ s.intake.temp.live = false)
    ∨ (r.kind = .add ∧ s.intake.weigh.live = false) ∨ (r.pattern.isSome = true ∧ s.intake.motor.live = false)

/-- R22 items 1 to 6: what every timed step start that passes the checks of R22 hands on, `previous` being the previous
target. -/
def State.startHands (s t : State) (i previous : Nat) (r : StepRecord) : Prop :=
  t.engine.index = i ∧ t.engine.clampedTarget = min r.target s.limits.maxFoodTarget
    ∧ t.engine.previousTarget = min r.target s.limits.maxFoodTarget ∧ t.engine.elapsed = 0 ∧ t.engine.limitElapsed = 0
    ∧ t.stir.torqueCount = 0 ∧ t.stir.overloadCap = none ∧ t.weigh.addReference = none
    ∧ t.reg.integrator = (if min r.target s.limits.maxFoodTarget = previous then s.reg.integrator else 0)
    ∧ (r.flags.announce = true → t.report.lastAnnounced = some i ∧ t.report.isPending .step = true)
    ∧ (r.flags.announce = false → t.report.lastAnnounced = s.report.lastAnnounced)

/-- R22 item 4: the target, setpoint and ramp of a step that starts without a hold. -/
def State.startHeats (s t : State) (r : StepRecord) (target : Nat) : Prop :=
  t.reg.target = target ∧ t.reg.rampAccumulator = 0 ∧ t.reg.rampCount = 0
    ∧ (0 < r.ramp ∧ 0 < target → t.reg.ramp = r.ramp
      ∧ ∀ v, s.food.value = some v → t.reg.setpoint = max 0 (min v 400))
    ∧ (r.ramp = 0 ∨ target = 0 → t.reg.ramp = 0 ∧ t.reg.setpoint = target)

/-- Fresh ACTIVE entry (R26, R117): the sub-phase by the kind, and the pattern from its first phase. -/
def State.activeFresh (s t : State) (r : StepRecord) (target : Nat) : Prop :=
  t.engine.phase = .active ∧ t.engine.reached = decide (target = 0)
    ∧ (r.kind = .cook → t.engine.sub = if target = 0 then .reached else .approach)
    ∧ (r.kind = .add → t.engine.sub = .addRef) ∧ (r.kind = .waitUser → t.engine.sub = .waiting)
    ∧ t.stir.running = r.pattern ∧ t.stir.kind = some r.kind ∧ t.stir.phaseIndex = 0 ∧ t.stir.phaseElapsed = 0
    ∧ t.stir.stallRun = 0 ∧ t.stir.overloadRun = 0 ∧ t.stir.blockSum = 0 ∧ t.stir.blockCount = 0
    ∧ t.stir.blockSteady = true ∧ t.stir.commanded ≤ s.stir.commanded
    ∧ (r.pattern = none → t.stir.target = 0 ∧ t.stir.commanded = 0)
    ∧ (∀ p, r.pattern = some p → t.stir.target = t.cappedSpeed ((s.pattern p).phase 0).speed)

/-- What a timed step start at index `i` of the record `r` leaves in `t` (R22 to R26): the faults of its two checks (the
first alone where both fail, log 47) and of a faulted food channel (R93), a hold at once under a standing condition,
a wait in ENTRY for a lock it needs, or ACTIVE. -/
def State.timedStart (s t : State) (i previous : Nat) (r : StepRecord) : Prop :=
  (s.hollow r → (s.withEngine { s.engine with index := i }).faultedWith t .patternEmpty)
    ∧ (¬ s.hollow r → r.kind = .add ∧ s.cal.gain = 0 →
      (s.withEngine { s.engine with index := i }).faultedWith t .uncalibrated)
    ∧ (¬ s.hollow r → ¬ (r.kind = .add ∧ s.cal.gain = 0) → ∀ target, target = min r.target s.limits.maxFoodTarget →
      (0 < target ∧ s.food.faulted = true →
        (s.withEngine { s.engine with index := i }).faultedWith t .foodSensor)
      ∧ (¬ (0 < target ∧ s.food.faulted = true) →
        s.startHands t i previous r
        ∧ (s.sched.mainsPresent = false ∨ s.startStalled r target →
          t.engine.state = .held ∧ t.engine.holds.mains = !s.sched.mainsPresent
            ∧ (t.engine.holds.sensor = true ↔ s.startStalled r target)
            ∧ t.engine.holds = { Holds.empty with mains := t.engine.holds.mains, sensor := t.engine.holds.sensor }
            ∧ t.reg.target = 0 ∧ t.stir.commanded = 0 ∧ t.lock.standing = .release ∧ t.lock.state = s.lock.state
            ∧ t.report.isPending .held = true
            ∧ (∀ slot free, s.pool.free = slot :: free → t.pool.free = free ∧ t.pool.depth = s.pool.depth
              ∧ t.pool.chain.tail = s.pool.chain ∧ (t.pool.chain.head?.map (·.1)) = some slot
              ∧ ∃ h, t.pool.heldRecord = some h ∧ h.index = i ∧ h.phase = .entry ∧ h.sub = .none ∧ h.elapsed = 0
                ∧ h.limitElapsed = 0 ∧ h.reasons = t.engine.holds))
        ∧ (s.sched.mainsPresent = true → ¬ s.startStalled r target →
          t.engine.state = .running ∧ t.engine.holds = .empty ∧ t.pool = s.pool ∧ s.startHeats t r target
            ∧ (t.engine.lockNeed = true ↔ s.needsLock r target)
            ∧ (s.needsLock r target → t.lock.standing = .engage ∧ t.lock.releaseWait = false)
            ∧ (¬ s.needsLock r target → t.lock.standing = .release ∧ t.lock.state = s.lock.state)
            ∧ (s.needsLock r target → s.lock.state ≠ .engaged → t.engine.phase = .entry ∧ t.engine.sub = .none
              ∧ t.engine.reached = false ∧ t.stir.commanded = 0 ∧ t.stir.running = none
              ∧ t.lock.state = if s.lock.state = .released then .engaging else s.lock.state)
            ∧ (¬ s.needsLock r target ∨ s.lock.state = .engaged →
              t.lock.state = s.lock.state ∧ s.activeFresh t r target))))

/-! ### Invariants -/

/-- Whether a record is a CALL record (R53). -/
def Context.isCall : Context → Bool
  | .call _ => true
  | .starved _ _ => false
  | .held _ => false

/-- The pool is sound (R51, R55): the chain holds slots 0 upward from its tail and the free list the rest in order, so
that each slot is on exactly one list; the call depth is the number of CALL records. -/
def Pool.sound (p : Pool) : Prop :=
  (p.chain.map (·.1)).reverse ++ p.free = List.range 12 ∧ p.depth = (p.chain.filter (·.2.isCall)).length

/-- The chain fits the engine state (R56, R60): a SUSPEND record stands only at the head, in HELD always, in FAULTED
perhaps, and in no other state; outside HELD and FAULTED a slot is free. -/
def chainFits : EngineState → Pool → Prop
  | .held, p => p.chain.head?.any (fun x => !x.2.isCall) ∧ ∀ x ∈ p.chain.tail, x.2.isCall
  | .faulted, p => ∀ x ∈ p.chain.tail, x.2.isCall
  | .idle, p => (∀ x ∈ p.chain, x.2.isCall) ∧ p.free ≠ []
  | .running, p => (∀ x ∈ p.chain, x.2.isCall) ∧ p.free ≠ []
  | .ending, p => (∀ x ∈ p.chain, x.2.isCall) ∧ p.free ≠ []

/-- Pool and chain together. -/
def State.poolInv (s : State) : Prop := s.pool.sound ∧ chainFits s.engine.state s.pool

/-- No queue or lane overflows (R146, R147, R157, R158). -/
def State.lanesBounded (s : State) : Prop :=
  s.ctl.queue.length ≤ 16 ∧ s.report.answers.length ≤ 4 ∧ s.report.readings.length ≤ 4 ∧ s.drive.passQueue.length ≤ 4

/-- The weights lie within the range of a report (R75, Table 4-1). -/
def State.weightsInRange (s : State) : Prop :=
  (-20000 ≤ s.weigh.gross ∧ s.weigh.gross ≤ 80000) ∧ (-20000 ≤ s.weigh.net ∧ s.weigh.net ≤ 80000)
    ∧ (-20000 ≤ s.weigh.added ∧ s.weigh.added ≤ 80000) ∧ (-20000 ≤ s.weigh.tare ∧ s.weigh.tare ≤ 80000)

/-- The motor obeys its caps (R119): the slot's SPIN frame carries the commanded speed and direction; the commanded speed
is at most the target, and 0 while a reversal is pending; the target is within the maximum speed, within the lid-free
speed unless the lock is ENGAGED, within the hot-cap speed while the hot cap is in force, within the gate speed
while the step kind is ADD, within the overload cap, and 0 with no pattern running outside RUNNING. -/
def State.speedCapped (s : State) : Prop :=
  s.drive.spinSpeed = s.stir.commanded ∧ s.drive.spinDirection = s.stir.direction
    ∧ s.stir.commanded ≤ s.stir.target ∧ (s.stir.reversal = true → s.stir.commanded = 0)
    ∧ s.stir.target ≤ s.limits.maxSpeed
    ∧ (s.lock.state ≠ .engaged → s.stir.target ≤ s.limits.lidFreeSpeed)
    ∧ (s.hotCapped = true → s.stir.target ≤ s.limits.hotCapSpeed)
    ∧ (s.stir.kind = some .add → s.stir.target ≤ s.cal.gateSpeed)
    ∧ (∀ c, s.stir.overloadCap = some c → s.stir.target ≤ c)
    ∧ (s.engine.state ≠ .running → s.stir.target = 0 ∧ s.stir.running = none)

/-- What the host has loaded passed its validation (R8, R115, R151), and a stored target is at most 400 (R4). -/
def State.tablesValid (s : State) : Prop :=
  (∀ i, (s.step i).valid = true ∧ (s.step i).target ≤ 400) ∧ (∀ i, (s.pattern i).valid = true) ∧ s.limits.valid = true

/-- A receiver is well formed (R159): in PAYLOAD it has fewer bytes than the length, in CHECK all of them, and the length
is at most 64. -/
def Receiver.sound (x : Receiver) : Prop :=
  match x.state with
  | .hunt => True
  | .kind => True
  | .length => True
  | .payload => x.payload.length < x.length ∧ x.length ≤ 64
  | .check => x.payload.length = x.length ∧ x.length ≤ 64

/-- The mains state is that of the ZERO stream (R112, R113). -/
def State.mainsFollowZero (s : State) : Prop := s.sched.mainsPresent = s.intake.zero.live

end Sys2Proof.Machine
end

