-- ==== Sys2Proof/Certificates/Slice0/Obligations.lean ====
section
/-! DEFINITION. The statements for the provers. Each is named by what it states; OBLIGATIONS.json lists them. -/

open Sys2Proof Sys2Proof.Machine

/-- A step runs the front command. With a command at the front of the pending queue, a step answers exactly what exec
answers for that command on the state with the rest of the queue. -/
def Obligations.FrontCommandRuns : Prop :=
  ∀ (c : Instr) (rest : List Instr) (s : State),
    step (s.withPending (c :: rest)) = exec c (s.withPending rest)

/-- A step on an empty queue is one millisecond of every timer, and what that is at each. On an empty pending queue a
step counts one choice and takes one millisecond at each of the seventeen timers, each exactly once, in some order.
That an empty queue passes a millisecond, and that the order is open, are the model's choices (log 1 and log 2). At
a timer that runs, a millisecond before the last raises its count by one and changes nothing else: the step timers,
the phase timer, the lock operation timer, the cool-down count, the time of a LIVE stream, the supervision and quiet
counts, the reading count, the refresh timers, the gap count of a receiver outside HUNT. The millisecond that brings
the count to its end does exactly what the row of that expiry does (log 3; a count a write left at or above its end
expires at the next one, log 45). At a timer that does not run a millisecond changes nothing. What the transmitters'
picks move at the end of an event (log 5) is put aside. The ramps stand in RampSecond and StirPhaseAndRamp. -/
def Obligations.EmptyQueueIsOneMillisecond : Prop :=
  (∀ s : State, ∃ order : List Timer, order.Perm allTimers ∧
    step (s.withPending []) = .next (((s.withPending []).withChoices (s.choices + 1)).tickIn order)) ∧
  ∀ (s : State), s.calm →
    (s.active = false → s.elapses .step s) ∧
    (∀ e : Engine, s.active = true → e = { s.engine with
        elapsed := if s.elapsedRuns then min (s.engine.elapsed + 1) 65535000 else s.engine.elapsed
        limitElapsed := min (s.engine.limitElapsed + 1) 65535000 } →
      (s.current.condition = some .time →
        (e.elapsed < s.current.duration * 1000 → s.elapses .step (s.withEngine e)) ∧
        (s.current.duration * 1000 ≤ e.elapsed → (s.withEngine e).expiresAs .stepDurationExpiry (s.timerTick .step))) ∧
      (s.current.condition ≠ some .time →
        (s.current.limit = 0 ∨ e.limitElapsed < s.current.limit * 1000 → s.elapses .step (s.withEngine e)) ∧
        (0 < s.current.limit → s.current.limit * 1000 ≤ e.limitElapsed →
          (s.withEngine e).expiresAs .stepLimitExpiry (s.timerTick .step)))) ∧
    (s.phaseTimed = false → s.elapses .phase s) ∧
    (∀ ph, s.phaseTimed = true → s.stirPhase = some ph →
      (s.stir.phaseElapsed + 1 < ph.duration * 100 →
        s.elapses .phase (s.withStir { s.stir with phaseElapsed := s.stir.phaseElapsed + 1 })) ∧
      (ph.duration * 100 ≤ s.stir.phaseElapsed + 1 → s.expiresAs .phaseEnd (s.timerTick .phase))) ∧
    (s.lock.state ≠ .engaging → s.lock.state ≠ .releasing → s.elapses .lock s) ∧
    (s.lock.state = .engaging ∨ s.lock.state = .releasing → s.lock.timer + 1 < s.limits.lockTimeout →
      s.elapses .lock (s.withLock { s.lock with timer := s.lock.timer + 1 })) ∧
    (s.limits.lockTimeout ≤ s.lock.timer + 1 →
      (s.lock.state = .engaging → s.expiresAs .lockEngageTimeout (s.timerTick .lock)) ∧
      (s.lock.state = .releasing → s.expiresAs .lockReleaseTimeout (s.timerTick .lock))) ∧
    (s.lock.coolDown + 1 < 600000 →
      s.elapses .coolDown (s.withLock { s.lock with coolDown := s.lock.coolDown + 1 })) ∧
    (s.lock.coolDown + 1 = 600000 → s.expiresAs .coolDownComplete (s.timerTick .coolDown)) ∧
    (600000 ≤ s.lock.coolDown → s.elapses .coolDown s) ∧
    (∀ (k : StreamId) (c : Instr), (k, c) ∈ [(StreamId.weigh, Instr.weighStall), (.temp, .tempStall),
        (.motor, .motorStall), (.levels, .levelsStall), (.zero, .mainsLoss)] →
      ((s.intake.stream k).live = false → s.elapses (.stream k) s) ∧
      ((s.intake.stream k).live = true → (s.intake.stream k).since + 1 < k.deadline →
        s.elapses (.stream k) (s.withIntake (s.intake.setStream k ⟨true, (s.intake.stream k).since + 1⟩))) ∧
      ((s.intake.stream k).live = true → k.deadline ≤ (s.intake.stream k).since + 1 →
        s.expiresAs c (s.timerTick (.stream k)))) ∧
    (s.ctl.supervision = .running →
      (s.ctl.supervisionCount + 1 < s.ctl.period →
        s.elapses .watch (s.withCtl { s.ctl with supervisionCount := s.ctl.supervisionCount + 1 })) ∧
      (s.ctl.period ≤ s.ctl.supervisionCount + 1 → s.expiresAs .supervisionExpiry (s.timerTick .watch))) ∧
    (s.ctl.supervision = .disarmed → s.ctl.quietRaised = false →
      (s.ctl.quietCount + 1 < 2550 → s.elapses .watch (s.withCtl { s.ctl with quietCount := s.ctl.quietCount + 1 })) ∧
      (2550 ≤ s.ctl.quietCount + 1 → s.expiresAs .hostQuiet (s.timerTick .watch))) ∧
    (s.ctl.supervision = .expired ∨ (s.ctl.supervision = .disarmed ∧ s.ctl.quietRaised = true) → s.elapses .watch s) ∧
    (s.report.readingCount + 1 < s.limits.readingInterval →
      s.elapses .reading (s.withReport { s.report with readingCount := s.report.readingCount + 1 })) ∧
    (s.limits.readingInterval ≤ s.report.readingCount + 1 → s.expiresAs .readingInterval (s.timerTick .reading)) ∧
    (s.drive.spinTimer + 1 ≠ 50 → s.elapses .spin (s.withDrive { s.drive with spinTimer := s.drive.spinTimer + 1 })) ∧
    (s.drive.spinTimer + 1 = 50 → s.expiresAs .spinRefresh (s.timerTick .spin)) ∧
    (s.drive.latchTimer + 1 ≠ 100 →
      s.elapses .latch (s.withDrive { s.drive with latchTimer := s.drive.latchTimer + 1 })) ∧
    (s.drive.latchTimer + 1 = 100 → s.expiresAs .latchRefresh (s.timerTick .latch)) ∧
    (∀ (rx : Rx) (x : Receiver), x = s.receiver rx →
      (x.state = .hunt → s.elapses (.gap rx) s) ∧
      (x.state ≠ .hunt → x.gap + 1 < 3 → s.elapses (.gap rx) (s.setReceiver rx { x with gap := x.gap + 1 })) ∧
      (x.state ≠ .hunt → 3 ≤ x.gap + 1 → s.expiresAs (.receiverGapTimeout rx) (s.timerTick (.gap rx))))

/-- Power-on reset puts every block at its power-on value. POWER_ON_RESET answers the power-on state with the waiting
commands and the model's choice counter kept (log 29); in it the engine is IDLE, the free list is 0 to 11, every
stream is STALLED, the mains are LOST, SPIN 0 is in transmission with LATCH REST to be sent behind it, only RESTART
is pending, and its NOTICE is in transmission (both picks belong to the reset, log 27). -/
def Obligations.PowerOnReset : Prop :=
  ∀ s : State, ∃ t : State, exec .powerOnReset s = .next t ∧
    t = (State.reset.withPending s.pending).withChoices s.choices ∧
    t.engine.state = .idle ∧ t.pool.free = List.range 12 ∧ t.pool.chain = [] ∧ t.pool.depth = 0 ∧
    (∀ k, (t.intake.stream k).live = false) ∧ t.intake.lastSeq = none ∧ t.sched.mainsPresent = false ∧
    t.drive.sending = some (.spin 0 .fwd) ∧ t.drive.spinMarked = false ∧ t.drive.spinSpeed = 0 ∧ t.drive.latchMarked = true ∧ t.drive.latch = .rest ∧
    t.drive.heat = none ∧ t.report.pendingSet = Notice.restart.mask ∧
    t.report.announce = false ∧ t.report.sending = some ⟨0x32, [0, 1, 0, 0, 0xFF, 0xFF]⟩ ∧ t.ctl.permission = .go ∧
    t.cal.gain = 0 ∧ t.weigh.status = .noData ∧ t.lock.state = .unknown ∧ t.lock.standing = .release ∧
    t.ctl.supervision = .disarmed ∧ t.ctl.queue = [] ∧ (∀ i, (t.step i).kind = .empty)

/-- DO RESET resets the blocks and keeps what the host loaded. DO RESET taken with an empty answer lane empties the
lanes, the pool and the PASS queue, returns the engine to IDLE with heater 0, motor 0 and RELEASE standing, leaves
RESTART alone pending, turns rehearsal off, keeps the tables, records, channels, streams, tare and held weights, and
is answered OK. The lock keeps its state, RELEASING too (R137; that no judgement is made there is log 46). A request
row is a request taken at once (log 4). -/
def Obligations.SoftReset : Prop :=
  ∀ (tag : Byte) (s : State), s.calm → s.report.answers = [] →
    ∃ t, exec (.doReset tag []) s = .next t ∧ t.answered (answerFrame tag .ok []) ∧
      t.engine = .reset ∧ t.pool = .rebuilt ∧ t.reg = .reset ∧ t.report.pendingSet = Notice.restart.mask ∧
      t.report.readings = [] ∧ t.report.readingCount = 0 ∧ t.report.lastAnnounced = none ∧
      t.ctl.queue = [] ∧ t.ctl.overrun = false ∧ t.ctl.rehearsal = false ∧ t.ctl.signalled = .go ∧
      t.ctl.permission = s.ctl.permission ∧ t.ctl.period = s.ctl.period ∧
      (t.ctl.supervision = if s.ctl.supervision = .disarmed then .disarmed else .running) ∧
      t.drive.passQueue = [] ∧ t.drive.spinSpeed = 0 ∧ t.stir.commanded = 0 ∧ t.stir.running = none ∧
      t.stir.direction = s.stir.direction ∧ t.stir.lastDirection = s.stir.lastDirection ∧
      t.stir.reversal = s.stir.reversal ∧ t.stir.speed = 0 ∧ t.stir.slowRun = 0 ∧
      t.lock.standing = .release ∧ t.lock.state = s.lock.state ∧
      t.lock.releaseWait = decide (s.lock.state = .engaged) ∧ t.lock.coolDown = s.lock.coolDown ∧
      t.weigh.status = .noData ∧ t.weigh.stable = false ∧ t.weigh.anchor = none ∧ t.weigh.blockCount = 0 ∧
      t.weigh.addReference = none ∧ t.weigh.tarePending = false ∧ t.weigh.gateClosed = false ∧
      t.weigh.tare = s.weigh.tare ∧ t.weigh.gross = s.weigh.gross ∧ t.weigh.net = s.weigh.net ∧
      t.weigh.added = s.weigh.added ∧ t.weigh.average = s.weigh.average ∧
      t.sched = { s.sched with kB := 0, kS := 0 } ∧ t.intake = { s.intake with lastSeq := none } ∧
      t.lines.edges = 0 ∧ t.lines.capture = none ∧ t.lines.bindings = s.lines.bindings ∧
      (∀ n, (t.lines.line n).level = (s.lines.line n).level ∧ (t.lines.line n).agreement = 0) ∧
      t.steps = s.steps ∧ t.patterns = s.patterns ∧ t.cal = s.cal ∧ t.limits = s.limits ∧
      t.base = s.base ∧ t.food = s.food ∧ t.board = s.board ∧ t.senseRx = s.senseRx ∧ t.ctlRx = s.ctlRx ∧
      t.pending = s.pending

/-- Every step keeps the context pool sound. If the chain holds slots 0 upward from its tail and the free list the rest
in order, the depth counts the CALL records, a SUSPEND record stands only at the head and only in HELD (always) or
FAULTED, and a slot is free outside HELD and FAULTED, then the same holds after any step, whatever the front
command, or the millisecond passed on an empty queue. -/
def Obligations.StepKeepsPool : Prop :=
  ∀ s t : State, s.poolInv → step s = .next t → t.poolInv

/-- No queue or lane ever overflows. If the command queue holds at most sixteen requests and the answer lane, the
reading lane and the PASS queue at most four each, then so they do after any step. -/
def Obligations.StepKeepsLanes : Prop :=
  ∀ s t : State, s.lanesBounded → step s = .next t → t.lanesBounded

/-- The motor is never commanded above a cap in force. If the SPIN slot carries the commanded speed and direction, the
commanded speed is at most the target and 0 while a reversal is pending, and the target is within the maximum speed,
within the lid-free speed unless the lock is ENGAGED, within the hot-cap speed while the food is hot or its channel
faulted, within the gate speed while the step kind is ADD, within the overload cap, and 0 with no pattern running
outside RUNNING, then the same holds after any step. A frame whose transmission began before a cap came into force
is sent whole and is not spoken of. -/
def Obligations.StepKeepsSpeedCaps : Prop :=
  ∀ s t : State, s.speedCapped → step s = .next t → t.speedCapped

/-- Weights stay in range and stored records stay valid. If gross, net, added and tare lie within -20,000 to 80,000
decigrams, then so they do after any step. If every step record is structurally valid with a target of at most 400,
every pattern is within its ranges and the limits record is within its ranges, then the same holds after any step. -/
def Obligations.StepKeepsWeightsAndRecords : Prop :=
  (∀ s t : State, s.weightsInRange → step s = .next t → t.weightsInRange) ∧
  (∀ s t : State, s.tablesValid → step s = .next t → t.tablesValid)

/-- Each table, record, sample and receiver is changed by its own commands alone. With no request waiting, a well-formed
command other than POWER_ON_RESET, REQUEST_ARRIVAL and BYTE_ARRIVAL (which carry a whole reset, request or frame)
leaves the waiting commands as they were, and leaves unchanged: the step table unless it is STEP_WRITE or DO EXTEND;
the patterns, the calibration record, the limits record, the bindings unless it is their ENTRY_WRITE (or a
calibration command); the temperature channels unless it is a LIN write, a TEMP arrival or INJECT; average, gross
weight and tare unless it is a WEIGH arrival, INJECT or TARE; the debounced levels, the measured speed and the mains
state unless it is their arrival, INJECT, the mains loss or, for the speed, RESET; rehearsal, host permission and
supervision period unless it is the command that sets them; the receivers unless it discards a frame. While the base
channel is faulted, base cut is left alone by every such command but RESET, whatever the held value (R100 says both
that it does not change and that the held value decides it; log 17). -/
def Obligations.OnlyItsOwnCommandsChange : Prop :=
  ∀ (c : Instr) (s t : State), s.calm → c.wellFormed = true → c ≠ .powerOnReset →
    (∀ kind payload, c ≠ .requestArrival kind payload) →
    (∀ rx b, c ≠ .byteArrival rx b) → exec c s = .next t →
    t.pending = s.pending ∧
    ((∀ tag body, c ≠ .stepWrite tag body) → (∀ tag arg, c ≠ .doExtend tag arg) → t.steps = s.steps) ∧
    ((∀ tag body, c ≠ .entryWritePattern tag body) → t.patterns = s.patterns) ∧
    ((∀ tag body, c ≠ .entryWriteCal tag body) → (∀ tag arg, c ≠ .doZeroCal tag arg) →
      (∀ tag arg, c ≠ .doSpanCal tag arg) → t.cal = s.cal) ∧
    ((∀ tag body, c ≠ .entryWriteLimits tag body) → t.limits = s.limits) ∧
    ((∀ tag body, c ≠ .entryWriteBind tag body) → t.lines.bindings = s.lines.bindings) ∧
    ((∀ tag arg, c ≠ .doReset tag arg) → (∀ tag arg, c ≠ .doRehearse tag arg) → t.ctl.rehearsal = s.ctl.rehearsal) ∧
    (c ≠ .hostWait → c ≠ .hostGo → t.ctl.permission = s.ctl.permission) ∧
    ((∀ tag arg, c ≠ .doSupervise tag arg) → t.ctl.period = s.ctl.period) ∧
    ((∀ rx, c ≠ .frameDiscard rx) → (∀ rx, c ≠ .receiverGapTimeout rx) → t.senseRx = s.senseRx ∧ t.ctlRx = s.ctlRx) ∧
    ((∀ tag arg, c ≠ .doReset tag arg) → s.base.faulted = true → t.reg.baseCut = s.reg.baseCut) ∧
    ((∀ payload, c ≠ .inject payload) →
      ((∀ seq b f h, c ≠ .tempArrival seq b f h) → (∀ tag table body, c ≠ .entryWriteLin tag table body) →
        t.base = s.base ∧ t.food = s.food ∧ t.board = s.board) ∧
      ((∀ seq raw, c ≠ .weighArrival seq raw) → t.weigh.average = s.weigh.average ∧ t.weigh.gross = s.weigh.gross ∧
        ((∀ tag arg, c ≠ .doTare tag arg) → t.weigh.tare = s.weigh.tare)) ∧
      ((∀ seq levels, c ≠ .levelsArrival seq levels) → ∀ n, (t.lines.line n).level = (s.lines.line n).level) ∧
      ((∀ seq v i, c ≠ .motorArrival seq v i) → (∀ tag arg, c ≠ .doReset tag arg) → t.stir.speed = s.stir.speed) ∧
      (c ≠ .mainsLoss → (∀ seq, c ≠ .zeroArrival seq) → t.sched.mainsPresent = s.sched.mainsPresent))

/-- Receivers stay well formed and the mains state follows the ZERO stream. If both receivers are well formed (in
PAYLOAD fewer bytes than the length, in CHECK all of them, lengths at most 64) and the mains are PRESENT exactly
while the ZERO stream is LIVE, then the same holds after any step. -/
def Obligations.StepKeepsReceiversAndMains : Prop :=
  (∀ s t : State, s.senseRx.sound → s.ctlRx.sound → step s = .next t → t.senseRx.sound ∧ t.ctlRx.sound) ∧
  (∀ s t : State, s.mainsFollowZero → step s = .next t → t.mainsFollowZero)

/-- The power-on state satisfies every invariant. At State.reset the pool is sound and fits IDLE, no lane overflows, the
motor obeys its caps, the weights are in range, the stored records are valid, both receivers are well formed, and
the mains are LOST with the ZERO stream STALLED. -/
def Obligations.ResetSatisfiesInvariants : Prop :=
  State.reset.poolInv ∧ State.reset.lanesBounded ∧ State.reset.speedCapped ∧ State.reset.weightsInRange ∧
  State.reset.tablesValid ∧ State.reset.senseRx.sound ∧ State.reset.ctlRx.sound ∧ State.reset.mainsFollowZero

/-- The latch command becomes RELEASE only while the unlock conditions hold. For every command, with no request waiting
in the command queue: if the latch command becomes RELEASE, then the unlock conditions hold in the state the command
leaves; and so it is for one millisecond of the timebase. -/
def Obligations.LatchReleaseNeedsUnlock : Prop :=
  ∀ s t : State, s.calm → step s = .next t → s.lock.latch ≠ .release → t.lock.latch = .release →
    t.unlockConditions = true

/-- The bytes of a frame deliver that frame. For every frame with a payload of at most 64 bytes, in a state in which
nothing is left to pick or to take and the receiver is in HUNT, the arrivals of the frame's bytes (start byte, kind,
length, payload, check) one after another have the effect of the frame being delivered: no bit of an encoding is
dropped between sender and receiver. -/
def Obligations.FrameBytesDeliver : Prop :=
  ∀ (rx : Rx) (f : Frame) (s : State), s.settle = s → (s.receiver rx).state = .hunt → f.payload.length ≤ 64 →
    runCommands (f.bytes.map (Instr.byteArrival rx)) s
      = .next ((s.setReceiver rx .hunting).deliverFrame rx f).settle

/-- A step record read from its own bytes is that record. Every record whose fields lie in their ranges (16-bit target,
duration, limit and amount, 8-bit ramp, tolerance, routine and repeats, a pattern of 0 to 15, routine and repeats 0
outside CALL) is read back unchanged from the sixteen bytes that encode it. -/
def Obligations.StepRecordRoundTrip : Prop :=
  ∀ r : StepRecord, r.target < 65536 → r.ramp < 256 → (∀ p, r.pattern = some p → p < 16) → r.duration < 65536 →
    r.limit < 65536 → r.amount < 65536 → r.tolerance < 256 → r.routine < 256 → r.repeats < 256 →
    (r.kind ≠ .call → r.routine = 0 ∧ r.repeats = 0) →
    r.encode.length = 16 ∧ readStep r.encode = some r

/-- Calibration, limits and pattern records are read back from their own bytes. A calibration record, a limits record
and a pattern entry whose fields fit their widths are read back unchanged from the 13, 44 and 42 bytes that encode
them. -/
def Obligations.TableRecordRoundTrips : Prop :=
  (∀ c : Calibration, -8388608 ≤ c.zero → c.zero ≤ 8388607 → c.gain < 65536 → -128 ≤ c.drift → c.drift ≤ 127 →
    -32768 ≤ c.tcal → c.tcal ≤ 32767 → c.blockLength < 256 → c.band < 256 → c.countM < 256 → c.gateSpeed < 65536 →
    c.encode.length = 13 ∧ readCalibration c.encode = c) ∧
  (∀ l : Limits, l.valid = true → l.kp < 256 → l.ki < 256 → l.hardMargin < 256 → l.derateBand < 256 →
    l.overloadCurrent < 65536 → l.encode.length = 44 ∧ readLimits l.encode = l) ∧
  (∀ p : Pattern, p.count < 256 → p.loop < 256 →
    (∀ i, i < 8 → (p.phase i).speed < 65536 ∧ (p.phase i).duration < 256 ∧ (p.phase i).acceleration < 256) →
    p.encode.length = 42 ∧ readPatternEntry p.encode = p)

/-- The check byte detects any one wrong byte. The check over a run of bytes followed by its own check is 0, and two
runs that differ in exactly one byte have different checks. -/
def Obligations.CheckDetectsOneByte : Prop :=
  (∀ bytes : List Byte, crc (bytes ++ [crc bytes]) = 0) ∧
  (∀ (front back : List Byte) (a b : Byte), a ≠ b → crc (front ++ a :: back) ≠ crc (front ++ b :: back))

/-- A discarded frame returns its receiver to HUNT, with LINK on the control link alone. FRAME_DISCARD, and
RECEIVER_GAP_TIMEOUT of a receiver that is mid-frame, return the receiver to HUNT and raise LINK for the
control-link receiver, and change nothing else; a gap timeout of a receiver in HUNT changes nothing (log 3). That
FRAME_DISCARD acts in whatever state the receiver is, HUNT included, is the model's choice (log 6), and so is the
gap count 0 after a discard (log 11). What the transmitters' picks move at the end of an event (log 5) is put aside. -/
def Obligations.ReceiverDiscards : Prop :=
  ∀ s : State, s.calm →
    s.leadsTo (.frameDiscard .sense) (s.withSenseRx .hunting) ∧
    s.leadsTo (.frameDiscard .control) ((s.withCtlRx .hunting).raise .link) ∧
    s.leadsTo (.receiverGapTimeout .sense) (if s.senseRx.state = .hunt then s else s.withSenseRx .hunting) ∧
    s.leadsTo (.receiverGapTimeout .control)
      (if s.ctlRx.state = .hunt then s else (s.withCtlRx .hunting).raise .link)

/-- What a byte does in each receiver state. A byte in HUNT is ignored unless it is 0xC3; in KIND it is kept as the
kind; in LENGTH a value above 64 discards the frame, 0 goes to CHECK and any other to PAYLOAD; in PAYLOAD it is kept
and the last one goes to CHECK; in CHECK a match delivers the frame and a mismatch discards it; the gap count
becomes 0 in every case. What the transmitters' picks move at the end of an event (log 5) is put aside. -/
def Obligations.ByteArrivalByState : Prop :=
  ∀ (rx : Rx) (b : Byte) (s : State) (x : Receiver), s.calm → x = s.receiver rx →
    (x.state = .hunt → b ≠ 0xC3 → s.leadsTo (.byteArrival rx b) (s.setReceiver rx { x with gap := 0 })) ∧
    (x.state = .hunt → b = 0xC3 →
      s.leadsTo (.byteArrival rx b) (s.setReceiver rx { Receiver.hunting with state := .kind })) ∧
    (x.state = .kind →
      s.leadsTo (.byteArrival rx b) (s.setReceiver rx { x with state := .length, kind := b, gap := 0 })) ∧
    (x.state = .length → 64 < b.toNat → s.leadsTo (.byteArrival rx b) (s.discardFrame rx)) ∧
    (x.state = .length → b.toNat = 0 →
      s.leadsTo (.byteArrival rx b) (s.setReceiver rx { x with state := .check, length := 0, payload := [], gap := 0 })) ∧
    (x.state = .length → 0 < b.toNat → b.toNat ≤ 64 → s.leadsTo (.byteArrival rx b)
      (s.setReceiver rx { x with state := .payload, length := b.toNat, payload := [], gap := 0 })) ∧
    (x.state = .payload → x.payload.length + 1 < x.length →
      s.leadsTo (.byteArrival rx b) (s.setReceiver rx { x with payload := x.payload ++ [b], gap := 0 })) ∧
    (x.state = .payload → x.length ≤ x.payload.length + 1 → s.leadsTo (.byteArrival rx b)
      (s.setReceiver rx { x with state := .check, payload := x.payload ++ [b], gap := 0 })) ∧
    (x.state = .check → b ≠ crc (x.kind :: byte x.length :: x.payload) →
      s.leadsTo (.byteArrival rx b) (s.discardFrame rx)) ∧
    (x.state = .check → b = crc (x.kind :: byte x.length :: x.payload) →
      exec (.byteArrival rx b) s = .next ((s.setReceiver rx .hunting).deliverFrame rx ⟨x.kind, x.payload⟩).settle)

/-- Frames of the wrong form raise LINK alone, and in rehearsal every sense-link frame is discarded silently. With
rehearsal off, a frame of an unknown kind or a wrong length raises LINK and changes nothing else. With rehearsal on,
that frame and every WEIGH, TEMP, MOTOR, LEVELS and ZERO frame of the sense link change nothing. What the
transmitters' picks move at the end of an event (log 5) is put aside. -/
def Obligations.SenseDiscards : Prop :=
  ∀ s : State, s.calm →
    (∀ (kind : Byte) (payload : List Byte), (Instr.sampleFormDiscard kind payload).wellFormed = true →
      s.leadsTo (.sampleFormDiscard kind payload) (if s.ctl.rehearsal then s else s.raise .link)) ∧
    (s.ctl.rehearsal = true → ∀ (seq levels : Byte) (raw : BitVec 24) (a b c : BitVec 16),
      s.leadsTo (.weighArrival seq raw) s ∧ s.leadsTo (.tempArrival seq a b c) s ∧
      s.leadsTo (.motorArrival seq a b) s ∧ s.leadsTo (.levelsArrival seq levels) s ∧ s.leadsTo (.zeroArrival seq) s)

/-- Every arrival marks its stream LIVE, and a sequence gap raises LINK and discards the weighing block. With rehearsal
off, each of the five arrivals sets its stream LIVE with time 0 and records the sequence number. When the last
number is present and the new one is not one more, LINK is pending (at the first WEIGH frame after a WEIGH stall
too, log 50), and at an arrival other than WEIGH the weighing block, the stability count and the anchor are gone;
tables, records, calibration, limits and receivers are unchanged. What the transmitters' picks move at the end of an
event (log 5) is put aside. -/
def Obligations.ArrivalAtIntake : Prop :=
  ∀ (s : State) (seq levels : Byte) (raw : BitVec 24) (a b c : BitVec 16), s.calm → s.ctl.rehearsal = false →
    ∀ (k : StreamId) (i : Instr),
      (k, i) ∈ [(StreamId.weigh, Instr.weighArrival seq raw), (.temp, .tempArrival seq a b c),
        (.motor, .motorArrival seq a b), (.levels, .levelsArrival seq levels), (.zero, .zeroArrival seq)] →
      ∃ t, exec i s = .next t ∧ t.intake = (s.seen k seq).intake ∧
        (¬ s.inSequence seq → t.report.isPending .link = true ∧
          (k ≠ .weigh → t.weigh.blockSum = 0 ∧ t.weigh.blockCount = 0 ∧ t.weigh.stability = 0 ∧
            t.weigh.stable = false ∧ t.weigh.anchor = none)) ∧
        t.steps = s.steps ∧ t.patterns = s.patterns ∧ t.cal = s.cal ∧ t.limits = s.limits ∧
        t.senseRx = s.senseRx ∧ t.ctlRx = s.ctlRx ∧ t.pending = s.pending ∧ t.ctl.content = s.ctl.content

/-- A WEIGH sample is gated, saturated, or added to its block. With the measured speed above the gate speed the sample
is dropped, and with the gate OPEN the gate closes, the block is discarded and the status becomes GATED. Otherwise
the gate is OPEN; a saturated sample discards the block with status OVERLOAD; any other sample is added to the
block, which is not yet complete. Nothing else changes. What the transmitters' picks move at the end of an event
(log 5) is put aside. -/
def Obligations.WeighSampleTaken : Prop :=
  ∀ (s : State) (seq : Byte) (raw : BitVec 24),
    s.calm → s.senses seq → (s.intake.weigh.live = true ∨ s.engine.state ≠ .held) →
    (s.cal.gateSpeed < s.stir.speed → s.weigh.gateClosed = true →
      s.leadsTo (.weighArrival seq raw) (s.seen .weigh seq)) ∧
    (s.cal.gateSpeed < s.stir.speed → s.weigh.gateClosed = false →
      s.leadsTo (.weighArrival seq raw) ((s.seen .weigh seq).withWeigh { s.weigh with
        gateClosed := true, blockSum := 0, blockCount := 0, stability := 0, stable := false, anchor := none,
        status := .gated })) ∧
    (s.stir.speed ≤ s.cal.gateSpeed → (raw.toInt = -8388608 ∨ raw.toInt = 8388607) →
      s.leadsTo (.weighArrival seq raw) ((s.seen .weigh seq).withWeigh { s.weigh with
        gateClosed := false, blockSum := 0, blockCount := 0, stability := 0, stable := false, anchor := none,
        status := .overload })) ∧
    (s.stir.speed ≤ s.cal.gateSpeed → raw.toInt ≠ -8388608 → raw.toInt ≠ 8388607 →
      s.weigh.blockCount + 1 < s.cal.blockLength →
      s.leadsTo (.weighArrival seq raw) ((s.seen .weigh seq).withWeigh { s.weigh with
        gateClosed := false, blockSum := s.weigh.blockSum + raw.toInt, blockCount := s.weigh.blockCount + 1 }))

/-- The last sample of a block forms an output. At the arrival that completes a block, outside an ADD step in ACTIVE,
the latest average is the rounded mean less the rounded drift correction; with a gain, gross is the rounded scaled
offset clamped to the range, the stability test runs on it, a pending tare is taken if stable, net and added are
formed and clamped, and the status is CLAMPED or VALID; with gain 0 the weights are held, the test runs on the
average and the status is UNCALIBRATED. The block is empty again and nothing outside the weighing channel and the
intake changes. What the transmitters' picks move at the end of an event (log 5) is put aside. -/
def Obligations.WeighOutput : Prop :=
  ∀ (s : State) (seq : Byte) (raw : BitVec 24) (average gross value : Int) (near : Bool),
    s.calm → s.senses seq → (s.intake.weigh.live = true ∨ s.engine.state ≠ .held) →
    s.stir.speed ≤ s.cal.gateSpeed → raw.toInt ≠ -8388608 → raw.toInt ≠ 8388607 → 0 < s.cal.blockLength →
    s.cal.blockLength ≤ s.weigh.blockCount + 1 → s.inAddRef = false → s.inAddFill = false →
    average = (s.weigh.blockSum + raw.toInt + (s.cal.blockLength / 2 : Nat)) / (s.cal.blockLength : Int)
      - (s.cal.drift * (s.base.value.getD s.cal.tcal - s.cal.tcal) + 1) / 2 →
    gross = max (-20000) (min 80000 (((average - s.cal.zero) * s.cal.gain + 32768) / 65536)) →
    value = (if s.cal.gain = 0 then average else gross) →
    near = (match s.weigh.anchor with
      | none => false
      | some a => decide ((value - a).natAbs ≤ s.cal.band)) →
    ∃ w : Weigh, s.leadsTo (.weighArrival seq raw) ((s.seen .weigh seq).withWeigh w) ∧
      w.blockSum = 0 ∧ w.blockCount = 0 ∧ w.gateClosed = false ∧ w.average = average ∧
      w.addReference = s.weigh.addReference ∧
      w.anchor = (if near then s.weigh.anchor else some value) ∧
      w.stability = (if near then min (s.weigh.stability + 1) s.cal.countM else 0) ∧
      w.stable = decide (s.cal.countM ≤ w.stability) ∧
      (s.cal.gain = 0 → w.status = .uncalibrated ∧ w.gross = s.weigh.gross ∧ w.net = s.weigh.net ∧
        w.added = s.weigh.added ∧ w.tare = s.weigh.tare ∧ w.tarePending = s.weigh.tarePending) ∧
      (s.cal.gain ≠ 0 → w.gross = gross ∧
        w.tare = (if s.weigh.tarePending && w.stable then gross else s.weigh.tare) ∧
        w.tarePending = (s.weigh.tarePending && !w.stable) ∧
        w.net = max (-20000) (min 80000 (gross - w.tare)) ∧
        w.added = max (-20000) (min 80000 (match s.weigh.addReference with
          | none => 0
          | some a => gross - a)) ∧
        (w.status = .valid ∨ w.status = .clamped) ∧
        (w.status = .clamped ↔ gross ≠ ((average - s.cal.zero) * s.cal.gain + 32768) / 65536 ∨ w.net ≠ gross - w.tare ∨
          ∃ a, s.weigh.addReference = some a ∧ w.added ≠ gross - a))

/-- An ADD step takes its reference and then completes on the added weight. At an output that is stable, an ADD step in
ADD_REF takes the gross as reference, reports added 0 and goes to ADD_FILL without completing; an ADD step in
ADD_FILL whose added weight is at least amount less tolerance completes with outcome COMPLETED, with OVERFILL
pending when the added weight exceeds amount plus tolerance. -/
def Obligations.AddStepJudged : Prop :=
  ∀ (s : State) (seq : Byte) (raw : BitVec 24) (average gross a : Int),
    s.calm → s.senses seq →
    s.stir.speed ≤ s.cal.gateSpeed → raw.toInt ≠ -8388608 → raw.toInt ≠ 8388607 → s.cal.gain ≠ 0 →
    s.cal.blockLength ≤ s.weigh.blockCount + 1 →
    average = blockAverage (s.weigh.blockSum + raw.toInt) s.cal.blockLength
      - driftCorrection s.cal.drift s.driftBase s.cal.tcal →
    gross = clampWeight (rawGross average s.cal.zero s.cal.gain) →
    s.weigh.anchor = some a → (gross - a).natAbs ≤ s.cal.band →
    s.cal.countM ≤ s.weigh.stability + 1 →
    (s.inAddRef = true → ∃ t, exec (.weighArrival seq raw) s = .next t ∧ t.weigh.addReference = some gross ∧
      t.weigh.added = 0 ∧ t.weigh.gross = gross ∧ t.weigh.stable = true ∧
      t.engine = { s.engine with sub := .addFill } ∧ t.pool = s.pool ∧ t.stir = s.stir ∧ t.reg = s.reg) ∧
    (s.inAddFill = true → ∀ r, s.weigh.addReference = some r →
      (s.current.amount : Int) - s.current.tolerance ≤ clampWeight (gross - r) →
      ∃ t, exec (.weighArrival seq raw) s = .next t ∧ t.engine.lastOutcome = some .completed ∧
        ((s.current.amount : Int) + s.current.tolerance < clampWeight (gross - r) →
          t.report.isPending .overfill = true) ∧
        t.weigh.gross = gross ∧ t.weigh.addReference = none ∧ t.steps = s.steps)

/-- A TEMP arrival takes each channel through Table 5-2. With rehearsal off, each of the three channels becomes what
Table 5-2 gives for the low 12 bits of its raw count, with the rounded interpolation of its segment; SENSOR is
pending when a fault flag becomes true; the tables, the scheduler, the lines and the calibration are unchanged. The
interpolated temperature lies between the two points of its segment. -/
def Obligations.TempChannelResponse : Prop :=
  (∀ (s : State) (seq : Byte) (b f h : BitVec 16), s.calm → s.ctl.rehearsal = false →
    ∃ t, exec (.tempArrival seq b f h) s = .next t ∧
      s.base.responds (b.toNat % 4096) t.base ∧ s.food.responds (f.toNat % 4096) t.food ∧
      s.board.responds (h.toNat % 4096) t.board ∧
      ((s.base.faulted = false ∧ t.base.faulted = true ∨ s.food.faulted = false ∧ t.food.faulted = true ∨
        s.board.faulted = false ∧ t.board.faulted = true) → t.report.isPending .sensor = true) ∧
      t.steps = s.steps ∧ t.patterns = s.patterns ∧ t.cal = s.cal ∧ t.limits = s.limits ∧ t.sched = s.sched ∧
      t.lines = s.lines ∧ t.pending = s.pending ∧ t.choices = s.choices) ∧
  (∀ (c : Channel) (r : Nat),
    min (c.point (r / 128)) (c.point (r / 128 + 1)) ≤ c.interpolated r ∧
      c.interpolated r ≤ max (c.point (r / 128)) (c.point (r / 128 + 1)))

/-- A hot base, a hot board or a lost food sensor stops the engine. At a TEMP arrival in any state but FAULTED, a base
value at or above the base limit plus the hard margin is fault BASE_OVER; otherwise a board value at or above the
board limit is BOARD_OVER; otherwise a food channel that becomes faulted while the heater target is above 0 is
FOOD_SENSOR. Each enters FAULTED with safe outputs and the pool kept. While FAULTED, a BASE_OVER condition that is
new sets further faults and one that persists raises nothing. -/
def Obligations.TemperatureFaults : Prop :=
  ∀ (s u : State) (seq : Byte) (b f h : BitVec 16), s.calm → s.senses seq → s.intake.temp.live = true →
    u = s.sampleChannels (b.toNat % 4096) (f.toNat % 4096) (h.toNat % 4096) →
    (s.engine.state ≠ .faulted → u.baseOverNow = true →
      ∃ t, exec (.tempArrival seq b f h) s = .next t ∧ s.faultedWith t .baseOver) ∧
    (s.engine.state ≠ .faulted → u.baseOverNow = false → u.boardOverNow = true →
      ∃ t, exec (.tempArrival seq b f h) s = .next t ∧ s.faultedWith t .boardOver) ∧
    (s.engine.state ≠ .faulted → u.baseOverNow = false → u.boardOverNow = false → s.food.faulted = false →
      u.food.faulted = true → 0 < s.reg.target →
      ∃ t, exec (.tempArrival seq b f h) s = .next t ∧ s.faultedWith t .foodSensor) ∧
    (s.engine.state = .faulted → u.baseOverNow = true → s.reg.baseOver = false →
      ∃ t, exec (.tempArrival seq b f h) s = .next t ∧ t.engine = { s.engine with further := true } ∧
        t.pool = s.pool) ∧
    (s.engine.state = .faulted → u.baseOverNow = true → s.reg.baseOver = true → u.boardOverNow = false →
      s.food.faulted = true →
      ∃ t, exec (.tempArrival seq b f h) s = .next t ∧ t.engine = s.engine ∧ t.pool = s.pool)

/-- The food reaching the band sets reached and completes a TEMP step. At a TEMP arrival that raises no temperature
fault, with the engine RUNNING in ACTIVE, reached false and the food channel good: a food value at or above the
clamped target less the band completes a step whose condition is TEMP with outcome COMPLETED, and in any other step
sets reached and takes APPROACH to REACHED; a food value below leaves the engine as it was. -/
def Obligations.ReachedAtTempArrival : Prop :=
  ∀ (s u : State) (seq : Byte) (b f h : BitVec 16) (v : Int), s.calm → s.senses seq → s.intake.temp.live = true →
    u = s.sampleChannels (b.toNat % 4096) (f.toNat % 4096) (h.toNat % 4096) →
    u.baseOverNow = false → u.boardOverNow = false → s.active = true → s.engine.reached = false →
    u.food.faulted = false → u.food.value = some v →
    ((s.engine.clampedTarget : Int) - s.limits.band ≤ v → s.current.condition = some .temp →
      ∃ t, exec (.tempArrival seq b f h) s = .next t ∧ t.engine.lastOutcome = some .completed) ∧
    ((s.engine.clampedTarget : Int) - s.limits.band ≤ v → s.current.condition ≠ some .temp →
      ∃ t, exec (.tempArrival seq b f h) s = .next t ∧ t.engine = { s.engine with
        reached := true, sub := if s.engine.sub = .approach then .reached else s.engine.sub }) ∧
    (v < (s.engine.clampedTarget : Int) - s.limits.band →
      ∃ t, exec (.tempArrival seq b f h) s = .next t ∧ t.engine = s.engine)

/-- A MOTOR sample in IDLE and in ENDING. In IDLE with the lock RELEASED, UNKNOWN or ENGAGING, a MOTOR sample sets the
measured values and the slow run (one more up to 20 below the stop threshold, else 0), ends a pending reversal below
the threshold, and changes nothing else: with no pattern running the direction stays as it is (log 19). In ENDING a
sample below the threshold takes the engine to IDLE with DONE pending and the outcome kept; one at or above it
leaves the engine in ENDING. What the transmitters' picks move at the end of an event (log 5) is put aside. -/
def Obligations.MotorArrivalOutsideRunning : Prop :=
  ∀ (s : State) (seq : Byte) (v i : BitVec 16), s.calm → s.senses seq → s.intake.motor.live = true →
    (s.engine.state = .idle → s.stir.running = none → s.lock.state ≠ .engaged → s.lock.state ≠ .releasing →
      s.leadsTo (.motorArrival seq v i) ((s.seen .motor seq).withStir { s.stir with
        speed := v.toNat, current := i.toNat
        slowRun := if v.toNat < s.limits.stopThreshold then min (s.stir.slowRun + 1) 20 else 0
        reversal := s.stir.reversal && !decide (v.toNat < s.limits.stopThreshold)
        rampCount := if s.stir.reversal = true ∧ v.toNat < s.limits.stopThreshold then 0 else s.stir.rampCount })) ∧
    (s.engine.state = .ending → v.toNat < s.limits.stopThreshold →
      ∃ t, exec (.motorArrival seq v i) s = .next t ∧ t.engine = { s.engine with state := .idle } ∧
        t.report.isPending .done = true ∧ t.reg.target = 0 ∧ t.stir.commanded = 0 ∧ t.lock.standing = .release ∧
        t.pool = s.pool ∧ t.stir.speed = v.toNat) ∧
    (s.engine.state = .ending → s.limits.stopThreshold ≤ v.toNat →
      ∃ t, exec (.motorArrival seq v i) s = .next t ∧ t.engine = s.engine ∧ t.stir.slowRun = 0)

/-- Stall, overload and torque tests of an ACTIVE step. With the engine RUNNING in ACTIVE: the sample that would bring
the stall run to 150 is fault STALL; outside a TORQUE step, the sample that would bring the overload run to 100 sets
the overload cap to the greater of 100 and half the commanded speed, raises DERATE and clears the run; with the cap
set, the sample that would bring it to 250 is fault OVERLOAD; and the sixteenth sample of a steady torque block
whose rounded average is at least the amount completes the step when it brings the count to the tolerance. -/
def Obligations.MotorSupervision : Prop :=
  ∀ (s : State) (seq : Byte) (v i : BitVec 16), s.calm → s.senses seq → s.intake.motor.live = true →
    s.active = true →
    (100 ≤ s.stir.commanded → 8 * v.toNat < s.stir.commanded → 149 ≤ s.stir.stallRun →
      ∃ t, exec (.motorArrival seq v i) s = .next t ∧ s.faultedWith t .stall) ∧
    (s.stir.commanded ≤ 8 * v.toNat → s.limits.overloadCurrent ≤ i.toNat → s.stir.overloadCap = none →
      99 ≤ s.stir.overloadRun → s.current.condition ≠ some .torque →
      ∃ t, exec (.motorArrival seq v i) s = .next t ∧
        t.stir.overloadCap = some (max 100 ((s.stir.commanded + 1) / 2)) ∧ t.stir.overloadRun = 0 ∧
        t.report.isPending .derate = true ∧ t.stir.commanded ≤ max 100 ((s.stir.commanded + 1) / 2) ∧
        t.engine = s.engine) ∧
    (s.stir.commanded ≤ 8 * v.toNat → s.limits.overloadCurrent ≤ i.toNat → s.stir.overloadCap ≠ none →
      249 ≤ s.stir.overloadRun →
      ∃ t, exec (.motorArrival seq v i) s = .next t ∧ s.faultedWith t .overload) ∧
    (s.current.kind = .cook → s.current.condition = some .torque → s.stir.commanded ≠ 0 →
      8 * ((v.toNat : Int) - s.stir.commanded).natAbs ≤ s.stir.commanded → i.toNat < s.limits.overloadCurrent →
      s.stir.blockSteady = true → s.stir.blockCount = 15 →
      (s.current.amount : Int) ≤ ((s.stir.blockSum + i.toNat : Nat) + 8) / 16 →
      s.current.tolerance ≤ s.stir.torqueCount + 1 →
      ∃ t, exec (.motorArrival seq v i) s = .next t ∧ t.engine.lastOutcome = some .completed)

/-- Every line of a LEVELS frame is debounced by itself. With rehearsal off and a debounce count of at least 1, each of
the six lines becomes what its own sample makes of it: agreement with the debounced level clears its count,
agreement with the candidate counts, a new candidate counts 1, and a count that reaches the debounce count accepts
the level. The bindings and the other tables are unchanged. -/
def Obligations.LevelsDebounce : Prop :=
  ∀ (s : State) (seq levels : Byte), s.calm → s.ctl.rehearsal = false → 1 ≤ s.limits.debounce →
    ∃ t, exec (.levelsArrival seq levels) s = .next t ∧
      (∀ n, (s.lines.line n).debounced s.limits.debounce (sampleOf levels n) (t.lines.line n)) ∧
      t.lines.bindings = s.lines.bindings ∧ t.steps = s.steps ∧ t.patterns = s.patterns ∧ t.cal = s.cal ∧
      t.limits = s.limits ∧ t.base = s.base ∧ t.food = s.food ∧ t.board = s.board ∧ t.sched = s.sched ∧
      t.pending = s.pending

/-- Lid and bowl edges add and remove their hold reasons, or are a breach; a thermostat trip is a fault. When a LEVELS
frame completes the acceptance on one line alone: LID falling with the lock not ENGAGED, and BOWL falling, with the
engine RUNNING and a slot free, enter HELD with LID (or BOWL) and PAUSE, save the step in a SUSPEND context above
the calls, and leave heater 0, motor 0 and RELEASE; LID falling with the lock ENGAGED is LOCK_BREACH and CUTOUT
rising is CUTOUT in every state but FAULTED. In HELD the same falling edges add their reasons to the hold set,
saving nothing and raising nothing, with the heater target 0. LID rising and BOWL rising in HELD remove LID (or
BOWL) and nothing else while another reason remains and the food channel is good; the keep-warm value is handed when
only PAUSE and STARVED are left. In IDLE or ENDING the falling edges change only the line. All with their bindings
off. -/
def Obligations.LineEdgeActions : Prop :=
  ∀ (s : State) (seq levels : Byte) (slot : Nat) (free : List Nat), s.calm → s.senses seq →
    (s.intake.levels.live = true ∨ s.engine.state ≠ .held) → 1 ≤ s.limits.debounce →
    (∀ i, (s.lines.binding i).enable = false) →
    (s.onlyAccepts .lid levels → sampleOf levels .lid = false → s.lines.lid.level = .high → s.lock.state ≠ .engaged →
      s.engine.state = .running → s.pool.free = slot :: free →
      ∃ t, exec (.levelsArrival seq levels) s = .next t ∧ t.engine.state = .held ∧
        t.engine.holds = { Holds.empty with lid := true, pause := true } ∧ t.engine.phase = .none ∧
        t.engine.index = s.engine.index ∧
        t.pool = { free := free, chain := (slot, .held (s.suspendRecord { Holds.empty with lid := true, pause := true }))
          :: s.pool.chain, depth := s.pool.depth } ∧
        t.reg.target = 0 ∧ t.stir.commanded = 0 ∧ t.lock.standing = .release ∧ t.report.isPending .held = true) ∧
    (s.onlyAccepts .bowl levels → sampleOf levels .bowl = false → s.lines.bowl.level = .high →
      s.engine.state = .running → s.pool.free = slot :: free →
      ∃ t, exec (.levelsArrival seq levels) s = .next t ∧ t.engine.state = .held ∧
        t.engine.holds = { Holds.empty with bowl := true, pause := true } ∧
        t.pool = { free := free, chain := (slot, .held (s.suspendRecord { Holds.empty with bowl := true, pause := true }))
          :: s.pool.chain, depth := s.pool.depth } ∧
        t.reg.target = 0 ∧ t.stir.commanded = 0 ∧ t.lock.standing = .release ∧ t.report.isPending .held = true) ∧
    (s.onlyAccepts .lid levels → sampleOf levels .lid = false → s.lines.lid.level = .high → s.lock.state = .engaged →
      s.engine.state ≠ .faulted →
      ∃ t, exec (.levelsArrival seq levels) s = .next t ∧ s.faultedWith t .lockBreach ∧ t.lock.state = .engaged) ∧
    (s.onlyAccepts .cutout levels → sampleOf levels .cutout = true → s.engine.state ≠ .faulted →
      ∃ t, exec (.levelsArrival seq levels) s = .next t ∧ s.faultedWith t .cutout) ∧
    (∀ (n : LineId) (h : Holds), (n = .lid ∧ h = { s.engine.holds with lid := true, pause := true } ∧ s.lock.state ≠ .engaged) ∨
        (n = .bowl ∧ h = { s.engine.holds with bowl := true, pause := true }) →
      s.onlyAccepts n levels → sampleOf levels n = false → (s.lines.line n).level = .high → s.engine.state = .held →
      ∃ t, exec (.levelsArrival seq levels) s = .next t ∧ t.engine = { s.engine with holds := h } ∧ t.pool = s.pool ∧
        t.report.pendingSet = s.report.pendingSet ∧ (h ≠ s.engine.holds → t.reg.target = 0 ∧ t.stir.commanded = 0 ∧
          t.lock.standing = .release) ∧ (h = s.engine.holds → t.reg = s.reg)) ∧
    (∀ (n : LineId) (h : Holds), (n = .lid ∧ h = { s.engine.holds with lid := false }) ∨
        (n = .bowl ∧ h = { s.engine.holds with bowl := false }) →
      s.onlyAccepts n levels → sampleOf levels n = true → s.engine.state = .held → h ≠ .empty → s.food.faulted = false →
      ∃ t, exec (.levelsArrival seq levels) s = .next t ∧ t.engine = { s.engine with holds := h } ∧ t.pool = s.pool ∧
        t.report.pendingSet = s.report.pendingSet ∧ (h = s.engine.holds → t.reg = s.reg) ∧
        (h ≠ s.engine.holds → (h.lid = true ∨ h.bowl = true ∨ h.mains = true ∨ h.sensor = true) → t.reg.target = 0) ∧
        (h ≠ s.engine.holds → h.lid = false → h.bowl = false → h.mains = false → h.sensor = false →
          t.reg.target = min s.limits.keepWarm
            (if s.pool.heldRecord.isSome then s.engine.clampedTarget else s.engine.previousTarget))) ∧
    (∀ n, n = .lid ∨ n = .bowl → s.onlyAccepts n levels → sampleOf levels n = false → s.lock.state ≠ .engaged →
      (s.engine.state = .idle ∨ s.engine.state = .ending) →
      ∃ t, exec (.levelsArrival seq levels) s = .next t ∧ t.engine = s.engine ∧ t.pool = s.pool ∧ t.reg = s.reg ∧
        t.stir = s.stir ∧ t.lock = s.lock)

/-- An enabled binding records its edge, and acts on the lines without a fixed action. When a LEVELS frame completes the
acceptance of one edge, on any line, the binding of index 2n for a rising and 2n + 1 for a falling edge of line n is
the one that counts: enabled, it adds that index to the pending-edge set, and off, it leaves the set as it was. For
KNOB and SPARE, whose edges have no fixed action: a binding that is off does nothing else either; NONE raises
nothing and NOTIFY raises EDGE; CAPTURE raises EDGE and CAPTURE and takes line, edge, net weight, stable flag, food
value and flag, step index and rounded elapsed seconds, with overrun when a record was present; PAUSE in RUNNING
holds with PAUSE; RESUME raises EDGE, resumes a started step that needs no lock when PAUSE is the sole reason, and
otherwise leaves the engine and the pool alone; END_STEP raises EDGE and ends the step COMPLETED when the engine is
RUNNING, in ENTRY or ACTIVE, and the step's condition is USER or it carries USER_END, and otherwise leaves the
engine and the pool alone. -/
def Obligations.BoundEdges : Prop :=
  ∀ (s : State) (seq levels : Byte) (n : LineId) (falling : Bool) (k : Nat), s.calm → s.senses seq →
    (s.intake.levels.live = true ∨ s.engine.state ≠ .held) → 1 ≤ s.limits.debounce → s.onlyAccepts n levels →
    sampleOf levels n = !falling → (falling = true → (s.lines.line n).level = .high) →
    k = 2 * n.number + (if falling then 1 else 0) →
    (∃ t, exec (.levelsArrival seq levels) s = .next t ∧ t.lines.bindings = s.lines.bindings ∧
      t.lines.edges = if (s.lines.binding k).enable then s.lines.edges ||| (1#12 <<< k) else s.lines.edges) ∧
    (n = .knob ∨ n = .spare →
    ((s.lines.binding k).enable = false →
      ∃ t, exec (.levelsArrival seq levels) s = .next t ∧ t.engine = s.engine ∧ t.lines.edges = s.lines.edges ∧
        t.lines.capture = s.lines.capture ∧ t.report.pendingSet = s.report.pendingSet ∧ t.pool = s.pool) ∧
    (s.lines.binding k = ⟨true, .none⟩ →
      ∃ t, exec (.levelsArrival seq levels) s = .next t ∧ t.engine = s.engine ∧
        t.lines.edges = s.lines.edges ||| (1#12 <<< k) ∧ t.report.pendingSet = s.report.pendingSet) ∧
    (s.lines.binding k = ⟨true, .notify⟩ →
      ∃ t, exec (.levelsArrival seq levels) s = .next t ∧ t.engine = s.engine ∧
        t.lines.edges = s.lines.edges ||| (1#12 <<< k) ∧
        t.report.pendingSet = s.report.pendingSet ||| Notice.edge.mask) ∧
    (s.lines.binding k = ⟨true, .capture⟩ →
      ∃ t, exec (.levelsArrival seq levels) s = .next t ∧ t.engine = s.engine ∧
        t.lines.edges = s.lines.edges ||| (1#12 <<< k) ∧
        t.lines.captureOverrun = (s.lines.captureOverrun || s.lines.capture.isSome) ∧
        t.lines.capture = some
          { line := n.number, falling := falling, net := s.weigh.net, stable := s.weigh.stable
            food := s.food.value.getD 0, foodFault := s.food.faulted, stepIndex := s.engine.index
            stepElapsed := ((s.reported.2.2.1 + 500) / 1000 : Nat) } ∧
        t.report.isPending .edge = true ∧ t.report.isPending .capture = true) ∧
    (s.lines.binding k = ⟨true, .pause⟩ → s.engine.state = .running → s.food.faulted = false →
      ∃ t, exec (.levelsArrival seq levels) s = .next t ∧ t.engine.state = .held ∧
        t.engine.holds = { Holds.empty with pause := true } ∧ t.report.isPending .edge = true) ∧
    (s.lines.binding k = ⟨true, .resume⟩ →
      (s.engine.state ≠ .held ∨ s.engine.holds ≠ { Holds.empty with pause := true } →
        ∃ t, exec (.levelsArrival seq levels) s = .next t ∧ t.engine = s.engine ∧ t.pool = s.pool ∧
          t.lines.edges = s.lines.edges ||| (1#12 <<< k) ∧
          t.report.pendingSet = s.report.pendingSet ||| Notice.edge.mask) ∧
      (∀ (slot : Nat) (r : HeldRecord) (rest : List (Nat × Context)), s.engine.state = .held →
        s.engine.holds = { Holds.empty with pause := true } → s.pool.chain = (slot, .held r) :: rest →
        s.food.faulted = false → s.lockNeeded (s.step r.index) = false →
        ∃ t, exec (.levelsArrival seq levels) s = .next t ∧ t.engine.state = .running ∧ t.engine.phase = .active ∧
          t.engine.holds = .empty ∧ t.engine.index = r.index ∧ t.engine.elapsed = r.elapsed ∧
          t.engine.limitElapsed = r.limitElapsed ∧ t.weigh.addReference = r.addReference ∧
          t.reg.target = s.engine.clampedTarget ∧ t.reg.setpoint = r.setpoint ∧ t.reg.integrator = r.integrator ∧
          t.pool = { free := slot :: s.pool.free, chain := rest, depth := s.pool.depth } ∧
          t.lock.standing = .release ∧ t.report.isPending .edge = true)) ∧
    (s.lines.binding k = ⟨true, .endStep⟩ →
      (s.engine.state = .running → s.current.condition = some .user ∨ s.current.flags.userEnd = true →
        ∃ t, exec (.levelsArrival seq levels) s = .next t ∧ t.engine.lastOutcome = some .completed ∧
          t.lines.edges = s.lines.edges ||| (1#12 <<< k) ∧ t.report.isPending .edge = true ∧
          (s.engine.index < 255 → (s.step (s.engine.index + 1)).kind = .finish →
            t.engine.state = .ending ∧ t.engine.recipeOutcome = some .completed)) ∧
      (s.engine.state ≠ .running ∨ (s.current.condition ≠ some .user ∧ s.current.flags.userEnd = false) →
        ∃ t, exec (.levelsArrival seq levels) s = .next t ∧ t.engine = s.engine ∧ t.pool = s.pool ∧
          t.lines.edges = s.lines.edges ||| (1#12 <<< k) ∧
          t.report.pendingSet = s.report.pendingSet ||| Notice.edge.mask)))

/-- The LOCKED line by lock state. When a LEVELS frame completes the acceptance on LOCKED alone, with its bindings off:
in UNKNOWN the lock adopts ENGAGED or, with RELEASE standing, RELEASED; in ENGAGING and RELEASED a rise makes it
ENGAGED with latch ENGAGE, and while the engine is RUNNING in ENTRY the step enters ACTIVE; in RELEASING with
RELEASE standing a fall makes it RELEASED with latch REST; in ENGAGED a fall makes it RELEASED with latch REST and
is LOCK_LOST in ACTIVE of a step with lock need. -/
def Obligations.LockedLine : Prop :=
  ∀ (s : State) (seq levels : Byte), s.calm → s.senses seq →
    (s.intake.levels.live = true ∨ s.engine.state ≠ .held) → 1 ≤ s.limits.debounce →
    (∀ i, (s.lines.binding i).enable = false) → s.onlyAccepts .locked levels →
    (sampleOf levels .locked = true →
      s.lock.state = .unknown ∨ s.lock.state = .engaging ∨ s.lock.state = .released →
      ∃ t, exec (.levelsArrival seq levels) s = .next t ∧ t.lock.state = .engaged ∧ t.lock.latch = .engage ∧
        (s.inEntry = true → t.engine.state = .running ∧ t.engine.phase = .active) ∧
        (s.inEntry = false → t.engine = s.engine ∧ t.lock.releaseWait = decide (s.lock.standing = .release)) ∧
        t.pool = s.pool) ∧
    (sampleOf levels .locked = false → s.lock.state = .unknown → s.lock.standing = .release →
      ∃ t, exec (.levelsArrival seq levels) s = .next t ∧ t.lock.state = .released ∧ t.lock.latch = s.lock.latch ∧
        t.engine = s.engine ∧ t.pool = s.pool) ∧
    (sampleOf levels .locked = false → s.lines.locked.level = .high → s.lock.state = .releasing →
      s.lock.standing = .release →
      ∃ t, exec (.levelsArrival seq levels) s = .next t ∧ t.lock.state = .released ∧ t.lock.latch = .rest ∧
        t.lock.releaseWait = false ∧ t.engine = s.engine ∧ t.pool = s.pool) ∧
    (sampleOf levels .locked = false → s.lines.locked.level = .high → s.lock.state = .engaged →
      (s.active = false ∨ s.engine.lockNeed = false) →
      ∃ t, exec (.levelsArrival seq levels) s = .next t ∧ t.lock.state = .released ∧ t.lock.latch = .rest ∧
        t.engine = s.engine) ∧
    (sampleOf levels .locked = false → s.lines.locked.level = .high → s.lock.state = .engaged →
      s.active = true → s.engine.lockNeed = true →
      ∃ t, exec (.levelsArrival seq levels) s = .next t ∧ s.faultedWith t .lockLost ∧ t.lock.state = .released)

/-- The elements of each cycle: window, due position, exclusive rule and off-conditions. At a ZERO arrival with the
mains PRESENT the cycle position advances modulo the frame length, and the HEAT frame handed carries that position
with B on exactly when B is due at its window offset and the conditions of R110 hold, and S on exactly when S is
due, the conditions hold, and not both exclusive is set and B is due; the on-counts are those standing after the
frame end, if the position wrapped. -/
def Obligations.HeatDecision : Prop :=
  ∀ (s : State) (seq : Byte), s.calm → s.senses seq → (s.intake.zero.live = true ∨ s.engine.state ≠ .held) →
    s.sched.mainsPresent = true →
    ∃ (t : State) (h : Heat), exec (.zeroArrival seq) s = .next t ∧ t.drive.heat = some h ∧ t.sched.lastHeat = h ∧
      t.sched.position = (s.sched.position + 1) % s.limits.frameLength ∧ h.position = t.sched.position ∧
      (h.b = true ↔ s.mayHeat ∧
        elementDue t.sched.kB s.limits.startB s.limits.windowB s.limits.frameLength h.position) ∧
      (h.s = true ↔ s.mayHeat ∧
        elementDue t.sched.kS s.limits.startS s.limits.windowS s.limits.frameLength h.position ∧
        ¬ (s.limits.exclusive = true ∧
          elementDue t.sched.kB s.limits.startB s.limits.windowB s.limits.frameLength h.position)) ∧
      (t.sched.position ≠ 0 → t.sched.kB = s.sched.kB ∧ t.sched.kS = s.sched.kS ∧ t.reg = s.reg) ∧
      (h.b = true ∨ h.s = true → s.ctl.rehearsal = false → t.lock.coolDown = 0) ∧
      (h.b = false → h.s = false → t.lock = s.lock ∧ t.engine = s.engine) ∧
      t.sched.mainsPresent = true ∧ t.steps = s.steps ∧ t.limits = s.limits ∧ t.lines = s.lines ∧ t.pool = s.pool

/-- The frame-end computation: kmax, integrator, on-count, base allowance and split. At a ZERO arrival that wraps the
position to 0, kmax is WB + WS, halved with rounding while the board is at or above its derate level; with heater
target 0 the integrator, k, kB and kS become 0; with a target above 0 and a food value, the error, the integrator
with its skip and limits, and k follow R99; the allowance follows R100, kB is the lesser of k and the allowance and
kS the lesser of k less kB and WS; the two derate flags follow their levels and DERATE is pending when one becomes
true; kB is at most WB and kS at most WS. With the base channel faulted, base cut keeps its value where it agrees
with the held value (where they disagree, OnlyItsOwnCommandsChange says what the model chose). -/
def Obligations.FrameEnd : Prop :=
  ∀ (s : State) (seq : Byte) (full kmax : Nat) (hot : Bool), s.calm → s.senses seq →
    (s.intake.zero.live = true ∨ s.engine.state ≠ .held) → s.sched.mainsPresent = true →
    (s.sched.position + 1) % s.limits.frameLength = 0 → 1 ≤ s.limits.derateBand →
    full = s.limits.windowB + s.limits.windowS →
    hot = (match s.board.value with
      | none => false
      | some v => decide ((s.limits.boardDerate : Int) ≤ v)) →
    kmax = (if hot then (full + 1) / 2 else full) →
    ∃ (t : State) (allowance : Nat), exec (.zeroArrival seq) s = .next t ∧
      t.reg.boardDerate = hot ∧
      (s.reg.target = 0 → t.reg.integrator = 0 ∧ t.reg.lastK = 0) ∧
      (∀ v, 0 < s.reg.target → s.food.value = some v → ∀ e : Int, e = max (-600) (min 600 (s.reg.setpoint - v)) →
        (((kmax ≤ s.reg.lastK ∧ 0 < e) ∨ (s.reg.lastK = 0 ∧ e < 0)) →
          t.reg.integrator = min s.reg.integrator (kmax * 256)) ∧
        (¬ ((kmax ≤ s.reg.lastK ∧ 0 < e) ∨ (s.reg.lastK = 0 ∧ e < 0)) →
          t.reg.integrator = max 0 (min ((kmax : Int) * 256) (s.reg.integrator + s.limits.ki * e))) ∧
        (t.reg.lastK : Int) = max 0 (min (kmax : Int) ((s.limits.kp * e + t.reg.integrator + 128) / 256))) ∧
      (s.base.faulted = true → allowance = 0) ∧
      (∀ v, s.base.faulted = false → s.base.value = some v →
        (v < (s.limits.baseLimit : Int) - s.limits.derateBand → allowance = s.limits.windowB) ∧
        ((s.limits.baseLimit : Int) - s.limits.derateBand ≤ v → v < s.limits.baseLimit →
          (allowance : Int) = (s.limits.windowB * (s.limits.baseLimit - v) + (s.limits.derateBand / 2 : Nat))
            / (s.limits.derateBand : Int)) ∧
        ((s.limits.baseLimit : Int) ≤ v → allowance = 0) ∧
        t.reg.baseCut = decide ((s.limits.baseLimit : Int) ≤ v)) ∧
      (s.base.faulted = true → (∀ v, s.base.value = some v → s.reg.baseCut = decide ((s.limits.baseLimit : Int) ≤ v)) →
        t.reg.baseCut = s.reg.baseCut) ∧
      t.reg.kB = min t.reg.lastK allowance ∧ t.reg.kS = min (t.reg.lastK - t.reg.kB) s.limits.windowS ∧
      t.sched.kB = t.reg.kB ∧ t.sched.kS = t.reg.kS ∧ t.reg.kB ≤ s.limits.windowB ∧ t.reg.kS ≤ s.limits.windowS ∧
      ((t.reg.boardDerate = true ∧ s.reg.boardDerate = false) ∨ (t.reg.baseCut = true ∧ s.reg.baseCut = false) →
        t.report.isPending .derate = true) ∧
      t.reg.target = s.reg.target ∧ t.reg.setpoint = s.reg.setpoint

/-- An element is due at exactly its on-count of positions. For an on-count k of at most the window length w, exactly k
of the w window offsets are due; an offset is due exactly when some multiple of w lies above k times j and at or
below k times (j + 1); with k above 0 the last offset is among them, and with k equal to w every offset is. -/
def Obligations.DuePositions : Prop :=
  ∀ k w : Nat, 0 < w → k ≤ w →
    ((List.range w).filter (due k w)).length = k ∧
    (∀ j, due k w j = true ↔ j < w ∧ ∃ m : Nat, k * j < m * w ∧ m * w ≤ k * (j + 1)) ∧
    (0 < k → due k w (w - 1) = true) ∧ (k = w → ∀ j, j < w → due k w j = true)

/-- Losing the mains turns the elements off and holds; the first ZERO starts a fresh frame and removes MAINS. A stall of
the LIVE ZERO stream with the mains PRESENT makes them LOST, hands a HEAT frame with both elements off at the last
position, keeps position and on-counts, holds a RUNNING recipe with MAINS and heater target 0, adds MAINS to a hold
with nothing saved, and leaves the engine of IDLE, ENDING and FAULTED alone. That the row takes effect at any time
of a LIVE stream, and changes nothing while the stream is STALLED, is the model's choice (log 3). The first ZERO
while LOST makes them PRESENT at position 0, computes a frame end, and hands the HEAT frame of position 0; a hold no
longer has reason MAINS, and every other engine state is kept. Outside HELD the on-counts are those of the frame end
and each element is decided by them as at any cycle event. In a hold with MAINS the removal and the frame end come
in either order (log 8): with another cause left both orders leave on-counts 0 and the elements off; with none left,
or PAUSE and STARVED alone, either the on-counts are 0 and the elements off, or the frame end is computed toward the
restored step, or the keep-warm value. What the transmitters' picks move at the end of an event (log 5) is put
aside. -/
def Obligations.MainsLossAndReturn : Prop :=
  ∀ (s : State) (seq : Byte), s.calm →
    (s.intake.zero.live = true → s.sched.mainsPresent = true →
      ∃ t, exec .mainsLoss s = .next t ∧ t.sched.mainsPresent = false ∧ t.intake.zero.live = false ∧
        t.intake.lastSeq = none ∧ t.drive.heat = some ⟨s.sched.lastHeat.position, false, false⟩ ∧
        t.sched.position = s.sched.position ∧ t.sched.kB = s.sched.kB ∧ t.sched.kS = s.sched.kS ∧
        (s.engine.state = .running → t.engine.state = .held ∧
          t.engine.holds = { Holds.empty with mains := true } ∧ t.reg.target = 0 ∧ t.stir.commanded = 0 ∧
          t.report.isPending .held = true) ∧
        (s.engine.state = .held → t.engine = { s.engine with holds := { s.engine.holds with mains := true } } ∧
          t.pool = s.pool ∧ t.report.pendingSet = s.report.pendingSet ∧ (s.engine.holds.mains = true → t.reg = s.reg) ∧
          (s.engine.holds.mains = false → t.reg.target = 0 ∧ t.stir.commanded = 0 ∧ t.lock.standing = .release)) ∧
        (s.engine.state = .idle ∨ s.engine.state = .ending ∨ s.engine.state = .faulted →
          t.engine = s.engine ∧ t.pool = s.pool ∧ t.reg = s.reg ∧ t.stir = s.stir ∧ t.lock = s.lock)) ∧
    (s.intake.zero.live = false → s.leadsTo .mainsLoss s) ∧
    (s.senses seq → s.intake.zero.live = false → s.sched.mainsPresent = false →
      ∃ t, exec (.zeroArrival seq) s = .next t ∧ t.sched.mainsPresent = true ∧ t.sched.position = 0 ∧
        t.intake.zero.live = true ∧ (s.engine.state = .held → t.engine.holds.mains = false) ∧
        (s.engine.state ≠ .held → t.engine.state = s.engine.state ∧ (0 < s.limits.frameLength → s.frameEnds t.reg)) ∧
        t.sched.kB = t.reg.kB ∧ t.sched.kS = t.reg.kS ∧
        ∃ h : Heat, t.drive.heat = some h ∧ t.sched.lastHeat = h ∧ h.position = 0 ∧
          (s.engine.state ≠ .held →
            (h.b = true ↔ s.mayHeat ∧ elementDue t.sched.kB s.limits.startB s.limits.windowB s.limits.frameLength 0) ∧
            (h.s = true ↔ s.mayHeat ∧ elementDue t.sched.kS s.limits.startS s.limits.windowS s.limits.frameLength 0 ∧
              ¬ (s.limits.exclusive = true ∧
                elementDue t.sched.kB s.limits.startB s.limits.windowB s.limits.frameLength 0))) ∧
          (∀ hs : Holds, s.engine.state = .held → s.engine.holds.mains = true → s.reg.target = 0 →
            (s.engine.holds.sensor = true → s.relevantStalled = true) → hs = { s.engine.holds with mains := false } →
            (hs.lid = true ∨ hs.bowl = true ∨ hs.sensor = true →
              t.reg.target = 0 ∧ t.reg.kB = 0 ∧ t.reg.kS = 0 ∧ h.b = false ∧ h.s = false) ∧
            (∀ g : Regulator, hs ≠ .empty → hs.lid = false → hs.bowl = false → hs.sensor = false →
              s.food.faulted = false → 0 < s.limits.frameLength →
              (∃ keep, keep = min s.limits.keepWarm
                  (if s.pool.heldRecord.isSome then s.engine.clampedTarget else s.engine.previousTarget) ∧
                g = { s.reg with target := keep, setpoint := keep, ramp := 0 }) →
              t.reg.target = g.target ∧ t.reg.setpoint = g.setpoint ∧
              ((t.reg.kB = 0 ∧ t.reg.kS = 0 ∧ h.b = false ∧ h.s = false) ∨ (s.withReg g).frameEnds t.reg)) ∧
            (∀ (g : Regulator) (r : HeldRecord), hs = .empty → s.pool.heldRecord = some r →
              s.food.faulted = false → 0 < s.limits.frameLength →
              g = { s.reg with
                target := s.engine.clampedTarget, setpoint := r.setpoint, rampAccumulator := r.rampAccumulator
                integrator := r.integrator, ramp := (s.step r.index).ramp, rampCount := 0 } →
              t.engine.state = .running ∧ t.reg.target = g.target ∧ t.reg.setpoint = g.setpoint ∧
              ((t.reg.kB = 0 ∧ t.reg.kS = 0 ∧ h.b = false ∧ h.s = false) ∨ (s.withReg g).frameEnds t.reg))))

/-- What the stall of each stream does, and SENSOR at a stall and a return. A stall of a STALLED stream changes nothing,
and a stall row takes effect at any time of a LIVE one, whose time it puts at the deadline: both are the model's
choice (log 3). A stall of a LIVE stream makes it STALLED and the last sequence number absent, and in a state with
no recipe under way: WEIGH discards the block with status STALLED, TEMP changes nothing else, MOTOR sets the slow
run to 0, LEVELS clears every agreement count. With the engine RUNNING and a slot free, a LEVELS stall, and a WEIGH
stall of an ADD step, hold with SENSOR. In HELD a LEVELS stall adds SENSOR to the hold set, saving nothing and
raising nothing. A WEIGH arrival that returns its stream in HELD, with another reason left and the food channel
good, removes SENSOR when every other relevant stream is LIVE, and leaves the engine as it was when one is STALLED.
What the transmitters' picks move at the end of an event (log 5) is put aside. -/
def Obligations.StreamStalls : Prop :=
  ∀ (s : State), s.calm →
    (∀ (k : StreamId) (c : Instr), (k, c) ∈ [(StreamId.weigh, Instr.weighStall), (.temp, .tempStall),
        (.motor, .motorStall), (.levels, .levelsStall), (.zero, .mainsLoss)] →
      ((s.intake.stream k).live = false → s.leadsTo c s) ∧
      ((s.intake.stream k).live = true → ∃ t, exec c s = .next t ∧ (t.intake.stream k).live = false ∧
        t.intake.lastSeq = none ∧ (∀ m, m ≠ k → t.intake.stream m = s.intake.stream m))) ∧
    (s.engine.state = .idle ∨ s.engine.state = .ending ∨ s.engine.state = .faulted →
      (s.intake.weigh.live = true → s.leadsTo .weighStall
        ((s.withIntake { s.intake with lastSeq := none, weigh := ⟨false, 20⟩ }).withWeigh { s.weigh with
          blockSum := 0, blockCount := 0, stability := 0, stable := false, anchor := none, status := .stalled })) ∧
      (s.intake.temp.live = true → s.leadsTo .tempStall
        (s.withIntake { s.intake with lastSeq := none, temp := ⟨false, 100⟩ })) ∧
      (s.intake.motor.live = true → s.lock.state ≠ .releasing → s.leadsTo .motorStall
        ((s.withIntake { s.intake with lastSeq := none, motor := ⟨false, 20⟩ }).withStir
          { s.stir with slowRun := 0 })) ∧
      (s.intake.levels.live = true → ∃ t, exec .levelsStall s = .next t ∧ t.engine = s.engine ∧ t.pool = s.pool ∧
        (∀ n, t.lines.line n = { s.lines.line n with agreement := 0 }) ∧ t.lines.edges = s.lines.edges)) ∧
    (s.engine.state = .running → s.pool.free ≠ [] →
      (s.intake.levels.live = true → ∃ t, exec .levelsStall s = .next t ∧ t.engine.state = .held ∧
        t.engine.holds = { Holds.empty with sensor := true } ∧ t.reg.target = 0 ∧
        t.pool.depth = s.pool.depth ∧ t.pool.chain.length = s.pool.chain.length + 1) ∧
      (s.intake.weigh.live = true → s.current.kind = .add → ∃ t, exec .weighStall s = .next t ∧
        t.engine.state = .held ∧ t.engine.holds = { Holds.empty with sensor := true } ∧ t.weigh.status = .stalled) ∧
      (s.intake.weigh.live = true → s.current.kind ≠ .add → ∃ t, exec .weighStall s = .next t ∧
        t.engine = s.engine ∧ t.weigh.status = .stalled)) ∧
    (s.engine.state = .held → s.intake.levels.live = true → ∃ t, exec .levelsStall s = .next t ∧
      t.engine = { s.engine with holds := { s.engine.holds with sensor := true } } ∧ t.pool = s.pool ∧
      t.report.pendingSet = s.report.pendingSet ∧ (s.engine.holds.sensor = false → t.reg.target = 0)) ∧
    (∀ (seq : Byte) (raw : BitVec 24) (h : Holds), s.senses seq → s.engine.state = .held → s.intake.weigh.live = false →
      h = { s.engine.holds with sensor := false } → h ≠ .empty → s.food.faulted = false →
      ((∀ m, m ≠ .weigh → s.relevant m = true → (s.intake.stream m).live = true) →
        ∃ t, exec (.weighArrival seq raw) s = .next t ∧ t.engine = { s.engine with holds := h } ∧ t.pool = s.pool ∧
          t.intake.weigh.live = true) ∧
      ((∃ m, m ≠ .weigh ∧ s.relevant m = true ∧ (s.intake.stream m).live = false) →
        ∃ t, exec (.weighArrival seq raw) s = .next t ∧ t.engine = s.engine ∧ t.pool = s.pool ∧
          t.intake.weigh.live = true))

/-- A step that ends records its outcome and reaches the next index. STEP_DURATION_EXPIRY of a counting TIME step ends
it COMPLETED, STEP_LIMIT_EXPIRY of another step with a limit ends it LIMIT with LIMIT pending, and DO SKIP of a
RUNNING step ends it SKIPPED, answered OK. In each case the engine reaches the next index: an EMPTY entry there is a
STARVED hold at it, an END record is ENDING with outcome COMPLETED and the chain freed, past index 255 it is
STEP_RANGE with the index kept, and a COOK, ADD or WAIT_USER record there is a timed step start: PATTERN_EMPTY,
UNCALIBRATED or FOOD_SENSOR, a hold at once, a wait in ENTRY for a needed lock, or ACTIVE with its pattern running.
PATTERN_EMPTY alone where both checks of the record fail is the model's choice (log 47). An expiry whose timer does
not run changes nothing (log 3). A request row is a request taken at once (log 4). What the transmitters' picks move
at the end of an event (log 5) is put aside. -/
def Obligations.StepEndReachesNext : Prop :=
  (∀ s : State, s.calm →
    (s.elapsedRuns = false ∨ s.current.condition ≠ some .time → s.leadsTo .stepDurationExpiry s) ∧
    (s.limitRuns = false → s.leadsTo .stepLimitExpiry s)) ∧
  ∀ (s : State) (c : Instr) (o : StepOutcome) (tag : Byte) (slot : Nat) (free : List Nat), s.free →
    s.engine.state = .running →
    (c = .stepDurationExpiry ∧ o = .completed ∧ s.elapsedRuns = true ∧ s.current.condition = some .time) ∨
      (c = .stepLimitExpiry ∧ o = .limit ∧ s.limitRuns = true) ∨ (c = .doSkip tag [] ∧ o = .skipped) →
    ∃ t, exec c s = .next t ∧ t.engine.lastOutcome = some o ∧ t.weigh.addReference = none ∧
      (o = .limit → t.report.isPending .limit = true) ∧ (o = .skipped → t.answered (answerFrame tag .ok [])) ∧
      (s.engine.index = 255 → t.engine.state = .faulted ∧ t.engine.fault = some .stepRange ∧ t.engine.index = 255 ∧
        t.pool = s.pool) ∧
      (s.engine.index < 255 → (s.step (s.engine.index + 1)).kind = .finish →
        t.engine.state = .ending ∧ t.engine.recipeOutcome = some .completed ∧ t.engine.index = s.engine.index + 1 ∧
        t.pool.chain = [] ∧ t.pool.depth = 0 ∧ t.reg.target = 0 ∧ t.stir.commanded = 0) ∧
      (s.engine.index < 255 → (s.step (s.engine.index + 1)).kind = .empty → s.pool.free = slot :: free →
        s.food.faulted = false →
        t.engine.state = .held ∧ t.engine.holds.starved = true ∧ t.engine.index = s.engine.index + 1 ∧
        t.pool.pendingIndex = some (s.engine.index + 1) ∧ t.pool.free = free ∧ t.pool.depth = s.pool.depth ∧
        t.report.isPending .starved = true ∧ t.report.isPending .held = true ∧ t.stir.commanded = 0 ∧
        t.stepInProgress = none) ∧
      (∀ r, s.engine.index < 255 → r = s.step (s.engine.index + 1) →
        r.kind = .cook ∨ r.kind = .add ∨ r.kind = .waitUser →
        s.timedStart t (s.engine.index + 1) s.engine.previousTarget r)

/-- The setpoint ramp. At a ramp second (RAMP_SECOND, or the 1,000th millisecond) of a running ramp, the accumulator
rises by the ramp, the setpoint moves toward the target by one unit for each 60 taken off while they differ, and a
setpoint that reaches the target ends the ramp with accumulator and count 0. Every other millisecond of a running
ramp raises the count by one; while the engine is not RUNNING, the ramp or target is 0, or the setpoint equals the
target, the ramp does not advance. That the row RAMP_SECOND takes effect at any count, and changes nothing where the
ramp does not run, is the model's choice (log 3). What the transmitters' picks move at the end of an event (log 5)
is put aside. -/
def Obligations.RampSecond : Prop :=
  ∀ (s : State) (total steps : Nat), s.calm →
    (s.rampAdvances = true ↔ s.engine.state = .running ∧ 0 < s.reg.ramp ∧ 0 < s.reg.target ∧
      s.reg.setpoint ≠ s.reg.target) ∧
    (s.rampAdvances = false → s.leadsTo .rampSecond s ∧ (s.timerTick .ramp).content = s.content) ∧
    (s.rampAdvances = true → s.reg.rampCount + 1 < 1000 →
      (s.timerTick .ramp).content = (s.withReg { s.reg with rampCount := s.reg.rampCount + 1 }).content) ∧
    (s.rampAdvances = true → total = s.reg.rampAccumulator + s.reg.ramp →
      steps = min (total / 60) (s.reg.setpoint - s.reg.target).natAbs →
      ∃ g : Regulator, s.leadsTo .rampSecond (s.withReg g) ∧
        (999 ≤ s.reg.rampCount → (s.timerTick .ramp).content = (s.withReg g).content) ∧
        g.setpoint = (if s.reg.setpoint < s.reg.target then s.reg.setpoint + steps else s.reg.setpoint - steps) ∧
        g.rampCount = 0 ∧ g.target = s.reg.target ∧ g.integrator = s.reg.integrator ∧
        (g.setpoint ≠ g.target → g.rampAccumulator = total - 60 * steps ∧ g.rampAccumulator < 60 ∧
          g.ramp = s.reg.ramp) ∧
        (g.setpoint = g.target → g.rampAccumulator = 0 ∧ (s.withReg g).rampAdvances = false))

/-- Phase ends and ramp steps of the motor. PHASE_END of a timed phase moves to the next phase, or to the loop phase
after the last, with phase elapsed 0, and computes the target again: when the new phase turns the other way with a
target above 0 and no reversal is pending, the motor stops with a reversal pending (also after a wait has ended and
before the first rise, log 51); otherwise a lower target is taken at once, a higher one is left to the ramp, and the
direction becomes the phase's unless the target is 0 or a reversal is pending. STIR_RAMP_STEP, and the 100th
millisecond of a running ramp, raises the commanded speed by ten times the acceleration, to at most the target, and
hands a SPIN frame with it; every other millisecond of a running ramp raises the count by one. Where the timer does
not run they change nothing (log 3). What the transmitters' picks move at the end of an event (log 5) is put aside. -/
def Obligations.StirPhaseAndRamp : Prop :=
  ∀ (s : State), s.calm →
    (s.phaseTimed = false → s.leadsTo .phaseEnd s) ∧
    (∀ (i next capped : Nat) (p : Pattern) (ph : StirPhase), s.phaseTimed = true → s.stir.running = some i → p = s.pattern i →
      next = (if s.stir.phaseIndex + 1 = p.count then p.loop else s.stir.phaseIndex + 1) → ph = p.phase next →
      capped = s.cappedSpeed ph.speed →
      ∃ t, exec .phaseEnd s = .next t ∧ t.stir.phaseIndex = next ∧ t.stir.phaseElapsed = 0 ∧ t.stir.target = capped ∧
        t.engine = s.engine ∧ t.reg = s.reg ∧ t.lock = s.lock ∧ t.pool = s.pool ∧
        (0 < capped → s.stir.reversal = false → (∃ d, s.stir.lastDirection = some d ∧ d ≠ ph.direction) →
          t.stir.reversal = true ∧ t.stir.commanded = 0 ∧ t.stir.direction = s.stir.direction ∧
          t.drive.spinSpeed = 0) ∧
        ((s.stir.lastDirection = none ∨ s.stir.lastDirection = some ph.direction ∨ capped = 0 ∨
            s.stir.reversal = true) →
          t.stir.reversal = s.stir.reversal ∧ t.stir.commanded = min s.stir.commanded capped ∧
          (s.stir.reversal = false → 0 < capped → t.stir.direction = ph.direction) ∧
          (s.stir.reversal = true ∨ capped = 0 → t.stir.direction = s.stir.direction) ∧
          (t.stir.commanded ≠ s.stir.commanded ∨ t.stir.direction ≠ s.stir.direction →
            t.drive.spinSpeed = t.stir.commanded ∧ t.drive.spinDirection = t.stir.direction))) ∧
    (s.ramping = false → s.leadsTo .stirRampStep s ∧ s.elapses .stirRamp s) ∧
    (s.ramping = true ↔ s.stir.commanded < s.stir.target ∧ s.stir.reversal = false) ∧
    (∀ (i : Nat), s.ramping = true → s.stir.running = some i →
      ∃ t, exec .stirRampStep s = .next t ∧
        t.stir.commanded
          = min s.stir.target (s.stir.commanded + 10 * ((s.pattern i).phase s.stir.phaseIndex).acceleration) ∧
        t.stir.rampCount = 0 ∧ t.drive.spinSpeed = t.stir.commanded ∧ t.drive.spinDirection = s.stir.direction ∧
        t.stir.target = s.stir.target ∧ t.stir.phaseIndex = s.stir.phaseIndex ∧ t.engine = s.engine ∧ t.lock = s.lock) ∧
    (s.ramping = true → s.stir.rampCount + 1 < 100 →
      s.elapses .stirRamp (s.withStir { s.stir with rampCount := s.stir.rampCount + 1 })) ∧
    (s.ramping = true → 100 ≤ s.stir.rampCount + 1 → s.expiresAs .stirRampStep (s.timerTick .stirRamp))

/-- Engage timeout, release timeout and the end of the cool-down. LOCK_ENGAGE_TIMEOUT in ENGAGING makes the lock
RELEASED with latch REST, and is LOCK_TIMEOUT while the engine is RUNNING in ENTRY. LOCK_RELEASE_TIMEOUT in
RELEASING makes it ENGAGED with latch ENGAGE, release wait false and LOCK_STUCK pending. COOL_DOWN_COMPLETE brings
the cool-down count to 600,000 and begins the release of an ENGAGED lock that waits, when the unlock conditions then
hold. In other lock states, and at a count of 600,000, they change nothing (log 3). What the transmitters' picks
move at the end of an event (log 5) is put aside. -/
def Obligations.LockTimeouts : Prop :=
  ∀ (s : State), s.calm →
    (s.lock.state ≠ .engaging → s.leadsTo .lockEngageTimeout s) ∧
    (s.lock.state = .engaging → ∃ t, exec .lockEngageTimeout s = .next t ∧ t.lock.state = .released ∧
      t.lock.latch = .rest ∧ t.drive.latch = (if s.lock.latch = .rest then s.drive.latch else .rest) ∧
      (s.inEntry = true → s.faultedWith t .lockTimeout) ∧ (s.inEntry = false → t.engine = s.engine ∧ t.pool = s.pool)) ∧
    (s.lock.state ≠ .releasing → s.leadsTo .lockReleaseTimeout s) ∧
    (s.lock.state = .releasing → ∃ t, exec .lockReleaseTimeout s = .next t ∧ t.lock.state = .engaged ∧
      t.lock.latch = .engage ∧ t.lock.releaseWait = false ∧ t.report.isPending .lockStuck = true ∧ t.pool = s.pool ∧
      (s.inEntry = false → t.engine = s.engine)) ∧
    (600000 ≤ s.lock.coolDown → s.leadsTo .coolDownComplete s) ∧
    (s.lock.coolDown < 600000 →
      ∃ t, exec .coolDownComplete s = .next t ∧ t.lock.coolDown = 600000 ∧
        (s.inEntry = false → t.engine = s.engine) ∧ t.pool = s.pool ∧
        (s.lock.state = .engaged → s.lock.releaseWait = true →
          (s.withLock { s.lock with coolDown := 600000 }).unlockConditions = true →
          t.lock.state = .releasing ∧ t.lock.latch = .release ∧ t.lock.timer = 0) ∧
        (s.lock.state ≠ .releasing → s.lock.releaseWait = false →
          t.lock.state = s.lock.state ∧ t.lock.latch = s.lock.latch))

/-- The watch on the host: supervision, quiet, flow frames and misplaced frames. SUPERVISION_EXPIRY while RUNNING makes
supervision EXPIRED and, unless already FAULTED, is fault HOST_LOST; HOST_QUIET while disarmed and not yet raised
raises HOST_QUIET once; elsewhere they change nothing (log 3). Every frame the control-link receiver delivers sets
both counts to 0, quiet raised to false and an EXPIRED supervision to RUNNING: HOST_WAIT and HOST_GO then set the
host permission alone, and a misplaced frame raises LINK alone. What the transmitters' picks move at the end of an
event (log 5) is put aside. -/
def Obligations.HostWatch : Prop :=
  ∀ (s : State) (c : Control), s.calm →
    c = { s.ctl with supervisionCount := 0, quietCount := 0, quietRaised := false
                     supervision := if s.ctl.supervision = .expired then .running else s.ctl.supervision } →
    s.leadsTo .hostWait (s.withCtl { c with permission := .wait }) ∧
    s.leadsTo .hostGo (s.withCtl { c with permission := .go }) ∧
    (∀ (kind : Byte) (payload : List Byte), (Instr.misplacedFrame kind payload).wellFormed = true →
      s.leadsTo (.misplacedFrame kind payload) ((s.withCtl c).raise .link)) ∧
    (s.ctl.supervision ≠ .running → s.leadsTo .supervisionExpiry s) ∧
    (s.ctl.supervision = .running → ∃ t, exec .supervisionExpiry s = .next t ∧ t.ctl.supervision = .expired ∧
      t.ctl.period = s.ctl.period ∧ (s.engine.state ≠ .faulted → s.faultedWith t .hostLost) ∧
      (s.engine.state = .faulted → t.engine = { s.engine with further := true } ∧ t.pool = s.pool)) ∧
    (s.ctl.supervision = .disarmed → s.ctl.quietRaised = false → s.leadsTo .hostQuiet
      ((s.withCtl { s.ctl with quietCount := 2550, quietRaised := true }).raise .hostQuiet)) ∧
    (s.ctl.supervision ≠ .disarmed ∨ s.ctl.quietRaised = true → s.leadsTo .hostQuiet s)

/-- A READING is built from the state at each interval. READING_INTERVAL sets the reading count to 0 and appends a
READING of the present state at the tail of the lane, the oldest being dropped first when it holds four, the others
kept in order; nothing else changes. With the upstream transmitter busy the lane is then exactly that; with it free
the oldest may have been picked. That the row takes effect at any count is the model's choice (log 3). A READING has
35 payload bytes, of which byte 2 is the current index, bytes 3 and 4 the rounded elapsed seconds, and bytes 22 and
23 the on-counts kB and kS. What the transmitters' picks move at the end of an event (log 5) is put aside. -/
def Obligations.ReadingInterval : Prop :=
  ∀ (s : State) (lane : List Frame), s.calm →
    lane = (if s.report.readings.length < 4 then s.report.readings else s.report.readings.drop 1) ++ [s.readingFrame] →
    (∃ t, exec .readingInterval s = .next t ∧ t.content = (s.withReport { s.report with readingCount := 0 }).content ∧
      t.reports s.readingFrame ∧
      (s.report.sending.isSome = true → t.report.readings = lane ∧ t.report.sending = s.report.sending) ∧
      (s.report.sending = none → t.report.readings = lane ∨
        (t.report.readings = lane.tail ∧ t.report.sending = lane.head?))) ∧
    s.readingFrame.kind = 0x31 ∧ s.readingFrame.payload.length = 35 ∧
    s.readingFrame.payload[2]? = some (byte s.engine.index) ∧
    s.readingFrame.payload[3]? = some (byte (((s.reported.2.2.1 + 500) / 1000) / 256)) ∧
    s.readingFrame.payload[4]? = some (byte ((s.reported.2.2.1 + 500) / 1000)) ∧
    s.readingFrame.payload[22]? = some (byte s.reg.kB) ∧ s.readingFrame.payload[23]? = some (byte s.reg.kS)

/-- Refreshes, completions and the order of the drive link. SPIN_REFRESH and LATCH_REFRESH bring their timer to 50 and
100 and have the slot sent again; that the rows do so at every count below that end is the model's choice (log 3).
DRIVE_SEND_COMPLETE sets the refresh timer of a SPIN or LATCH frame to 0 and the transmitter picks by order: HEAT if
marked, then SPIN, then LATCH, then the oldest PASS frame, clearing the mark or removing the frame; with rehearsal
on HEAT goes out with both elements off, SPIN with speed 0, and LATCH as REST unless it is RELEASE and the unlock
conditions hold. What the transmitters' picks move at the end of an event (log 5) is put aside. -/
def Obligations.DriveSending : Prop :=
  ∀ (s : State), s.calm →
    (s.drive.spinTimer < 50 → ∃ t, exec .spinRefresh s = .next t ∧ t.drive.spinTimer = 50 ∧
      t.content = (s.withDrive { s.drive with spinTimer := 50 }).content ∧
      (t.drive.spinMarked = true ∨ t.drive.sending = some (s.outgoing (.spin s.drive.spinSpeed s.drive.spinDirection)))) ∧
    (s.drive.latchTimer < 100 → ∃ t, exec .latchRefresh s = .next t ∧ t.drive.latchTimer = 100 ∧
      t.content = (s.withDrive { s.drive with latchTimer := 100 }).content ∧
      (t.drive.latchMarked = true ∨ t.drive.sending = some (s.outgoing (.latch s.drive.latch)))) ∧
    (∀ f d, s.drive.sending = some f → d = (match f with
        | .spin _ _ => { s.drive with spinTimer := 0 }
        | .latch _ => { s.drive with latchTimer := 0 }
        | .heat _ => s.drive
        | .pass _ => s.drive) →
      ∃ t, exec .driveSendComplete s = .next t ∧ t.content = (s.withDrive d).content ∧
        (∀ h, d.heatMarked = true → d.heat = some h → t.drive = { d with
          heatMarked := false, sending := some (.heat (if s.ctl.rehearsal then ⟨h.position, false, false⟩ else h)) }) ∧
        (d.heatMarked = false → d.spinMarked = true → t.drive = { d with
          spinMarked := false
          sending := some (.spin (if s.ctl.rehearsal then 0 else d.spinSpeed) d.spinDirection) }) ∧
        (d.heatMarked = false → d.spinMarked = false → d.latchMarked = true → t.drive = { d with
          latchMarked := false
          sending := some (.latch (if s.ctl.rehearsal = true ∧ ¬ (d.latch = .release ∧ s.unlockConditions = true)
            then .rest else d.latch)) }) ∧
        (∀ p rest, d.heatMarked = false → d.spinMarked = false → d.latchMarked = false → d.passQueue = p :: rest →
          t.drive = { d with passQueue := rest, sending := some (.pass p) }) ∧
        (d.heatMarked = false → d.spinMarked = false → d.latchMarked = false → d.passQueue = [] →
          t.drive = { d with sending := none }))

/-- Completions and the order of the upstream link. UPSTREAM_SEND_COMPLETE frees the transmitter, which picks by order:
an unsent ANSWER to RESET alone while it waits, and only with the host's GO; the flow slot whatever the permission
(that a WAIT has no payload is log 54); then, with GO, a NOTICE built from the pending set, the fault code, the
recipe outcome and the last announced step, with the announce flag cleared; then the oldest answer; then the oldest
reading. With WAIT it picks nothing but the flow slot. What the transmitters' picks move at the end of an event (log
5) is put aside. -/
def Obligations.UpstreamSending : Prop :=
  ∀ (s : State), s.calm →
    ∃ t, exec .upstreamSendComplete s = .next t ∧ t.content = s.content ∧
      (s.report.resetAnswer = true → s.ctl.permission = .wait → t.report.sending = none ∧ t.ctl.flowSlot = s.ctl.flowSlot) ∧
      (∀ a rest, s.report.resetAnswer = true → s.ctl.permission = .go → s.report.answers = a :: rest →
        t.report.sending = some a ∧ t.report.answers = rest ∧ t.report.resetAnswer = false ∧
        t.ctl.flowSlot = s.ctl.flowSlot) ∧
      (∀ f, s.report.resetAnswer = false → s.ctl.flowSlot = some f →
        t.report.sending = some f.frame ∧ t.ctl.flowSlot = none ∧ t.report.answers = s.report.answers) ∧
      (s.report.resetAnswer = false → s.ctl.flowSlot = none → s.ctl.permission = .wait → t.report.sending = none ∧
        t.report.answers = s.report.answers ∧ t.report.readings = s.report.readings) ∧
      (s.report.resetAnswer = false → s.ctl.flowSlot = none → s.ctl.permission = .go → s.report.announce = true →
        t.report.announce = false ∧ t.report.answers = s.report.answers ∧ t.report.readings = s.report.readings ∧
        t.report.sending = some ⟨0x32, word s.report.pendingSet.toNat
          ++ [byte (faultCode s.engine.fault + bit 7 s.engine.further), byte (recipeOutcomeCode s.engine.recipeOutcome)]
          ++ word (s.report.lastAnnounced.getD 65535)⟩) ∧
      (s.report.resetAnswer = false → s.ctl.flowSlot = none → s.ctl.permission = .go → s.report.announce = false →
        (∀ a rest, s.report.answers = a :: rest → t.report.sending = some a ∧ t.report.answers = rest ∧
          t.report.readings = s.report.readings) ∧
        (∀ a rest, s.report.answers = [] → s.report.readings = a :: rest → t.report.sending = some a ∧
          t.report.readings = rest) ∧
        (s.report.answers = [] → s.report.readings = [] → t.report.sending = none))

/-- Requests are queued, discarded at sixteen, taken as answers go out, and mark WAIT at twelve and GO at four. While
the head of the command queue cannot be taken (an answered request with the answer lane full and the upstream
transmitter busy), a REQUEST_ARRIVAL restarts the watch on the host and appends its frame at the tail; the arrival
that brings the count to twelve while GO is signalled signals WAIT through an empty flow slot, and empties a slot
that still holds GO; at sixteen the frame is discarded with LINK pending and overrun true. With an empty queue and
room, REQUEST_ARRIVAL of GET_CHAIN is answered at once. A GET_CHAIN that heads the queue while the answer lane is
full is taken at the completion whose pick removes an answer, and its answer joins the tail of the lane; the next
answered request waits. When that taking brings the count to four while WAIT is signalled, GO is signalled and
placed in the flow slot. A request row is a request taken at once (log 4). What the transmitters' picks move at the
end of an event (log 5) is put aside. -/
def Obligations.RequestQueue : Prop :=
  ∀ (s : State) (r head : Request) (rest : List Request) (c : Control),
    c = { s.ctl with supervisionCount := 0, quietCount := 0, quietRaised := false
                     supervision := if s.ctl.supervision = .expired then .running else s.ctl.supervision } →
    (s.ctl.queue = head :: rest → head.kind ≠ .inject → head.kind ≠ .pass → s.report.sending.isSome = true →
      4 ≤ s.report.answers.length →
      (s.ctl.queue.length < 16 → s.ctl.queue.length ≠ 11 → s.leadsTo (.requestArrival r.kind r.payload)
        (s.withCtl { c with queue := s.ctl.queue ++ [r] })) ∧
      (s.ctl.queue.length = 11 → s.ctl.signalled = .go → s.ctl.flowSlot = none →
        ∃ t, exec (.requestArrival r.kind r.payload) s = .next t ∧ t.ctl.queue = s.ctl.queue ++ [r] ∧
          t.ctl.signalled = .wait ∧ t.ctl.flowSlot = some .wait ∧ t.report.pendingSet = s.report.pendingSet) ∧
      (s.ctl.queue.length = 11 → s.ctl.signalled = .go → s.ctl.flowSlot = some .go →
        ∃ t, exec (.requestArrival r.kind r.payload) s = .next t ∧ t.ctl.queue = s.ctl.queue ++ [r] ∧
          t.ctl.signalled = .wait ∧ t.ctl.flowSlot = none) ∧
      (16 ≤ s.ctl.queue.length → s.leadsTo (.requestArrival r.kind r.payload)
        ((s.withCtl { c with overrun := true }).raise .link))) ∧
    (∀ (tag : Byte) (a : Frame) (lane : List Frame), s.ctl.queue = ⟨.getChain, [tag]⟩ :: rest →
      (∀ x ∈ rest.head?, x.kind ≠ .inject ∧ x.kind ≠ .pass) → s.report.answers = a :: lane → lane.length = 3 →
      s.report.resetAnswer = false → s.ctl.flowSlot = none → s.ctl.permission = .go → s.report.announce = false →
      ∃ t, exec .upstreamSendComplete s = .next t ∧ t.report.sending = some a ∧ t.ctl.queue = rest ∧
        t.report.answers = lane ++ [answerFrame tag .ok s.pool.summary] ∧
        (rest.length = 4 → s.ctl.signalled = .wait → t.ctl.signalled = .go ∧ t.ctl.flowSlot = some .go) ∧
        (rest.length ≠ 4 ∨ s.ctl.signalled = .go → t.ctl.signalled = s.ctl.signalled ∧ t.ctl.flowSlot = none)) ∧
    (∀ tag : Byte, s.free → ∃ t, exec (.requestArrival .getChain [tag]) s = .next t ∧
      t.answered (answerFrame tag .ok s.pool.summary) ∧ t.content = (s.withCtl c).content)

/-- Step writes and reads. A STEP_WRITE to the index of the step in progress is PROTECTED; a record that does not decode
or is not structurally valid is BAD_FIELD; any other is answered OK, replaces the entry whole with its target
limited to 400, and changes nothing else, but that a record other than EMPTY at the pending index of a STARVED hold
with other reasons removes STARVED, the heater kept warm when only PAUSE is left and the food channel is good, off
with any other reason left. With STARVED the sole reason, an accepted COOK record without pattern, ramp, FORCE_LOCK
or a target above the lock temperature, with mains PRESENT and streams LIVE, starts at once at the pending index as
a fresh step, the STARVED context removed from the chain; so does every COOK, ADD and WAIT_USER record, as a timed
step start gives (log 47 for a record that fails both its checks). A refused write changes nothing. A STEP_READ is
answered OK with the index and the stored record. A request row is a request taken at once (log 4). What the
transmitters' picks move at the end of an event (log 5) is put aside. -/
def Obligations.StepWriteAndRead : Prop :=
  ∀ (s : State) (tag i : Byte) (bytes : List Byte), s.free → bytes.length = 16 →
    (s.stepInProgress = some i.toNat → s.refuses (.stepWrite tag (i :: bytes)) tag .isProtected) ∧
    (s.stepInProgress ≠ some i.toNat → (∀ r, readStep bytes = some r → r.valid = false) →
      s.refuses (.stepWrite tag (i :: bytes)) tag .badField) ∧
    (∀ r, s.stepInProgress ≠ some i.toNat → readStep bytes = some r → r.valid = true →
      ¬ (s.engine.state = .held ∧ s.engine.holds.starved = true ∧ s.pool.pendingIndex = some i.toNat ∧ r.kind ≠ .empty) →
      s.accepts (.stepWrite tag (i :: bytes)) tag []
        (s.withSteps (s.steps.setIfInBounds i.toNat { r with target := min r.target 400 }))) ∧
    (∀ r, s.engine.state = .held → s.engine.holds.starved = true → s.pool.pendingIndex = some i.toNat →
      readStep bytes = some r → r.valid = true → r.kind ≠ .empty →
      { s.engine.holds with starved := false } ≠ Holds.empty →
      s.food.faulted = false ∨ s.engine.holds.lid = true ∨ s.engine.holds.bowl = true ∨ s.engine.holds.mains = true ∨
        s.engine.holds.sensor = true →
      ∃ t, exec (.stepWrite tag (i :: bytes)) s = .next t ∧ t.answered (answerFrame tag .ok []) ∧
        t.step i.toNat = { r with target := min r.target 400 } ∧ t.engine.state = .held ∧
        t.engine.holds = { s.engine.holds with starved := false } ∧ t.pool = s.pool ∧ t.stir.commanded = 0 ∧
        t.lock.standing = .release ∧
        t.reg.target = (if s.engine.holds.lid ∨ s.engine.holds.bowl ∨ s.engine.holds.mains ∨ s.engine.holds.sensor then 0
          else min s.limits.keepWarm s.engine.previousTarget) ∧
        (∀ j, j ≠ i.toNat → t.step j = s.step j)) ∧
    (∀ (r : StepRecord) (slot : Nat) (reasons : Holds) (rest : List (Nat × Context)), s.engine.state = .held →
      s.engine.holds = { Holds.empty with starved := true } → s.pool.chain = (slot, .starved reasons i.toNat) :: rest →
      readStep bytes = some r → r.valid = true → r.kind = .cook ∨ r.kind = .add ∨ r.kind = .waitUser →
      ∃ t, exec (.stepWrite tag (i :: bytes)) s = .next t ∧ t.answered (answerFrame tag .ok []) ∧
        (s.withPool { free := slot :: s.pool.free, chain := rest, depth := s.pool.depth }).timedStart t i.toNat
          s.engine.previousTarget { r with target := min r.target 400 }) ∧
    (∀ (r : StepRecord) (target slot : Nat) (reasons : Holds) (rest : List (Nat × Context)), s.engine.state = .held →
      s.engine.holds = { Holds.empty with starved := true } → s.pool.chain = (slot, .starved reasons i.toNat) :: rest →
      readStep bytes = some r → r.valid = true → r.kind = .cook → r.pattern = none → r.ramp = 0 →
      r.flags.forceLock = false → target = min (min r.target 400) s.limits.maxFoodTarget → target ≤ s.limits.lockTemp →
      s.sched.mainsPresent = true → s.intake.levels.live = true →
      (0 < target → s.intake.temp.live = true ∧ s.food.faulted = false) →
      ∃ t, exec (.stepWrite tag (i :: bytes)) s = .next t ∧ t.answered (answerFrame tag .ok []) ∧
        t.step i.toNat = { r with target := min r.target 400 } ∧ t.engine.state = .running ∧
        t.engine.index = i.toNat ∧ t.engine.phase = .active ∧ t.engine.elapsed = 0 ∧ t.engine.limitElapsed = 0 ∧
        t.engine.holds = .empty ∧ t.engine.clampedTarget = target ∧ t.reg.target = target ∧
        t.pool = { free := slot :: s.pool.free, chain := rest, depth := s.pool.depth } ∧
        t.stepInProgress = some i.toNat) ∧
    s.accepts (.stepRead tag [i]) tag (i :: (s.step i.toNat).encode) s

/-- Linearization table writes and reads. ENTRY_WRITE to LIN0, LIN1 or LIN2 is BUSY outside IDLE, BAD_FIELD for an index
above 32 or a value outside -200 to 1,200, and otherwise stores the value at that point of that channel alone, adds
the index to the written set, and makes the table loaded once all 33 are written. ENTRY_READ is BAD_FIELD above 32
and otherwise answers table, index, value and whether it is written. A request row is a request taken at once (log
4). What the transmitters' picks move at the end of an event (log 5) is put aside. -/
def Obligations.LinTables : Prop :=
  ∀ (s : State) (tag i hi lo : Byte) (table : LinTable) (v : Int), s.free → v = signed 16 (256 * hi.toNat + lo.toNat) →
    (s.engine.state ≠ .idle → s.refuses (.entryWriteLin tag table [i, hi, lo]) tag .busy) ∧
    (s.engine.state = .idle → (32 < i.toNat ∨ v < -200 ∨ 1200 < v) →
      s.refuses (.entryWriteLin tag table [i, hi, lo]) tag .badField) ∧
    (s.engine.state = .idle → i.toNat ≤ 32 → -200 ≤ v → v ≤ 1200 →
      ∃ d : Channel, s.accepts (.entryWriteLin tag table [i, hi, lo]) tag [] (s.setLinChannel table d) ∧
        d.points = (s.linChannel table).points.setIfInBounds i.toNat v ∧
        d.written = (s.linChannel table).written.setIfInBounds i.toNat true ∧
        (d.loaded = true ↔ (s.linChannel table).loaded = true ∨ ∀ j, j < 33 → d.written[j]? = some true) ∧
        d.value = (s.linChannel table).value ∧ d.faulted = (s.linChannel table).faulted ∧
        d.outRun = (s.linChannel table).outRun ∧ d.goodRun = (s.linChannel table).goodRun) ∧
    (32 < i.toNat → s.refuses (.entryReadLin tag table [i]) tag .badField) ∧
    (∀ p w, (s.linChannel table).points[i.toNat]? = some p → (s.linChannel table).written[i.toNat]? = some w →
      s.accepts (.entryReadLin tag table [i]) tag (linCode table :: i :: (wordInt p ++ [byte (bit 0 w)])) s)

/-- Pattern and binding table writes and reads. ENTRY_WRITE to PATTERN is PROTECTED for the pattern named by the step in
progress, BAD_FIELD for an index above 15 or an entry outside its ranges, and otherwise replaces the entry; to BIND
it is BAD_FIELD for an index above 11 or an action outside the six, and otherwise replaces the binding; nothing else
changes. ENTRY_READ answers the stored entry and is BAD_FIELD above the last index. A byte 1 for a true item or REV
in an answer is the model's choice (log 39). A request row is a request taken at once (log 4). What the
transmitters' picks move at the end of an event (log 5) is put aside. -/
def Obligations.PatternsAndBindings : Prop :=
  ∀ (s : State) (tag i e a : Byte) (bytes : List Byte), s.free → bytes.length = 42 →
    (s.patternInUse = some i.toNat → s.refuses (.entryWritePattern tag (i :: bytes)) tag .isProtected) ∧
    (s.patternInUse ≠ some i.toNat → (15 < i.toNat ∨ (readPatternEntry bytes).valid = false) →
      s.refuses (.entryWritePattern tag (i :: bytes)) tag .badField) ∧
    (s.patternInUse ≠ some i.toNat → i.toNat ≤ 15 → (readPatternEntry bytes).valid = true →
      s.accepts (.entryWritePattern tag (i :: bytes)) tag []
        (s.withPatterns (s.patterns.setIfInBounds i.toNat (readPatternEntry bytes)))) ∧
    (15 < i.toNat → s.refuses (.entryReadPattern tag [i]) tag .badField) ∧
    (i.toNat ≤ 15 → s.accepts (.entryReadPattern tag [i]) tag (3 :: i :: (s.pattern i.toNat).encode) s) ∧
    ((11 < i.toNat ∨ 5 < a.toNat) → s.refuses (.entryWriteBind tag [i, e, a]) tag .badField) ∧
    (∀ x : Action, i.toNat ≤ 11 → x.code = a.toNat →
      s.accepts (.entryWriteBind tag [i, e, a]) tag [] (s.withLines { s.lines with
        bindings := s.lines.bindings.setIfInBounds i.toNat ⟨decide (e ≠ 0), x⟩ })) ∧
    (11 < i.toNat → s.refuses (.entryReadBind tag [i]) tag .badField) ∧
    (i.toNat ≤ 11 → s.accepts (.entryReadBind tag [i]) tag (4 :: i :: (s.lines.binding i.toNat).encode) s)

/-- Calibration and limits record writes and reads. ENTRY_WRITE to CAL or LIMITS is BAD_FIELD for an index other than 0,
BUSY outside IDLE, BAD_FIELD for a field outside its range, and otherwise replaces the record whole. A CAL write
discards the weighing block and cancels a pending tare. A LIMITS write that changes the frame or window layout moves
the cycle position to the last of the new frame, one that changes the debounce count clears the agreement counts,
and one that changes the reading interval restarts the reading count; nothing else changes (that the lock is not
judged, and a running operation timer not compared, at the write are log 46 and log 45). ENTRY_READ with index 0
answers the record. A byte 1 for a true item or REV in an answer is the model's choice (log 39). A request row is a
request taken at once (log 4). What the transmitters' picks move at the end of an event (log 5) is put aside. -/
def Obligations.CalibrationAndLimits : Prop :=
  ∀ (s : State) (tag i : Byte) (cal limits : List Byte), s.free → cal.length = 13 → limits.length = 44 →
    (i ≠ 0 → s.refuses (.entryWriteCal tag (i :: cal)) tag .badField ∧
      s.refuses (.entryWriteLimits tag (i :: limits)) tag .badField ∧
      s.refuses (.entryReadCal tag [i]) tag .badField ∧ s.refuses (.entryReadLimits tag [i]) tag .badField) ∧
    (s.engine.state ≠ .idle → s.refuses (.entryWriteCal tag (0 :: cal)) tag .busy ∧
      s.refuses (.entryWriteLimits tag (0 :: limits)) tag .busy) ∧
    (s.engine.state = .idle → (readCalibration cal).valid = false →
      s.refuses (.entryWriteCal tag (0 :: cal)) tag .badField) ∧
    (s.engine.state = .idle → (readLimits limits).valid = false →
      s.refuses (.entryWriteLimits tag (0 :: limits)) tag .badField) ∧
    (s.engine.state = .idle → (readCalibration cal).valid = true →
      s.accepts (.entryWriteCal tag (0 :: cal)) tag [] ((s.withCal (readCalibration cal)).withWeigh { s.weigh with
        blockSum := 0, blockCount := 0, stability := 0, stable := false, anchor := none, status := .noData,
        tarePending := false })) ∧
    (∀ l : Limits, s.engine.state = .idle → l = readLimits limits → l.valid = true →
      s.accepts (.entryWriteLimits tag (0 :: limits)) tag [] ((((s.withLimits l).withSched
        (if l.frameLength = s.limits.frameLength ∧ l.startB = s.limits.startB ∧ l.windowB = s.limits.windowB ∧
            l.startS = s.limits.startS ∧ l.windowS = s.limits.windowS
          then s.sched else { s.sched with position := l.frameLength - 1 })).withLines
        (if l.debounce = s.limits.debounce then s.lines else s.lines.clearCounts)).withReport { s.report with
          readingCount := if l.readingInterval = s.limits.readingInterval then s.report.readingCount else 0 })) ∧
    (∀ n, s.lines.clearCounts.line n = { s.lines.line n with agreement := 0 }) ∧
    s.accepts (.entryReadCal tag [0]) tag (5 :: 0 :: s.cal.encode) s ∧
    s.accepts (.entryReadLimits tag [0]) tag (6 :: 0 :: s.limits.encode) s

/-- GET_STATE and GET_CHAIN report and change nothing. GET_CHAIN is answered OK with chain length, depth, free count and
four bytes for each record from head to tail: slot, kind, started and the ninth bit of a return index, then the
return index, routine and repeats of a CALL, or the index, reasons and phase of a SUSPEND. GET_STATE is answered OK
with the 62 bytes of the state as it stands. While HELD with a started step the elapsed seconds, setpoint,
integrator and overload cap in them are those of the SUSPEND record, else the setpoint, integrator and cap are those
of the regulator and the stir drive (R65; log 49). The block's state is unchanged but for the model's choice counter
at a GET_STATE (log 10). A request row is a request taken at once (log 4). What the transmitters' picks move at the
end of an event (log 5) is put aside. -/
def Obligations.StateAndChainQueries : Prop :=
  ∀ (s : State) (tag : Byte), s.free →
    (∃ t, exec (.getState tag []) s = .next t ∧ t.content = (s.withChoices (s.choices + 1)).content ∧
      t.answered (answerFrame tag .ok s.stateContent)) ∧
    s.stateContent.length = 62 ∧
    s.stateContent[1]? = some (byte s.engine.index) ∧
    s.stateContent[61]? = some (byte (bit 5 s.ctl.overrun + bit 6 (s.ctl.signalled = .wait)
      + bit 7 (s.ctl.permission = .wait))) ∧
    (∀ r, s.engine.state = .held → s.pool.heldRecord = some r →
      (s.stateContent.drop 5).take 2 = word ((r.elapsed + 500) / 1000) ∧
      (s.stateContent.drop 32).take 4 = wordInt r.setpoint ++ wordInt r.integrator ∧
      (s.stateContent.drop 44).take 2 = word (r.overloadCap.getD 0)) ∧
    (s.engine.state ≠ .held ∨ s.pool.heldRecord = none →
      (s.stateContent.drop 32).take 4 = wordInt s.reg.setpoint ++ wordInt s.reg.integrator ∧
      (s.stateContent.drop 44).take 2 = word (s.stir.overloadCap.getD 0)) ∧
    s.accepts (.getChain tag []) tag ([byte s.pool.chain.length, byte s.pool.depth, byte s.pool.free.length]
      ++ s.pool.chain.flatMap fun x => match x with
        | (slot, .call r) =>
          [byte (slot % 16 + if 256 ≤ r.returnIndex then 64 else 0), byte r.returnIndex, byte r.routine, byte r.remaining]
        | (slot, .starved reasons i) => [byte (slot % 16 + 16), byte i, byte reasons.code, 0]
        | (slot, .held r) => [byte (slot % 16 + 48), byte r.index, byte r.reasons.code, byte r.phase.code]) s

/-- PASS frames go to the power stage unchanged, INJECT is an arrival in rehearsal. A PASS taken with room in its queue
joins the tail of the queue, or is already in transmission when the transmitter was free with nothing before it. An
INJECT with rehearsal off raises LINK and changes nothing else; with rehearsal on, an injected frame of any of the
five kinds has the effect its sample has at the intake, a WEIGH frame that of its signed 24-bit count, and one of an
unknown kind or a wrong length raises LINK alone. The rows are requests taken at once, without the host watch (log
4). What the transmitters' picks move at the end of an event (log 5) is put aside. -/
def Obligations.PassAndInject : Prop :=
  ∀ (s : State) (payload : List Byte), s.calm →
    (s.drive.passQueue.length < 4 → ∃ t, exec (.pass payload) s = .next t ∧ t.content = s.content ∧
      (s.drive.sending.isSome = true → t.drive.passQueue = s.drive.passQueue ++ [payload]) ∧
      (s.drive.sending = none → s.drive.heatMarked = false → s.drive.spinMarked = false →
        s.drive.latchMarked = false → s.drive.passQueue = [] →
        t.drive.sending = some (.pass payload) ∧ t.drive.passQueue = [])) ∧
    (s.ctl.rehearsal = false → s.leadsTo (.inject payload) (s.raise .link)) ∧
    (∀ (kind seq : Byte) (rest : List Byte) (x : Sample), s.ctl.rehearsal = true → payload = kind :: rest →
      readSample kind rest = some (seq, x) → exec (.inject payload) s = .next (s.picks.takeFrame seq x).picks) ∧
    (∀ (seq b0 b1 b2 : Byte), s.ctl.rehearsal = true → payload = [1, seq, b0, b1, b2] →
      exec (.inject payload) s
        = .next (s.picks.takeFrame seq (.weigh (signed 24 (65536 * b0.toNat + 256 * b1.toNat + b2.toNat)))).picks) ∧
    (∀ (kind : Byte) (rest : List Byte), s.ctl.rehearsal = true → payload = kind :: rest →
      sampleLength kind ≠ some rest.length → s.leadsTo (.inject payload) (s.raise .link))

/-- DO START: refusals, and the start of a timed step with and without lock need, pattern and standing holds. DO START
is BUSY outside IDLE and NOT_READY in IDLE while a table is not loaded, the lid is not closed, the bowl is not
seated, or a cause of STILL_PRESENT is present. In IDLE and ready, with mains PRESENT and streams LIVE, the start at
a COOK record without pattern, ramp, FORCE_LOCK or a target above the lock temperature is answered OK and runs the
step in ACTIVE at that index with the target clamped, the setpoint at the target, timers 0, the outcomes cleared,
RELEASE standing, and STEP pending with the index as last announced step when it carries ANNOUNCE. With FORCE_LOCK
or a target above the lock temperature the step needs the lock: with the lock RELEASED it waits in ENTRY while the
engage begins (ENGAGING, latch ENGAGE, timer 0), in UNKNOWN, ENGAGING or RELEASING it waits in ENTRY with ENGAGE
standing, and with the lock ENGAGED it enters ACTIVE. With the mains LOST, LEVELS STALLED, or TEMP STALLED under a
target above 0, the step is held at once with MAINS, SENSOR or both, saved in phase ENTRY with no sub-phase and
timers 0, and no lock need is determined. Every COOK, ADD and WAIT_USER record, with or without a pattern, starts as
a timed step start gives: PATTERN_EMPTY, UNCALIBRATED (log 47 where both apply) or FOOD_SENSOR, a hold at once, a
wait in ENTRY, or ACTIVE with its pattern running from the first phase. A request row is a request taken at once
(log 4). What the transmitters' picks move at the end of an event (log 5) is put aside. -/
def Obligations.StartCommand : Prop :=
  ∀ (s : State) (tag i : Byte) (r : StepRecord) (target : Nat), s.free →
    (s.engine.state ≠ .idle → s.refuses (.doStart tag [i]) tag .busy) ∧
    (s.engine.state = .idle → (s.base.loaded = false ∨ s.food.loaded = false ∨ s.board.loaded = false ∨
      s.lines.lid.level ≠ .high ∨ s.lines.bowl.level ≠ .high ∨ s.causePresent = true) →
      s.refuses (.doStart tag [i]) tag .notReady) ∧
    (s.engine.state = .idle → s.base.loaded = true → s.food.loaded = true → s.board.loaded = true →
      s.lines.lid.level = .high → s.lines.bowl.level = .high → s.causePresent = false →
      r = s.step i.toNat → r.kind = .cook → r.pattern = none → r.ramp = 0 → r.flags.forceLock = false →
      target = min r.target s.limits.maxFoodTarget → target ≤ s.limits.lockTemp →
      s.sched.mainsPresent = true → s.intake.levels.live = true →
      (0 < target → s.intake.temp.live = true ∧ s.food.faulted = false) →
      ∃ t, exec (.doStart tag [i]) s = .next t ∧ t.answered (answerFrame tag .ok []) ∧
        t.engine = { s.engine with
          state := .running, index := i.toNat, phase := .active
          sub := if target = 0 then .reached else .approach
          elapsed := 0, limitElapsed := 0, reached := decide (target = 0), lockNeed := false
          clampedTarget := target, previousTarget := target, holds := .empty
          lastOutcome := none, recipeOutcome := none } ∧
        t.reg.target = target ∧ t.reg.setpoint = target ∧ t.reg.ramp = 0 ∧
        t.reg.integrator = (if target = 0 then s.reg.integrator else 0) ∧
        t.pool = s.pool ∧ t.lock.standing = .release ∧ t.stir.running = none ∧ t.stir.commanded = 0 ∧
        t.weigh.addReference = none ∧ t.stepInProgress = some i.toNat ∧
        (r.flags.announce = true → t.report.lastAnnounced = some i.toNat ∧ t.report.isPending .step = true) ∧
        (r.flags.announce = false → t.report.lastAnnounced = s.report.lastAnnounced ∧
          t.report.pendingSet = s.report.pendingSet)) ∧
    (s.engine.state = .idle → s.ready = true → r = s.step i.toNat → r.kind = .cook → r.pattern = none →
      target = min r.target s.limits.maxFoodTarget → (0 < target → s.food.faulted = false) →
      (s.sched.mainsPresent = true → s.intake.levels.live = true → (0 < target → s.intake.temp.live = true) →
        r.flags.forceLock = true ∨ s.limits.lockTemp < target →
        ∃ t, exec (.doStart tag [i]) s = .next t ∧ t.answered (answerFrame tag .ok []) ∧ t.engine.state = .running ∧
          t.engine.index = i.toNat ∧ t.engine.lockNeed = true ∧ t.engine.clampedTarget = target ∧
          t.lock.standing = .engage ∧ t.lock.releaseWait = false ∧ t.reg.target = target ∧ t.stir.commanded = 0 ∧
          (s.lock.state = .released → t.engine.phase = .entry ∧ t.engine.sub = .none ∧ t.lock.state = .engaging ∧
            t.lock.latch = .engage ∧ t.lock.timer = 0) ∧
          (s.lock.state = .unknown ∨ s.lock.state = .engaging ∨ s.lock.state = .releasing →
            t.engine.phase = .entry ∧ t.engine.sub = .none ∧ t.lock.state = s.lock.state ∧
            t.lock.latch = s.lock.latch) ∧
          (s.lock.state = .engaged → t.engine.phase = .active ∧ t.lock.state = .engaged)) ∧
      (∀ (slot : Nat) (free : List Nat) (sensor : Bool), s.pool.free = slot :: free →
        (sensor = true ↔ s.intake.levels.live = false ∨ (0 < target ∧ s.intake.temp.live = false)) →
        s.sched.mainsPresent = false ∨ sensor = true →
        ∃ t h, exec (.doStart tag [i]) s = .next t ∧ t.answered (answerFrame tag .ok []) ∧ t.engine.state = .held ∧
          t.engine.index = i.toNat ∧
          t.engine.holds = { Holds.empty with mains := !s.sched.mainsPresent, sensor := sensor } ∧
          t.pool = { free := free, chain := (slot, .held h) :: s.pool.chain, depth := s.pool.depth } ∧
          h.index = i.toNat ∧ h.phase = .entry ∧ h.sub = .none ∧ h.elapsed = 0 ∧ h.limitElapsed = 0 ∧
          h.reasons = t.engine.holds ∧ t.lock.state = s.lock.state ∧ t.lock.standing = .release ∧
          t.reg.target = 0 ∧ t.report.isPending .held = true)) ∧
    (s.engine.state = .idle → s.ready = true → r = s.step i.toNat → r.kind = .cook ∨ r.kind = .add ∨ r.kind = .waitUser →
      ∃ t, exec (.doStart tag [i]) s = .next t ∧ t.answered (answerFrame tag .ok []) ∧ s.timedStart t i.toNat 0 r)

/-- CALL and RETURN records at a step start. A step start at a CALL record is CALL_DEPTH at the depth limit and
CALL_POOL with at most one slot free, with the pool kept; otherwise a CALL whose routine is an EMPTY entry saves its
context (return index one more, repeats less one) in the head slot of the free list and holds STARVED above it. A
step start at a RETURN is RETURN_EMPTY on an empty chain and CONTEXT_KIND under a SUSPEND head; with repeats
remaining it takes one and starts the routine, else it removes the context and starts the return index, here each an
EMPTY entry that holds STARVED. -/
def Obligations.CallAndReturn : Prop :=
  ∀ (s t : State) (i j n m : Nat) (rest : List (Nat × Context)) (free : List Nat) (c : CallRecord),
    i < 256 → t = s.startStep i → s.food.faulted = false → s.engine.state = .running →
    ((s.step i).kind = .call → s.pool.depth = s.limits.depthLimit →
      (s.withEngine { s.engine with index := i }).faultedWith t .callDepth) ∧
    ((s.step i).kind = .call → s.pool.depth ≠ s.limits.depthLimit → s.pool.free.length ≤ 1 →
      (s.withEngine { s.engine with index := i }).faultedWith t .callPool) ∧
    ((s.step i).kind = .call → s.pool.depth ≠ s.limits.depthLimit → s.pool.free = n :: m :: free →
      (s.step i).routine = j → j < 256 → (s.step j).kind = .empty →
      t.pool.depth = s.pool.depth + 1 ∧ t.pool.free = free ∧ t.engine.state = .held ∧ t.engine.index = j ∧
      t.engine.holds.starved = true ∧ t.pool.pendingIndex = some j ∧
      t.pool.chain.tail = (n, .call ⟨i + 1, j, (s.step i).repeats - 1⟩) :: s.pool.chain ∧
      (s.limits.warnLevel < s.pool.free.length → s.pool.free.length - 1 ≤ s.limits.warnLevel →
        t.report.isPending .poolLow = true)) ∧
    ((s.step i).kind = .ret → s.pool.chain = [] →
      (s.withEngine { s.engine with index := i }).faultedWith t .returnEmpty) ∧
    ((s.step i).kind = .ret → s.pool.heldRecord.isSome = true ∨ s.pool.pendingIndex.isSome = true →
      (s.withEngine { s.engine with index := i }).faultedWith t .contextKind) ∧
    ((s.step i).kind = .ret → s.pool.chain = (n, .call c) :: rest → 0 < c.remaining → c.routine < 256 →
      (s.step c.routine).kind = .empty → s.pool.free = m :: free →
      t.pool.depth = s.pool.depth ∧ t.pool.pendingIndex = some c.routine ∧
      t.pool.chain.tail = (n, .call { c with remaining := c.remaining - 1 }) :: rest) ∧
    ((s.step i).kind = .ret → s.pool.chain = (n, .call c) :: rest → c.remaining = 0 → c.returnIndex < 256 →
      (s.step c.returnIndex).kind = .empty →
      t.pool.depth = s.pool.depth - 1 ∧ t.pool.pendingIndex = some c.returnIndex ∧ t.pool.chain.tail = rest ∧
      t.pool.free = s.pool.free)

/-- The refusals of the engine commands by state. PAUSE, STOP and SKIP are BUSY in IDLE, ENDING and FAULTED, and SKIP is
HELD in HELD. RESUME is NOT_HELD outside HELD, and HOLD_CAUSE in HELD unless PAUSE is the sole reason. EXTEND is
NO_TIMER when no step is in progress, and when the step has neither condition TIME nor a limit, whatever the
seconds, 0 included (log 30). CLEAR is BUSY outside FAULTED and STILL_PRESENT while a cause is present. A refused
command changes nothing. A request row is a request taken at once (log 4). What the transmitters' picks move at the
end of an event (log 5) is put aside. -/
def Obligations.EngineCommandRefusals : Prop :=
  ∀ (s : State) (tag hi lo : Byte), s.free →
    (s.engine.state = .idle ∨ s.engine.state = .ending ∨ s.engine.state = .faulted →
      s.refuses (.doPause tag []) tag .busy ∧ s.refuses (.doStop tag []) tag .busy ∧
      s.refuses (.doSkip tag []) tag .busy) ∧
    (s.engine.state = .held → s.refuses (.doSkip tag []) tag .held) ∧
    (s.engine.state ≠ .held → s.refuses (.doResume tag []) tag .notHeld) ∧
    (s.engine.state = .held → s.engine.holds ≠ { Holds.empty with pause := true } →
      s.refuses (.doResume tag []) tag .holdCause) ∧
    (s.stepInProgress = none → s.refuses (.doExtend tag [hi, lo]) tag .noTimer) ∧
    (∀ i, s.stepInProgress = some i → (s.step i).condition ≠ some .time → (s.step i).limit = 0 →
      s.refuses (.doExtend tag [hi, lo]) tag .noTimer) ∧
    (s.engine.state ≠ .faulted → s.refuses (.doClear tag []) tag .busy) ∧
    (s.engine.state = .faulted → s.causePresent = true → s.refuses (.doClear tag []) tag .stillPresent)

/-- A step paused and resumed goes on where it stood. For a step with a pattern, RUNNING in ACTIVE, that needs no lock,
while the food channel is good, DO PAUSE followed by DO RESUME, both taken at once, restores the whole engine
record, the pool with its free list and chain, the weighing channel, the heater target, the setpoint, the ramp
accumulator and the integrator, the phase of the pattern with its elapsed time, the torque count and the overload
cap; the motor comes back from 0. A request row is a request taken at once (log 4). -/
def Obligations.PauseThenResumeRestores : Prop :=
  ∀ (s : State) (tag₁ tag₂ : Byte) (slot : Nat) (free : List Nat), s.calm → s.report.answers.length < 3 →
    s.active = true → s.engine.holds = .empty → s.engine.sub ≠ .none → s.lockNeeded s.current = false →
    s.engine.lockNeed = false → s.pool.free = slot :: free → s.food.faulted = false →
    s.reg.target = s.engine.clampedTarget → s.stir.running = s.current.pattern →
    s.current.pattern.isSome = true →
    ∃ u t, exec (.doPause tag₁ []) s = .next u ∧ exec (.doResume tag₂ []) u = .next t ∧
      u.engine.state = .held ∧ u.engine.holds = { Holds.empty with pause := true } ∧ u.stir.commanded = 0 ∧
      u.reg.target = min s.limits.keepWarm s.engine.clampedTarget ∧ u.report.isPending .held = true ∧
      u.stepInProgress = some s.engine.index ∧ u.answered (answerFrame tag₁ .ok []) ∧
      t.answered (answerFrame tag₂ .ok []) ∧ t.engine = s.engine ∧ t.pool = s.pool ∧ t.weigh = s.weigh ∧
      t.reg.target = s.reg.target ∧ t.reg.setpoint = s.reg.setpoint ∧
      t.reg.rampAccumulator = s.reg.rampAccumulator ∧ t.reg.integrator = s.reg.integrator ∧ t.reg.rampCount = 0 ∧
      t.reg.ramp = s.current.ramp ∧ t.stir.running = s.stir.running ∧ t.stir.phaseIndex = s.stir.phaseIndex ∧
      t.stir.phaseElapsed = s.stir.phaseElapsed ∧ t.stir.torqueCount = s.stir.torqueCount ∧
      t.stir.overloadCap = s.stir.overloadCap ∧ t.stir.commanded = 0 ∧ t.steps = s.steps ∧
      t.lock.standing = .release

/-- DO STOP, DO CLEAR and DO EXTEND accepted. DO STOP in RUNNING or HELD frees the chain, empties the hold reasons, ends
the step without an outcome and enters ENDING with outcome STOPPED, heater 0, motor 0 and RELEASE standing. DO CLEAR
in FAULTED with no cause present rebuilds the pool, clears the fault record and the previous target and enters IDLE.
DO EXTEND adds its seconds to the duration of a TIME step, or to the limit of another, saturating at 65,535, and
changes nothing else. Each is answered OK. A request row is a request taken at once (log 4). What the transmitters'
picks move at the end of an event (log 5) is put aside. -/
def Obligations.StopClearExtend : Prop :=
  ∀ (s : State) (tag hi lo : Byte), s.free →
    (s.engine.state = .running ∨ s.engine.state = .held →
      ∃ t, exec (.doStop tag []) s = .next t ∧ t.answered (answerFrame tag .ok []) ∧
        t.engine = { s.engine with
          state := .ending, phase := .none, sub := .none, elapsed := 0, limitElapsed := 0, reached := false
          holds := .empty, recipeOutcome := some .stopped } ∧
        t.pool.chain = [] ∧ t.pool.depth = 0 ∧ (s.pool.sound → t.pool.free = List.range 12) ∧
        t.reg.target = 0 ∧ t.reg.setpoint = 0 ∧ t.reg.integrator = s.reg.integrator ∧ t.stir.commanded = 0 ∧
        t.stir.running = none ∧ t.lock.standing = .release ∧ t.weigh.addReference = none ∧
        t.stepInProgress = none ∧ t.report.pendingSet = s.report.pendingSet ∧ t.steps = s.steps) ∧
    (s.engine.state = .faulted → s.causePresent = false →
      ∃ t, exec (.doClear tag []) s = .next t ∧ t.answered (answerFrame tag .ok []) ∧
        t.engine = { s.engine with state := .idle, fault := none, further := false, previousTarget := 0 } ∧
        t.pool = .rebuilt ∧ t.report.pendingSet = s.report.pendingSet ∧ t.steps = s.steps ∧ t.weigh = s.weigh) ∧
    (∀ i, s.stepInProgress = some i → (s.step i).condition = some .time →
      s.accepts (.doExtend tag [hi, lo]) tag [] (s.withSteps (s.steps.setIfInBounds i { s.step i with
        duration := min ((s.step i).duration + (256 * hi.toNat + lo.toNat)) 65535 }))) ∧
    (∀ i, s.stepInProgress = some i → (s.step i).condition ≠ some .time → 0 < (s.step i).limit →
      s.accepts (.doExtend tag [hi, lo]) tag [] (s.withSteps (s.steps.setIfInBounds i { s.step i with
        limit := min ((s.step i).limit + (256 * hi.toNat + lo.toNat)) 65535 })))

/-- DO TARE, DO ZERO_CAL and DO SPAN_CAL. DO TARE is NOT_READY with gain 0; with the latest output stable it takes the
gross as tare, cancels a pending tare and makes the net 0; otherwise the tare becomes pending. DO SPAN_CAL is BUSY
outside IDLE, then RANGE for a reference outside 1 to 80,000, then UNSTABLE, then RANGE for an offset below 1,000 or
a gain of 0 or above 65,535, and otherwise sets the rounded gain alone. DO ZERO_CAL is BUSY outside IDLE and
UNSTABLE unless stable, and otherwise takes the latest average, when it fits the zero field, and the base
temperature (also beyond the range of the calibration temperature's field, log 44). An accepted calibration discards
the block, restarts the stability test, sets NO_DATA and cancels a pending tare. A request row is a request taken at
once (log 4). What the transmitters' picks move at the end of an event (log 5) is put aside. -/
def Obligations.WeighingCommands : Prop :=
  ∀ (s : State) (tag b0 b1 b2 : Byte) (reference : Nat) (d gain : Int) (changed : Weigh), s.free →
    reference = 65536 * b0.toNat + 256 * b1.toNat + b2.toNat → d = s.weigh.average - s.cal.zero →
    gain = ((reference * 65536 : Nat) + d / 2) / d →
    changed = { s.weigh with blockSum := 0, blockCount := 0, stability := 0, stable := false, anchor := none,
                             status := .noData, tarePending := false } →
    (s.cal.gain = 0 → s.refuses (.doTare tag []) tag .notReady) ∧
    (s.cal.gain ≠ 0 → s.weigh.stable = true → s.accepts (.doTare tag []) tag []
      (s.withWeigh { s.weigh with tare := s.weigh.gross, tarePending := false, net := 0 })) ∧
    (s.cal.gain ≠ 0 → s.weigh.stable = false → s.accepts (.doTare tag []) tag []
      (s.withWeigh { s.weigh with tarePending := true })) ∧
    (s.engine.state ≠ .idle → s.refuses (.doZeroCal tag []) tag .busy ∧
      s.refuses (.doSpanCal tag [b0, b1, b2]) tag .busy) ∧
    (s.engine.state = .idle → s.weigh.stable = false → s.refuses (.doZeroCal tag []) tag .unstable) ∧
    (s.engine.state = .idle → s.weigh.stable = true → -8388608 ≤ s.weigh.average → s.weigh.average ≤ 8388607 →
      s.accepts (.doZeroCal tag []) tag [] ((s.withCal { s.cal with
        zero := s.weigh.average, tcal := s.base.value.getD s.cal.tcal }).withWeigh changed)) ∧
    (s.engine.state = .idle → (reference < 1 ∨ 80000 < reference) →
      s.refuses (.doSpanCal tag [b0, b1, b2]) tag .range) ∧
    (s.engine.state = .idle → 1 ≤ reference → reference ≤ 80000 → s.weigh.stable = false →
      s.refuses (.doSpanCal tag [b0, b1, b2]) tag .unstable) ∧
    (s.engine.state = .idle → 1 ≤ reference → reference ≤ 80000 → s.weigh.stable = true →
      (d < 1000 ∨ gain = 0 ∨ 65535 < gain) → s.refuses (.doSpanCal tag [b0, b1, b2]) tag .range) ∧
    (s.engine.state = .idle → 1 ≤ reference → reference ≤ 80000 → s.weigh.stable = true → 1000 ≤ d → 1 ≤ gain →
      gain ≤ 65535 → s.accepts (.doSpanCal tag [b0, b1, b2]) tag []
        ((s.withCal { s.cal with gain := gain.toNat }).withWeigh changed))

/-- DO CLEAR_NOTICES, CLEAR_EDGES, CLEAR_CAPTURE, SUPERVISE and REHEARSE. CLEAR_NOTICES removes the named classes from
the pending set, and with LINK among those removed the overrun flag; CLEAR_EDGES removes the named bindings below 12
from the pending edges; CLEAR_CAPTURE empties the capture record and its overrun; SUPERVISE while disarmed arms a
period of (v + 1) times 10 ms with v limited to 9 to 254, and is LOCKED once armed; REHEARSE is BUSY outside IDLE
and otherwise sets rehearsal, making the last sequence number absent when it changes. Each is answered and changes
nothing else. A request row is a request taken at once (log 4). What the transmitters' picks move at the end of an
event (log 5) is put aside. -/
def Obligations.ClearsSuperviseRehearse : Prop :=
  ∀ (s : State) (tag hi lo v : Byte) (left : BitVec 16), s.free →
    left = s.report.pendingSet &&& ~~~ (BitVec.ofNat 16 (256 * hi.toNat + lo.toNat)) →
    (∃ t, exec (.doClearNotices tag [hi, lo]) s = .next t ∧ t.answered (answerFrame tag .ok []) ∧
      t.content = ((s.withReport { s.report with pendingSet := left }).withCtl { s.ctl with
        overrun := s.ctl.overrun && !(s.report.isPending .link && !left.getLsbD 13) }).content ∧
      (left = 0 → s.report.announce = false ∨ s.report.sending.isSome = true → t.report.announce = false)) ∧
    s.accepts (.doClearEdges tag [hi, lo]) tag [] (s.withLines { s.lines with
      edges := s.lines.edges &&& ~~~ (BitVec.ofNat 12 (256 * hi.toNat + lo.toNat)) }) ∧
    s.accepts (.doClearCapture tag []) tag [] (s.withLines { s.lines with capture := none, captureOverrun := false }) ∧
    (s.ctl.supervision ≠ .disarmed → s.refuses (.doSupervise tag [v]) tag .locked) ∧
    (s.ctl.supervision = .disarmed → s.accepts (.doSupervise tag [v]) tag [] (s.withCtl { s.ctl with
      supervision := .running, supervisionCount := 0, period := (max 9 (min v.toNat 254) + 1) * 10 })) ∧
    (s.engine.state ≠ .idle → s.refuses (.doRehearse tag [v]) tag .busy) ∧
    (s.engine.state = .idle → s.ctl.rehearsal = decide (v ≠ 0) → s.accepts (.doRehearse tag [v]) tag [] s) ∧
    (s.engine.state = .idle → s.ctl.rehearsal ≠ decide (v ≠ 0) → s.accepts (.doRehearse tag [v]) tag []
      ((s.withCtl { s.ctl with rehearsal := decide (v ≠ 0) }).withIntake { s.intake with lastSeq := none }))

/-- Malformed requests: no tag, unknown table or command word, wrong length. Every answered request whose bytes after
the tag (after the table code or command word too, where the row has one) are not of the length its kind has is
answered BAD_FRAME, and no content of the state changes. A REQUEST_ARRIVAL of an answered kind with no tag byte
raises LINK and is not answered; one of ENTRY_WRITE or ENTRY_READ with a table code above 6, and one of DO with a
word above 15, is answered BAD_FIELD whatever its length, and one too short to hold a code or a word BAD_FRAME (log
26); an arrival restarts the watch on the host as every frame does. A request row is a request taken at once (log
4). What the transmitters' picks move at the end of an event (log 5) is put aside. -/
def Obligations.WrongLengthRefused : Prop :=
  ∀ (s : State) (tag : Byte) (body : List Byte) (table : LinTable), s.free →
    (body.length ≠ 17 → s.refuses (.stepWrite tag body) tag .badFrame) ∧
    (body.length ≠ 1 → ∀ c ∈ [Instr.stepRead tag body, .entryReadLin tag table body, .entryReadPattern tag body,
      .entryReadBind tag body, .entryReadCal tag body, .entryReadLimits tag body, .doStart tag body,
      .doSupervise tag body, .doRehearse tag body], s.refuses c tag .badFrame) ∧
    (body.length ≠ 3 → ∀ c ∈ [Instr.entryWriteLin tag table body, .entryWriteBind tag body, .doSpanCal tag body],
      s.refuses c tag .badFrame) ∧
    (body.length ≠ 43 → s.refuses (.entryWritePattern tag body) tag .badFrame) ∧
    (body.length ≠ 14 → s.refuses (.entryWriteCal tag body) tag .badFrame) ∧
    (body.length ≠ 45 → s.refuses (.entryWriteLimits tag body) tag .badFrame) ∧
    (body.length ≠ 2 → ∀ c ∈ [Instr.doExtend tag body, .doClearNotices tag body, .doClearEdges tag body],
      s.refuses c tag .badFrame) ∧
    (body.length ≠ 0 → ∀ c ∈ [Instr.getState tag body, .getChain tag body, .doPause tag body, .doResume tag body,
      .doSkip tag body, .doStop tag body, .doTare tag body, .doZeroCal tag body, .doClear tag body,
      .doClearCapture tag body], s.refuses c tag .badFrame) ∧
    (body.length ≠ 0 → s.report.answers = [] → s.refuses (.doReset tag body) tag .badFrame) ∧
    (∀ c : Control, c = { s.ctl with
        supervisionCount := 0, quietCount := 0, quietRaised := false
        supervision := if s.ctl.supervision = .expired then .running else s.ctl.supervision } →
      (∀ k : RequestKind, k ≠ .inject → k ≠ .pass → ∃ t, exec (.requestArrival k []) s = .next t ∧
        t.content = ((s.withCtl c).raise .link).content ∧
        (s.report.sending.isSome = true → t.report.answers = s.report.answers ∧ t.report.sending = s.report.sending)) ∧
      (∀ (k : RequestKind) (payload : List Byte) (status : Status),
        (status = .badField ∧ ((∃ code, 6 < code.toNat ∧ payload = tag :: code :: body ∧
            (k = .entryWrite ∨ k = .entryRead)) ∨
          (∃ code, 15 < code.toNat ∧ payload = tag :: code :: body ∧ k = .doCommand))) ∨
        (status = .badFrame ∧ payload = [tag] ∧ (k = .entryWrite ∨ k = .entryRead ∨ k = .doCommand)) →
        ∃ t, exec (.requestArrival k payload) s = .next t ∧ t.content = (s.withCtl c).content ∧
          t.answered (answerFrame tag status [])))
end

