-- ==== Sys2Proof/Laws/State.lean ====
section
/-! SUPPORT. One lemma per field per update of `State`: what a replaced block leaves of the others. -/

namespace Sys2Proof.Machine

variable (s : State)

/-! `withPending` -/

@[simp] theorem State.withPending_pending (x : List Instr) : (s.withPending x).pending = x := rfl
@[simp] theorem State.withPending_choices (x : List Instr) : (s.withPending x).choices = s.choices := rfl
@[simp] theorem State.withPending_steps (x : List Instr) : (s.withPending x).steps = s.steps := rfl
@[simp] theorem State.withPending_engine (x : List Instr) : (s.withPending x).engine = s.engine := rfl
@[simp] theorem State.withPending_pool (x : List Instr) : (s.withPending x).pool = s.pool := rfl
@[simp] theorem State.withPending_weigh (x : List Instr) : (s.withPending x).weigh = s.weigh := rfl
@[simp] theorem State.withPending_cal (x : List Instr) : (s.withPending x).cal = s.cal := rfl
@[simp] theorem State.withPending_base (x : List Instr) : (s.withPending x).base = s.base := rfl
@[simp] theorem State.withPending_food (x : List Instr) : (s.withPending x).food = s.food := rfl
@[simp] theorem State.withPending_board (x : List Instr) : (s.withPending x).board = s.board := rfl
@[simp] theorem State.withPending_reg (x : List Instr) : (s.withPending x).reg = s.reg := rfl
@[simp] theorem State.withPending_limits (x : List Instr) : (s.withPending x).limits = s.limits := rfl
@[simp] theorem State.withPending_sched (x : List Instr) : (s.withPending x).sched = s.sched := rfl
@[simp] theorem State.withPending_patterns (x : List Instr) : (s.withPending x).patterns = s.patterns := rfl
@[simp] theorem State.withPending_stir (x : List Instr) : (s.withPending x).stir = s.stir := rfl
@[simp] theorem State.withPending_lines (x : List Instr) : (s.withPending x).lines = s.lines := rfl
@[simp] theorem State.withPending_lock (x : List Instr) : (s.withPending x).lock = s.lock := rfl
@[simp] theorem State.withPending_intake (x : List Instr) : (s.withPending x).intake = s.intake := rfl
@[simp] theorem State.withPending_drive (x : List Instr) : (s.withPending x).drive = s.drive := rfl
@[simp] theorem State.withPending_ctl (x : List Instr) : (s.withPending x).ctl = s.ctl := rfl
@[simp] theorem State.withPending_senseRx (x : List Instr) : (s.withPending x).senseRx = s.senseRx := rfl
@[simp] theorem State.withPending_ctlRx (x : List Instr) : (s.withPending x).ctlRx = s.ctlRx := rfl
@[simp] theorem State.withPending_report (x : List Instr) : (s.withPending x).report = s.report := rfl

/-! `withChoices` -/

@[simp] theorem State.withChoices_pending (x : Nat) : (s.withChoices x).pending = s.pending := rfl
@[simp] theorem State.withChoices_choices (x : Nat) : (s.withChoices x).choices = x := rfl
@[simp] theorem State.withChoices_steps (x : Nat) : (s.withChoices x).steps = s.steps := rfl
@[simp] theorem State.withChoices_engine (x : Nat) : (s.withChoices x).engine = s.engine := rfl
@[simp] theorem State.withChoices_pool (x : Nat) : (s.withChoices x).pool = s.pool := rfl
@[simp] theorem State.withChoices_weigh (x : Nat) : (s.withChoices x).weigh = s.weigh := rfl
@[simp] theorem State.withChoices_cal (x : Nat) : (s.withChoices x).cal = s.cal := rfl
@[simp] theorem State.withChoices_base (x : Nat) : (s.withChoices x).base = s.base := rfl
@[simp] theorem State.withChoices_food (x : Nat) : (s.withChoices x).food = s.food := rfl
@[simp] theorem State.withChoices_board (x : Nat) : (s.withChoices x).board = s.board := rfl
@[simp] theorem State.withChoices_reg (x : Nat) : (s.withChoices x).reg = s.reg := rfl
@[simp] theorem State.withChoices_limits (x : Nat) : (s.withChoices x).limits = s.limits := rfl
@[simp] theorem State.withChoices_sched (x : Nat) : (s.withChoices x).sched = s.sched := rfl
@[simp] theorem State.withChoices_patterns (x : Nat) : (s.withChoices x).patterns = s.patterns := rfl
@[simp] theorem State.withChoices_stir (x : Nat) : (s.withChoices x).stir = s.stir := rfl
@[simp] theorem State.withChoices_lines (x : Nat) : (s.withChoices x).lines = s.lines := rfl
@[simp] theorem State.withChoices_lock (x : Nat) : (s.withChoices x).lock = s.lock := rfl
@[simp] theorem State.withChoices_intake (x : Nat) : (s.withChoices x).intake = s.intake := rfl
@[simp] theorem State.withChoices_drive (x : Nat) : (s.withChoices x).drive = s.drive := rfl
@[simp] theorem State.withChoices_ctl (x : Nat) : (s.withChoices x).ctl = s.ctl := rfl
@[simp] theorem State.withChoices_senseRx (x : Nat) : (s.withChoices x).senseRx = s.senseRx := rfl
@[simp] theorem State.withChoices_ctlRx (x : Nat) : (s.withChoices x).ctlRx = s.ctlRx := rfl
@[simp] theorem State.withChoices_report (x : Nat) : (s.withChoices x).report = s.report := rfl

/-! `withSteps` -/

@[simp] theorem State.withSteps_pending (x : Vector StepRecord 256) : (s.withSteps x).pending = s.pending := rfl
@[simp] theorem State.withSteps_choices (x : Vector StepRecord 256) : (s.withSteps x).choices = s.choices := rfl
@[simp] theorem State.withSteps_steps (x : Vector StepRecord 256) : (s.withSteps x).steps = x := rfl
@[simp] theorem State.withSteps_engine (x : Vector StepRecord 256) : (s.withSteps x).engine = s.engine := rfl
@[simp] theorem State.withSteps_pool (x : Vector StepRecord 256) : (s.withSteps x).pool = s.pool := rfl
@[simp] theorem State.withSteps_weigh (x : Vector StepRecord 256) : (s.withSteps x).weigh = s.weigh := rfl
@[simp] theorem State.withSteps_cal (x : Vector StepRecord 256) : (s.withSteps x).cal = s.cal := rfl
@[simp] theorem State.withSteps_base (x : Vector StepRecord 256) : (s.withSteps x).base = s.base := rfl
@[simp] theorem State.withSteps_food (x : Vector StepRecord 256) : (s.withSteps x).food = s.food := rfl
@[simp] theorem State.withSteps_board (x : Vector StepRecord 256) : (s.withSteps x).board = s.board := rfl
@[simp] theorem State.withSteps_reg (x : Vector StepRecord 256) : (s.withSteps x).reg = s.reg := rfl
@[simp] theorem State.withSteps_limits (x : Vector StepRecord 256) : (s.withSteps x).limits = s.limits := rfl
@[simp] theorem State.withSteps_sched (x : Vector StepRecord 256) : (s.withSteps x).sched = s.sched := rfl
@[simp] theorem State.withSteps_patterns (x : Vector StepRecord 256) : (s.withSteps x).patterns = s.patterns := rfl
@[simp] theorem State.withSteps_stir (x : Vector StepRecord 256) : (s.withSteps x).stir = s.stir := rfl
@[simp] theorem State.withSteps_lines (x : Vector StepRecord 256) : (s.withSteps x).lines = s.lines := rfl
@[simp] theorem State.withSteps_lock (x : Vector StepRecord 256) : (s.withSteps x).lock = s.lock := rfl
@[simp] theorem State.withSteps_intake (x : Vector StepRecord 256) : (s.withSteps x).intake = s.intake := rfl
@[simp] theorem State.withSteps_drive (x : Vector StepRecord 256) : (s.withSteps x).drive = s.drive := rfl
@[simp] theorem State.withSteps_ctl (x : Vector StepRecord 256) : (s.withSteps x).ctl = s.ctl := rfl
@[simp] theorem State.withSteps_senseRx (x : Vector StepRecord 256) : (s.withSteps x).senseRx = s.senseRx := rfl
@[simp] theorem State.withSteps_ctlRx (x : Vector StepRecord 256) : (s.withSteps x).ctlRx = s.ctlRx := rfl
@[simp] theorem State.withSteps_report (x : Vector StepRecord 256) : (s.withSteps x).report = s.report := rfl

/-! `withEngine` -/

@[simp] theorem State.withEngine_pending (x : Engine) : (s.withEngine x).pending = s.pending := rfl
@[simp] theorem State.withEngine_choices (x : Engine) : (s.withEngine x).choices = s.choices := rfl
@[simp] theorem State.withEngine_steps (x : Engine) : (s.withEngine x).steps = s.steps := rfl
@[simp] theorem State.withEngine_engine (x : Engine) : (s.withEngine x).engine = x := rfl
@[simp] theorem State.withEngine_pool (x : Engine) : (s.withEngine x).pool = s.pool := rfl
@[simp] theorem State.withEngine_weigh (x : Engine) : (s.withEngine x).weigh = s.weigh := rfl
@[simp] theorem State.withEngine_cal (x : Engine) : (s.withEngine x).cal = s.cal := rfl
@[simp] theorem State.withEngine_base (x : Engine) : (s.withEngine x).base = s.base := rfl
@[simp] theorem State.withEngine_food (x : Engine) : (s.withEngine x).food = s.food := rfl
@[simp] theorem State.withEngine_board (x : Engine) : (s.withEngine x).board = s.board := rfl
@[simp] theorem State.withEngine_reg (x : Engine) : (s.withEngine x).reg = s.reg := rfl
@[simp] theorem State.withEngine_limits (x : Engine) : (s.withEngine x).limits = s.limits := rfl
@[simp] theorem State.withEngine_sched (x : Engine) : (s.withEngine x).sched = s.sched := rfl
@[simp] theorem State.withEngine_patterns (x : Engine) : (s.withEngine x).patterns = s.patterns := rfl
@[simp] theorem State.withEngine_stir (x : Engine) : (s.withEngine x).stir = s.stir := rfl
@[simp] theorem State.withEngine_lines (x : Engine) : (s.withEngine x).lines = s.lines := rfl
@[simp] theorem State.withEngine_lock (x : Engine) : (s.withEngine x).lock = s.lock := rfl
@[simp] theorem State.withEngine_intake (x : Engine) : (s.withEngine x).intake = s.intake := rfl
@[simp] theorem State.withEngine_drive (x : Engine) : (s.withEngine x).drive = s.drive := rfl
@[simp] theorem State.withEngine_ctl (x : Engine) : (s.withEngine x).ctl = s.ctl := rfl
@[simp] theorem State.withEngine_senseRx (x : Engine) : (s.withEngine x).senseRx = s.senseRx := rfl
@[simp] theorem State.withEngine_ctlRx (x : Engine) : (s.withEngine x).ctlRx = s.ctlRx := rfl
@[simp] theorem State.withEngine_report (x : Engine) : (s.withEngine x).report = s.report := rfl

/-! `withPool` -/

@[simp] theorem State.withPool_pending (x : Pool) : (s.withPool x).pending = s.pending := rfl
@[simp] theorem State.withPool_choices (x : Pool) : (s.withPool x).choices = s.choices := rfl
@[simp] theorem State.withPool_steps (x : Pool) : (s.withPool x).steps = s.steps := rfl
@[simp] theorem State.withPool_engine (x : Pool) : (s.withPool x).engine = s.engine := rfl
@[simp] theorem State.withPool_pool (x : Pool) : (s.withPool x).pool = x := rfl
@[simp] theorem State.withPool_weigh (x : Pool) : (s.withPool x).weigh = s.weigh := rfl
@[simp] theorem State.withPool_cal (x : Pool) : (s.withPool x).cal = s.cal := rfl
@[simp] theorem State.withPool_base (x : Pool) : (s.withPool x).base = s.base := rfl
@[simp] theorem State.withPool_food (x : Pool) : (s.withPool x).food = s.food := rfl
@[simp] theorem State.withPool_board (x : Pool) : (s.withPool x).board = s.board := rfl
@[simp] theorem State.withPool_reg (x : Pool) : (s.withPool x).reg = s.reg := rfl
@[simp] theorem State.withPool_limits (x : Pool) : (s.withPool x).limits = s.limits := rfl
@[simp] theorem State.withPool_sched (x : Pool) : (s.withPool x).sched = s.sched := rfl
@[simp] theorem State.withPool_patterns (x : Pool) : (s.withPool x).patterns = s.patterns := rfl
@[simp] theorem State.withPool_stir (x : Pool) : (s.withPool x).stir = s.stir := rfl
@[simp] theorem State.withPool_lines (x : Pool) : (s.withPool x).lines = s.lines := rfl
@[simp] theorem State.withPool_lock (x : Pool) : (s.withPool x).lock = s.lock := rfl
@[simp] theorem State.withPool_intake (x : Pool) : (s.withPool x).intake = s.intake := rfl
@[simp] theorem State.withPool_drive (x : Pool) : (s.withPool x).drive = s.drive := rfl
@[simp] theorem State.withPool_ctl (x : Pool) : (s.withPool x).ctl = s.ctl := rfl
@[simp] theorem State.withPool_senseRx (x : Pool) : (s.withPool x).senseRx = s.senseRx := rfl
@[simp] theorem State.withPool_ctlRx (x : Pool) : (s.withPool x).ctlRx = s.ctlRx := rfl
@[simp] theorem State.withPool_report (x : Pool) : (s.withPool x).report = s.report := rfl

/-! `withWeigh` -/

@[simp] theorem State.withWeigh_pending (x : Weigh) : (s.withWeigh x).pending = s.pending := rfl
@[simp] theorem State.withWeigh_choices (x : Weigh) : (s.withWeigh x).choices = s.choices := rfl
@[simp] theorem State.withWeigh_steps (x : Weigh) : (s.withWeigh x).steps = s.steps := rfl
@[simp] theorem State.withWeigh_engine (x : Weigh) : (s.withWeigh x).engine = s.engine := rfl
@[simp] theorem State.withWeigh_pool (x : Weigh) : (s.withWeigh x).pool = s.pool := rfl
@[simp] theorem State.withWeigh_weigh (x : Weigh) : (s.withWeigh x).weigh = x := rfl
@[simp] theorem State.withWeigh_cal (x : Weigh) : (s.withWeigh x).cal = s.cal := rfl
@[simp] theorem State.withWeigh_base (x : Weigh) : (s.withWeigh x).base = s.base := rfl
@[simp] theorem State.withWeigh_food (x : Weigh) : (s.withWeigh x).food = s.food := rfl
@[simp] theorem State.withWeigh_board (x : Weigh) : (s.withWeigh x).board = s.board := rfl
@[simp] theorem State.withWeigh_reg (x : Weigh) : (s.withWeigh x).reg = s.reg := rfl
@[simp] theorem State.withWeigh_limits (x : Weigh) : (s.withWeigh x).limits = s.limits := rfl
@[simp] theorem State.withWeigh_sched (x : Weigh) : (s.withWeigh x).sched = s.sched := rfl
@[simp] theorem State.withWeigh_patterns (x : Weigh) : (s.withWeigh x).patterns = s.patterns := rfl
@[simp] theorem State.withWeigh_stir (x : Weigh) : (s.withWeigh x).stir = s.stir := rfl
@[simp] theorem State.withWeigh_lines (x : Weigh) : (s.withWeigh x).lines = s.lines := rfl
@[simp] theorem State.withWeigh_lock (x : Weigh) : (s.withWeigh x).lock = s.lock := rfl
@[simp] theorem State.withWeigh_intake (x : Weigh) : (s.withWeigh x).intake = s.intake := rfl
@[simp] theorem State.withWeigh_drive (x : Weigh) : (s.withWeigh x).drive = s.drive := rfl
@[simp] theorem State.withWeigh_ctl (x : Weigh) : (s.withWeigh x).ctl = s.ctl := rfl
@[simp] theorem State.withWeigh_senseRx (x : Weigh) : (s.withWeigh x).senseRx = s.senseRx := rfl
@[simp] theorem State.withWeigh_ctlRx (x : Weigh) : (s.withWeigh x).ctlRx = s.ctlRx := rfl
@[simp] theorem State.withWeigh_report (x : Weigh) : (s.withWeigh x).report = s.report := rfl

/-! `withCal` -/

@[simp] theorem State.withCal_pending (x : Calibration) : (s.withCal x).pending = s.pending := rfl
@[simp] theorem State.withCal_choices (x : Calibration) : (s.withCal x).choices = s.choices := rfl
@[simp] theorem State.withCal_steps (x : Calibration) : (s.withCal x).steps = s.steps := rfl
@[simp] theorem State.withCal_engine (x : Calibration) : (s.withCal x).engine = s.engine := rfl
@[simp] theorem State.withCal_pool (x : Calibration) : (s.withCal x).pool = s.pool := rfl
@[simp] theorem State.withCal_weigh (x : Calibration) : (s.withCal x).weigh = s.weigh := rfl
@[simp] theorem State.withCal_cal (x : Calibration) : (s.withCal x).cal = x := rfl
@[simp] theorem State.withCal_base (x : Calibration) : (s.withCal x).base = s.base := rfl
@[simp] theorem State.withCal_food (x : Calibration) : (s.withCal x).food = s.food := rfl
@[simp] theorem State.withCal_board (x : Calibration) : (s.withCal x).board = s.board := rfl
@[simp] theorem State.withCal_reg (x : Calibration) : (s.withCal x).reg = s.reg := rfl
@[simp] theorem State.withCal_limits (x : Calibration) : (s.withCal x).limits = s.limits := rfl
@[simp] theorem State.withCal_sched (x : Calibration) : (s.withCal x).sched = s.sched := rfl
@[simp] theorem State.withCal_patterns (x : Calibration) : (s.withCal x).patterns = s.patterns := rfl
@[simp] theorem State.withCal_stir (x : Calibration) : (s.withCal x).stir = s.stir := rfl
@[simp] theorem State.withCal_lines (x : Calibration) : (s.withCal x).lines = s.lines := rfl
@[simp] theorem State.withCal_lock (x : Calibration) : (s.withCal x).lock = s.lock := rfl
@[simp] theorem State.withCal_intake (x : Calibration) : (s.withCal x).intake = s.intake := rfl
@[simp] theorem State.withCal_drive (x : Calibration) : (s.withCal x).drive = s.drive := rfl
@[simp] theorem State.withCal_ctl (x : Calibration) : (s.withCal x).ctl = s.ctl := rfl
@[simp] theorem State.withCal_senseRx (x : Calibration) : (s.withCal x).senseRx = s.senseRx := rfl
@[simp] theorem State.withCal_ctlRx (x : Calibration) : (s.withCal x).ctlRx = s.ctlRx := rfl
@[simp] theorem State.withCal_report (x : Calibration) : (s.withCal x).report = s.report := rfl

/-! `withBase` -/

@[simp] theorem State.withBase_pending (x : Channel) : (s.withBase x).pending = s.pending := rfl
@[simp] theorem State.withBase_choices (x : Channel) : (s.withBase x).choices = s.choices := rfl
@[simp] theorem State.withBase_steps (x : Channel) : (s.withBase x).steps = s.steps := rfl
@[simp] theorem State.withBase_engine (x : Channel) : (s.withBase x).engine = s.engine := rfl
@[simp] theorem State.withBase_pool (x : Channel) : (s.withBase x).pool = s.pool := rfl
@[simp] theorem State.withBase_weigh (x : Channel) : (s.withBase x).weigh = s.weigh := rfl
@[simp] theorem State.withBase_cal (x : Channel) : (s.withBase x).cal = s.cal := rfl
@[simp] theorem State.withBase_base (x : Channel) : (s.withBase x).base = x := rfl
@[simp] theorem State.withBase_food (x : Channel) : (s.withBase x).food = s.food := rfl
@[simp] theorem State.withBase_board (x : Channel) : (s.withBase x).board = s.board := rfl
@[simp] theorem State.withBase_reg (x : Channel) : (s.withBase x).reg = s.reg := rfl
@[simp] theorem State.withBase_limits (x : Channel) : (s.withBase x).limits = s.limits := rfl
@[simp] theorem State.withBase_sched (x : Channel) : (s.withBase x).sched = s.sched := rfl
@[simp] theorem State.withBase_patterns (x : Channel) : (s.withBase x).patterns = s.patterns := rfl
@[simp] theorem State.withBase_stir (x : Channel) : (s.withBase x).stir = s.stir := rfl
@[simp] theorem State.withBase_lines (x : Channel) : (s.withBase x).lines = s.lines := rfl
@[simp] theorem State.withBase_lock (x : Channel) : (s.withBase x).lock = s.lock := rfl
@[simp] theorem State.withBase_intake (x : Channel) : (s.withBase x).intake = s.intake := rfl
@[simp] theorem State.withBase_drive (x : Channel) : (s.withBase x).drive = s.drive := rfl
@[simp] theorem State.withBase_ctl (x : Channel) : (s.withBase x).ctl = s.ctl := rfl
@[simp] theorem State.withBase_senseRx (x : Channel) : (s.withBase x).senseRx = s.senseRx := rfl
@[simp] theorem State.withBase_ctlRx (x : Channel) : (s.withBase x).ctlRx = s.ctlRx := rfl
@[simp] theorem State.withBase_report (x : Channel) : (s.withBase x).report = s.report := rfl

/-! `withFood` -/

@[simp] theorem State.withFood_pending (x : Channel) : (s.withFood x).pending = s.pending := rfl
@[simp] theorem State.withFood_choices (x : Channel) : (s.withFood x).choices = s.choices := rfl
@[simp] theorem State.withFood_steps (x : Channel) : (s.withFood x).steps = s.steps := rfl
@[simp] theorem State.withFood_engine (x : Channel) : (s.withFood x).engine = s.engine := rfl
@[simp] theorem State.withFood_pool (x : Channel) : (s.withFood x).pool = s.pool := rfl
@[simp] theorem State.withFood_weigh (x : Channel) : (s.withFood x).weigh = s.weigh := rfl
@[simp] theorem State.withFood_cal (x : Channel) : (s.withFood x).cal = s.cal := rfl
@[simp] theorem State.withFood_base (x : Channel) : (s.withFood x).base = s.base := rfl
@[simp] theorem State.withFood_food (x : Channel) : (s.withFood x).food = x := rfl
@[simp] theorem State.withFood_board (x : Channel) : (s.withFood x).board = s.board := rfl
@[simp] theorem State.withFood_reg (x : Channel) : (s.withFood x).reg = s.reg := rfl
@[simp] theorem State.withFood_limits (x : Channel) : (s.withFood x).limits = s.limits := rfl
@[simp] theorem State.withFood_sched (x : Channel) : (s.withFood x).sched = s.sched := rfl
@[simp] theorem State.withFood_patterns (x : Channel) : (s.withFood x).patterns = s.patterns := rfl
@[simp] theorem State.withFood_stir (x : Channel) : (s.withFood x).stir = s.stir := rfl
@[simp] theorem State.withFood_lines (x : Channel) : (s.withFood x).lines = s.lines := rfl
@[simp] theorem State.withFood_lock (x : Channel) : (s.withFood x).lock = s.lock := rfl
@[simp] theorem State.withFood_intake (x : Channel) : (s.withFood x).intake = s.intake := rfl
@[simp] theorem State.withFood_drive (x : Channel) : (s.withFood x).drive = s.drive := rfl
@[simp] theorem State.withFood_ctl (x : Channel) : (s.withFood x).ctl = s.ctl := rfl
@[simp] theorem State.withFood_senseRx (x : Channel) : (s.withFood x).senseRx = s.senseRx := rfl
@[simp] theorem State.withFood_ctlRx (x : Channel) : (s.withFood x).ctlRx = s.ctlRx := rfl
@[simp] theorem State.withFood_report (x : Channel) : (s.withFood x).report = s.report := rfl

/-! `withBoard` -/

@[simp] theorem State.withBoard_pending (x : Channel) : (s.withBoard x).pending = s.pending := rfl
@[simp] theorem State.withBoard_choices (x : Channel) : (s.withBoard x).choices = s.choices := rfl
@[simp] theorem State.withBoard_steps (x : Channel) : (s.withBoard x).steps = s.steps := rfl
@[simp] theorem State.withBoard_engine (x : Channel) : (s.withBoard x).engine = s.engine := rfl
@[simp] theorem State.withBoard_pool (x : Channel) : (s.withBoard x).pool = s.pool := rfl
@[simp] theorem State.withBoard_weigh (x : Channel) : (s.withBoard x).weigh = s.weigh := rfl
@[simp] theorem State.withBoard_cal (x : Channel) : (s.withBoard x).cal = s.cal := rfl
@[simp] theorem State.withBoard_base (x : Channel) : (s.withBoard x).base = s.base := rfl
@[simp] theorem State.withBoard_food (x : Channel) : (s.withBoard x).food = s.food := rfl
@[simp] theorem State.withBoard_board (x : Channel) : (s.withBoard x).board = x := rfl
@[simp] theorem State.withBoard_reg (x : Channel) : (s.withBoard x).reg = s.reg := rfl
@[simp] theorem State.withBoard_limits (x : Channel) : (s.withBoard x).limits = s.limits := rfl
@[simp] theorem State.withBoard_sched (x : Channel) : (s.withBoard x).sched = s.sched := rfl
@[simp] theorem State.withBoard_patterns (x : Channel) : (s.withBoard x).patterns = s.patterns := rfl
@[simp] theorem State.withBoard_stir (x : Channel) : (s.withBoard x).stir = s.stir := rfl
@[simp] theorem State.withBoard_lines (x : Channel) : (s.withBoard x).lines = s.lines := rfl
@[simp] theorem State.withBoard_lock (x : Channel) : (s.withBoard x).lock = s.lock := rfl
@[simp] theorem State.withBoard_intake (x : Channel) : (s.withBoard x).intake = s.intake := rfl
@[simp] theorem State.withBoard_drive (x : Channel) : (s.withBoard x).drive = s.drive := rfl
@[simp] theorem State.withBoard_ctl (x : Channel) : (s.withBoard x).ctl = s.ctl := rfl
@[simp] theorem State.withBoard_senseRx (x : Channel) : (s.withBoard x).senseRx = s.senseRx := rfl
@[simp] theorem State.withBoard_ctlRx (x : Channel) : (s.withBoard x).ctlRx = s.ctlRx := rfl
@[simp] theorem State.withBoard_report (x : Channel) : (s.withBoard x).report = s.report := rfl

/-! `withReg` -/

@[simp] theorem State.withReg_pending (x : Regulator) : (s.withReg x).pending = s.pending := rfl
@[simp] theorem State.withReg_choices (x : Regulator) : (s.withReg x).choices = s.choices := rfl
@[simp] theorem State.withReg_steps (x : Regulator) : (s.withReg x).steps = s.steps := rfl
@[simp] theorem State.withReg_engine (x : Regulator) : (s.withReg x).engine = s.engine := rfl
@[simp] theorem State.withReg_pool (x : Regulator) : (s.withReg x).pool = s.pool := rfl
@[simp] theorem State.withReg_weigh (x : Regulator) : (s.withReg x).weigh = s.weigh := rfl
@[simp] theorem State.withReg_cal (x : Regulator) : (s.withReg x).cal = s.cal := rfl
@[simp] theorem State.withReg_base (x : Regulator) : (s.withReg x).base = s.base := rfl
@[simp] theorem State.withReg_food (x : Regulator) : (s.withReg x).food = s.food := rfl
@[simp] theorem State.withReg_board (x : Regulator) : (s.withReg x).board = s.board := rfl
@[simp] theorem State.withReg_reg (x : Regulator) : (s.withReg x).reg = x := rfl
@[simp] theorem State.withReg_limits (x : Regulator) : (s.withReg x).limits = s.limits := rfl
@[simp] theorem State.withReg_sched (x : Regulator) : (s.withReg x).sched = s.sched := rfl
@[simp] theorem State.withReg_patterns (x : Regulator) : (s.withReg x).patterns = s.patterns := rfl
@[simp] theorem State.withReg_stir (x : Regulator) : (s.withReg x).stir = s.stir := rfl
@[simp] theorem State.withReg_lines (x : Regulator) : (s.withReg x).lines = s.lines := rfl
@[simp] theorem State.withReg_lock (x : Regulator) : (s.withReg x).lock = s.lock := rfl
@[simp] theorem State.withReg_intake (x : Regulator) : (s.withReg x).intake = s.intake := rfl
@[simp] theorem State.withReg_drive (x : Regulator) : (s.withReg x).drive = s.drive := rfl
@[simp] theorem State.withReg_ctl (x : Regulator) : (s.withReg x).ctl = s.ctl := rfl
@[simp] theorem State.withReg_senseRx (x : Regulator) : (s.withReg x).senseRx = s.senseRx := rfl
@[simp] theorem State.withReg_ctlRx (x : Regulator) : (s.withReg x).ctlRx = s.ctlRx := rfl
@[simp] theorem State.withReg_report (x : Regulator) : (s.withReg x).report = s.report := rfl

/-! `withLimits` -/

@[simp] theorem State.withLimits_pending (x : Limits) : (s.withLimits x).pending = s.pending := rfl
@[simp] theorem State.withLimits_choices (x : Limits) : (s.withLimits x).choices = s.choices := rfl
@[simp] theorem State.withLimits_steps (x : Limits) : (s.withLimits x).steps = s.steps := rfl
@[simp] theorem State.withLimits_engine (x : Limits) : (s.withLimits x).engine = s.engine := rfl
@[simp] theorem State.withLimits_pool (x : Limits) : (s.withLimits x).pool = s.pool := rfl
@[simp] theorem State.withLimits_weigh (x : Limits) : (s.withLimits x).weigh = s.weigh := rfl
@[simp] theorem State.withLimits_cal (x : Limits) : (s.withLimits x).cal = s.cal := rfl
@[simp] theorem State.withLimits_base (x : Limits) : (s.withLimits x).base = s.base := rfl
@[simp] theorem State.withLimits_food (x : Limits) : (s.withLimits x).food = s.food := rfl
@[simp] theorem State.withLimits_board (x : Limits) : (s.withLimits x).board = s.board := rfl
@[simp] theorem State.withLimits_reg (x : Limits) : (s.withLimits x).reg = s.reg := rfl
@[simp] theorem State.withLimits_limits (x : Limits) : (s.withLimits x).limits = x := rfl
@[simp] theorem State.withLimits_sched (x : Limits) : (s.withLimits x).sched = s.sched := rfl
@[simp] theorem State.withLimits_patterns (x : Limits) : (s.withLimits x).patterns = s.patterns := rfl
@[simp] theorem State.withLimits_stir (x : Limits) : (s.withLimits x).stir = s.stir := rfl
@[simp] theorem State.withLimits_lines (x : Limits) : (s.withLimits x).lines = s.lines := rfl
@[simp] theorem State.withLimits_lock (x : Limits) : (s.withLimits x).lock = s.lock := rfl
@[simp] theorem State.withLimits_intake (x : Limits) : (s.withLimits x).intake = s.intake := rfl
@[simp] theorem State.withLimits_drive (x : Limits) : (s.withLimits x).drive = s.drive := rfl
@[simp] theorem State.withLimits_ctl (x : Limits) : (s.withLimits x).ctl = s.ctl := rfl
@[simp] theorem State.withLimits_senseRx (x : Limits) : (s.withLimits x).senseRx = s.senseRx := rfl
@[simp] theorem State.withLimits_ctlRx (x : Limits) : (s.withLimits x).ctlRx = s.ctlRx := rfl
@[simp] theorem State.withLimits_report (x : Limits) : (s.withLimits x).report = s.report := rfl

/-! `withSched` -/

@[simp] theorem State.withSched_pending (x : Scheduler) : (s.withSched x).pending = s.pending := rfl
@[simp] theorem State.withSched_choices (x : Scheduler) : (s.withSched x).choices = s.choices := rfl
@[simp] theorem State.withSched_steps (x : Scheduler) : (s.withSched x).steps = s.steps := rfl
@[simp] theorem State.withSched_engine (x : Scheduler) : (s.withSched x).engine = s.engine := rfl
@[simp] theorem State.withSched_pool (x : Scheduler) : (s.withSched x).pool = s.pool := rfl
@[simp] theorem State.withSched_weigh (x : Scheduler) : (s.withSched x).weigh = s.weigh := rfl
@[simp] theorem State.withSched_cal (x : Scheduler) : (s.withSched x).cal = s.cal := rfl
@[simp] theorem State.withSched_base (x : Scheduler) : (s.withSched x).base = s.base := rfl
@[simp] theorem State.withSched_food (x : Scheduler) : (s.withSched x).food = s.food := rfl
@[simp] theorem State.withSched_board (x : Scheduler) : (s.withSched x).board = s.board := rfl
@[simp] theorem State.withSched_reg (x : Scheduler) : (s.withSched x).reg = s.reg := rfl
@[simp] theorem State.withSched_limits (x : Scheduler) : (s.withSched x).limits = s.limits := rfl
@[simp] theorem State.withSched_sched (x : Scheduler) : (s.withSched x).sched = x := rfl
@[simp] theorem State.withSched_patterns (x : Scheduler) : (s.withSched x).patterns = s.patterns := rfl
@[simp] theorem State.withSched_stir (x : Scheduler) : (s.withSched x).stir = s.stir := rfl
@[simp] theorem State.withSched_lines (x : Scheduler) : (s.withSched x).lines = s.lines := rfl
@[simp] theorem State.withSched_lock (x : Scheduler) : (s.withSched x).lock = s.lock := rfl
@[simp] theorem State.withSched_intake (x : Scheduler) : (s.withSched x).intake = s.intake := rfl
@[simp] theorem State.withSched_drive (x : Scheduler) : (s.withSched x).drive = s.drive := rfl
@[simp] theorem State.withSched_ctl (x : Scheduler) : (s.withSched x).ctl = s.ctl := rfl
@[simp] theorem State.withSched_senseRx (x : Scheduler) : (s.withSched x).senseRx = s.senseRx := rfl
@[simp] theorem State.withSched_ctlRx (x : Scheduler) : (s.withSched x).ctlRx = s.ctlRx := rfl
@[simp] theorem State.withSched_report (x : Scheduler) : (s.withSched x).report = s.report := rfl

/-! `withPatterns` -/

@[simp] theorem State.withPatterns_pending (x : Vector Pattern 16) : (s.withPatterns x).pending = s.pending := rfl
@[simp] theorem State.withPatterns_choices (x : Vector Pattern 16) : (s.withPatterns x).choices = s.choices := rfl
@[simp] theorem State.withPatterns_steps (x : Vector Pattern 16) : (s.withPatterns x).steps = s.steps := rfl
@[simp] theorem State.withPatterns_engine (x : Vector Pattern 16) : (s.withPatterns x).engine = s.engine := rfl
@[simp] theorem State.withPatterns_pool (x : Vector Pattern 16) : (s.withPatterns x).pool = s.pool := rfl
@[simp] theorem State.withPatterns_weigh (x : Vector Pattern 16) : (s.withPatterns x).weigh = s.weigh := rfl
@[simp] theorem State.withPatterns_cal (x : Vector Pattern 16) : (s.withPatterns x).cal = s.cal := rfl
@[simp] theorem State.withPatterns_base (x : Vector Pattern 16) : (s.withPatterns x).base = s.base := rfl
@[simp] theorem State.withPatterns_food (x : Vector Pattern 16) : (s.withPatterns x).food = s.food := rfl
@[simp] theorem State.withPatterns_board (x : Vector Pattern 16) : (s.withPatterns x).board = s.board := rfl
@[simp] theorem State.withPatterns_reg (x : Vector Pattern 16) : (s.withPatterns x).reg = s.reg := rfl
@[simp] theorem State.withPatterns_limits (x : Vector Pattern 16) : (s.withPatterns x).limits = s.limits := rfl
@[simp] theorem State.withPatterns_sched (x : Vector Pattern 16) : (s.withPatterns x).sched = s.sched := rfl
@[simp] theorem State.withPatterns_patterns (x : Vector Pattern 16) : (s.withPatterns x).patterns = x := rfl
@[simp] theorem State.withPatterns_stir (x : Vector Pattern 16) : (s.withPatterns x).stir = s.stir := rfl
@[simp] theorem State.withPatterns_lines (x : Vector Pattern 16) : (s.withPatterns x).lines = s.lines := rfl
@[simp] theorem State.withPatterns_lock (x : Vector Pattern 16) : (s.withPatterns x).lock = s.lock := rfl
@[simp] theorem State.withPatterns_intake (x : Vector Pattern 16) : (s.withPatterns x).intake = s.intake := rfl
@[simp] theorem State.withPatterns_drive (x : Vector Pattern 16) : (s.withPatterns x).drive = s.drive := rfl
@[simp] theorem State.withPatterns_ctl (x : Vector Pattern 16) : (s.withPatterns x).ctl = s.ctl := rfl
@[simp] theorem State.withPatterns_senseRx (x : Vector Pattern 16) : (s.withPatterns x).senseRx = s.senseRx := rfl
@[simp] theorem State.withPatterns_ctlRx (x : Vector Pattern 16) : (s.withPatterns x).ctlRx = s.ctlRx := rfl
@[simp] theorem State.withPatterns_report (x : Vector Pattern 16) : (s.withPatterns x).report = s.report := rfl

/-! `withStir` -/

@[simp] theorem State.withStir_pending (x : Stir) : (s.withStir x).pending = s.pending := rfl
@[simp] theorem State.withStir_choices (x : Stir) : (s.withStir x).choices = s.choices := rfl
@[simp] theorem State.withStir_steps (x : Stir) : (s.withStir x).steps = s.steps := rfl
@[simp] theorem State.withStir_engine (x : Stir) : (s.withStir x).engine = s.engine := rfl
@[simp] theorem State.withStir_pool (x : Stir) : (s.withStir x).pool = s.pool := rfl
@[simp] theorem State.withStir_weigh (x : Stir) : (s.withStir x).weigh = s.weigh := rfl
@[simp] theorem State.withStir_cal (x : Stir) : (s.withStir x).cal = s.cal := rfl
@[simp] theorem State.withStir_base (x : Stir) : (s.withStir x).base = s.base := rfl
@[simp] theorem State.withStir_food (x : Stir) : (s.withStir x).food = s.food := rfl
@[simp] theorem State.withStir_board (x : Stir) : (s.withStir x).board = s.board := rfl
@[simp] theorem State.withStir_reg (x : Stir) : (s.withStir x).reg = s.reg := rfl
@[simp] theorem State.withStir_limits (x : Stir) : (s.withStir x).limits = s.limits := rfl
@[simp] theorem State.withStir_sched (x : Stir) : (s.withStir x).sched = s.sched := rfl
@[simp] theorem State.withStir_patterns (x : Stir) : (s.withStir x).patterns = s.patterns := rfl
@[simp] theorem State.withStir_stir (x : Stir) : (s.withStir x).stir = x := rfl
@[simp] theorem State.withStir_lines (x : Stir) : (s.withStir x).lines = s.lines := rfl
@[simp] theorem State.withStir_lock (x : Stir) : (s.withStir x).lock = s.lock := rfl
@[simp] theorem State.withStir_intake (x : Stir) : (s.withStir x).intake = s.intake := rfl
@[simp] theorem State.withStir_drive (x : Stir) : (s.withStir x).drive = s.drive := rfl
@[simp] theorem State.withStir_ctl (x : Stir) : (s.withStir x).ctl = s.ctl := rfl
@[simp] theorem State.withStir_senseRx (x : Stir) : (s.withStir x).senseRx = s.senseRx := rfl
@[simp] theorem State.withStir_ctlRx (x : Stir) : (s.withStir x).ctlRx = s.ctlRx := rfl
@[simp] theorem State.withStir_report (x : Stir) : (s.withStir x).report = s.report := rfl

/-! `withLines` -/

@[simp] theorem State.withLines_pending (x : Lines) : (s.withLines x).pending = s.pending := rfl
@[simp] theorem State.withLines_choices (x : Lines) : (s.withLines x).choices = s.choices := rfl
@[simp] theorem State.withLines_steps (x : Lines) : (s.withLines x).steps = s.steps := rfl
@[simp] theorem State.withLines_engine (x : Lines) : (s.withLines x).engine = s.engine := rfl
@[simp] theorem State.withLines_pool (x : Lines) : (s.withLines x).pool = s.pool := rfl
@[simp] theorem State.withLines_weigh (x : Lines) : (s.withLines x).weigh = s.weigh := rfl
@[simp] theorem State.withLines_cal (x : Lines) : (s.withLines x).cal = s.cal := rfl
@[simp] theorem State.withLines_base (x : Lines) : (s.withLines x).base = s.base := rfl
@[simp] theorem State.withLines_food (x : Lines) : (s.withLines x).food = s.food := rfl
@[simp] theorem State.withLines_board (x : Lines) : (s.withLines x).board = s.board := rfl
@[simp] theorem State.withLines_reg (x : Lines) : (s.withLines x).reg = s.reg := rfl
@[simp] theorem State.withLines_limits (x : Lines) : (s.withLines x).limits = s.limits := rfl
@[simp] theorem State.withLines_sched (x : Lines) : (s.withLines x).sched = s.sched := rfl
@[simp] theorem State.withLines_patterns (x : Lines) : (s.withLines x).patterns = s.patterns := rfl
@[simp] theorem State.withLines_stir (x : Lines) : (s.withLines x).stir = s.stir := rfl
@[simp] theorem State.withLines_lines (x : Lines) : (s.withLines x).lines = x := rfl
@[simp] theorem State.withLines_lock (x : Lines) : (s.withLines x).lock = s.lock := rfl
@[simp] theorem State.withLines_intake (x : Lines) : (s.withLines x).intake = s.intake := rfl
@[simp] theorem State.withLines_drive (x : Lines) : (s.withLines x).drive = s.drive := rfl
@[simp] theorem State.withLines_ctl (x : Lines) : (s.withLines x).ctl = s.ctl := rfl
@[simp] theorem State.withLines_senseRx (x : Lines) : (s.withLines x).senseRx = s.senseRx := rfl
@[simp] theorem State.withLines_ctlRx (x : Lines) : (s.withLines x).ctlRx = s.ctlRx := rfl
@[simp] theorem State.withLines_report (x : Lines) : (s.withLines x).report = s.report := rfl

/-! `withLock` -/

@[simp] theorem State.withLock_pending (x : Lock) : (s.withLock x).pending = s.pending := rfl
@[simp] theorem State.withLock_choices (x : Lock) : (s.withLock x).choices = s.choices := rfl
@[simp] theorem State.withLock_steps (x : Lock) : (s.withLock x).steps = s.steps := rfl
@[simp] theorem State.withLock_engine (x : Lock) : (s.withLock x).engine = s.engine := rfl
@[simp] theorem State.withLock_pool (x : Lock) : (s.withLock x).pool = s.pool := rfl
@[simp] theorem State.withLock_weigh (x : Lock) : (s.withLock x).weigh = s.weigh := rfl
@[simp] theorem State.withLock_cal (x : Lock) : (s.withLock x).cal = s.cal := rfl
@[simp] theorem State.withLock_base (x : Lock) : (s.withLock x).base = s.base := rfl
@[simp] theorem State.withLock_food (x : Lock) : (s.withLock x).food = s.food := rfl
@[simp] theorem State.withLock_board (x : Lock) : (s.withLock x).board = s.board := rfl
@[simp] theorem State.withLock_reg (x : Lock) : (s.withLock x).reg = s.reg := rfl
@[simp] theorem State.withLock_limits (x : Lock) : (s.withLock x).limits = s.limits := rfl
@[simp] theorem State.withLock_sched (x : Lock) : (s.withLock x).sched = s.sched := rfl
@[simp] theorem State.withLock_patterns (x : Lock) : (s.withLock x).patterns = s.patterns := rfl
@[simp] theorem State.withLock_stir (x : Lock) : (s.withLock x).stir = s.stir := rfl
@[simp] theorem State.withLock_lines (x : Lock) : (s.withLock x).lines = s.lines := rfl
@[simp] theorem State.withLock_lock (x : Lock) : (s.withLock x).lock = x := rfl
@[simp] theorem State.withLock_intake (x : Lock) : (s.withLock x).intake = s.intake := rfl
@[simp] theorem State.withLock_drive (x : Lock) : (s.withLock x).drive = s.drive := rfl
@[simp] theorem State.withLock_ctl (x : Lock) : (s.withLock x).ctl = s.ctl := rfl
@[simp] theorem State.withLock_senseRx (x : Lock) : (s.withLock x).senseRx = s.senseRx := rfl
@[simp] theorem State.withLock_ctlRx (x : Lock) : (s.withLock x).ctlRx = s.ctlRx := rfl
@[simp] theorem State.withLock_report (x : Lock) : (s.withLock x).report = s.report := rfl

/-! `withIntake` -/

@[simp] theorem State.withIntake_pending (x : Intake) : (s.withIntake x).pending = s.pending := rfl
@[simp] theorem State.withIntake_choices (x : Intake) : (s.withIntake x).choices = s.choices := rfl
@[simp] theorem State.withIntake_steps (x : Intake) : (s.withIntake x).steps = s.steps := rfl
@[simp] theorem State.withIntake_engine (x : Intake) : (s.withIntake x).engine = s.engine := rfl
@[simp] theorem State.withIntake_pool (x : Intake) : (s.withIntake x).pool = s.pool := rfl
@[simp] theorem State.withIntake_weigh (x : Intake) : (s.withIntake x).weigh = s.weigh := rfl
@[simp] theorem State.withIntake_cal (x : Intake) : (s.withIntake x).cal = s.cal := rfl
@[simp] theorem State.withIntake_base (x : Intake) : (s.withIntake x).base = s.base := rfl
@[simp] theorem State.withIntake_food (x : Intake) : (s.withIntake x).food = s.food := rfl
@[simp] theorem State.withIntake_board (x : Intake) : (s.withIntake x).board = s.board := rfl
@[simp] theorem State.withIntake_reg (x : Intake) : (s.withIntake x).reg = s.reg := rfl
@[simp] theorem State.withIntake_limits (x : Intake) : (s.withIntake x).limits = s.limits := rfl
@[simp] theorem State.withIntake_sched (x : Intake) : (s.withIntake x).sched = s.sched := rfl
@[simp] theorem State.withIntake_patterns (x : Intake) : (s.withIntake x).patterns = s.patterns := rfl
@[simp] theorem State.withIntake_stir (x : Intake) : (s.withIntake x).stir = s.stir := rfl
@[simp] theorem State.withIntake_lines (x : Intake) : (s.withIntake x).lines = s.lines := rfl
@[simp] theorem State.withIntake_lock (x : Intake) : (s.withIntake x).lock = s.lock := rfl
@[simp] theorem State.withIntake_intake (x : Intake) : (s.withIntake x).intake = x := rfl
@[simp] theorem State.withIntake_drive (x : Intake) : (s.withIntake x).drive = s.drive := rfl
@[simp] theorem State.withIntake_ctl (x : Intake) : (s.withIntake x).ctl = s.ctl := rfl
@[simp] theorem State.withIntake_senseRx (x : Intake) : (s.withIntake x).senseRx = s.senseRx := rfl
@[simp] theorem State.withIntake_ctlRx (x : Intake) : (s.withIntake x).ctlRx = s.ctlRx := rfl
@[simp] theorem State.withIntake_report (x : Intake) : (s.withIntake x).report = s.report := rfl

/-! `withDrive` -/

@[simp] theorem State.withDrive_pending (x : Drive) : (s.withDrive x).pending = s.pending := rfl
@[simp] theorem State.withDrive_choices (x : Drive) : (s.withDrive x).choices = s.choices := rfl
@[simp] theorem State.withDrive_steps (x : Drive) : (s.withDrive x).steps = s.steps := rfl
@[simp] theorem State.withDrive_engine (x : Drive) : (s.withDrive x).engine = s.engine := rfl
@[simp] theorem State.withDrive_pool (x : Drive) : (s.withDrive x).pool = s.pool := rfl
@[simp] theorem State.withDrive_weigh (x : Drive) : (s.withDrive x).weigh = s.weigh := rfl
@[simp] theorem State.withDrive_cal (x : Drive) : (s.withDrive x).cal = s.cal := rfl
@[simp] theorem State.withDrive_base (x : Drive) : (s.withDrive x).base = s.base := rfl
@[simp] theorem State.withDrive_food (x : Drive) : (s.withDrive x).food = s.food := rfl
@[simp] theorem State.withDrive_board (x : Drive) : (s.withDrive x).board = s.board := rfl
@[simp] theorem State.withDrive_reg (x : Drive) : (s.withDrive x).reg = s.reg := rfl
@[simp] theorem State.withDrive_limits (x : Drive) : (s.withDrive x).limits = s.limits := rfl
@[simp] theorem State.withDrive_sched (x : Drive) : (s.withDrive x).sched = s.sched := rfl
@[simp] theorem State.withDrive_patterns (x : Drive) : (s.withDrive x).patterns = s.patterns := rfl
@[simp] theorem State.withDrive_stir (x : Drive) : (s.withDrive x).stir = s.stir := rfl
@[simp] theorem State.withDrive_lines (x : Drive) : (s.withDrive x).lines = s.lines := rfl
@[simp] theorem State.withDrive_lock (x : Drive) : (s.withDrive x).lock = s.lock := rfl
@[simp] theorem State.withDrive_intake (x : Drive) : (s.withDrive x).intake = s.intake := rfl
@[simp] theorem State.withDrive_drive (x : Drive) : (s.withDrive x).drive = x := rfl
@[simp] theorem State.withDrive_ctl (x : Drive) : (s.withDrive x).ctl = s.ctl := rfl
@[simp] theorem State.withDrive_senseRx (x : Drive) : (s.withDrive x).senseRx = s.senseRx := rfl
@[simp] theorem State.withDrive_ctlRx (x : Drive) : (s.withDrive x).ctlRx = s.ctlRx := rfl
@[simp] theorem State.withDrive_report (x : Drive) : (s.withDrive x).report = s.report := rfl

/-! `withCtl` -/

@[simp] theorem State.withCtl_pending (x : Control) : (s.withCtl x).pending = s.pending := rfl
@[simp] theorem State.withCtl_choices (x : Control) : (s.withCtl x).choices = s.choices := rfl
@[simp] theorem State.withCtl_steps (x : Control) : (s.withCtl x).steps = s.steps := rfl
@[simp] theorem State.withCtl_engine (x : Control) : (s.withCtl x).engine = s.engine := rfl
@[simp] theorem State.withCtl_pool (x : Control) : (s.withCtl x).pool = s.pool := rfl
@[simp] theorem State.withCtl_weigh (x : Control) : (s.withCtl x).weigh = s.weigh := rfl
@[simp] theorem State.withCtl_cal (x : Control) : (s.withCtl x).cal = s.cal := rfl
@[simp] theorem State.withCtl_base (x : Control) : (s.withCtl x).base = s.base := rfl
@[simp] theorem State.withCtl_food (x : Control) : (s.withCtl x).food = s.food := rfl
@[simp] theorem State.withCtl_board (x : Control) : (s.withCtl x).board = s.board := rfl
@[simp] theorem State.withCtl_reg (x : Control) : (s.withCtl x).reg = s.reg := rfl
@[simp] theorem State.withCtl_limits (x : Control) : (s.withCtl x).limits = s.limits := rfl
@[simp] theorem State.withCtl_sched (x : Control) : (s.withCtl x).sched = s.sched := rfl
@[simp] theorem State.withCtl_patterns (x : Control) : (s.withCtl x).patterns = s.patterns := rfl
@[simp] theorem State.withCtl_stir (x : Control) : (s.withCtl x).stir = s.stir := rfl
@[simp] theorem State.withCtl_lines (x : Control) : (s.withCtl x).lines = s.lines := rfl
@[simp] theorem State.withCtl_lock (x : Control) : (s.withCtl x).lock = s.lock := rfl
@[simp] theorem State.withCtl_intake (x : Control) : (s.withCtl x).intake = s.intake := rfl
@[simp] theorem State.withCtl_drive (x : Control) : (s.withCtl x).drive = s.drive := rfl
@[simp] theorem State.withCtl_ctl (x : Control) : (s.withCtl x).ctl = x := rfl
@[simp] theorem State.withCtl_senseRx (x : Control) : (s.withCtl x).senseRx = s.senseRx := rfl
@[simp] theorem State.withCtl_ctlRx (x : Control) : (s.withCtl x).ctlRx = s.ctlRx := rfl
@[simp] theorem State.withCtl_report (x : Control) : (s.withCtl x).report = s.report := rfl

/-! `withSenseRx` -/

@[simp] theorem State.withSenseRx_pending (x : Receiver) : (s.withSenseRx x).pending = s.pending := rfl
@[simp] theorem State.withSenseRx_choices (x : Receiver) : (s.withSenseRx x).choices = s.choices := rfl
@[simp] theorem State.withSenseRx_steps (x : Receiver) : (s.withSenseRx x).steps = s.steps := rfl
@[simp] theorem State.withSenseRx_engine (x : Receiver) : (s.withSenseRx x).engine = s.engine := rfl
@[simp] theorem State.withSenseRx_pool (x : Receiver) : (s.withSenseRx x).pool = s.pool := rfl
@[simp] theorem State.withSenseRx_weigh (x : Receiver) : (s.withSenseRx x).weigh = s.weigh := rfl
@[simp] theorem State.withSenseRx_cal (x : Receiver) : (s.withSenseRx x).cal = s.cal := rfl
@[simp] theorem State.withSenseRx_base (x : Receiver) : (s.withSenseRx x).base = s.base := rfl
@[simp] theorem State.withSenseRx_food (x : Receiver) : (s.withSenseRx x).food = s.food := rfl
@[simp] theorem State.withSenseRx_board (x : Receiver) : (s.withSenseRx x).board = s.board := rfl
@[simp] theorem State.withSenseRx_reg (x : Receiver) : (s.withSenseRx x).reg = s.reg := rfl
@[simp] theorem State.withSenseRx_limits (x : Receiver) : (s.withSenseRx x).limits = s.limits := rfl
@[simp] theorem State.withSenseRx_sched (x : Receiver) : (s.withSenseRx x).sched = s.sched := rfl
@[simp] theorem State.withSenseRx_patterns (x : Receiver) : (s.withSenseRx x).patterns = s.patterns := rfl
@[simp] theorem State.withSenseRx_stir (x : Receiver) : (s.withSenseRx x).stir = s.stir := rfl
@[simp] theorem State.withSenseRx_lines (x : Receiver) : (s.withSenseRx x).lines = s.lines := rfl
@[simp] theorem State.withSenseRx_lock (x : Receiver) : (s.withSenseRx x).lock = s.lock := rfl
@[simp] theorem State.withSenseRx_intake (x : Receiver) : (s.withSenseRx x).intake = s.intake := rfl
@[simp] theorem State.withSenseRx_drive (x : Receiver) : (s.withSenseRx x).drive = s.drive := rfl
@[simp] theorem State.withSenseRx_ctl (x : Receiver) : (s.withSenseRx x).ctl = s.ctl := rfl
@[simp] theorem State.withSenseRx_senseRx (x : Receiver) : (s.withSenseRx x).senseRx = x := rfl
@[simp] theorem State.withSenseRx_ctlRx (x : Receiver) : (s.withSenseRx x).ctlRx = s.ctlRx := rfl
@[simp] theorem State.withSenseRx_report (x : Receiver) : (s.withSenseRx x).report = s.report := rfl

/-! `withCtlRx` -/

@[simp] theorem State.withCtlRx_pending (x : Receiver) : (s.withCtlRx x).pending = s.pending := rfl
@[simp] theorem State.withCtlRx_choices (x : Receiver) : (s.withCtlRx x).choices = s.choices := rfl
@[simp] theorem State.withCtlRx_steps (x : Receiver) : (s.withCtlRx x).steps = s.steps := rfl
@[simp] theorem State.withCtlRx_engine (x : Receiver) : (s.withCtlRx x).engine = s.engine := rfl
@[simp] theorem State.withCtlRx_pool (x : Receiver) : (s.withCtlRx x).pool = s.pool := rfl
@[simp] theorem State.withCtlRx_weigh (x : Receiver) : (s.withCtlRx x).weigh = s.weigh := rfl
@[simp] theorem State.withCtlRx_cal (x : Receiver) : (s.withCtlRx x).cal = s.cal := rfl
@[simp] theorem State.withCtlRx_base (x : Receiver) : (s.withCtlRx x).base = s.base := rfl
@[simp] theorem State.withCtlRx_food (x : Receiver) : (s.withCtlRx x).food = s.food := rfl
@[simp] theorem State.withCtlRx_board (x : Receiver) : (s.withCtlRx x).board = s.board := rfl
@[simp] theorem State.withCtlRx_reg (x : Receiver) : (s.withCtlRx x).reg = s.reg := rfl
@[simp] theorem State.withCtlRx_limits (x : Receiver) : (s.withCtlRx x).limits = s.limits := rfl
@[simp] theorem State.withCtlRx_sched (x : Receiver) : (s.withCtlRx x).sched = s.sched := rfl
@[simp] theorem State.withCtlRx_patterns (x : Receiver) : (s.withCtlRx x).patterns = s.patterns := rfl
@[simp] theorem State.withCtlRx_stir (x : Receiver) : (s.withCtlRx x).stir = s.stir := rfl
@[simp] theorem State.withCtlRx_lines (x : Receiver) : (s.withCtlRx x).lines = s.lines := rfl
@[simp] theorem State.withCtlRx_lock (x : Receiver) : (s.withCtlRx x).lock = s.lock := rfl
@[simp] theorem State.withCtlRx_intake (x : Receiver) : (s.withCtlRx x).intake = s.intake := rfl
@[simp] theorem State.withCtlRx_drive (x : Receiver) : (s.withCtlRx x).drive = s.drive := rfl
@[simp] theorem State.withCtlRx_ctl (x : Receiver) : (s.withCtlRx x).ctl = s.ctl := rfl
@[simp] theorem State.withCtlRx_senseRx (x : Receiver) : (s.withCtlRx x).senseRx = s.senseRx := rfl
@[simp] theorem State.withCtlRx_ctlRx (x : Receiver) : (s.withCtlRx x).ctlRx = x := rfl
@[simp] theorem State.withCtlRx_report (x : Receiver) : (s.withCtlRx x).report = s.report := rfl

/-! `withReport` -/

@[simp] theorem State.withReport_pending (x : Report) : (s.withReport x).pending = s.pending := rfl
@[simp] theorem State.withReport_choices (x : Report) : (s.withReport x).choices = s.choices := rfl
@[simp] theorem State.withReport_steps (x : Report) : (s.withReport x).steps = s.steps := rfl
@[simp] theorem State.withReport_engine (x : Report) : (s.withReport x).engine = s.engine := rfl
@[simp] theorem State.withReport_pool (x : Report) : (s.withReport x).pool = s.pool := rfl
@[simp] theorem State.withReport_weigh (x : Report) : (s.withReport x).weigh = s.weigh := rfl
@[simp] theorem State.withReport_cal (x : Report) : (s.withReport x).cal = s.cal := rfl
@[simp] theorem State.withReport_base (x : Report) : (s.withReport x).base = s.base := rfl
@[simp] theorem State.withReport_food (x : Report) : (s.withReport x).food = s.food := rfl
@[simp] theorem State.withReport_board (x : Report) : (s.withReport x).board = s.board := rfl
@[simp] theorem State.withReport_reg (x : Report) : (s.withReport x).reg = s.reg := rfl
@[simp] theorem State.withReport_limits (x : Report) : (s.withReport x).limits = s.limits := rfl
@[simp] theorem State.withReport_sched (x : Report) : (s.withReport x).sched = s.sched := rfl
@[simp] theorem State.withReport_patterns (x : Report) : (s.withReport x).patterns = s.patterns := rfl
@[simp] theorem State.withReport_stir (x : Report) : (s.withReport x).stir = s.stir := rfl
@[simp] theorem State.withReport_lines (x : Report) : (s.withReport x).lines = s.lines := rfl
@[simp] theorem State.withReport_lock (x : Report) : (s.withReport x).lock = s.lock := rfl
@[simp] theorem State.withReport_intake (x : Report) : (s.withReport x).intake = s.intake := rfl
@[simp] theorem State.withReport_drive (x : Report) : (s.withReport x).drive = s.drive := rfl
@[simp] theorem State.withReport_ctl (x : Report) : (s.withReport x).ctl = s.ctl := rfl
@[simp] theorem State.withReport_senseRx (x : Report) : (s.withReport x).senseRx = s.senseRx := rfl
@[simp] theorem State.withReport_ctlRx (x : Report) : (s.withReport x).ctlRx = s.ctlRx := rfl
@[simp] theorem State.withReport_report (x : Report) : (s.withReport x).report = x := rfl

end Sys2Proof.Machine
end

