-- ==== Sys2Proof/Laws/Engine.lean ====
section
/-! SUPPORT. What the engine and the blocks it directs can touch. Every operation of the step engine changes the engine,
the pool, the regulator, the stir drive, the lock, the drive slots, the notices and the ADD reference alone: the rest of
the state is as before. -/

namespace Sys2Proof.Machine

/-- The state with all that the engine's operations may change put aside. -/
def State.rest (s : State) : State :=
  (((((((s.withEngine .reset).withPool .rebuilt).withWeigh { s.weigh with addReference := none }).withReg
    .reset).withStir .reset).withLock .reset).withDrive .reset).withReport .reset

/-- Equal rests have the same `pending`. -/
theorem State.pending_of_rest {s t : State} (h : s.rest = t.rest) : s.pending = t.pending := by
  have e := congrArg State.pending h
  exact e

/-- Equal rests have the same `choices`. -/
theorem State.choices_of_rest {s t : State} (h : s.rest = t.rest) : s.choices = t.choices := by
  have e := congrArg State.choices h
  exact e

/-- Equal rests have the same `steps`. -/
theorem State.steps_of_rest {s t : State} (h : s.rest = t.rest) : s.steps = t.steps := by
  have e := congrArg State.steps h
  exact e

/-- Equal rests have the same `cal`. -/
theorem State.cal_of_rest {s t : State} (h : s.rest = t.rest) : s.cal = t.cal := by
  have e := congrArg State.cal h
  exact e

/-- Equal rests have the same `base`. -/
theorem State.base_of_rest {s t : State} (h : s.rest = t.rest) : s.base = t.base := by
  have e := congrArg State.base h
  exact e

/-- Equal rests have the same `food`. -/
theorem State.food_of_rest {s t : State} (h : s.rest = t.rest) : s.food = t.food := by
  have e := congrArg State.food h
  exact e

/-- Equal rests have the same `board`. -/
theorem State.board_of_rest {s t : State} (h : s.rest = t.rest) : s.board = t.board := by
  have e := congrArg State.board h
  exact e

/-- Equal rests have the same `limits`. -/
theorem State.limits_of_rest {s t : State} (h : s.rest = t.rest) : s.limits = t.limits := by
  have e := congrArg State.limits h
  exact e

/-- Equal rests have the same `sched`. -/
theorem State.sched_of_rest {s t : State} (h : s.rest = t.rest) : s.sched = t.sched := by
  have e := congrArg State.sched h
  exact e

/-- Equal rests have the same `patterns`. -/
theorem State.patterns_of_rest {s t : State} (h : s.rest = t.rest) : s.patterns = t.patterns := by
  have e := congrArg State.patterns h
  exact e

/-- Equal rests have the same `lines`. -/
theorem State.lines_of_rest {s t : State} (h : s.rest = t.rest) : s.lines = t.lines := by
  have e := congrArg State.lines h
  exact e

/-- Equal rests have the same `intake`. -/
theorem State.intake_of_rest {s t : State} (h : s.rest = t.rest) : s.intake = t.intake := by
  have e := congrArg State.intake h
  exact e

/-- Equal rests have the same `ctl`. -/
theorem State.ctl_of_rest {s t : State} (h : s.rest = t.rest) : s.ctl = t.ctl := by
  have e := congrArg State.ctl h
  exact e

/-- Equal rests have the same `senseRx`. -/
theorem State.senseRx_of_rest {s t : State} (h : s.rest = t.rest) : s.senseRx = t.senseRx := by
  have e := congrArg State.senseRx h
  exact e

/-- Equal rests have the same `ctlRx`. -/
theorem State.ctlRx_of_rest {s t : State} (h : s.rest = t.rest) : s.ctlRx = t.ctlRx := by
  have e := congrArg State.ctlRx h
  exact e

/-- A replaced `engine` leaves the rest. -/
@[simp] theorem State.withEngine_rest (s : State) (x : Engine) : (s.withEngine x).rest = s.rest := rfl

/-- A replaced `pool` leaves the rest. -/
@[simp] theorem State.withPool_rest (s : State) (x : Pool) : (s.withPool x).rest = s.rest := rfl

/-- A replaced `reg` leaves the rest. -/
@[simp] theorem State.withReg_rest (s : State) (x : Regulator) : (s.withReg x).rest = s.rest := rfl

/-- A replaced `stir` leaves the rest. -/
@[simp] theorem State.withStir_rest (s : State) (x : Stir) : (s.withStir x).rest = s.rest := rfl

/-- A replaced `lock` leaves the rest. -/
@[simp] theorem State.withLock_rest (s : State) (x : Lock) : (s.withLock x).rest = s.rest := rfl

/-- A replaced `drive` leaves the rest. -/
@[simp] theorem State.withDrive_rest (s : State) (x : Drive) : (s.withDrive x).rest = s.rest := rfl

/-- A replaced `report` leaves the rest. -/
@[simp] theorem State.withReport_rest (s : State) (x : Report) : (s.withReport x).rest = s.rest := rfl

/-- `raise` leaves the rest. -/
@[simp] theorem State.raise_rest (s : State) (n : Notice) : (s.raise n).rest = s.rest := rfl

/-- `handHeat` leaves the rest. -/
@[simp] theorem State.handHeat_rest (s : State) (h : Heat) : (s.handHeat h).rest = s.rest := rfl

/-- `handSpin` leaves the rest. -/
@[simp] theorem State.handSpin_rest (s : State) : s.handSpin.rest = s.rest := rfl

/-- `setLatch` leaves the rest. -/
@[simp] theorem State.setLatch_rest (s : State) (c : Latch) : (s.setLatch c).rest = s.rest := by
  unfold State.setLatch; split <;> simp

/-- `takeTarget` leaves the rest. -/
@[simp] theorem State.takeTarget_rest (s : State) (t : Nat) (d : Direction) : (s.takeTarget t d).rest = s.rest := by
  unfold State.takeTarget; dsimp only; split <;> simp

/-- `beginReversal` leaves the rest. -/
@[simp] theorem State.beginReversal_rest (s : State) (t : Nat) : (s.beginReversal t).rest = s.rest := rfl

/-- `computeTarget` leaves the rest. -/
@[simp] theorem State.computeTarget_rest (s : State) : s.computeTarget.rest = s.rest := by
  unfold State.computeTarget; dsimp only; (repeat' split) <;> simp

/-- `startPattern` leaves the rest. -/
@[simp] theorem State.startPattern_rest (s : State) (r : StepRecord) : (s.startPattern r).rest = s.rest := by
  simp [State.startPattern]

/-- `resumePattern` leaves the rest. -/
@[simp] theorem State.resumePattern_rest (s : State) (r : StepRecord) : (s.resumePattern r).rest = s.rest := by
  simp [State.resumePattern]

/-- `restoreStir` leaves the rest. -/
@[simp] theorem State.restoreStir_rest (s : State) (h : HeldRecord) : (s.restoreStir h).rest = s.rest := rfl

/-- `stirZero` leaves the rest. -/
@[simp] theorem State.stirZero_rest (s : State) : s.stirZero.rest = s.rest := by
  unfold State.stirZero; split <;> simp

/-- `clearStepSupervision` leaves the rest. -/
@[simp] theorem State.clearStepSupervision_rest (s : State) : s.clearStepSupervision.rest = s.rest := rfl

/-- `endPhase` leaves the rest. -/
@[simp] theorem State.endPhase_rest (s : State) : s.endPhase.rest = s.rest := by
  unfold State.endPhase; split <;> simp

/-- `rampStep` leaves the rest. -/
@[simp] theorem State.rampStep_rest (s : State) : s.rampStep.rest = s.rest := by
  simp [State.rampStep]

/-- `endReversal` leaves the rest. -/
@[simp] theorem State.endReversal_rest (s : State) : s.endReversal.rest = s.rest := by
  unfold State.endReversal; dsimp only; split <;> simp

/-- `setLockState` leaves the rest. -/
@[simp] theorem State.setLockState_rest (s : State) (x : LockState) : (s.setLockState x).rest = s.rest := by
  simp [State.setLockState]

/-- `beginEngage` leaves the rest. -/
@[simp] theorem State.beginEngage_rest (s : State) : s.beginEngage.rest = s.rest := by
  simp [State.beginEngage]

/-- `lockRequest` leaves the rest. -/
@[simp] theorem State.lockRequest_rest (s : State) (r : LockRequest) : (s.lockRequest r).rest = s.rest := by
  unfold State.lockRequest; dsimp only; (repeat' split) <;> simp

/-- `heaterOff` leaves the rest. -/
@[simp] theorem State.heaterOff_rest (s : State) : s.heaterOff.rest = s.rest := rfl

/-- `clearReference` leaves the rest. -/
@[simp] theorem State.clearReference_rest (s : State) : s.clearReference.rest = s.rest := rfl

/-- `restOutputs` leaves the rest. -/
@[simp] theorem State.restOutputs_rest (s : State) : s.restOutputs.rest = s.rest := by
  simp [State.restOutputs]

/-- `raiseFault` leaves the rest. -/
@[simp] theorem State.raiseFault_rest (s : State) (c : FaultCode) : (s.raiseFault c).rest = s.rest := by
  unfold State.raiseFault; (repeat' split) <;> simp

/-- `heldOutputs` leaves the rest. -/
@[simp] theorem State.heldOutputs_rest (s : State) : s.heldOutputs.rest = s.rest := by
  unfold State.heldOutputs; dsimp only; split <;> simp

/-- `enterHold` leaves the rest. -/
@[simp] theorem State.enterHold_rest (s : State) (h : Holds) : (s.enterHold h).rest = s.rest := by
  simp [State.enterHold]

/-- `addHold` leaves the rest. -/
@[simp] theorem State.addHold_rest (s : State) (h : Holds) : (s.addHold h).rest = s.rest := by
  unfold State.addHold; dsimp only; (repeat' split) <;> simp

/-- `enterStarved` leaves the rest. -/
@[simp] theorem State.enterStarved_rest (s : State) (i : Nat) : (s.enterStarved i).rest = s.rest := by
  simp [State.enterStarved]

/-- `enterActive` leaves the rest. -/
@[simp] theorem State.enterActive_rest (s : State) : s.enterActive.rest = s.rest := by
  unfold State.enterActive; split <;> simp

/-- `decideEntry` leaves the rest. -/
@[simp] theorem State.decideEntry_rest (s : State) : s.decideEntry.rest = s.rest := by
  unfold State.decideEntry; dsimp only; (repeat' split) <;> simp

/-- `handStepTarget` leaves the rest. -/
@[simp] theorem State.handStepTarget_rest (s : State) (r : StepRecord) (t : Nat) : (s.handStepTarget r t).rest = s.rest := rfl

/-- `announceStep` leaves the rest. -/
@[simp] theorem State.announceStep_rest (s : State) (r : StepRecord) (i : Nat) : (s.announceStep r i).rest = s.rest := by
  unfold State.announceStep; split <;> simp

/-- `startTimed` leaves the rest. -/
@[simp] theorem State.startTimed_rest (s : State) (i : Nat) (r : StepRecord) : (s.startTimed i r).rest = s.rest := by
  unfold State.startTimed; dsimp only; (repeat' split) <;> simp

/-- `enterEnding` leaves the rest. -/
@[simp] theorem State.enterEnding_rest (s : State) (x : RecipeOutcome) : (s.enterEnding x).rest = s.rest := by
  simp [State.enterEnding]

/-- `poolLowTest` leaves the rest. -/
@[simp] theorem State.poolLowTest_rest (s : State) (n : Nat) : (s.poolLowTest n).rest = s.rest := by
  unfold State.poolLowTest; split <;> simp

/-- A step start, with every immediate record it follows, leaves the rest. -/
@[simp] theorem stepStart_rest (fuel i : Nat) (s : State) : (stepStart fuel i s).rest = s.rest := by
  induction fuel generalizing i s with
  | zero => rfl
  | succ fuel ih =>
    unfold stepStart
    dsimp only
    (repeat' split) <;> simp [ih]

/-- `startStep` leaves the rest. -/
@[simp] theorem State.startStep_rest (s : State) (i : Nat) : (s.startStep i).rest = s.rest := by
  simp [State.startStep]

/-- `endStep` leaves the rest. -/
@[simp] theorem State.endStep_rest (s : State) (x : StepOutcome) : (s.endStep x).rest = s.rest := by
  simp [State.endStep]

/-- `restoreHeld` leaves the rest. -/
@[simp] theorem State.restoreHeld_rest (s : State) (h : HeldRecord) : (s.restoreHeld h).rest = s.rest := rfl

/-- `resume` leaves the rest. -/
@[simp] theorem State.resume_rest (s : State) : s.resume.rest = s.rest := by
  unfold State.resume; dsimp only; (repeat' split) <;> simp

/-- `keepHolds` leaves the rest. -/
@[simp] theorem State.keepHolds_rest (s : State) (h : Holds) : (s.keepHolds h).rest = s.rest := by
  unfold State.keepHolds; (repeat' split) <;> simp

/-- `dropLid` leaves the rest. -/
@[simp] theorem State.dropLid_rest (s : State) : s.dropLid.rest = s.rest := by
  simp [State.dropLid]

/-- `dropBowl` leaves the rest. -/
@[simp] theorem State.dropBowl_rest (s : State) : s.dropBowl.rest = s.rest := by
  simp [State.dropBowl]

/-- `dropMains` leaves the rest. -/
@[simp] theorem State.dropMains_rest (s : State) : s.dropMains.rest = s.rest := by
  simp [State.dropMains]

/-- `dropSensor` leaves the rest. -/
@[simp] theorem State.dropSensor_rest (s : State) : s.dropSensor.rest = s.rest := by
  unfold State.dropSensor; split <;> simp

/-- `dropStarved` leaves the rest. -/
@[simp] theorem State.dropStarved_rest (s : State) : s.dropStarved.rest = s.rest := by
  simp [State.dropStarved]

/-- `pause` leaves the rest. -/
@[simp] theorem State.pause_rest (s : State) : s.pause.rest = s.rest := by
  simp [State.pause]

/-- `unpause` leaves the rest. -/
@[simp] theorem State.unpause_rest (s : State) : s.unpause.rest = s.rest := by
  unfold State.unpause; split <;> simp

/-- `endStepEdge` leaves the rest. -/
@[simp] theorem State.endStepEdge_rest (s : State) : s.endStepEdge.rest = s.rest := by
  unfold State.endStepEdge; dsimp only; split <;> simp

/-- `lockEngaged` leaves the rest. -/
@[simp] theorem State.lockEngaged_rest (s : State) (w : Bool) : (s.lockEngaged w).rest = s.rest := by
  unfold State.lockEngaged; dsimp only; split <;> simp

/-- `lockEngagedWaiting` leaves the rest. -/
@[simp] theorem State.lockEngagedWaiting_rest (s : State) : s.lockEngagedWaiting.rest = s.rest := by
  simp [State.lockEngagedWaiting]

/-- `lockReleased` leaves the rest. -/
@[simp] theorem State.lockReleased_rest (s : State) : s.lockReleased.rest = s.rest := by
  simp [State.lockReleased]

/-- `releaseCompleted` leaves the rest. -/
@[simp] theorem State.releaseCompleted_rest (s : State) : s.releaseCompleted.rest = s.rest := by
  unfold State.releaseCompleted; dsimp only; split <;> simp

/-- `beginRelease` leaves the rest. -/
@[simp] theorem State.beginRelease_rest (s : State) : s.beginRelease.rest = s.rest := by
  simp [State.beginRelease]

/-- `judgeLock` leaves the rest. -/
@[simp] theorem State.judgeLock_rest (s : State) : s.judgeLock.rest = s.rest := by
  unfold State.judgeLock; (repeat' split) <;> simp

/-- `lockedRises` leaves the rest. -/
@[simp] theorem State.lockedRises_rest (s : State) : s.lockedRises.rest = s.rest := by
  unfold State.lockedRises; split <;> simp

/-- `lockedFalls` leaves the rest. -/
@[simp] theorem State.lockedFalls_rest (s : State) : s.lockedFalls.rest = s.rest := by
  unfold State.lockedFalls; dsimp only; (repeat' split) <;> simp

/-- `engageTimedOut` leaves the rest. -/
@[simp] theorem State.engageTimedOut_rest (s : State) : s.engageTimedOut.rest = s.rest := by
  unfold State.engageTimedOut; dsimp only; split <;> simp

/-- `releaseTimedOut` leaves the rest. -/
@[simp] theorem State.releaseTimedOut_rest (s : State) : s.releaseTimedOut.rest = s.rest := by
  simp [State.releaseTimedOut]

/-- `heatReport` leaves the rest. -/
@[simp] theorem State.heatReport_rest (s : State) : s.heatReport.rest = s.rest := by
  simp [State.heatReport]

/-- `takeMotorValues` leaves the rest. -/
@[simp] theorem State.takeMotorValues_rest (s : State) (v c : Nat) : (s.takeMotorValues v c).rest = s.rest := rfl

/-- `motorReversal` leaves the rest. -/
@[simp] theorem State.motorReversal_rest (s : State) (v : Nat) : (s.motorReversal v).rest = s.rest := by
  unfold State.motorReversal; split <;> simp

/-- `stallTest` leaves the rest. -/
@[simp] theorem State.stallTest_rest (s : State) (v : Nat) : (s.stallTest v).rest = s.rest := by
  unfold State.stallTest; (repeat' split) <;> simp

/-- `overloadTest` leaves the rest. -/
@[simp] theorem State.overloadTest_rest (s : State) (v : Nat) : (s.overloadTest v).rest = s.rest := by
  unfold State.overloadTest; (repeat' split) <;> simp

/-- `torqueBlock` leaves the rest. -/
@[simp] theorem State.torqueBlock_rest (s : State) (v : Nat) (b : Bool) : (s.torqueBlock v b).rest = s.rest := by
  unfold State.torqueBlock; dsimp only; (repeat' split) <;> simp

/-- `torqueTest` leaves the rest. -/
@[simp] theorem State.torqueTest_rest (s : State) (v c : Nat) : (s.torqueTest v c).rest = s.rest := by
  unfold State.torqueTest; dsimp only; (repeat' split) <;> simp

/-- `motorTests` leaves the rest. -/
@[simp] theorem State.motorTests_rest (s : State) (v c : Nat) : (s.motorTests v c).rest = s.rest := by
  unfold State.motorTests; dsimp only; (repeat' split) <;> simp

/-- `leaveEnding` leaves the rest. -/
@[simp] theorem State.leaveEnding_rest (s : State) : s.leaveEnding.rest = s.rest := by
  simp [State.leaveEnding]

/-- `motorSample` leaves the rest. -/
@[simp] theorem State.motorSample_rest (s : State) (v c : Nat) : (s.motorSample v c).rest = s.rest := by
  unfold State.motorSample; dsimp only; split <;> simp

/-- `motorStalled` leaves the rest. -/
@[simp] theorem State.motorStalled_rest (s : State) : s.motorStalled.rest = s.rest := by
  simp [State.motorStalled]

end Sys2Proof.Machine
end

