-- ==== Sys2Proof/Laws/Frames.lean ====
section
/-! SUPPORT. What the fields of a frame's payload can be: their lengths, and the values GET_STATE and READING report of a
held step. -/

namespace Sys2Proof.Machine

@[simp] theorem word_length (n : Nat) : (word n).length = 2 := rfl
@[simp] theorem wordInt_length (x : Int) : (wordInt x).length = 2 := rfl
@[simp] theorem tripleInt_length (x : Int) : (tripleInt x).length = 3 := rfl
@[simp] theorem reportedTemp_length (v : Option Int) : (reportedTemp v).length = 2 := rfl

/-- The bytes from `n` to `n + m` of a payload written as three pieces are its middle piece. -/
theorem bytes_of_middle {payload a b c : List Byte} {n m : Nat} (h : payload = a ++ (b ++ c)) (ha : a.length = n)
    (hb : b.length = m) : (payload.drop n).take m = b := by
  subst h ha hb; simp

/-- Elapsed milliseconds in seconds, half a second up (R27). -/
theorem seconds_eq (ms : Nat) : seconds ms = (ms + 500) / 1000 := by
  simp [seconds, roundDiv]; omega

/-- While HELD with a started step the SUSPEND record's timers are reported (R19). -/
theorem State.reported_held {s : State} {r : HeldRecord} (h : s.engine.state = .held) (hr : s.pool.heldRecord = some r) :
    s.reported = (r.phase, r.sub, r.elapsed, r.reached) := by
  simp [State.reported, h, hr]

/-- While HELD with a started step the SUSPEND record's setpoint, integrator and overload cap are reported (R65). -/
theorem State.reportedControl_held {s : State} {r : HeldRecord} (h : s.engine.state = .held)
    (hr : s.pool.heldRecord = some r) : s.reportedControl = (r.setpoint, r.integrator, r.overloadCap) := by
  simp [State.reportedControl, h, hr]

/-- In every other situation the regulator's and the stir drive's own values are reported (R95, R116). -/
theorem State.reportedControl_own {s : State} (h : s.engine.state ≠ .held ∨ s.pool.heldRecord = none) :
    s.reportedControl = (s.reg.setpoint, s.reg.integrator, s.stir.overloadCap) := by
  unfold State.reportedControl; split <;> simp_all

end Sys2Proof.Machine
end

