-- ==== Sys2Proof/Laws/Link.lean ====
section
/-! SUPPORT. What the picks and the settling after an event can do: a pick moves marks, lanes and transmissions alone,
and with no request waiting an event is followed by the picks alone. -/

namespace Sys2Proof.Machine

/-! ### The drive pick leaves every block but the drive output -/

/-- The drive pick replaces the drive output by one of the same content. -/
theorem State.pickDrive_eq (s : State) : ∃ d, s.pickDrive = s.withDrive d ∧ d.content = s.drive.content := by
  unfold State.pickDrive
  dsimp only
  (repeat' split) <;> first | exact ⟨s.drive, rfl, rfl⟩ | exact ⟨_, rfl, rfl⟩

/-- The upstream pick replaces the report unit and the interface by ones of the same content. -/
theorem State.pickUpstream_eq (s : State) :
    ∃ c r, s.pickUpstream = (s.withCtl c).withReport r ∧ c.content = s.ctl.content ∧ c.queue = s.ctl.queue
      ∧ r.content = s.report.content := by
  unfold State.pickUpstream
  simp only
  (repeat' split) <;> first
    | exact ⟨s.ctl, s.report, rfl, rfl, rfl, rfl⟩
    | exact ⟨s.ctl, _, rfl, rfl, rfl, rfl⟩
    | exact ⟨_, _, rfl, rfl, rfl, rfl⟩

/-- Both picks replace the three link blocks by ones of the same content, and leave the command queue. -/
theorem State.picks_eq (s : State) :
    ∃ d c r, s.picks = ((s.withDrive d).withCtl c).withReport r ∧ d.content = s.drive.content
      ∧ c.content = s.ctl.content ∧ c.queue = s.ctl.queue ∧ r.content = s.report.content := by
  obtain ⟨d, hd, hc⟩ := s.pickDrive_eq
  obtain ⟨c, r, h, h1, h2, h3⟩ := (s.withDrive d).pickUpstream_eq
  exact ⟨d, c, r, by rw [State.picks, hd, h], hc, h1, h2, h3⟩

/-- A pick changes no content. -/
@[simp] theorem State.picks_content (s : State) : s.picks.content = s.content := by
  obtain ⟨d, c, r, h, hd, hc, -, hr⟩ := s.picks_eq
  rw [h]
  simp only [State.content, State.withDrive, State.withCtl, State.withReport, hd, hc, hr]

/-- A pick leaves the command queue. -/
@[simp] theorem State.picks_queue (s : State) : s.picks.ctl.queue = s.ctl.queue := by
  obtain ⟨d, c, r, h, -, -, hq, -⟩ := s.picks_eq
  rw [h]; exact hq

/-- A pick leaves `pending`. -/
@[simp] theorem State.picks_pending (s : State) : s.picks.pending = s.pending := by
  obtain ⟨d, c, r, h, -⟩ := s.picks_eq
  rw [h]; rfl

/-- A pick leaves `choices`. -/
@[simp] theorem State.picks_choices (s : State) : s.picks.choices = s.choices := by
  obtain ⟨d, c, r, h, -⟩ := s.picks_eq
  rw [h]; rfl

/-- A pick leaves `steps`. -/
@[simp] theorem State.picks_steps (s : State) : s.picks.steps = s.steps := by
  obtain ⟨d, c, r, h, -⟩ := s.picks_eq
  rw [h]; rfl

/-- A pick leaves `engine`. -/
@[simp] theorem State.picks_engine (s : State) : s.picks.engine = s.engine := by
  obtain ⟨d, c, r, h, -⟩ := s.picks_eq
  rw [h]; rfl

/-- A pick leaves `pool`. -/
@[simp] theorem State.picks_pool (s : State) : s.picks.pool = s.pool := by
  obtain ⟨d, c, r, h, -⟩ := s.picks_eq
  rw [h]; rfl

/-- A pick leaves `weigh`. -/
@[simp] theorem State.picks_weigh (s : State) : s.picks.weigh = s.weigh := by
  obtain ⟨d, c, r, h, -⟩ := s.picks_eq
  rw [h]; rfl

/-- A pick leaves `cal`. -/
@[simp] theorem State.picks_cal (s : State) : s.picks.cal = s.cal := by
  obtain ⟨d, c, r, h, -⟩ := s.picks_eq
  rw [h]; rfl

/-- A pick leaves `base`. -/
@[simp] theorem State.picks_base (s : State) : s.picks.base = s.base := by
  obtain ⟨d, c, r, h, -⟩ := s.picks_eq
  rw [h]; rfl

/-- A pick leaves `food`. -/
@[simp] theorem State.picks_food (s : State) : s.picks.food = s.food := by
  obtain ⟨d, c, r, h, -⟩ := s.picks_eq
  rw [h]; rfl

/-- A pick leaves `board`. -/
@[simp] theorem State.picks_board (s : State) : s.picks.board = s.board := by
  obtain ⟨d, c, r, h, -⟩ := s.picks_eq
  rw [h]; rfl

/-- A pick leaves `reg`. -/
@[simp] theorem State.picks_reg (s : State) : s.picks.reg = s.reg := by
  obtain ⟨d, c, r, h, -⟩ := s.picks_eq
  rw [h]; rfl

/-- A pick leaves `limits`. -/
@[simp] theorem State.picks_limits (s : State) : s.picks.limits = s.limits := by
  obtain ⟨d, c, r, h, -⟩ := s.picks_eq
  rw [h]; rfl

/-- A pick leaves `sched`. -/
@[simp] theorem State.picks_sched (s : State) : s.picks.sched = s.sched := by
  obtain ⟨d, c, r, h, -⟩ := s.picks_eq
  rw [h]; rfl

/-- A pick leaves `patterns`. -/
@[simp] theorem State.picks_patterns (s : State) : s.picks.patterns = s.patterns := by
  obtain ⟨d, c, r, h, -⟩ := s.picks_eq
  rw [h]; rfl

/-- A pick leaves `stir`. -/
@[simp] theorem State.picks_stir (s : State) : s.picks.stir = s.stir := by
  obtain ⟨d, c, r, h, -⟩ := s.picks_eq
  rw [h]; rfl

/-- A pick leaves `lines`. -/
@[simp] theorem State.picks_lines (s : State) : s.picks.lines = s.lines := by
  obtain ⟨d, c, r, h, -⟩ := s.picks_eq
  rw [h]; rfl

/-- A pick leaves `lock`. -/
@[simp] theorem State.picks_lock (s : State) : s.picks.lock = s.lock := by
  obtain ⟨d, c, r, h, -⟩ := s.picks_eq
  rw [h]; rfl

/-- A pick leaves `intake`. -/
@[simp] theorem State.picks_intake (s : State) : s.picks.intake = s.intake := by
  obtain ⟨d, c, r, h, -⟩ := s.picks_eq
  rw [h]; rfl

/-- A pick leaves `senseRx`. -/
@[simp] theorem State.picks_senseRx (s : State) : s.picks.senseRx = s.senseRx := by
  obtain ⟨d, c, r, h, -⟩ := s.picks_eq
  rw [h]; rfl

/-- A pick leaves `ctlRx`. -/
@[simp] theorem State.picks_ctlRx (s : State) : s.picks.ctlRx = s.ctlRx := by
  obtain ⟨d, c, r, h, -⟩ := s.picks_eq
  rw [h]; rfl

/-- A pick leaves the drive output's `heat`. -/
@[simp] theorem State.picks_drive_heat (s : State) : s.picks.drive.heat = s.drive.heat := by
  obtain ⟨d, c, r, h, hd, -⟩ := s.picks_eq
  have e := congrArg Drive.heat hd
  rw [h]; exact e

/-- A pick leaves the drive output's `spinSpeed`. -/
@[simp] theorem State.picks_drive_spinSpeed (s : State) : s.picks.drive.spinSpeed = s.drive.spinSpeed := by
  obtain ⟨d, c, r, h, hd, -⟩ := s.picks_eq
  have e := congrArg Drive.spinSpeed hd
  rw [h]; exact e

/-- A pick leaves the drive output's `spinDirection`. -/
@[simp] theorem State.picks_drive_spinDirection (s : State) : s.picks.drive.spinDirection = s.drive.spinDirection := by
  obtain ⟨d, c, r, h, hd, -⟩ := s.picks_eq
  have e := congrArg Drive.spinDirection hd
  rw [h]; exact e

/-- A pick leaves the drive output's `latch`. -/
@[simp] theorem State.picks_drive_latch (s : State) : s.picks.drive.latch = s.drive.latch := by
  obtain ⟨d, c, r, h, hd, -⟩ := s.picks_eq
  have e := congrArg Drive.latch hd
  rw [h]; exact e

/-- A pick leaves the drive output's `spinTimer`. -/
@[simp] theorem State.picks_drive_spinTimer (s : State) : s.picks.drive.spinTimer = s.drive.spinTimer := by
  obtain ⟨d, c, r, h, hd, -⟩ := s.picks_eq
  have e := congrArg Drive.spinTimer hd
  rw [h]; exact e

/-- A pick leaves the drive output's `latchTimer`. -/
@[simp] theorem State.picks_drive_latchTimer (s : State) : s.picks.drive.latchTimer = s.drive.latchTimer := by
  obtain ⟨d, c, r, h, hd, -⟩ := s.picks_eq
  have e := congrArg Drive.latchTimer hd
  rw [h]; exact e

/-- A pick leaves the interface's `overrun`. -/
@[simp] theorem State.picks_ctl_overrun (s : State) : s.picks.ctl.overrun = s.ctl.overrun := by
  obtain ⟨d, c, r, h, -, hc, -⟩ := s.picks_eq
  have e := congrArg Control.overrun hc
  rw [h]; exact e

/-- A pick leaves the interface's `signalled`. -/
@[simp] theorem State.picks_ctl_signalled (s : State) : s.picks.ctl.signalled = s.ctl.signalled := by
  obtain ⟨d, c, r, h, -, hc, -⟩ := s.picks_eq
  have e := congrArg Control.signalled hc
  rw [h]; exact e

/-- A pick leaves the interface's `permission`. -/
@[simp] theorem State.picks_ctl_permission (s : State) : s.picks.ctl.permission = s.ctl.permission := by
  obtain ⟨d, c, r, h, -, hc, -⟩ := s.picks_eq
  have e := congrArg Control.permission hc
  rw [h]; exact e

/-- A pick leaves the interface's `rehearsal`. -/
@[simp] theorem State.picks_ctl_rehearsal (s : State) : s.picks.ctl.rehearsal = s.ctl.rehearsal := by
  obtain ⟨d, c, r, h, -, hc, -⟩ := s.picks_eq
  have e := congrArg Control.rehearsal hc
  rw [h]; exact e

/-- A pick leaves the interface's `supervision`. -/
@[simp] theorem State.picks_ctl_supervision (s : State) : s.picks.ctl.supervision = s.ctl.supervision := by
  obtain ⟨d, c, r, h, -, hc, -⟩ := s.picks_eq
  have e := congrArg Control.supervision hc
  rw [h]; exact e

/-- A pick leaves the interface's `period`. -/
@[simp] theorem State.picks_ctl_period (s : State) : s.picks.ctl.period = s.ctl.period := by
  obtain ⟨d, c, r, h, -, hc, -⟩ := s.picks_eq
  have e := congrArg Control.period hc
  rw [h]; exact e

/-- A pick leaves the interface's `supervisionCount`. -/
@[simp] theorem State.picks_ctl_supervisionCount (s : State) : s.picks.ctl.supervisionCount = s.ctl.supervisionCount := by
  obtain ⟨d, c, r, h, -, hc, -⟩ := s.picks_eq
  have e := congrArg Control.supervisionCount hc
  rw [h]; exact e

/-- A pick leaves the interface's `quietCount`. -/
@[simp] theorem State.picks_ctl_quietCount (s : State) : s.picks.ctl.quietCount = s.ctl.quietCount := by
  obtain ⟨d, c, r, h, -, hc, -⟩ := s.picks_eq
  have e := congrArg Control.quietCount hc
  rw [h]; exact e

/-- A pick leaves the interface's `quietRaised`. -/
@[simp] theorem State.picks_ctl_quietRaised (s : State) : s.picks.ctl.quietRaised = s.ctl.quietRaised := by
  obtain ⟨d, c, r, h, -, hc, -⟩ := s.picks_eq
  have e := congrArg Control.quietRaised hc
  rw [h]; exact e

/-- A pick leaves the report unit's `pendingSet`. -/
@[simp] theorem State.picks_report_pendingSet (s : State) : s.picks.report.pendingSet = s.report.pendingSet := by
  obtain ⟨d, c, r, h, -, -, -, hr⟩ := s.picks_eq
  have e := congrArg Report.pendingSet hr
  rw [h]; exact e

/-- A pick leaves the report unit's `lastAnnounced`. -/
@[simp] theorem State.picks_report_lastAnnounced (s : State) : s.picks.report.lastAnnounced = s.report.lastAnnounced := by
  obtain ⟨d, c, r, h, -, -, -, hr⟩ := s.picks_eq
  have e := congrArg Report.lastAnnounced hr
  rw [h]; exact e

/-- A pick leaves the report unit's `readingCount`. -/
@[simp] theorem State.picks_report_readingCount (s : State) : s.picks.report.readingCount = s.report.readingCount := by
  obtain ⟨d, c, r, h, -, -, -, hr⟩ := s.picks_eq
  have e := congrArg Report.readingCount hr
  rw [h]; exact e

/-! ### Settling with no request waiting -/

/-- With no request waiting, an event is followed by the picks alone. -/
theorem State.settle_of_calm {s : State} (h : s.calm) : s.settle = s.picks := by
  unfold State.calm at h
  simp [State.settle, settleWith, h]

/-- With no request waiting, what follows an event changes no content. -/
theorem State.settle_content {s : State} (h : s.calm) : s.settle.content = s.content := by
  rw [s.settle_of_calm h, State.picks_content]

/-- The answers on their way to the host stay on their way through a pick. -/
theorem State.picks_answered {s : State} {f : Frame} (h : f ∈ s.report.answers) : s.picks.answered f := by
  have hd : s.pickDrive.report = s.report := by
    obtain ⟨d, hd, -⟩ := s.pickDrive_eq
    rw [hd]; rfl
  have key : ∀ u : State, f ∈ u.report.answers → u.pickUpstream.answered f := by
    intro u hu
    unfold State.pickUpstream State.answered
    simp only
    split
    · exact .inl hu
    · split
      · split
        · next a rest ha =>
          rw [ha] at hu
          rcases List.mem_cons.1 hu with rfl | hm
          · exact .inr rfl
          · exact .inl hm
        · exact .inl hu
      · split
        · exact .inl hu
        · split
          · exact .inl hu
          · split
            · exact .inl hu
            · split
              · next a rest ha =>
                rw [ha] at hu
                rcases List.mem_cons.1 hu with rfl | hm
                · exact .inr rfl
                · exact .inl hm
              · split
                · exact .inl hu
                · exact .inl hu
  exact key _ (by rw [hd]; exact h)

/-- The answer lane only shrinks at a pick. -/
theorem State.picks_answers_le (s : State) : s.picks.report.answers.length ≤ s.report.answers.length := by
  have hd : s.pickDrive.report = s.report := by
    obtain ⟨d, hd, -⟩ := s.pickDrive_eq
    rw [hd]; rfl
  have key : ∀ u : State, u.pickUpstream.report.answers.length ≤ u.report.answers.length := by
    intro u
    unfold State.pickUpstream
    simp only
    split
    · exact le_rfl
    · split
      · split
        · next a rest ha => rw [ha]; simp
        · exact le_rfl
      · split
        · exact le_rfl
        · split
          · exact le_rfl
          · split
            · exact le_rfl
            · split
              · next a rest ha => rw [ha]; simp
              · split
                · exact le_rfl
                · exact le_rfl
  have := key s.pickDrive
  rw [hd] at this
  exact this

/-! ### A request taken at once -/

/-- The state with the command queue replaced. -/
def State.queued (s : State) (q : List Request) : State := s.withCtl { s.ctl with queue := q }

/-- The drive pick does not look at the command queue. -/
theorem State.pickDrive_queued (s : State) (q : List Request) : (s.queued q).pickDrive = s.pickDrive.queued q := by
  rcases s with ⟨_, _, _, _, _, _, _, _, _, _, _, _, _, _, _, _, _, _, d, _, _, _, _⟩
  rcases d with ⟨heat, hm, _, _, sm, _, lm, pq, _, _, sending⟩
  cases sending with
  | some _ => rfl
  | none =>
    cases hm <;> cases heat <;> cases sm <;> cases lm <;> cases pq <;> rfl

/-- The upstream pick does not look at the command queue. -/
theorem State.pickUpstream_queued (s : State) (q : List Request) :
    (s.queued q).pickUpstream = s.pickUpstream.queued q := by
  rcases s with ⟨_, _, _, _, _, _, _, _, _, _, _, _, _, _, _, _, _, _, _, c, _, _, r⟩
  rcases c with ⟨_, _, _, slot, permission, _, _, _, _, _, _⟩
  rcases r with ⟨_, announce, _, answers, readings, _, resetAnswer, sending⟩
  cases sending with
  | some _ => rfl
  | none =>
    cases resetAnswer <;> cases permission <;> cases answers <;> cases slot <;> cases announce <;> cases readings <;>
      rfl

/-- The picks do not look at the command queue. -/
theorem State.picks_queued (s : State) (q : List Request) : (s.queued q).picks = s.picks.queued q := by
  rw [State.picks, State.pickDrive_queued, State.pickUpstream_queued]; rfl

/-- With no request waiting, a request whose conditions hold after the picks is carried out at once. -/
theorem State.request_taken {s : State} {kind : RequestKind} {payload : List Byte} (h : s.calm)
    (room : s.picks.canTake ⟨kind, payload⟩ = true) :
    s.request kind payload = (carryOut ⟨kind, payload⟩ s.picks).picks := by
  have h0 : s.ctl.queue = [] := h
  have he : s.enqueue ⟨kind, payload⟩ = s.queued [⟨kind, payload⟩] := by
    simp [State.enqueue, h0, Control.waitMark, State.queued]
  have hq : s.picks.queued [] = s.picks := by
    have := s.picks_queued []
    have hs : s.queued [] = s := by rw [State.queued, ← h0]; rfl
    rw [hs] at this; exact this.symm
  have hc : (s.picks.queued [⟨kind, payload⟩]).canTake ⟨kind, payload⟩ = true := room
  rw [State.request, he, State.settle]
  change settleWith 1 _ = _
  simp only [settleWith, State.picks_queued]
  change (if (s.picks.queued [⟨kind, payload⟩]).canTake ⟨kind, payload⟩ = true then
    (carryOut ⟨kind, payload⟩ (s.picks.queued [])).picks else _) = _
  rw [if_pos hc, hq]

end Sys2Proof.Machine
end

