-- ==== Sys2Proof/Laws/PerInstr.lean ====
section
/-! SUPPORT. A statement made of every command as syntax, one lemma a constructor: the frame a row stands for (Table
12-2, Table 12-3), and that the frame of a well-formed command fits the envelope of Table 12-1. -/

namespace Sys2Proof.Laws

open Sys2Proof.Machine

/-- The kind code of a request (Table 12-2). -/
def requestCode : RequestKind → Byte
  | .stepWrite => 0x21
  | .stepRead => 0x22
  | .entryWrite => 0x23
  | .entryRead => 0x24
  | .doCommand => 0x25
  | .inject => 0x26
  | .pass => 0x27
  | .getState => 0x28
  | .getChain => 0x29

/-- The frame that reaches the block when a command is a frame: kind code and payload. -/
def carried : Instr → Option Frame
  | .powerOnReset => none
  | .frameDiscard _ => none
  | .receiverGapTimeout _ => none
  | .sampleFormDiscard kind payload => some ⟨kind, payload⟩
  | .weighArrival seq raw => some ⟨1, [seq, raw.extractLsb' 16 8, raw.extractLsb' 8 8, raw.extractLsb' 0 8]⟩
  | .tempArrival seq base food board => some ⟨2, seq :: (word base.toNat ++ word food.toNat ++ word board.toNat)⟩
  | .motorArrival seq speed current => some ⟨3, seq :: (word speed.toNat ++ word current.toNat)⟩
  | .levelsArrival seq levels => some ⟨4, [seq, levels]⟩
  | .zeroArrival seq => some ⟨5, [seq]⟩
  | .weighStall => none
  | .tempStall => none
  | .motorStall => none
  | .levelsStall => none
  | .mainsLoss => none
  | .stepDurationExpiry => none
  | .stepLimitExpiry => none
  | .rampSecond => none
  | .phaseEnd => none
  | .stirRampStep => none
  | .lockEngageTimeout => none
  | .lockReleaseTimeout => none
  | .coolDownComplete => none
  | .supervisionExpiry => none
  | .hostQuiet => none
  | .readingInterval => none
  | .spinRefresh => none
  | .latchRefresh => none
  | .driveSendComplete => none
  | .upstreamSendComplete => none
  | .hostWait => some ⟨0x2E, []⟩
  | .hostGo => some ⟨0x2F, []⟩
  | .requestArrival kind payload => some ⟨requestCode kind, payload⟩
  | .misplacedFrame kind payload => some ⟨kind, payload⟩
  | .stepWrite tag body => some ⟨0x21, tag :: body⟩
  | .stepRead tag body => some ⟨0x22, tag :: body⟩
  | .entryWriteLin tag table body => some ⟨0x23, tag :: linCode table :: body⟩
  | .entryWritePattern tag body => some ⟨0x23, tag :: 3 :: body⟩
  | .entryWriteBind tag body => some ⟨0x23, tag :: 4 :: body⟩
  | .entryWriteCal tag body => some ⟨0x23, tag :: 5 :: body⟩
  | .entryWriteLimits tag body => some ⟨0x23, tag :: 6 :: body⟩
  | .entryReadLin tag table body => some ⟨0x24, tag :: linCode table :: body⟩
  | .entryReadPattern tag body => some ⟨0x24, tag :: 3 :: body⟩
  | .entryReadBind tag body => some ⟨0x24, tag :: 4 :: body⟩
  | .entryReadCal tag body => some ⟨0x24, tag :: 5 :: body⟩
  | .entryReadLimits tag body => some ⟨0x24, tag :: 6 :: body⟩
  | .doStart tag arg => some ⟨0x25, tag :: 0 :: arg⟩
  | .doPause tag arg => some ⟨0x25, tag :: 1 :: arg⟩
  | .doResume tag arg => some ⟨0x25, tag :: 2 :: arg⟩
  | .doSkip tag arg => some ⟨0x25, tag :: 3 :: arg⟩
  | .doStop tag arg => some ⟨0x25, tag :: 4 :: arg⟩
  | .doExtend tag arg => some ⟨0x25, tag :: 5 :: arg⟩
  | .doTare tag arg => some ⟨0x25, tag :: 6 :: arg⟩
  | .doZeroCal tag arg => some ⟨0x25, tag :: 7 :: arg⟩
  | .doSpanCal tag arg => some ⟨0x25, tag :: 8 :: arg⟩
  | .doClear tag arg => some ⟨0x25, tag :: 9 :: arg⟩
  | .doClearNotices tag arg => some ⟨0x25, tag :: 10 :: arg⟩
  | .doClearEdges tag arg => some ⟨0x25, tag :: 11 :: arg⟩
  | .doClearCapture tag arg => some ⟨0x25, tag :: 12 :: arg⟩
  | .doReset tag arg => some ⟨0x25, tag :: 13 :: arg⟩
  | .doSupervise tag arg => some ⟨0x25, tag :: 14 :: arg⟩
  | .doRehearse tag arg => some ⟨0x25, tag :: 15 :: arg⟩
  | .inject payload => some ⟨0x26, payload⟩
  | .pass payload => some ⟨0x27, payload⟩
  | .getState tag body => some ⟨0x28, tag :: body⟩
  | .getChain tag body => some ⟨0x29, tag :: body⟩
  | .byteArrival _ _ => none

/-- The frame of a well-formed command fits the envelope: at most 64 payload bytes, so that its length byte reads back
as its length and the frame has at most 68 bytes. -/
def CarriesAFrame.Statement (c : Instr) : Prop :=
  c.wellFormed = true → ∀ f, carried c = some f →
    f.payload.length ≤ 64 ∧ (byte f.payload.length).toNat = f.payload.length ∧ f.bytes.length ≤ 68

/-- A frame whose payload has at most 64 bytes has the three parts of the statement. -/
theorem CarriesAFrame.of_length {f : Frame} (h : f.payload.length ≤ 64) :
    f.payload.length ≤ 64 ∧ (byte f.payload.length).toNat = f.payload.length ∧ f.bytes.length ≤ 68 := by
  refine ⟨h, ?_, ?_⟩
  · simp only [byte, BitVec.toNat_ofNat]; omega
  · simp [Frame.bytes]; omega

/-- What `fits` says. -/
theorem CarriesAFrame.of_fits {extra : Nat} {l : List Byte} (h : fits extra l = true) : extra + l.length ≤ 64 :=
  of_decide_eq_true h

theorem CarriesAFrame.powerOnReset :
    CarriesAFrame.Statement .powerOnReset := fun _ _ hf => nomatch hf

theorem CarriesAFrame.frameDiscard (rx : Rx) :
    CarriesAFrame.Statement (.frameDiscard rx) := fun _ _ hf => nomatch hf

theorem CarriesAFrame.receiverGapTimeout (rx : Rx) :
    CarriesAFrame.Statement (.receiverGapTimeout rx) := fun _ _ hf => nomatch hf

theorem CarriesAFrame.sampleFormDiscard (kind : Byte) (payload : List Byte) :
    CarriesAFrame.Statement (.sampleFormDiscard kind payload) := by
  rintro h f ⟨⟩
  exact CarriesAFrame.of_length (by simpa using CarriesAFrame.of_fits (Bool.and_eq_true_iff.mp h).1)

theorem CarriesAFrame.weighArrival (seq : Byte) (raw : BitVec 24) :
    CarriesAFrame.Statement (.weighArrival seq raw) := by
  rintro - f ⟨⟩
  exact CarriesAFrame.of_length (by simp)

theorem CarriesAFrame.tempArrival (seq : Byte) (base food board : BitVec 16) :
    CarriesAFrame.Statement (.tempArrival seq base food board) := by
  rintro - f ⟨⟩
  exact CarriesAFrame.of_length (by simp [word])

theorem CarriesAFrame.motorArrival (seq : Byte) (speed current : BitVec 16) :
    CarriesAFrame.Statement (.motorArrival seq speed current) := by
  rintro - f ⟨⟩
  exact CarriesAFrame.of_length (by simp [word])

theorem CarriesAFrame.levelsArrival (seq : Byte) (levels : Byte) :
    CarriesAFrame.Statement (.levelsArrival seq levels) := by
  rintro - f ⟨⟩
  exact CarriesAFrame.of_length (by simp)

theorem CarriesAFrame.zeroArrival (seq : Byte) :
    CarriesAFrame.Statement (.zeroArrival seq) := by
  rintro - f ⟨⟩
  exact CarriesAFrame.of_length (by simp)

theorem CarriesAFrame.weighStall :
    CarriesAFrame.Statement .weighStall := fun _ _ hf => nomatch hf

theorem CarriesAFrame.tempStall :
    CarriesAFrame.Statement .tempStall := fun _ _ hf => nomatch hf

theorem CarriesAFrame.motorStall :
    CarriesAFrame.Statement .motorStall := fun _ _ hf => nomatch hf

theorem CarriesAFrame.levelsStall :
    CarriesAFrame.Statement .levelsStall := fun _ _ hf => nomatch hf

theorem CarriesAFrame.mainsLoss :
    CarriesAFrame.Statement .mainsLoss := fun _ _ hf => nomatch hf

theorem CarriesAFrame.stepDurationExpiry :
    CarriesAFrame.Statement .stepDurationExpiry := fun _ _ hf => nomatch hf

theorem CarriesAFrame.stepLimitExpiry :
    CarriesAFrame.Statement .stepLimitExpiry := fun _ _ hf => nomatch hf

theorem CarriesAFrame.rampSecond :
    CarriesAFrame.Statement .rampSecond := fun _ _ hf => nomatch hf

theorem CarriesAFrame.phaseEnd :
    CarriesAFrame.Statement .phaseEnd := fun _ _ hf => nomatch hf

theorem CarriesAFrame.stirRampStep :
    CarriesAFrame.Statement .stirRampStep := fun _ _ hf => nomatch hf

theorem CarriesAFrame.lockEngageTimeout :
    CarriesAFrame.Statement .lockEngageTimeout := fun _ _ hf => nomatch hf

theorem CarriesAFrame.lockReleaseTimeout :
    CarriesAFrame.Statement .lockReleaseTimeout := fun _ _ hf => nomatch hf

theorem CarriesAFrame.coolDownComplete :
    CarriesAFrame.Statement .coolDownComplete := fun _ _ hf => nomatch hf

theorem CarriesAFrame.supervisionExpiry :
    CarriesAFrame.Statement .supervisionExpiry := fun _ _ hf => nomatch hf

theorem CarriesAFrame.hostQuiet :
    CarriesAFrame.Statement .hostQuiet := fun _ _ hf => nomatch hf

theorem CarriesAFrame.readingInterval :
    CarriesAFrame.Statement .readingInterval := fun _ _ hf => nomatch hf

theorem CarriesAFrame.spinRefresh :
    CarriesAFrame.Statement .spinRefresh := fun _ _ hf => nomatch hf

theorem CarriesAFrame.latchRefresh :
    CarriesAFrame.Statement .latchRefresh := fun _ _ hf => nomatch hf

theorem CarriesAFrame.driveSendComplete :
    CarriesAFrame.Statement .driveSendComplete := fun _ _ hf => nomatch hf

theorem CarriesAFrame.upstreamSendComplete :
    CarriesAFrame.Statement .upstreamSendComplete := fun _ _ hf => nomatch hf

theorem CarriesAFrame.hostWait :
    CarriesAFrame.Statement .hostWait := by
  rintro - f ⟨⟩
  exact CarriesAFrame.of_length (by simp)

theorem CarriesAFrame.hostGo :
    CarriesAFrame.Statement .hostGo := by
  rintro - f ⟨⟩
  exact CarriesAFrame.of_length (by simp)

theorem CarriesAFrame.requestArrival (kind : RequestKind) (payload : List Byte) :
    CarriesAFrame.Statement (.requestArrival kind payload) := by
  rintro h f ⟨⟩
  have := CarriesAFrame.of_fits h
  exact CarriesAFrame.of_length (by simp; omega)

theorem CarriesAFrame.misplacedFrame (kind : Byte) (payload : List Byte) :
    CarriesAFrame.Statement (.misplacedFrame kind payload) := by
  rintro h f ⟨⟩
  exact CarriesAFrame.of_length (by simpa using CarriesAFrame.of_fits (Bool.and_eq_true_iff.mp h).1)

theorem CarriesAFrame.stepWrite (tag : Byte) (body : List Byte) :
    CarriesAFrame.Statement (.stepWrite tag body) := by
  rintro h f ⟨⟩
  have := CarriesAFrame.of_fits h
  exact CarriesAFrame.of_length (by simp; omega)

theorem CarriesAFrame.stepRead (tag : Byte) (body : List Byte) :
    CarriesAFrame.Statement (.stepRead tag body) := by
  rintro h f ⟨⟩
  have := CarriesAFrame.of_fits h
  exact CarriesAFrame.of_length (by simp; omega)

theorem CarriesAFrame.entryWriteLin (tag : Byte) (table : LinTable) (body : List Byte) :
    CarriesAFrame.Statement (.entryWriteLin tag table body) := by
  rintro h f ⟨⟩
  have := CarriesAFrame.of_fits h
  exact CarriesAFrame.of_length (by simp; omega)

theorem CarriesAFrame.entryWritePattern (tag : Byte) (body : List Byte) :
    CarriesAFrame.Statement (.entryWritePattern tag body) := by
  rintro h f ⟨⟩
  have := CarriesAFrame.of_fits h
  exact CarriesAFrame.of_length (by simp; omega)

theorem CarriesAFrame.entryWriteBind (tag : Byte) (body : List Byte) :
    CarriesAFrame.Statement (.entryWriteBind tag body) := by
  rintro h f ⟨⟩
  have := CarriesAFrame.of_fits h
  exact CarriesAFrame.of_length (by simp; omega)

theorem CarriesAFrame.entryWriteCal (tag : Byte) (body : List Byte) :
    CarriesAFrame.Statement (.entryWriteCal tag body) := by
  rintro h f ⟨⟩
  have := CarriesAFrame.of_fits h
  exact CarriesAFrame.of_length (by simp; omega)

theorem CarriesAFrame.entryWriteLimits (tag : Byte) (body : List Byte) :
    CarriesAFrame.Statement (.entryWriteLimits tag body) := by
  rintro h f ⟨⟩
  have := CarriesAFrame.of_fits h
  exact CarriesAFrame.of_length (by simp; omega)

theorem CarriesAFrame.entryReadLin (tag : Byte) (table : LinTable) (body : List Byte) :
    CarriesAFrame.Statement (.entryReadLin tag table body) := by
  rintro h f ⟨⟩
  have := CarriesAFrame.of_fits h
  exact CarriesAFrame.of_length (by simp; omega)

theorem CarriesAFrame.entryReadPattern (tag : Byte) (body : List Byte) :
    CarriesAFrame.Statement (.entryReadPattern tag body) := by
  rintro h f ⟨⟩
  have := CarriesAFrame.of_fits h
  exact CarriesAFrame.of_length (by simp; omega)

theorem CarriesAFrame.entryReadBind (tag : Byte) (body : List Byte) :
    CarriesAFrame.Statement (.entryReadBind tag body) := by
  rintro h f ⟨⟩
  have := CarriesAFrame.of_fits h
  exact CarriesAFrame.of_length (by simp; omega)

theorem CarriesAFrame.entryReadCal (tag : Byte) (body : List Byte) :
    CarriesAFrame.Statement (.entryReadCal tag body) := by
  rintro h f ⟨⟩
  have := CarriesAFrame.of_fits h
  exact CarriesAFrame.of_length (by simp; omega)

theorem CarriesAFrame.entryReadLimits (tag : Byte) (body : List Byte) :
    CarriesAFrame.Statement (.entryReadLimits tag body) := by
  rintro h f ⟨⟩
  have := CarriesAFrame.of_fits h
  exact CarriesAFrame.of_length (by simp; omega)

theorem CarriesAFrame.doStart (tag : Byte) (arg : List Byte) :
    CarriesAFrame.Statement (.doStart tag arg) := by
  rintro h f ⟨⟩
  have := CarriesAFrame.of_fits h
  exact CarriesAFrame.of_length (by simp; omega)

theorem CarriesAFrame.doPause (tag : Byte) (arg : List Byte) :
    CarriesAFrame.Statement (.doPause tag arg) := by
  rintro h f ⟨⟩
  have := CarriesAFrame.of_fits h
  exact CarriesAFrame.of_length (by simp; omega)

theorem CarriesAFrame.doResume (tag : Byte) (arg : List Byte) :
    CarriesAFrame.Statement (.doResume tag arg) := by
  rintro h f ⟨⟩
  have := CarriesAFrame.of_fits h
  exact CarriesAFrame.of_length (by simp; omega)

theorem CarriesAFrame.doSkip (tag : Byte) (arg : List Byte) :
    CarriesAFrame.Statement (.doSkip tag arg) := by
  rintro h f ⟨⟩
  have := CarriesAFrame.of_fits h
  exact CarriesAFrame.of_length (by simp; omega)

theorem CarriesAFrame.doStop (tag : Byte) (arg : List Byte) :
    CarriesAFrame.Statement (.doStop tag arg) := by
  rintro h f ⟨⟩
  have := CarriesAFrame.of_fits h
  exact CarriesAFrame.of_length (by simp; omega)

theorem CarriesAFrame.doExtend (tag : Byte) (arg : List Byte) :
    CarriesAFrame.Statement (.doExtend tag arg) := by
  rintro h f ⟨⟩
  have := CarriesAFrame.of_fits h
  exact CarriesAFrame.of_length (by simp; omega)

theorem CarriesAFrame.doTare (tag : Byte) (arg : List Byte) :
    CarriesAFrame.Statement (.doTare tag arg) := by
  rintro h f ⟨⟩
  have := CarriesAFrame.of_fits h
  exact CarriesAFrame.of_length (by simp; omega)

theorem CarriesAFrame.doZeroCal (tag : Byte) (arg : List Byte) :
    CarriesAFrame.Statement (.doZeroCal tag arg) := by
  rintro h f ⟨⟩
  have := CarriesAFrame.of_fits h
  exact CarriesAFrame.of_length (by simp; omega)

theorem CarriesAFrame.doSpanCal (tag : Byte) (arg : List Byte) :
    CarriesAFrame.Statement (.doSpanCal tag arg) := by
  rintro h f ⟨⟩
  have := CarriesAFrame.of_fits h
  exact CarriesAFrame.of_length (by simp; omega)

theorem CarriesAFrame.doClear (tag : Byte) (arg : List Byte) :
    CarriesAFrame.Statement (.doClear tag arg) := by
  rintro h f ⟨⟩
  have := CarriesAFrame.of_fits h
  exact CarriesAFrame.of_length (by simp; omega)

theorem CarriesAFrame.doClearNotices (tag : Byte) (arg : List Byte) :
    CarriesAFrame.Statement (.doClearNotices tag arg) := by
  rintro h f ⟨⟩
  have := CarriesAFrame.of_fits h
  exact CarriesAFrame.of_length (by simp; omega)

theorem CarriesAFrame.doClearEdges (tag : Byte) (arg : List Byte) :
    CarriesAFrame.Statement (.doClearEdges tag arg) := by
  rintro h f ⟨⟩
  have := CarriesAFrame.of_fits h
  exact CarriesAFrame.of_length (by simp; omega)

theorem CarriesAFrame.doClearCapture (tag : Byte) (arg : List Byte) :
    CarriesAFrame.Statement (.doClearCapture tag arg) := by
  rintro h f ⟨⟩
  have := CarriesAFrame.of_fits h
  exact CarriesAFrame.of_length (by simp; omega)

theorem CarriesAFrame.doReset (tag : Byte) (arg : List Byte) :
    CarriesAFrame.Statement (.doReset tag arg) := by
  rintro h f ⟨⟩
  have := CarriesAFrame.of_fits h
  exact CarriesAFrame.of_length (by simp; omega)

theorem CarriesAFrame.doSupervise (tag : Byte) (arg : List Byte) :
    CarriesAFrame.Statement (.doSupervise tag arg) := by
  rintro h f ⟨⟩
  have := CarriesAFrame.of_fits h
  exact CarriesAFrame.of_length (by simp; omega)

theorem CarriesAFrame.doRehearse (tag : Byte) (arg : List Byte) :
    CarriesAFrame.Statement (.doRehearse tag arg) := by
  rintro h f ⟨⟩
  have := CarriesAFrame.of_fits h
  exact CarriesAFrame.of_length (by simp; omega)

theorem CarriesAFrame.inject (payload : List Byte) :
    CarriesAFrame.Statement (.inject payload) := by
  rintro h f ⟨⟩
  have := CarriesAFrame.of_fits h
  exact CarriesAFrame.of_length (by simp; omega)

theorem CarriesAFrame.pass (payload : List Byte) :
    CarriesAFrame.Statement (.pass payload) := by
  rintro h f ⟨⟩
  have := CarriesAFrame.of_fits h
  exact CarriesAFrame.of_length (by simp; omega)

theorem CarriesAFrame.getState (tag : Byte) (body : List Byte) :
    CarriesAFrame.Statement (.getState tag body) := by
  rintro h f ⟨⟩
  have := CarriesAFrame.of_fits h
  exact CarriesAFrame.of_length (by simp; omega)

theorem CarriesAFrame.getChain (tag : Byte) (body : List Byte) :
    CarriesAFrame.Statement (.getChain tag body) := by
  rintro h f ⟨⟩
  have := CarriesAFrame.of_fits h
  exact CarriesAFrame.of_length (by simp; omega)

theorem CarriesAFrame.byteArrival (rx : Rx) (byte : Byte) :
    CarriesAFrame.Statement (.byteArrival rx byte) := fun _ _ hf => nomatch hf

end Sys2Proof.Laws
end

