-- ==== Sys2Proof/Laws/Pool.lean ====
section
/-! SUPPORT. What the shared operations of `Machine/Ops.lean` do: the save, restore, free and rebuild of the context pool
(R51, R52, R55, R63), and the raising of a notice (R155). -/

namespace Sys2Proof.Machine

/-! ### The pool -/

/-- The slots of the pool in the order in which a sound pool has them: the chain from its tail, then the free list. -/
def Pool.order (p : Pool) : List Nat := (p.chain.map (·.1)).reverse ++ p.free

/-- A save moves the free list's head to the chain's head and keeps the order of the slots. -/
theorem Pool.save_eq (p : Pool) (c : Context) (slot : Nat) (rest : List Nat) (h : p.free = slot :: rest) :
    p.save c = { free := rest, chain := (slot, c) :: p.chain, depth := p.depth } := by
  simp [Pool.save, h]

/-- A save keeps every slot on exactly one list. -/
@[simp] theorem Pool.save_order (p : Pool) (c : Context) : (p.save c).order = p.order := by
  unfold Pool.save
  split <;> simp_all [Pool.order]

/-- A restore keeps every slot on exactly one list. -/
@[simp] theorem Pool.restore_order (p : Pool) : p.restore.order = p.order := by
  unfold Pool.restore
  split <;> simp_all [Pool.order]

/-- Freeing slots one by one from the chain's head leaves them in the order of the chain from its tail. -/
theorem freeSlots_eq (chain : List (Nat × Context)) (free : List Nat) :
    freeSlots chain free = (chain.map (·.1)).reverse ++ free := by
  induction chain generalizing free with
  | nil => rfl
  | cons x rest ih => obtain ⟨slot, c⟩ := x; simp [freeSlots, ih]

/-- Freeing the whole chain of a sound pool leaves the rebuilt pool (R63). -/
theorem Pool.freeAll_of_sound {p : Pool} (h : p.sound) : p.freeAll = .rebuilt := by
  have e : freeSlots p.chain p.free = List.range 12 := (freeSlots_eq _ _).trans h.1
  simp only [Pool.freeAll, e]
  rfl

/-- The rebuilt pool is sound (R51). -/
theorem Pool.rebuilt_sound : Pool.rebuilt.sound := ⟨rfl, rfl⟩

/-- A restore undoes a save (R52). -/
theorem Pool.restore_save {p : Pool} (c : Context) (h : p.free ≠ []) : (p.save c).restore = p := by
  obtain ⟨free, chain, depth⟩ := p
  cases free with
  | nil => exact absurd rfl h
  | cons slot rest => rfl

/-- A save of a record other than a CALL keeps a sound pool sound (R55). -/
theorem Pool.save_sound {p : Pool} {c : Context} (hp : p.sound) (hc : c.isCall = false) : (p.save c).sound := by
  refine ⟨(p.save_order c).trans hp.1, ?_⟩
  have := hp.2
  unfold Pool.save
  split <;> simp_all

/-- The save of a CALL record keeps a sound pool with a free slot sound: the depth counts it (R55, R57). -/
theorem Pool.saveCall_sound {p : Pool} {r : CallRecord} (hp : p.sound) (hf : p.free ≠ []) : (p.saveCall r).sound := by
  refine ⟨(p.save_order (.call r)).trans hp.1, ?_⟩
  obtain ⟨slot, rest, h⟩ := List.exists_cons_of_ne_nil hf
  have := hp.2
  simp [Pool.saveCall, Pool.save_eq p _ slot rest h, Context.isCall, this]

/-- The restore of a record other than a CALL keeps a sound pool sound (R52, R55). -/
theorem Pool.restore_sound {p : Pool} {slot : Nat} {c : Context} {rest : List (Nat × Context)} (hp : p.sound)
    (h : p.chain = (slot, c) :: rest) (hc : c.isCall = false) : p.restore.sound := by
  refine ⟨p.restore_order.trans hp.1, ?_⟩
  have := hp.2
  simp_all [Pool.restore]

/-- The removal of a CALL record keeps a sound pool sound: the depth falls with it (R55, R59). -/
theorem Pool.dropCall_sound {p : Pool} {slot : Nat} {r : CallRecord} {rest : List (Nat × Context)} (hp : p.sound)
    (h : p.chain = (slot, .call r) :: rest) : p.dropCall.sound := by
  refine ⟨p.restore_order.trans hp.1, ?_⟩
  have := hp.2
  simp_all [Pool.dropCall, Pool.restore, Context.isCall]

/-! ### Notices -/

/-- A class that has been raised is pending (R155). -/
@[simp] theorem Report.raise_isPending (r : Report) (n : Notice) : (r.raise n).isPending n = true := by
  have hb : n.bit < 16 := by cases n <;> decide
  unfold Report.raise
  split
  · next h => exact h
  · simp [Report.isPending, Notice.mask, hb]

/-- Raising a class leaves every class pending that was (R155). -/
theorem Report.raise_mono (r : Report) (n m : Notice) (h : r.isPending m = true) : (r.raise n).isPending m = true := by
  unfold Report.raise
  split
  · exact h
  · simp only [Report.isPending, BitVec.getLsbD_or, Bool.or_eq_true] at h ⊢
    exact .inl h

/-- A raise at the state: the class is pending. -/
@[simp] theorem State.raise_isPending (s : State) (n : Notice) : (s.raise n).report.isPending n = true :=
  Report.raise_isPending s.report n

/-- A raise at the state leaves every class pending that was. -/
theorem State.raise_mono (s : State) (n m : Notice) (h : s.report.isPending m = true) :
    (s.raise n).report.isPending m = true := Report.raise_mono s.report n m h

end Sys2Proof.Machine
end

