-- ==== Sys2Proof/Tests/Slice0.lean ====
section
/-! SUPPORT. The model's own tests: the ill-formed commands, worked examples of the spec, and for every obligation with
hypotheses a witness: concrete states and operands that meet them, clause by clause, at boundary values. -/

namespace Sys2Proof.Tests

set_option Elab.async false

open Sys2Proof Sys2Proof.Machine

/-! ### Small states -/

/-- IDLE with every stream LIVE, the mains PRESENT, good channels with loaded tables, the lid closed, the bowl seated,
the cut-out normal, and nothing to send. -/
def calmIdle : State :=
  { State.reset with
    intake := ⟨none, ⟨true, 0⟩, ⟨true, 0⟩, ⟨true, 0⟩, ⟨true, 0⟩, ⟨true, 0⟩⟩
    sched := { Scheduler.reset with mainsPresent := true, position := 19 }
    base := { Channel.reset with loaded := true, faulted := false, value := some 40 }
    food := { Channel.reset with loaded := true, faulted := false, value := some 40 }
    board := { Channel.reset with loaded := true, faulted := false, value := some 40 }
    lines := { Lines.reset with
      lid := ⟨.high, true, 0⟩, locked := ⟨.high, true, 0⟩, bowl := ⟨.high, true, 0⟩, knob := ⟨.low, false, 0⟩
      cutout := ⟨.low, false, 0⟩, spare := ⟨.low, false, 0⟩ }
    lock := { Lock.reset with state := .released }
    drive := { Drive.reset with spinMarked := false, latchMarked := false }
    report := { Report.reset with pendingSet := 0, announce := false } }

/-- A COOK record of condition USER. -/
def cookUser : StepRecord := { StepRecord.blank with kind := .cook, condition := some .user }

/-- A COOK record of one second. -/
def cookTime : StepRecord := { StepRecord.blank with kind := .cook, condition := some .time, duration := 1 }

/-- An ADD record of 100 decigrams within 5. -/
def addStep : StepRecord :=
  { StepRecord.blank with kind := .add, condition := some .weight, amount := 100, tolerance := 5 }

/-- A COOK record that ends on one torque block. -/
def cookTorque : StepRecord :=
  { StepRecord.blank with
    kind := .cook, condition := some .torque, pattern := some 0, amount := 100, tolerance := 1 }

/-- RUNNING in ACTIVE at index 0 of the record `r`. -/
def running (r : StepRecord) : State :=
  { calmIdle with
    steps := State.reset.steps.setIfInBounds 0 r
    engine := { Engine.reset with state := .running, phase := .active, sub := .reached }
    stir := { Stir.reset with running := r.pattern, kind := some r.kind } }

/-- The state with the engine state replaced. -/
def inState (s : State) (e : EngineState) : State := s.withEngine { s.engine with state := e }

/-- A SUSPEND record of the step at index 0. -/
def suspended : HeldRecord :=
  { reasons := .pauseOnly, index := 0, phase := .active, sub := .reached, elapsed := 0, limitElapsed := 0,
    reached := true, addReference := none, setpoint := 0, rampAccumulator := 0, integrator := 0, phaseIndex := 0,
    phaseElapsed := 0, torqueCount := 0, overloadCap := none }

/-- HELD with reason PAUSE over a started step at index 0. -/
def held : State :=
  { running cookTime with
    engine := { Engine.reset with state := .held, holds := .pauseOnly }
    pool := { free := [1, 2, 3, 4, 5, 6, 7, 8, 9, 10, 11], chain := [(0, .held suspended)], depth := 0 } }

/-- HELD for STARVED and LID at pending index 3. -/
def starved : State :=
  { calmIdle with
    engine := { Engine.reset with state := .held, index := 3, holds := { Holds.empty with starved := true, lid := true } }
    pool := { free := [1, 2, 3, 4, 5, 6, 7, 8, 9, 10, 11], chain := [(0, .starved .empty 3)], depth := 0 } }

/-- A temperature channel whose table is the constant `v`, at `value`. -/
def flat (v : Int) (value : Option Int) : Channel :=
  { Channel.reset with points := .replicate 33 v, loaded := true, faulted := false, value := value }

/-- A test of what a command leaves. -/
def leaves (o : Host.Outcome State Fault Refusal) (p : State → Bool) : Bool :=
  match o with
  | .next t => p t
  | .fault _ => false
  | .refused _ => false

/-! ### Ill-formed commands -/

/-- SAMPLE_FORM_DISCARD of a frame that has the form of its kind (Table 12-3). -/
theorem test_wrong_form_is_wrong :
    (Instr.sampleFormDiscard 4 [0, 0]).wellFormed = false := by decide

/-- SAMPLE_FORM_DISCARD of a wrong length and of an unknown kind. -/
theorem test_wrong_form_is_taken :
    (Instr.sampleFormDiscard 4 [0]).wellFormed = true ∧
    (Instr.sampleFormDiscard 6 [0, 0]).wellFormed = true := ⟨by decide, by decide⟩

/-- MISPLACED_FRAME of a kind the control link takes from the host (Table 12-2), and of the kinds beside them. -/
theorem test_misplaced_host_kinds :
    (Instr.misplacedFrame 0x21 []).wellFormed = false ∧
      (Instr.misplacedFrame 0x29 []).wellFormed = false ∧
      (Instr.misplacedFrame 0x2E []).wellFormed = false ∧
      (Instr.misplacedFrame 0x2F []).wellFormed = false ∧
      (Instr.misplacedFrame 0x20 []).wellFormed = true ∧
      (Instr.misplacedFrame 0x2A []).wellFormed = true := by decide

/-- Rows whose payload has 0 byte(s) before the operand: with 65 more bytes the payload exceeds 64, with one fewer it fits. -/
theorem test_overlong_whole_payload :
    (let l := List.replicate 65 0; [Instr.sampleFormDiscard 6 l, .misplacedFrame 0x30 l, .requestArrival .pass l, .inject l, .pass l].all fun c => !c.wellFormed) = true ∧
    (let l := List.replicate 64 0; [Instr.sampleFormDiscard 6 l, .misplacedFrame 0x30 l, .requestArrival .pass l, .inject l, .pass l].all fun c => c.wellFormed) = true := ⟨by decide, by decide⟩

/-- Rows whose payload has 1 byte(s) before the operand: with 64 more bytes the payload exceeds 64, with one fewer it fits. -/
theorem test_overlong_tagged :
    (let l := List.replicate 64 0; [Instr.stepWrite 0 l, .stepRead 0 l, .getState 0 l, .getChain 0 l].all fun c => !c.wellFormed) = true ∧
    (let l := List.replicate 63 0; [Instr.stepWrite 0 l, .stepRead 0 l, .getState 0 l, .getChain 0 l].all fun c => c.wellFormed) = true := ⟨by decide, by decide⟩

/-- Rows whose payload has 2 byte(s) before the operand: with 63 more bytes the payload exceeds 64, with one fewer it fits. -/
theorem test_overlong_tag_and_code :
    (let l := List.replicate 63 0; [Instr.entryWriteLin 0 .lin0 l, .entryWritePattern 0 l, .entryWriteBind 0 l, .entryWriteCal 0 l,
      .entryWriteLimits 0 l, .entryReadLin 0 .lin0 l, .entryReadPattern 0 l, .entryReadBind 0 l,
      .entryReadCal 0 l, .entryReadLimits 0 l, .doStart 0 l, .doPause 0 l, .doResume 0 l, .doSkip 0 l,
      .doStop 0 l, .doExtend 0 l, .doTare 0 l, .doZeroCal 0 l, .doSpanCal 0 l, .doClear 0 l,
      .doClearNotices 0 l, .doClearEdges 0 l, .doClearCapture 0 l, .doReset 0 l, .doSupervise 0 l,
      .doRehearse 0 l].all fun c => !c.wellFormed) = true ∧
    (let l := List.replicate 62 0; [Instr.entryWriteLin 0 .lin0 l, .entryWritePattern 0 l, .entryWriteBind 0 l, .entryWriteCal 0 l,
      .entryWriteLimits 0 l, .entryReadLin 0 .lin0 l, .entryReadPattern 0 l, .entryReadBind 0 l,
      .entryReadCal 0 l, .entryReadLimits 0 l, .doStart 0 l, .doPause 0 l, .doResume 0 l, .doSkip 0 l,
      .doStop 0 l, .doExtend 0 l, .doTare 0 l, .doZeroCal 0 l, .doSpanCal 0 l, .doClear 0 l,
      .doClearNotices 0 l, .doClearEdges 0 l, .doClearCapture 0 l, .doReset 0 l, .doSupervise 0 l,
      .doRehearse 0 l].all fun c => c.wellFormed) = true := ⟨by decide, by decide⟩

/-! ### Worked examples of the spec -/

/-- Chapter 12, Worked Example: the GO frame is 0xC3 0x2F 0x00 0x6D. -/
theorem test_check_of_go :
    (Flow.go.frame).bytes = [0xC3, 0x2F, 0x00, 0x6D] := by decide +kernel

/-- The opcode table gives no row bits. -/
theorem test_no_table_word :
    decodeTableWord 8 0x2F = none := by decide

/-- Table 5-5: raw 2,612 between 190 and 174 converts to 184. -/
theorem test_food_conversion :
    (Channel.interpolated { Channel.reset with points := (Vector.replicate 33 190).setIfInBounds 21 174 } 2612) = 184 := by decide

/-- The state of the worked calculation of chapter 4 before the eighth sample of the block. -/
def oneBlock : State :=
  { calmIdle with
    cal := { Calibration.reset with zero := 120000, gain := 6554, drift := -3, tcal := 50, band := 5, countM := 4 }
    base := { Channel.reset with faulted := false, value := some 130 }
    weigh := { Weigh.reset with
      blockSum := 1680760, blockCount := 7, anchor := some 12021, stability := 3, tare := 4518, status := .valid } }

/-- Table 4-5: average 240,229, gross 12,024, net 7,506, stable with the anchor kept, VALID. -/
theorem test_one_output_formed :
    leaves (exec (.weighArrival 0 240108) oneBlock) (fun t => t.weigh.average = 240229 && t.weigh.gross = 12024
      && t.weigh.net = 7506 && t.weigh.stable && t.weigh.anchor = some 12021 && t.weigh.status = .valid) = true := by decide

/-- Chapter 4, the same block: SPAN_CAL with reference 12,024 finds the gain 6,554. -/
theorem test_span_of_one_block :
    leaves (exec (.doSpanCal 1 [0, 0x2E, 0xF8]) { oneBlock with weigh := { oneBlock.weigh with average := 240229, stable := true } })
      (fun t => t.cal.gain = 6554 && t.weigh.status = .noData && t.weigh.anchor = none) = true := by decide

/-- The state of the worked regulation frame of chapter 5, with the base value given. -/
def oneFrame (base : Int) : State :=
  { running cookUser with
    base := { Channel.reset with faulted := false, value := some base }
    food := { Channel.reset with faulted := false, value := some 176 }
    board := { Channel.reset with faulted := false, value := some 150 }
    reg := { Regulator.reset with target := 200, setpoint := 200, integrator := 1536, lastK := 9 } }

/-- Table 5-7: integrator 1,632, k 11, kB 11, kS 0. -/
theorem test_frame_below_derate_band :
    leaves (exec (.zeroArrival 0) (oneFrame 380)) (fun t => t.reg.integrator = 1632 && t.reg.lastK = 11
      && t.reg.kB = 11 && t.reg.kS = 0 && !t.reg.baseCut) = true := by decide

/-- Table 5-8: the same frame end with the base at 430 gives kB 3, kS 8. -/
theorem test_frame_within_derate_band :
    leaves (exec (.zeroArrival 0) (oneFrame 430)) (fun t => t.reg.kB = 3 && t.reg.kS = 8 && !t.reg.baseCut) = true := by decide

/-- Chapter 6, Worked Frame: with kB 3 and WB 12, B is due at offsets 3, 7 and 11. -/
theorem test_due_positions :
    ((List.range 12).filter (due 3 12)) = [3, 7, 11] := by decide

/-- A recipe in error: the CALL at index 30 calls index 30 (chapter 3, A Runaway Call). -/
def runaway (depthLimit : Nat) : State :=
  { calmIdle with
    steps := State.reset.steps.setIfInBounds 30 { StepRecord.blank with kind := .call, routine := 30, repeats := 1 }
    limits := { Limits.reset with depthLimit := depthLimit } }

/-- Table 3-8: with depth limit 6, six saves, free count 6, CALL_DEPTH. -/
theorem test_runaway_call_depth :
    leaves (exec (.doStart 1 [30]) (runaway 6)) (fun t => t.pool.depth = 6 && t.pool.free.length = 6
      && t.engine.fault = some .callDepth && !t.report.isPending .poolLow) = true := by decide +kernel

/-- Table 3-8: with depth limit 15, eleven saves, free count 1, CALL_POOL, POOL_LOW raised. -/
theorem test_runaway_call_pool :
    leaves (exec (.doStart 1 [30]) (runaway 15)) (fun t => t.pool.depth = 11 && t.pool.free = [11]
      && t.engine.fault = some .callPool && t.report.isPending .poolLow) = true := by decide +kernel

/-- The front command of the queue is carried out and leaves the rest waiting. -/
theorem test_front_command_first :
    leaves (step (calmIdle.withPending [.hostWait, .hostGo])) (fun t => t.pending = [.hostGo] && t.ctl.permission = .wait) = true := by decide

/-- R142 and R158: from the tables' power-on values the two transmitters' picks send SPIN 0 and the NOTICE, which is
State.reset, and a pick in it moves nothing more. -/
theorem test_power_on_event_picks :
    ((State.reset.withDrive .reset).withReport .reset).picks = State.reset ∧
    State.reset.settle = State.reset := ⟨by decide +kernel, by decide +kernel⟩

/-- R142: the frame after the SPIN 0 of power-on is LATCH REST. -/
theorem test_latch_rest_before_the_first_decision :
    leaves (exec .driveSendComplete State.reset) (fun t => t.drive.sending = some (.latch .rest) && !t.drive.latchMarked) = true := by decide

/-! ### Witnesses -/

/-- RUNNING a COOK step of one second, `n` ms elapsed. -/
def atMs (n : Nat) : State :=
  (running cookTime).withEngine { (running cookTime).engine with elapsed := n }

/-- RUNNING a COOK step with a limit of one second, `n` ms of the limit elapsed. -/
def atLimitMs (n : Nat) : State :=
  let s := running { cookUser with limit := 1 }
  s.withEngine { s.engine with limitElapsed := n }

/-- The lock ENGAGING or RELEASING, its timer at `n` ms. -/
def lockAt (x : LockState) (n : Nat) : State := calmIdle.withLock { Lock.reset with state := x, timer := n }

/-- Every stream LIVE with its count `n`, supervision and quiet counts at `m`. -/
def counting (x : Supervision) (n m : Nat) : State :=
  (calmIdle.withIntake ⟨none, ⟨true, n⟩, ⟨true, n⟩, ⟨true, n⟩, ⟨true, n⟩, ⟨true, n⟩⟩).withCtl
    { Control.reset with supervision := x, supervisionCount := m, quietCount := m, period := 10 }

/-- States that meet the hypotheses of Obligations.EmptyQueueIsOneMillisecond at the step's, the lock's and the
cool-down timers, one count before and at expiry. -/
theorem witness_EmptyQueueIsOneMillisecond_step :
    calmIdle.calm ∧
    (calmIdle.active = false ∧
      (atMs 998).active = true ∧
      (atMs 998).elapsedRuns = true ∧
      (atMs 998).current.condition = some .time ∧
      min ((atMs 998).engine.elapsed + 1) 65535000 < (atMs 998).current.duration * 1000 ∧
      (atMs 999).current.duration * 1000 ≤ min ((atMs 999).engine.elapsed + 1) 65535000 ∧
      (running cookUser).current.condition ≠ some .time ∧
      (running cookUser).current.limit = 0 ∧
      min ((atLimitMs 998).engine.limitElapsed + 1) 65535000 < (atLimitMs 998).current.limit * 1000 ∧
      0 < (atLimitMs 999).current.limit ∧
      (atLimitMs 999).current.limit * 1000 ≤ min ((atLimitMs 999).engine.limitElapsed + 1) 65535000 ∧
      calmIdle.lock.state ≠ .engaging ∧
      calmIdle.lock.state ≠ .releasing ∧
      (lockAt .engaging 0).lock.state = .engaging ∧
      (lockAt .engaging 0).lock.timer + 1 < (lockAt .engaging 0).limits.lockTimeout ∧
      (lockAt .releasing (Limits.reset.lockTimeout - 1)).limits.lockTimeout ≤ (lockAt .releasing (Limits.reset.lockTimeout - 1)).lock.timer + 1 ∧
      (calmIdle.withLock { Lock.reset with coolDown := 599998 }).lock.coolDown + 1 < 600000 ∧
      (calmIdle.withLock { Lock.reset with coolDown := 599999 }).lock.coolDown + 1 = 600000 ∧
      600000 ≤ (calmIdle.withLock { Lock.reset with coolDown := 600000 }).lock.coolDown) := ⟨rfl, by decide +kernel⟩

/-- States that meet the hypotheses of Obligations.EmptyQueueIsOneMillisecond at the streams', the host's, the reading,
the refresh and the receivers' counts, one count before and at expiry. -/
theorem witness_EmptyQueueIsOneMillisecond_links :
    (StreamId.zero, Instr.mainsLoss) ∈ [(StreamId.weigh, Instr.weighStall), (.temp, .tempStall),
        (.motor, .motorStall), (.levels, .levelsStall), (.zero, .mainsLoss)] ∧
      (State.reset.intake.stream .zero).live = false ∧
      ((counting .running (StreamId.zero.deadline - 2) 0).intake.stream .zero).since + 1 < StreamId.zero.deadline ∧
      StreamId.zero.deadline ≤ ((counting .running (StreamId.zero.deadline - 1) 0).intake.stream .zero).since + 1 ∧
      (counting .running 0 8).ctl.supervisionCount + 1 < (counting .running 0 8).ctl.period ∧
      (counting .running 0 9).ctl.period ≤ (counting .running 0 9).ctl.supervisionCount + 1 ∧
      (counting .disarmed 0 2548).ctl.quietRaised = false ∧
      (counting .disarmed 0 2548).ctl.quietCount + 1 < 2550 ∧
      2550 ≤ (counting .disarmed 0 2549).ctl.quietCount + 1 ∧
      (counting .expired 0 0).ctl.supervision = .expired ∧
      calmIdle.report.readingCount + 1 < calmIdle.limits.readingInterval ∧
      (calmIdle.withLimits { Limits.reset with readingInterval := 1 }).limits.readingInterval ≤ calmIdle.report.readingCount + 1 ∧
      (calmIdle.withDrive { calmIdle.drive with spinTimer := 49 }).drive.spinTimer + 1 = 50 ∧
      calmIdle.drive.spinTimer + 1 ≠ 50 ∧
      (calmIdle.withDrive { calmIdle.drive with latchTimer := 99 }).drive.latchTimer + 1 = 100 ∧
      calmIdle.drive.latchTimer + 1 ≠ 100 ∧
      (calmIdle.receiver .sense).state = .hunt ∧
      (calmIdle.withSenseRx { Receiver.hunting with state := .kind, gap := 1 }).senseRx.gap + 1 < 3 ∧
      3 ≤ (calmIdle.withSenseRx { Receiver.hunting with state := .kind, gap := 2 }).senseRx.gap + 1 := by decide +kernel

/-- States and operands that meet the hypotheses of Obligations.SoftReset. -/
theorem witness_SoftReset :
    calmIdle.calm ∧
    calmIdle.report.answers = [] := ⟨rfl, by decide⟩

/-- States and operands that meet the hypotheses of Obligations.StepKeepsPool. -/
theorem witness_StepKeepsPool :
    held.poolInv ∧
    ∃ t, step (held.withPending [.hostGo]) = .next t := ⟨⟨⟨rfl, rfl⟩, rfl, fun _ h => (List.not_mem_nil h).elim⟩, _, rfl⟩

/-- Sixteen requests wait, four answers and readings are in their lanes, four PASS frames in their queue. -/
def full : State :=
  { calmIdle with
    ctl := { Control.reset with queue := .replicate 16 ⟨.pass, []⟩ }
    report := { calmIdle.report with
      answers := .replicate 4 (answerFrame 0 .ok []), readings := .replicate 4 ⟨0x31, []⟩, sending := some ⟨0x32, []⟩ }
    drive := { calmIdle.drive with passQueue := .replicate 4 [], sending := some (.pass []) } }

/-- States and operands that meet the hypotheses of Obligations.StepKeepsLanes. -/
theorem witness_StepKeepsLanes :
    full.lanesBounded ∧
    ∃ t, step (full.withPending [.hostGo]) = .next t := by
  refine ⟨⟨?_, ?_, ?_, ?_⟩, _, rfl⟩ <;> decide

/-- RUNNING with the motor at the lid-free speed, the lock RELEASED. -/
def stirring : State :=
  { running cookTorque with
    patterns := State.reset.patterns.setIfInBounds 0 { Pattern.reset with
      count := 2, phases := (Vector.replicate 8 ⟨500, .fwd, 1, 10⟩).setIfInBounds 1 ⟨100, .rev, 1, 10⟩ }
    stir := { Stir.reset with running := some 0, kind := some .cook, target := 500, commanded := 500, lastDirection := some .fwd }
    drive := { calmIdle.drive with spinSpeed := 500 } }

/-- States and operands that meet the hypotheses of Obligations.StepKeepsSpeedCaps. -/
theorem witness_StepKeepsSpeedCaps :
    stirring.speedCapped ∧
    ∃ t, step (stirring.withPending [.hostGo]) = .next t := by
  refine ⟨⟨rfl, rfl, by decide, by decide, by decide, fun _ => by decide, fun h => ?_, fun h => absurd h (by decide), ?_, fun h => absurd rfl h⟩, _, rfl⟩
  · exact absurd h (by decide)
  · exact fun _ h => absurd h nofun

/-- The step table of `calmIdle` is EMPTY throughout. -/
theorem calmIdle_step (i : Nat) : calmIdle.step i = .blank := by
  by_cases h : i < 256 <;> simp [State.step, calmIdle, State.reset, h]

/-- The pattern table of `calmIdle` stands at its power-on value. -/
theorem calmIdle_pattern (i : Nat) : calmIdle.pattern i = .reset := by
  by_cases h : i < 16 <;> simp [State.pattern, calmIdle, State.reset, h]

/-- States and operands that meet the hypotheses of Obligations.StepKeepsWeightsAndRecords. -/
theorem witness_StepKeepsWeightsAndRecords :
    (calmIdle.withWeigh { Weigh.reset with gross := 80000, net := -20000, added := 80000, tare := -20000 }).weightsInRange ∧
    calmIdle.tablesValid ∧
    ∃ t, step (calmIdle.withPending [.hostGo]) = .next t := by
  refine ⟨⟨?_, ?_, ?_, ?_⟩, ⟨fun i => ?_, fun i => ?_, by decide⟩, _, rfl⟩
  · decide
  · decide
  · decide
  · decide
  · rw [calmIdle_step]; decide
  · rw [calmIdle_pattern]; decide

/-- States and operands that meet the hypotheses of Obligations.OnlyItsOwnCommandsChange. -/
theorem witness_OnlyItsOwnCommandsChange :
    calmIdle.calm ∧
    Instr.weighStall.wellFormed = true ∧
    Instr.weighStall ≠ .powerOnReset ∧
    (∀ kind payload, Instr.weighStall ≠ .requestArrival kind payload) ∧
    (∀ rx b, Instr.weighStall ≠ .byteArrival rx b) ∧
    ∃ t, exec .weighStall calmIdle = .next t := ⟨rfl, rfl, nofun, nofun, nofun, _, rfl⟩

/-- States and operands that meet the hypotheses of Obligations.StepKeepsReceiversAndMains. -/
theorem witness_StepKeepsReceiversAndMains :
    (⟨.payload, 1, 64, .replicate 63 0, 0⟩ : Receiver).sound ∧
    (⟨.check, 1, 64, .replicate 64 0, 0⟩ : Receiver).sound ∧
    calmIdle.mainsFollowZero ∧
    ∃ t, step (calmIdle.withPending [.hostGo]) = .next t := ⟨by exact ⟨by decide, by decide⟩, by exact ⟨by decide, by decide⟩, rfl, _, rfl⟩

/-- An ENGAGED lock that waits for its release, one millisecond before the ten minutes without heat are up. -/
def waiting : State :=
  { calmIdle with
    food := { calmIdle.food with faulted := true }, base := { calmIdle.base with faulted := true }
    stir := { Stir.reset with slowRun := 20 }
    lock := { Lock.reset with state := .engaged, latch := .engage, releaseWait := true, coolDown := 599999 } }

/-- States and operands that meet the hypotheses of Obligations.LatchReleaseNeedsUnlock. -/
theorem witness_LatchReleaseNeedsUnlock :
    waiting.calm ∧
    waiting.lock.latch ≠ .release ∧
    leaves (step (waiting.withPending [.coolDownComplete])) (fun t => t.lock.latch = .release && t.unlockConditions) = true := ⟨rfl, by decide, by decide⟩

/-- States and operands that meet the hypotheses of Obligations.FrameBytesDeliver. -/
theorem witness_FrameBytesDeliver :
    calmIdle.settle = calmIdle ∧
    (calmIdle.receiver .control).state = .hunt ∧
    (⟨0x27, List.replicate 64 0⟩ : Frame).payload.length ≤ 64 := ⟨rfl, by decide, by decide⟩

/-- States and operands that meet the hypotheses of Obligations.StepRecordRoundTrip. -/
theorem witness_StepRecordRoundTrip :
    (let r : StepRecord := { StepRecord.blank with kind := .call, target := 65535, ramp := 255, pattern := some 15, duration := 65535, limit := 65535, amount := 65535, tolerance := 255, routine := 255, repeats := 255 }
    r.target < 65536 ∧ r.ramp < 256 ∧ (∀ p, r.pattern = some p → p < 16) ∧ r.duration < 65536 ∧ r.limit < 65536 ∧
      r.amount < 65536 ∧ r.tolerance < 256 ∧ r.routine < 256 ∧ r.repeats < 256 ∧
      (r.kind ≠ .call → r.routine = 0 ∧ r.repeats = 0)) ∧
    readStep StepRecord.blank.encode = some StepRecord.blank := by
  refine ⟨⟨by decide, by decide, ?_, by decide, by decide, by decide, by decide, by decide, by decide, ?_⟩, by decide⟩
  · rintro p ⟨⟩; decide
  · exact fun h => absurd rfl h

/-- States and operands that meet the hypotheses of Obligations.TableRecordRoundTrips. -/
theorem witness_TableRecordRoundTrips :
    (let c : Calibration := ⟨-8388608, 65535, -128, 32767, 255, 255, 255, 65535⟩;
    -8388608 ≤ c.zero ∧ c.zero ≤ 8388607 ∧ c.gain < 65536 ∧ -128 ≤ c.drift ∧ c.drift ≤ 127 ∧ -32768 ≤ c.tcal ∧
      c.tcal ≤ 32767 ∧ c.blockLength < 256 ∧ c.band < 256 ∧ c.countM < 256 ∧ c.gateSpeed < 65536) ∧
    (let l := Limits.reset
    l.valid = true ∧ l.kp < 256 ∧ l.ki < 256 ∧ l.hardMargin < 256 ∧ l.derateBand < 256 ∧ l.overloadCurrent < 65536) ∧
    (let p := Pattern.reset
    p.count < 256 ∧ p.loop < 256 ∧ ∀ i, i < 8 → (p.phase i).speed < 65536 ∧ (p.phase i).duration < 256 ∧
      (p.phase i).acceleration < 256) := by decide

/-- States and operands that meet the hypotheses of Obligations.CheckDetectsOneByte. -/
theorem witness_CheckDetectsOneByte :
    (0 : Byte) ≠ 1 := by decide

/-- States and operands that meet the hypotheses of Obligations.ReceiverDiscards. -/
theorem witness_ReceiverDiscards :
    calmIdle.calm ∧
    calmIdle.senseRx.state = .hunt ∧
    (calmIdle.withCtlRx { Receiver.hunting with state := .kind }).ctlRx.state ≠ .hunt := ⟨rfl, by decide, by decide⟩

/-- States and operands that meet the hypotheses of Obligations.ByteArrivalByState. -/
theorem witness_ByteArrivalByState :
    calmIdle.calm ∧
    Receiver.hunting.state = .hunt ∧
    (0xC2 : Byte) ≠ 0xC3 ∧
    (64 : Byte).toNat ≤ 64 ∧
    64 < (65 : Byte).toNat ∧
    0 < (1 : Byte).toNat ∧
    (0 : Byte).toNat = 0 ∧
    (let x : Receiver := ⟨.payload, 1, 2, [], 0⟩; x.state = .payload ∧ x.payload.length + 1 < x.length) ∧
    (let x : Receiver := ⟨.payload, 1, 2, [0], 0⟩; x.state = .payload ∧ x.length ≤ x.payload.length + 1) ∧
    (let x : Receiver := ⟨.check, 0x2F, 0, [], 0⟩; x.state = .check ∧ (0x6D : Byte) = crc (x.kind :: byte x.length :: x.payload) ∧
      (0x6C : Byte) ≠ crc (x.kind :: byte x.length :: x.payload)) := ⟨rfl, by decide +kernel⟩

/-- States and operands that meet the hypotheses of Obligations.SenseDiscards. -/
theorem witness_SenseDiscards :
    calmIdle.calm ∧
    (Instr.sampleFormDiscard 6 []).wellFormed = true ∧
    (calmIdle.withCtl { Control.reset with rehearsal := true }).ctl.rehearsal = true ∧
    (calmIdle.withCtl { Control.reset with rehearsal := true }).calm := ⟨rfl, by decide, by decide, rfl⟩

/-- States and operands that meet the hypotheses of Obligations.ArrivalAtIntake. -/
theorem witness_ArrivalAtIntake :
    calmIdle.calm ∧
    calmIdle.ctl.rehearsal = false ∧
    (StreamId.zero, Instr.zeroArrival 0) ∈ [(StreamId.zero, Instr.zeroArrival 0)] ∧
    ¬ (calmIdle.withIntake { calmIdle.intake with lastSeq := some 3 }).inSequence 3 ∧
    (calmIdle.withIntake { calmIdle.intake with lastSeq := some 255 }).inSequence 0 := ⟨rfl, rfl, by simp, fun h => absurd (show (3 : Byte) = 3 + 1 from h) (by decide), show (0 : Byte) = 255 + 1 by decide⟩

/-- The state with a measured speed. -/
def atSpeed (s : State) (v : Nat) : State := s.withStir { s.stir with speed := v }

/-- States and operands that meet the hypotheses of Obligations.WeighSampleTaken. -/
theorem witness_WeighSampleTaken :
    (atSpeed calmIdle 601).calm ∧
    (atSpeed calmIdle 601).senses 0 ∧
    ((atSpeed calmIdle 601).intake.weigh.live = true ∧
      (atSpeed calmIdle 601).cal.gateSpeed < (atSpeed calmIdle 601).stir.speed ∧
      (atSpeed calmIdle 601).weigh.gateClosed = false ∧
      ((atSpeed calmIdle 601).withWeigh { Weigh.reset with gateClosed := true }).weigh.gateClosed = true ∧
      (atSpeed calmIdle 600).stir.speed ≤ (atSpeed calmIdle 600).cal.gateSpeed ∧
      (0x800000 : BitVec 24).toInt = -8388608 ∧
      (0x7FFFFF : BitVec 24).toInt = 8388607 ∧
      (0x7FFFFE : BitVec 24).toInt ≠ 8388607 ∧
      (0x7FFFFE : BitVec 24).toInt ≠ -8388608 ∧
      ({ Weigh.reset with blockCount := 6 } : Weigh).blockCount + 1 < calmIdle.cal.blockLength) := ⟨rfl, ⟨rfl, trivial⟩, by decide⟩

/-- States and operands that meet the hypotheses of Obligations.WeighOutput. -/
theorem witness_WeighOutput :
    oneBlock.calm ∧
    oneBlock.senses 0 ∧
    (oneBlock.intake.weigh.live = true ∧
      oneBlock.stir.speed ≤ oneBlock.cal.gateSpeed ∧
      (240108 : BitVec 24).toInt ≠ -8388608 ∧
      (240108 : BitVec 24).toInt ≠ 8388607 ∧
      0 < oneBlock.cal.blockLength ∧
      oneBlock.cal.blockLength ≤ oneBlock.weigh.blockCount + 1 ∧
      oneBlock.inAddRef = false ∧
      oneBlock.inAddFill = false ∧
      oneBlock.cal.gain ≠ 0 ∧
      (oneBlock.withCal { oneBlock.cal with gain := 0 }).cal.gain = 0) := ⟨rfl, ⟨rfl, trivial⟩, by decide⟩

/-- RUNNING in an ADD step one sample before an output that will be stable at gross 95. -/
def adding (sub : SubPhase) : State :=
  { running addStep with
    engine := { (running addStep).engine with sub := sub }
    cal := { Calibration.reset with gain := 65535, blockLength := 1, band := 255, countM := 1 }
    weigh := { Weigh.reset with anchor := some 0, addReference := some 0 } }

/-- States and operands that meet the hypotheses of Obligations.AddStepJudged. -/
theorem witness_AddStepJudged :
    (adding .addFill).calm ∧
    (adding .addFill).senses 0 ∧
    ((adding .addFill).stir.speed ≤ (adding .addFill).cal.gateSpeed ∧
      (95 : BitVec 24).toInt ≠ -8388608 ∧
      (95 : BitVec 24).toInt ≠ 8388607 ∧
      (adding .addFill).cal.gain ≠ 0 ∧
      (adding .addFill).cal.blockLength ≤ (adding .addFill).weigh.blockCount + 1 ∧
      (adding .addFill).weigh.anchor = some 0 ∧
      clampWeight (rawGross (blockAverage ((adding .addFill).weigh.blockSum + (95 : BitVec 24).toInt) 1 - driftCorrection (adding .addFill).cal.drift
      (adding .addFill).driftBase (adding .addFill).cal.tcal) 0 65535) = 95 ∧
      ((95 : Int) - 0).natAbs ≤ (adding .addFill).cal.band ∧
      (adding .addFill).cal.countM ≤ (adding .addFill).weigh.stability + 1 ∧
      (adding .addRef).inAddRef = true ∧
      (adding .addFill).inAddFill = true ∧
      (adding .addFill).weigh.addReference = some 0 ∧
      ((adding .addFill).current.amount : Int) - (adding .addFill).current.tolerance ≤ clampWeight (95 - 0)) := ⟨rfl, ⟨rfl, trivial⟩, by decide +kernel⟩

/-- States and operands that meet the hypotheses of Obligations.TempChannelResponse. -/
theorem witness_TempChannelResponse :
    calmIdle.calm ∧
    calmIdle.ctl.rehearsal = false := ⟨rfl, by decide⟩

/-- The state with the three channels at constant tables. -/
def heated (s : State) (base food board : Int) : State :=
  ((s.withBase (flat base (some 0))).withFood (flat food (some 0))).withBoard (flat board (some 0))

/-- A heating step whose food channel is one bad sample from its fault. -/
def foodFailing : State :=
  let s := running { cookUser with target := 100 }
  (s.withFood { flat 0 (some 40) with outRun := 2 }).withReg { Regulator.reset with target := 1, setpoint := 1 }

/-- States and operands that meet the hypotheses of Obligations.TemperatureFaults. -/
theorem witness_TemperatureFaults :
    (heated calmIdle 480 40 40).calm ∧
    (heated calmIdle 480 40 40).senses 0 ∧
    ((heated calmIdle 480 40 40).intake.temp.live = true ∧
      (heated calmIdle 480 40 40).engine.state ≠ .faulted ∧
      ((heated calmIdle 480 40 40).sampleChannels 16 16 16).baseOverNow = true ∧
      ((heated calmIdle 479 40 200).sampleChannels 16 16 16).baseOverNow = false ∧
      ((heated calmIdle 479 40 200).sampleChannels 16 16 16).boardOverNow = true ∧
      (foodFailing.sampleChannels 16 4080 16).baseOverNow = false ∧
      (foodFailing.sampleChannels 16 4080 16).boardOverNow = false ∧
      foodFailing.food.faulted = false ∧
      (foodFailing.sampleChannels 16 4080 16).food.faulted = true ∧
      0 < foodFailing.reg.target ∧
      (inState (heated calmIdle 480 40 40) .faulted).engine.state = .faulted ∧
      (inState (heated calmIdle 480 40 40) .faulted).reg.baseOver = false ∧
      ({ Regulator.reset with baseOver := true } : Regulator).baseOver = true ∧
      ((heated calmIdle 480 40 199).sampleChannels 16 16 16).boardOverNow = false ∧
      ({ Channel.reset with faulted := true } : Channel).faulted = true) := ⟨rfl, ⟨rfl, trivial⟩, by decide +kernel⟩

/-- A step with clamped target 100 in APPROACH, its food table the constant `food`. -/
def approaching (r : StepRecord) (food : Int) : State :=
  let s := heated (running r) 40 food 40
  s.withEngine { s.engine with clampedTarget := 100, sub := .approach }

/-- States and operands that meet the hypotheses of Obligations.ReachedAtTempArrival. -/
theorem witness_ReachedAtTempArrival :
    (approaching cookUser 94).calm ∧
    (approaching cookUser 94).senses 0 ∧
    ((approaching cookUser 94).intake.temp.live = true ∧
      ((approaching cookUser 94).sampleChannels 16 16 16).baseOverNow = false ∧
      ((approaching cookUser 94).sampleChannels 16 16 16).boardOverNow = false ∧
      (approaching cookUser 94).active = true ∧
      (approaching cookUser 94).engine.reached = false ∧
      ((approaching cookUser 94).sampleChannels 16 16 16).food.faulted = false ∧
      ((approaching cookUser 94).sampleChannels 16 16 16).food.value = some 94 ∧
      ((approaching cookUser 94).engine.clampedTarget : Int) - (approaching cookUser 94).limits.band ≤ 94 ∧
      (approaching { cookUser with condition := some .temp } 94).current.condition = some .temp ∧
      (approaching cookUser 94).current.condition ≠ some .temp ∧
      (93 : Int) < ((approaching cookUser 93).engine.clampedTarget : Int) - (approaching cookUser 93).limits.band) := ⟨rfl, ⟨rfl, trivial⟩, by decide +kernel⟩

/-- States and operands that meet the hypotheses of Obligations.MotorArrivalOutsideRunning. -/
theorem witness_MotorArrivalOutsideRunning :
    calmIdle.calm ∧
    calmIdle.senses 0 ∧
    (calmIdle.intake.motor.live = true ∧
      calmIdle.engine.state = .idle ∧
      calmIdle.stir.running = none ∧
      calmIdle.lock.state ≠ .engaged ∧
      calmIdle.lock.state ≠ .releasing ∧
      (inState calmIdle .ending).engine.state = .ending ∧
      (49 : BitVec 16).toNat < calmIdle.limits.stopThreshold ∧
      calmIdle.limits.stopThreshold ≤ (50 : BitVec 16).toNat) := ⟨rfl, ⟨rfl, trivial⟩, by decide⟩

/-- A stirred step with the runs of its supervision given. -/
def supervised (r : StepRecord) (stall overload : Nat) (cap : Option Nat) : State :=
  let s := running r
  s.withStir { s.stir with
    commanded := 100, target := 100, stallRun := stall, overloadRun := overload, overloadCap := cap, blockCount := 15
    blockSum := 1500 }

/-- States and operands that meet the hypotheses of Obligations.MotorSupervision. -/
theorem witness_MotorSupervision :
    (supervised cookUser 149 0 none).calm ∧
    (supervised cookUser 149 0 none).senses 0 ∧
    ((supervised cookUser 149 0 none).intake.motor.live = true ∧
      (supervised cookUser 149 0 none).active = true ∧
      100 ≤ (supervised cookUser 149 0 none).stir.commanded ∧
      8 * (12 : BitVec 16).toNat < (supervised cookUser 149 0 none).stir.commanded ∧
      149 ≤ (supervised cookUser 149 0 none).stir.stallRun ∧
      (supervised cookUser 0 99 none).stir.commanded ≤ 8 * (13 : BitVec 16).toNat ∧
      (supervised cookUser 0 99 none).limits.overloadCurrent ≤ (4000 : BitVec 16).toNat ∧
      (supervised cookUser 0 99 none).stir.overloadCap = none ∧
      99 ≤ (supervised cookUser 0 99 none).stir.overloadRun ∧
      (supervised cookUser 0 99 none).current.condition ≠ some .torque ∧
      (supervised cookUser 0 249 (some 100)).stir.overloadCap ≠ none ∧
      249 ≤ (supervised cookUser 0 249 (some 100)).stir.overloadRun ∧
      (supervised cookTorque 0 0 none).current.kind = .cook ∧
      (supervised cookTorque 0 0 none).current.condition = some .torque ∧
      (supervised cookTorque 0 0 none).stir.commanded ≠ 0 ∧
      8 * (((88 : BitVec 16).toNat : Int) - (supervised cookTorque 0 0 none).stir.commanded).natAbs ≤ (supervised cookTorque 0 0 none).stir.commanded ∧
      (92 : BitVec 16).toNat < (supervised cookTorque 0 0 none).limits.overloadCurrent ∧
      (supervised cookTorque 0 0 none).stir.blockSteady = true ∧
      (supervised cookTorque 0 0 none).stir.blockCount = 15 ∧
      ((supervised cookTorque 0 0 none).current.amount : Int) ≤ (((supervised cookTorque 0 0 none).stir.blockSum + (92 : BitVec 16).toNat : Nat) + 8) / 16 ∧
      (supervised cookTorque 0 0 none).current.tolerance ≤ (supervised cookTorque 0 0 none).stir.torqueCount + 1) := ⟨rfl, ⟨rfl, trivial⟩, by decide +kernel⟩

/-- States and operands that meet the hypotheses of Obligations.LevelsDebounce. -/
theorem witness_LevelsDebounce :
    calmIdle.calm ∧
    calmIdle.ctl.rehearsal = false ∧
    1 ≤ (calmIdle.withLimits { Limits.reset with debounce := 1 }).limits.debounce := ⟨rfl, by decide, by decide⟩

/-- The state one LEVELS frame before line `n` is accepted at `v`. -/
def accepting (s : State) (n : LineId) (v : Bool) : State :=
  s.withLines (s.lines.setLine n ⟨.ofSample (!v), v, 2⟩)

/-- The lines of a state, but for their unknown levels, judged against a sample mask. -/
theorem onlyAccepts_of (s : State) (n : LineId) (levels : Byte)
    (h : ((s.lines.line n).level ≠ .ofSample (sampleOf levels n) ∧ (s.lines.line n).candidate = sampleOf levels n
      ∧ s.limits.debounce ≤ (s.lines.line n).agreement + 1))
    (hm : ∀ m ∈ [LineId.lid, .locked, .bowl, .knob, .cutout, .spare], m = n ∨ (s.lines.line m).level = .ofSample (sampleOf levels m)) :
    s.onlyAccepts n levels := by
  refine ⟨h, fun m hne => ?_⟩
  have : m ∈ [LineId.lid, .locked, .bowl, .knob, .cutout, .spare] := by cases m <;> decide
  exact (hm m this).resolve_left hne

/-- States and operands that meet the hypotheses of Obligations.LineEdgeActions. -/
theorem witness_LineEdgeActions :
    (accepting (running cookUser) .lid false).calm ∧
    (accepting (running cookUser) .lid false).senses 0 ∧
    (accepting (running cookUser) .lid false).intake.levels.live = true ∧
    1 ≤ (accepting (running cookUser) .lid false).limits.debounce ∧
    (∀ i, ((accepting (running cookUser) .lid false).lines.binding i).enable = false) ∧
    (accepting (running cookUser) .lid false).onlyAccepts .lid 0x06 ∧
    sampleOf 0x06 .lid = false ∧
    (accepting (running cookUser) .lid false).lines.lid.level = .high ∧
    (accepting (running cookUser) .lid false).lock.state ≠ .engaged ∧
    (accepting (running cookUser) .lid false).engine.state = .running ∧
    (accepting (running cookUser) .lid false).pool.free = 0 :: [1, 2, 3, 4, 5, 6, 7, 8, 9, 10, 11] ∧
    (accepting (running cookUser) .bowl false).onlyAccepts .bowl 0x03 ∧
    sampleOf 0x03 .bowl = false ∧
    (accepting (running cookUser) .bowl false).lines.bowl.level = .high ∧
    ((accepting (running cookUser) .lid false).withLock { Lock.reset with state := .engaged }).lock.state = .engaged ∧
    (accepting calmIdle .cutout true).onlyAccepts .cutout 0x17 ∧
    sampleOf 0x17 .cutout = true ∧
    calmIdle.engine.state ≠ .faulted ∧
    (accepting calmIdle .lid false).onlyAccepts .lid 0x06 ∧
    calmIdle.engine.state = .idle := by
  refine ⟨rfl, ⟨rfl, trivial⟩, rfl, by decide, ?_, onlyAccepts_of _ _ _ (by decide) (by decide), by decide, rfl, by decide, rfl, rfl, onlyAccepts_of _ _ _ (by decide) (by decide), by decide, rfl,
    rfl, onlyAccepts_of _ _ _ (by decide) (by decide), by decide, by decide, onlyAccepts_of _ _ _ (by decide) (by decide), rfl⟩
  intro i
  by_cases h : i < 12 <;> simp [accepting, running, calmIdle, Lines.binding, Lines.setLine, State.withLines, Lines.reset, h]

/-- HELD with reasons LID, BOWL and PAUSE over a started step. -/
def heldOpen : State := held.withEngine { held.engine with holds := { Holds.empty with lid := true, bowl := true, pause := true } }

/-- States and operands that meet the hypotheses of Obligations.LineEdgeActions in HELD: a reason added, a reason
already present, a reason removed, a reason not there. -/
theorem witness_LineEdgeActions_held :
    (accepting held .lid false).onlyAccepts .lid 0x06 ∧
    ((accepting held .lid false).engine.state = .held ∧
      ((accepting held .lid false).lines.line .lid).level = .high ∧
      (accepting held .lid false).lock.state ≠ .engaged ∧
      ({ held.engine.holds with lid := true, pause := true } : Holds) ≠ held.engine.holds) ∧
    (accepting heldOpen .bowl false).onlyAccepts .bowl 0x03 ∧
    ((accepting heldOpen .bowl false).lines.line .bowl).level = .high ∧
    ({ heldOpen.engine.holds with bowl := true, pause := true } : Holds) = heldOpen.engine.holds ∧
    (accepting heldOpen .lid true).onlyAccepts .lid 0x07 ∧
    (sampleOf 0x07 .lid = true ∧
      ({ heldOpen.engine.holds with lid := false } : Holds) ≠ .empty ∧
      ({ heldOpen.engine.holds with lid := false } : Holds).bowl = true ∧
      (accepting heldOpen .lid true).food.faulted = false ∧
      ({ (accepting starved .lid true).engine.holds with lid := false } : Holds) ≠ .empty ∧
      ({ starved.engine.holds with lid := false } : Holds) ≠ starved.engine.holds ∧
      ({ starved.engine.holds with lid := false } : Holds).sensor = false ∧
      ({ held.engine.holds with bowl := false } : Holds) = held.engine.holds) ∧
    (accepting held .bowl true).onlyAccepts .bowl 0x07 :=
  ⟨onlyAccepts_of _ _ _ (by decide) (by decide), by decide, onlyAccepts_of _ _ _ (by decide) (by decide),
    by decide, by decide, onlyAccepts_of _ _ _ (by decide) (by decide), by decide, onlyAccepts_of _ _ _ (by decide)
    (by decide)⟩

/-- RUNNING at an index with the record `r` there and `after` at the next index. -/
def before (i : Nat) (r after : StepRecord) : State :=
  let s := running r
  (s.withSteps ((s.steps.setIfInBounds i r).setIfInBounds (i + 1) after)).withEngine { s.engine with index := i }

/-- A state one LEVELS frame before the KNOB rises, with binding 6 given. -/
def knobOn (s : State) (x : Binding) : State :=
  let s := accepting s .knob true
  s.withLines { s.lines with bindings := s.lines.bindings.setIfInBounds 6 x }

/-- RUNNING, one LEVELS frame before the KNOB rises, with binding 6 given. -/
def knobRising (x : Binding) : State := knobOn (running cookUser) x

/-- RUNNING at index 254 before a FINISH record, one LEVELS frame before the KNOB rises, bound to END_STEP. -/
def knobFinish : State := knobOn (before 254 cookUser { StepRecord.blank with kind := .finish }) ⟨true, .endStep⟩

/-- RUNNING, one LEVELS frame before KNOB falls (to 0) or SPARE changes to `v`, their four bindings NOTIFY. -/
def edgeSoon (n : LineId) (v : Bool) : State :=
  let s := accepting (running cookUser) n v
  s.withLines { s.lines with bindings := .replicate 12 ⟨true, .notify⟩ }

/-- States and operands that meet the hypotheses of Obligations.BoundEdges at the indices 7, 10 and 11, and at those of a
line with a fixed action. -/
theorem witness_BoundEdges_indices :
    (edgeSoon .knob false).calm ∧
    (edgeSoon .knob false).senses 0 ∧
    (edgeSoon .knob false).intake.levels.live = true ∧
    1 ≤ (edgeSoon .knob false).limits.debounce ∧
    (edgeSoon .knob false).onlyAccepts .knob 0x07 ∧
    (sampleOf 0x07 .knob = !true ∧
      ((edgeSoon .knob false).lines.line .knob).level = .high ∧
      7 = 2 * LineId.knob.number + (if true then 1 else 0)) ∧
    (edgeSoon .spare true).onlyAccepts .spare 0x27 ∧
    sampleOf 0x27 .spare = !false ∧
    10 = 2 * LineId.spare.number + (if false then 1 else 0) ∧
    (edgeSoon .spare false).onlyAccepts .spare 0x07 ∧
    11 = 2 * LineId.spare.number + (if true then 1 else 0) ∧
    ((edgeSoon .spare false).lines.binding 11).enable = true ∧
    (edgeSoon .bowl false).onlyAccepts .bowl 0x03 ∧
    5 = 2 * LineId.bowl.number + (if true then 1 else 0) :=
  ⟨rfl, ⟨rfl, trivial⟩, by decide, by decide, onlyAccepts_of _ _ _ (by decide) (by decide), by decide,
    onlyAccepts_of _ _ _ (by decide) (by decide), by decide, by decide, onlyAccepts_of _ _ _ (by decide)
    (by decide), by decide, by decide, onlyAccepts_of _ _ _ (by decide) (by decide), by decide⟩

/-- States and operands that meet the hypotheses of Obligations.BoundEdges. -/
theorem witness_BoundEdges :
    (knobRising ⟨true, .pause⟩).calm ∧
    (knobRising ⟨true, .pause⟩).senses 0 ∧
    (knobRising ⟨true, .pause⟩).intake.levels.live = true ∧
    1 ≤ (knobRising ⟨true, .pause⟩).limits.debounce ∧
    (knobRising ⟨true, .pause⟩).onlyAccepts .knob 0x0F ∧
    sampleOf 0x0F .knob = true ∧
    ((knobRising ⟨false, .notify⟩).lines.binding 6).enable = false ∧
    (knobRising ⟨true, .none⟩).lines.binding 6 = ⟨true, .none⟩ ∧
    (knobRising ⟨true, .notify⟩).lines.binding 6 = ⟨true, .notify⟩ ∧
    (knobRising ⟨true, .capture⟩).lines.binding 6 = ⟨true, .capture⟩ ∧
    (knobRising ⟨true, .pause⟩).lines.binding 6 = ⟨true, .pause⟩ ∧
    (knobRising ⟨true, .pause⟩).engine.state = .running ∧
    (knobRising ⟨true, .pause⟩).food.faulted = false := by
  refine ⟨rfl, ⟨rfl, trivial⟩, rfl, by decide, onlyAccepts_of _ _ _ (by decide) (by decide), by decide, by decide, by decide, by decide, by decide, by decide, rfl, rfl⟩

/-- States and operands that meet the hypotheses of Obligations.BoundEdges where the binding is RESUME or END_STEP. -/
theorem witness_BoundEdges_resume_and_end :
    (knobOn held ⟨true, .resume⟩).calm ∧
    (knobOn held ⟨true, .resume⟩).senses 0 ∧
    (knobOn held ⟨true, .resume⟩).intake.levels.live = true ∧
    (knobOn held ⟨true, .resume⟩).onlyAccepts .knob 0x0F ∧
    ((knobOn held ⟨true, .resume⟩).lines.binding 6 = ⟨true, .resume⟩ ∧
      (knobOn held ⟨true, .resume⟩).engine.state = .held ∧
      (knobOn held ⟨true, .resume⟩).engine.holds = { Holds.empty with pause := true } ∧
      (knobOn held ⟨true, .resume⟩).pool.chain = (0, .held suspended) :: [] ∧
      (knobOn held ⟨true, .resume⟩).food.faulted = false ∧
      (knobOn held ⟨true, .resume⟩).lockNeeded ((knobOn held ⟨true, .resume⟩).step suspended.index) = false ∧
      (knobOn starved ⟨true, .resume⟩).engine.holds ≠ { Holds.empty with pause := true } ∧
      (knobOn calmIdle ⟨true, .resume⟩).engine.state ≠ .held) ∧
    knobFinish.onlyAccepts .knob 0x0F ∧
    (knobFinish.lines.binding 6 = ⟨true, .endStep⟩ ∧
      knobFinish.engine.state = .running ∧
      knobFinish.current.condition = some .user ∧
      knobFinish.engine.index < 255 ∧
      (knobFinish.step (knobFinish.engine.index + 1)).kind = .finish ∧
      (knobOn (running cookTime) ⟨true, .endStep⟩).current.condition ≠ some .user ∧
      (knobOn (running cookTime) ⟨true, .endStep⟩).current.flags.userEnd = false ∧
      (knobOn held ⟨true, .endStep⟩).engine.state ≠ .running) :=
  ⟨rfl, ⟨rfl, trivial⟩, by decide, onlyAccepts_of _ _ _ (by decide) (by decide), by decide +kernel, onlyAccepts_of
    _ _ _ (by decide) (by decide), by decide +kernel⟩

/-- The state with the lock in a state, RELEASE standing, one LEVELS frame before LOCKED reads `v`. -/
def lockedSoon (s : State) (x : LockState) (v : Bool) : State :=
  accepting (s.withLock { Lock.reset with state := x, latch := .engage }) .locked v

/-- ACTIVE of a step with lock need, LOCKED about to fall. -/
def lockNeeding : State :=
  let s := lockedSoon (running cookUser) .engaged false
  s.withEngine { s.engine with lockNeed := true }

/-- States and operands that meet the hypotheses of Obligations.LockedLine. -/
theorem witness_LockedLine :
    (lockedSoon calmIdle .unknown true).calm ∧
    (lockedSoon calmIdle .unknown true).senses 0 ∧
    (lockedSoon calmIdle .unknown true).intake.levels.live = true ∧
    1 ≤ (lockedSoon calmIdle .unknown true).limits.debounce ∧
    (∀ i, ((lockedSoon calmIdle .unknown true).lines.binding i).enable = false) ∧
    (lockedSoon calmIdle .unknown true).onlyAccepts .locked 0x07 ∧
    sampleOf 0x07 .locked = true ∧
    (lockedSoon calmIdle .unknown true).lock.state = .unknown ∧
    (inState calmIdle .running |>.withEngine { Engine.reset with state := .running, phase := .entry }).inEntry = true ∧
    (lockedSoon calmIdle .unknown true).inEntry = false ∧
    (lockedSoon calmIdle .releasing false).onlyAccepts .locked 0x05 ∧
    sampleOf 0x05 .locked = false ∧
    (lockedSoon calmIdle .releasing false).lines.locked.level = .high ∧
    (lockedSoon calmIdle .releasing false).lock.standing = .release ∧
    (lockedSoon calmIdle .engaged false).active = false ∧
    lockNeeding.active = true ∧
    lockNeeding.engine.lockNeed = true ∧
    lockNeeding.lock.state = .engaged ∧
    lockNeeding.onlyAccepts .locked 0x05 := by
  refine ⟨rfl, ⟨rfl, trivial⟩, rfl, by decide, ?_, onlyAccepts_of _ _ _ (by decide) (by decide), by decide, rfl, rfl, rfl, onlyAccepts_of _ _ _ (by decide) (by decide), by decide, rfl, rfl, rfl, rfl, rfl, rfl, onlyAccepts_of _ _ _ (by decide) (by decide)⟩
  intro i
  by_cases h : i < 12 <;> simp [lockedSoon, accepting, calmIdle, Lines.binding, Lines.setLine, State.withLines, State.withLock, Lines.reset, h]

/-- States and operands that meet the hypotheses of Obligations.HeatDecision. -/
theorem witness_HeatDecision :
    (oneFrame 380).calm ∧
    (oneFrame 380).senses 0 ∧
    ((oneFrame 380).intake.zero.live = true ∧
      (oneFrame 380).sched.mainsPresent = true ∧
      ((oneFrame 380).sched.position + 1) % (oneFrame 380).limits.frameLength = 0 ∧
      (19 + 1) % 22 ≠ 0) := ⟨rfl, ⟨rfl, trivial⟩, by decide⟩

/-- States and operands that meet the hypotheses of Obligations.FrameEnd. -/
theorem witness_FrameEnd :
    (oneFrame 400).calm ∧
    (oneFrame 400).senses 0 ∧
    ((oneFrame 400).intake.zero.live = true ∧
      (oneFrame 400).sched.mainsPresent = true ∧
      ((oneFrame 400).sched.position + 1) % (oneFrame 400).limits.frameLength = 0 ∧
      1 ≤ (oneFrame 400).limits.derateBand ∧
      0 < (oneFrame 400).reg.target ∧
      (oneFrame 400).food.value = some 176 ∧
      (oneFrame 400).base.faulted = false ∧
      (oneFrame 400).base.value = some 400 ∧
      ((oneFrame 400).limits.baseLimit : Int) - (oneFrame 400).limits.derateBand ≤ 400 ∧
      (399 : Int) < ((oneFrame 399).limits.baseLimit : Int) - (oneFrame 399).limits.derateBand ∧
      ((oneFrame 440).limits.baseLimit : Int) ≤ 440 ∧
      ((oneFrame 400).withBase .reset).base.faulted = true) ∧
    (∀ v, ((oneFrame 440).withBase { (oneFrame 440).base with faulted := true }).base.value = some v →
      ((oneFrame 440).withReg { (oneFrame 440).reg with baseCut := true }).reg.baseCut = decide ((Limits.reset.baseLimit : Int) ≤ v)) ∧
    ((oneFrame 400).withReg .reset).reg.target = 0 ∧
    ((oneFrame 400).withReg { Regulator.reset with lastK := 22 }).reg.lastK = 22 := ⟨rfl, ⟨rfl, trivial⟩, by decide +kernel, by intro v h; cases h; decide, by decide, by decide⟩

/-- States and operands that meet the hypotheses of Obligations.DuePositions. -/
theorem witness_DuePositions :
    0 < 12 ∧
      3 ≤ 12 ∧
      (12 : Nat) = 12 := by decide

/-- HELD over a started step with the given reasons, the mains LOST. -/
def mainsHeld (h : Holds) : State :=
  ((held.withEngine { held.engine with holds := h }).withSched { held.sched with mainsPresent := false }).withIntake
    { held.intake with zero := ⟨false, 0⟩ }

/-- States and operands that meet the hypotheses of Obligations.MainsLossAndReturn. -/
theorem witness_MainsLossAndReturn :
    (running cookUser).calm ∧
    ((running cookUser).intake.zero.live = true ∧
      (running cookUser).sched.mainsPresent = true ∧
      (running cookUser).engine.state = .running ∧
      calmIdle.engine.state = .idle ∧
      (calmIdle.withIntake .reset).intake.zero.live = false) ∧
    (calmIdle.withIntake .reset).senses 0 ∧
    (((calmIdle.withIntake .reset).withSched .reset).sched.mainsPresent = false ∧
      held.engine.state = .held ∧
      held.intake.zero.live = true ∧
      held.sched.mainsPresent = true ∧
      held.engine.holds.mains = false ∧
      (mainsHeld .mainsOnly).engine.holds.mains = true ∧
      (mainsHeld .mainsOnly).intake.zero.live = false ∧
      (mainsHeld .mainsOnly).sched.mainsPresent = false ∧
      (mainsHeld .mainsOnly).reg.target = 0 ∧
      (mainsHeld .mainsOnly).engine.holds.sensor = false ∧
      0 < (mainsHeld .mainsOnly).limits.frameLength ∧
      (mainsHeld .mainsOnly).food.faulted = false ∧
      ({ (mainsHeld .mainsOnly).engine.holds with mains := false } : Holds) = .empty ∧
      (mainsHeld .mainsOnly).pool.heldRecord = some suspended ∧
      ({ (mainsHeld { Holds.mainsOnly with pause := true }).engine.holds with mains := false } : Holds) ≠ .empty ∧
      (mainsHeld { Holds.mainsOnly with lid := true, pause := true }).engine.holds.lid = true ∧
      0 < calmIdle.limits.frameLength) := ⟨rfl, by decide, ⟨rfl, trivial⟩, by decide +kernel⟩

/-- States and operands that meet the hypotheses of Obligations.StreamStalls. -/
theorem witness_StreamStalls :
    calmIdle.calm ∧
    ((StreamId.weigh, Instr.weighStall) ∈ [(StreamId.weigh, Instr.weighStall)] ∧
      (calmIdle.intake.stream .weigh).live = true ∧
      ((calmIdle.withIntake .reset).intake.stream .weigh).live = false ∧
      calmIdle.engine.state = .idle ∧
      calmIdle.intake.temp.live = true ∧
      calmIdle.intake.motor.live = true ∧
      calmIdle.lock.state ≠ .releasing ∧
      calmIdle.intake.levels.live = true ∧
      (running addStep).engine.state = .running ∧
      (running addStep).pool.free ≠ [] ∧
      (running addStep).current.kind = .add ∧
      (running cookUser).current.kind ≠ .add) := ⟨rfl, by decide +kernel⟩

/-- HELD for SENSOR and PAUSE with the WEIGH stream STALLED and the TEMP stream as given. -/
def heldSensor (temp : Bool) : State :=
  let s := held.withEngine { held.engine with holds := { Holds.empty with sensor := true, pause := true } }
  s.withIntake { s.intake with weigh := ⟨false, 20⟩, temp := ⟨temp, 0⟩, levels := ⟨temp, 0⟩ }

/-- States and operands that meet the hypotheses of Obligations.StreamStalls in HELD: a stall, a return with every
other relevant stream LIVE, a return with another relevant stream STALLED. -/
theorem witness_StreamStalls_held :
    held.engine.state = .held ∧
    held.intake.levels.live = true ∧
    (heldSensor true).calm ∧
    (heldSensor true).senses 0 ∧
    ((heldSensor true).engine.state = .held ∧
      (heldSensor true).intake.weigh.live = false ∧
      ({ (heldSensor true).engine.holds with sensor := false } : Holds) ≠ .empty ∧
      (heldSensor true).food.faulted = false ∧
      (∀ m ∈ [StreamId.weigh, .temp, .motor, .levels, .zero], m ≠ .weigh → (heldSensor true).relevant m = true → ((heldSensor true).intake.stream m).live = true)) ∧
    (∃ m, m ≠ .weigh ∧ (heldSensor false).relevant m = true ∧ ((heldSensor false).intake.stream m).live = false) := ⟨by decide, by decide, rfl, ⟨rfl, trivial⟩, by decide +kernel, ⟨.levels, by decide, rfl, rfl⟩⟩

/-- RUNNING at index 254 before a COOK step whose pattern exceeds the lid-free speed in its second phase. -/
def patternNext : State :=
  { before 254 cookUser { cookUser with pattern := some 0 } with
    patterns := State.reset.patterns.setIfInBounds 0 { Pattern.reset with
      count := 2, phases := (Vector.replicate 8 ⟨100, .fwd, 1, 10⟩).setIfInBounds 1 ⟨601, .fwd, 1, 10⟩ } }

/-- R24: a step whose second phase is above the lid-free speed of power-on waits in ENTRY while the lock engages. -/
theorem test_pattern_speed_needs_the_lock :
    leaves (exec (.doSkip 1 []) patternNext) (fun t => t.engine.index = 255 && t.engine.phase = .entry && t.engine.lockNeed
      && t.lock.state = .engaging && t.stir.running = none) = true := by decide +kernel

/-- R22: an ADD step reached with span gain 0 is the fault UNCALIBRATED at its index. -/
theorem test_uncalibrated_add :
    leaves (exec (.doSkip 1 []) (before 254 cookUser addStep)) (fun t => t.engine.fault = some .uncalibrated
      && t.engine.index = 255 && !t.engine.further) = true := by decide +kernel

/-- States and operands that meet the hypotheses of Obligations.StepEndReachesNext. -/
theorem witness_StepEndReachesNext :
    (before 255 cookTime .blank).free ∧
    ((before 255 cookTime .blank).engine.state = .running ∧
      (before 255 cookTime .blank).elapsedRuns = true ∧
      (before 255 cookTime .blank).current.condition = some .time ∧
      (before 255 cookTime .blank).engine.index = 255 ∧
      (before 254 { cookUser with limit := 1 } { StepRecord.blank with kind := .finish }).limitRuns = true ∧
      (before 254 cookUser { StepRecord.blank with kind := .finish }).engine.index < 255 ∧
      ((before 254 cookUser { StepRecord.blank with kind := .finish }).step 255).kind = .finish ∧
      ((before 254 cookUser .blank).step 255).kind = .empty ∧
      (before 254 cookUser .blank).pool.free = 0 :: [1, 2, 3, 4, 5, 6, 7, 8, 9, 10, 11] ∧
      (before 254 cookUser .blank).food.faulted = false) ∧
    calmIdle.calm ∧
    (calmIdle.elapsedRuns = false ∧
      calmIdle.limitRuns = false ∧
      (before 254 cookUser addStep).step 255 = addStep ∧
      addStep.kind = .add ∧
      (before 254 cookUser addStep).cal.gain = 0 ∧
      (before 254 cookUser { cookUser with pattern := some 0 }).step 255 = { cookUser with pattern := some 0 } ∧
      ((before 254 cookUser { cookUser with pattern := some 0 }).pattern 0).count = 0 ∧
      (patternNext.step 255).kind = .cook ∧
      (patternNext.pattern 0).count = 2 ∧
      patternNext.limits.lidFreeSpeed < ((patternNext.pattern 0).phase 1).speed ∧
      patternNext.engine.index < 255) := ⟨⟨rfl, by decide⟩, by decide +kernel, rfl, by decide +kernel⟩

/-- A running ramp from setpoint 40 to target 44 with a given ramp and count. -/
def ramping (ramp count : Nat) : State :=
  (running cookUser).withReg { Regulator.reset with target := 44, setpoint := 40, ramp := ramp, rampCount := count }

/-- States and operands that meet the hypotheses of Obligations.RampSecond. -/
theorem witness_RampSecond :
    (ramping 255 999).calm ∧
    ((ramping 255 999).rampAdvances = true ∧
      999 ≤ (ramping 255 999).reg.rampCount ∧
      (ramping 255 998).reg.rampCount + 1 < 1000 ∧
      (ramping 0 999).rampAdvances = false ∧
      min (((ramping 255 999).reg.rampAccumulator + (ramping 255 999).reg.ramp) / 60) ((ramping 255 999).reg.setpoint - (ramping 255 999).reg.target).natAbs = 4) := ⟨rfl, by decide⟩

/-- A state that meets the hypotheses of Obligations.EmptyQueueIsOneMillisecond at the phase timer, one count before and
at expiry. -/
theorem witness_EmptyQueueIsOneMillisecond_phase :
    stirring.phaseTimed = true ∧
      stirring.stirPhase = some ⟨500, .fwd, 1, 10⟩ ∧
      (stirring.withStir { stirring.stir with phaseElapsed := 98 }).stir.phaseElapsed + 1 < 1 * 100 ∧
      1 * 100 ≤ (stirring.withStir { stirring.stir with phaseElapsed := 99 }).stir.phaseElapsed + 1 := by decide

/-- States and operands that meet the hypotheses of Obligations.StirPhaseAndRamp. -/
theorem witness_StirPhaseAndRamp :
    stirring.calm ∧
    (calmIdle.phaseTimed = false ∧
      stirring.phaseTimed = true ∧
      stirring.stir.running = some 0 ∧
      (stirring.pattern 0).count = 2 ∧
      stirring.cappedSpeed ((stirring.pattern 0).phase 1).speed = 100 ∧
      stirring.stir.reversal = false ∧
      stirring.stir.lastDirection = some .fwd ∧
      Direction.fwd ≠ ((stirring.pattern 0).phase 1).direction ∧
      calmIdle.ramping = false ∧
      (stirring.withStir { stirring.stir with commanded := 499, rampCount := 98 }).ramping = true ∧
      (98 : Nat) + 1 < 100 ∧
      100 ≤ (99 : Nat) + 1 ∧
      (stirring.withStir { stirring.stir with reversal := true }).stir.reversal = true ∧
      (stirring.withLimits { stirring.limits with maxSpeed := 0 }).cappedSpeed ((stirring.pattern 0).phase 1).speed = 0) := ⟨rfl, by decide +kernel⟩

/-- States and operands that meet the hypotheses of Obligations.LockTimeouts. -/
theorem witness_LockTimeouts :
    (lockedSoon calmIdle .engaging true).calm ∧
    ((lockedSoon calmIdle .engaging true).lock.state = .engaging ∧
      (lockedSoon calmIdle .releasing true).lock.state = .releasing ∧
      calmIdle.lock.state ≠ .engaging ∧
      calmIdle.lock.state ≠ .releasing ∧
      waiting.lock.coolDown < 600000 ∧
      600000 ≤ (waiting.withLock { waiting.lock with coolDown := 600000 }).lock.coolDown ∧
      waiting.lock.state = .engaged ∧
      waiting.lock.releaseWait = true ∧
      (waiting.withLock { waiting.lock with coolDown := 600000 }).unlockConditions = true ∧
      calmIdle.inEntry = false ∧
      (calmIdle.withEngine { Engine.reset with state := .running, phase := .entry }).inEntry = true ∧
      calmIdle.lock.releaseWait = false) := ⟨rfl, by decide +kernel⟩

/-- States and operands that meet the hypotheses of Obligations.HostWatch. -/
theorem witness_HostWatch :
    calmIdle.calm ∧
    ((Instr.misplacedFrame 0x20 []).wellFormed = true ∧
      calmIdle.ctl.supervision ≠ .running ∧
      (calmIdle.withCtl { Control.reset with supervision := .running }).ctl.supervision = .running ∧
      calmIdle.engine.state ≠ .faulted ∧
      (inState calmIdle .faulted).engine.state = .faulted ∧
      calmIdle.ctl.supervision = .disarmed ∧
      calmIdle.ctl.quietRaised = false ∧
      (calmIdle.withCtl { Control.reset with quietRaised := true }).ctl.quietRaised = true) := ⟨rfl, by decide⟩

/-- States and operands that meet the hypotheses of Obligations.ReadingInterval. -/
theorem witness_ReadingInterval :
    calmIdle.calm ∧
    calmIdle.report.sending = none ∧
    calmIdle.report.readings.length < 4 ∧
    (full.withCtl .reset).calm ∧
    (full.withCtl .reset).report.sending.isSome = true ∧
    ¬ (full.withCtl .reset).report.readings.length < 4 := ⟨rfl, by decide, by decide, rfl, by decide, by decide⟩

/-- The drive link busy with a SPIN frame, everything marked, both refresh timers one short of their full count. -/
def sending : State :=
  calmIdle.withDrive { calmIdle.drive with
    heat := some ⟨3, true, false⟩, heatMarked := true, spinMarked := true, latchMarked := true, passQueue := [[1]]
    spinTimer := 49, latchTimer := 99, sending := some (.spin 0 .fwd) }

/-- States and operands that meet the hypotheses of Obligations.DriveSending. -/
theorem witness_DriveSending :
    sending.calm ∧
    (sending.drive.spinTimer < 50 ∧
      sending.drive.latchTimer < 100 ∧
      sending.drive.sending = some (.spin 0 .fwd) ∧
      sending.drive.heatMarked = true ∧
      sending.drive.heat = some ⟨3, true, false⟩ ∧
      sending.drive.spinMarked = true ∧
      sending.drive.latchMarked = true ∧
      calmIdle.drive.heatMarked = false ∧
      calmIdle.drive.spinMarked = false ∧
      calmIdle.drive.latchMarked = false ∧
      sending.drive.passQueue = [1] :: [] ∧
      calmIdle.drive.passQueue = []) := ⟨rfl, by decide +kernel⟩

/-- States and operands that meet the hypotheses of Obligations.UpstreamSending. -/
theorem witness_UpstreamSending :
    calmIdle.calm ∧
    ((calmIdle.withReport { calmIdle.report with resetAnswer := true }).report.resetAnswer = true ∧
      (calmIdle.withCtl { Control.reset with permission := .wait }).ctl.permission = .wait ∧
      calmIdle.ctl.permission = .go ∧
      full.report.answers = answerFrame 0 .ok [] :: List.replicate 3 (answerFrame 0 .ok []) ∧
      calmIdle.report.resetAnswer = false ∧
      (calmIdle.withCtl { Control.reset with flowSlot := some .go }).ctl.flowSlot = some .go ∧
      calmIdle.ctl.flowSlot = none ∧
      (calmIdle.withReport { calmIdle.report with announce := true }).report.announce = true ∧
      calmIdle.report.announce = false ∧
      calmIdle.report.answers = [] ∧
      full.report.readings = ⟨0x31, []⟩ :: List.replicate 3 ⟨0x31, []⟩ ∧
      calmIdle.report.readings = []) := ⟨rfl, by decide +kernel⟩

/-- `n` requests wait behind a GET_CHAIN that cannot be answered yet. -/
def blocked (n : Nat) : State :=
  full.withCtl { Control.reset with queue := ⟨.getChain, [1]⟩ :: .replicate n ⟨.pass, []⟩ }

/-- After WAIT, `n` STEP_READ requests wait behind a GET_CHAIN, the answer lane full and a frame in transmission. -/
def easing (n : Nat) : State :=
  full.withCtl { Control.reset with
    queue := ⟨.getChain, [1]⟩ :: .replicate n ⟨.stepRead, [2, 0]⟩, signalled := .wait, flowSlot := none }

/-- States and operands that meet the hypotheses of Obligations.RequestQueue. -/
theorem witness_RequestQueue :
    ((blocked 10).ctl.queue = ⟨.getChain, [1]⟩ :: List.replicate 10 ⟨.pass, []⟩ ∧
      (blocked 10).report.sending.isSome = true ∧
      4 ≤ (blocked 10).report.answers.length ∧
      (blocked 10).ctl.queue.length = 11 ∧
      (blocked 10).ctl.signalled = .go ∧
      (blocked 10).ctl.flowSlot = none ∧
      16 ≤ (blocked 15).ctl.queue.length ∧
      (blocked 14).ctl.queue.length < 16 ∧
      (blocked 14).ctl.queue.length ≠ 11) ∧
    calmIdle.free ∧
    (RequestKind.getChain ≠ .inject ∧
      RequestKind.getChain ≠ .pass ∧
      ((blocked 10).withCtl { (blocked 10).ctl with flowSlot := some .go }).ctl.flowSlot = some .go ∧
      (easing 4).ctl.queue = ⟨.getChain, [1]⟩ :: List.replicate 4 ⟨.stepRead, [2, 0]⟩ ∧
      (∀ x ∈ (List.replicate 4 (⟨.stepRead, [2, 0]⟩ : Request)).head?, x.kind ≠ .inject ∧ x.kind ≠ .pass) ∧
      (easing 4).report.answers = answerFrame 0 .ok [] :: List.replicate 3 (answerFrame 0 .ok []) ∧
      (List.replicate 3 (answerFrame 0 .ok [])).length = 3 ∧
      (easing 4).report.resetAnswer = false ∧
      (easing 4).ctl.flowSlot = none ∧
      (easing 4).ctl.permission = .go ∧
      (easing 4).report.announce = false ∧
      (List.replicate 4 (⟨.stepRead, [2, 0]⟩ : Request)).length = 4 ∧
      (easing 4).ctl.signalled = .wait ∧
      (List.replicate 5 (⟨.stepRead, [2, 0]⟩ : Request)).length ≠ 4) := ⟨by decide, ⟨rfl, by decide⟩, by decide +kernel⟩

/-- HELD for STARVED alone at pending index 3. -/
def starvedAlone : State :=
  starved.withEngine { starved.engine with holds := { Holds.empty with starved := true } }

/-- HELD for STARVED and the given reason at pending index 3. -/
def starvedAnd (h : Holds) : State := starved.withEngine { starved.engine with holds := { h with starved := true } }

/-- A COOK record whose target is at the lock temperature of power-on. -/
def cookHot : StepRecord := { cookUser with target := 120 }

/-- States and operands that meet the hypotheses of Obligations.StepWriteAndRead. -/
theorem witness_StepWriteAndRead :
    starved.free ∧
    (cookTime.encode.length = 16 ∧
      (running cookTime).stepInProgress = some 0 ∧
      starved.stepInProgress ≠ some 3 ∧
      readStep cookTime.encode = some cookTime ∧
      cookTime.valid = true ∧
      ({ cookTime with duration := 0 } : StepRecord).valid = false ∧
      readStep ({ cookTime with duration := 0 } : StepRecord).encode = some { cookTime with duration := 0 } ∧
      starved.engine.state = .held ∧
      starved.engine.holds.starved = true ∧
      starved.pool.pendingIndex = some (3 : Byte).toNat ∧
      cookTime.kind ≠ .empty ∧
      starved.engine.holds.lid = true ∧
      ¬ calmIdle.engine.state = .held) ∧
    starvedAlone.free ∧
    (starvedAlone.engine.holds = { Holds.empty with starved := true } ∧
      starvedAlone.pool.chain = (0, .starved .empty (3 : Byte).toNat) :: [] ∧
      readStep cookHot.encode = some cookHot ∧
      cookHot.valid = true ∧
      cookHot.kind = .cook ∧
      cookHot.pattern = none ∧
      cookHot.ramp = 0 ∧
      cookHot.flags.forceLock = false ∧
      min (min cookHot.target 400) starvedAlone.limits.maxFoodTarget ≤ starvedAlone.limits.lockTemp ∧
      0 < min (min cookHot.target 400) starvedAlone.limits.maxFoodTarget ∧
      ({ (starvedAnd .pauseOnly).engine.holds with starved := false } : Holds) ≠ Holds.empty ∧
      (starvedAnd .pauseOnly).food.faulted = false ∧
      (starvedAnd { Holds.empty with bowl := true }).engine.holds.bowl = true ∧
      (starvedAnd .mainsOnly).engine.holds.mains = true ∧
      (starvedAnd { Holds.empty with sensor := true }).engine.holds.sensor = true ∧
      readStep addStep.encode = some addStep ∧
      addStep.valid = true ∧
      addStep.kind = .add ∧
      starvedAlone.sched.mainsPresent = true ∧
      starvedAlone.intake.levels.live = true ∧
      starvedAlone.intake.temp.live = true ∧
      starvedAlone.food.faulted = false) := ⟨⟨rfl, by decide⟩, by decide +kernel, ⟨rfl, by decide⟩, by decide +kernel⟩

/-- States and operands that meet the hypotheses of Obligations.LinTables. -/
theorem witness_LinTables :
    calmIdle.free ∧
    (signed 16 (256 * (0x04 : Byte).toNat + (0xB0 : Byte).toNat) = 1200 ∧
      signed 16 (256 * (0x04 : Byte).toNat + (0xB1 : Byte).toNat) = 1201 ∧
      signed 16 (256 * (0xFF : Byte).toNat + (0x38 : Byte).toNat) = -200 ∧
      calmIdle.engine.state = .idle ∧
      (running cookTime).engine.state ≠ .idle ∧
      (32 : Byte).toNat ≤ 32 ∧
      32 < (33 : Byte).toNat ∧
      (calmIdle.linChannel .lin2).points[32]? = some 0 ∧
      (calmIdle.linChannel .lin2).written[32]? = some false) := ⟨⟨rfl, by decide⟩, by decide⟩

/-- States and operands that meet the hypotheses of Obligations.PatternsAndBindings. -/
theorem witness_PatternsAndBindings :
    (running cookTorque).free ∧
    (Pattern.reset.encode.length = 42 ∧
      (running cookTorque).patternInUse = some 0 ∧
      calmIdle.patternInUse ≠ some 0 ∧
      15 < (16 : Byte).toNat ∧
      (15 : Byte).toNat ≤ 15 ∧
      (readPatternEntry Pattern.reset.encode).valid = true ∧
      (readPatternEntry ({ Pattern.reset with count := 9 } : Pattern).encode).valid = false ∧
      11 < (12 : Byte).toNat ∧
      (11 : Byte).toNat ≤ 11 ∧
      5 < (6 : Byte).toNat ∧
      Action.capture.code = (5 : Byte).toNat) := ⟨⟨rfl, by decide⟩, by decide +kernel⟩

/-- States and operands that meet the hypotheses of Obligations.CalibrationAndLimits. -/
theorem witness_CalibrationAndLimits :
    calmIdle.free ∧
    (Calibration.reset.encode.length = 13 ∧
      Limits.reset.encode.length = 44 ∧
      (1 : Byte) ≠ 0 ∧
      (running cookTime).engine.state ≠ .idle ∧
      calmIdle.engine.state = .idle ∧
      (readCalibration Calibration.reset.encode).valid = true ∧
      (readCalibration ({ Calibration.reset with blockLength := 0 } : Calibration).encode).valid = false ∧
      (readLimits Limits.reset.encode).valid = true ∧
      (readLimits ({ Limits.reset with debounce := 9 } : Limits).encode).valid = false) := ⟨⟨rfl, by decide⟩, by decide⟩

/-- HELD with a SUSPEND record that saved 1.5 s, a setpoint of 180, an integrator of 7 and an overload cap of 1,500. -/
def heldHot : State :=
  held.withPool { held.pool with
    chain := [(0, .held { suspended with elapsed := 1500, setpoint := 180, integrator := 7, overloadCap := some 1500 })] }

/-- States and operands that meet the hypotheses of Obligations.StateAndChainQueries. -/
theorem witness_StateAndChainQueries :
    calmIdle.free ∧
    heldHot.free ∧
    (heldHot.engine.state = .held ∧
      heldHot.pool.heldRecord.isSome = true ∧
      calmIdle.engine.state ≠ .held ∧
      starved.pool.heldRecord = none) := ⟨⟨rfl, by decide⟩, ⟨rfl, by decide⟩, by decide⟩

/-- Bytes 5-6, 32-35 and 44-45 of Table 12-6 while HELD are those of the SUSPEND record (R65). -/
theorem test_get_state_of_a_held_step :
    ((heldHot.stateContent.drop 5).take 2, (heldHot.stateContent.drop 32).take 4, (heldHot.stateContent.drop 44).take 2) = (([0, 2], [0, 180, 0, 7], [5, 220]) : List Byte × List Byte × List Byte) := by decide

/-- States and operands that meet the hypotheses of Obligations.PassAndInject. -/
theorem witness_PassAndInject :
    calmIdle.calm ∧
    (calmIdle.drive.passQueue.length < 4 ∧
      (calmIdle.withDrive { calmIdle.drive with passQueue := [[], [], []] }).drive.passQueue.length < 4 ∧
      sending.drive.sending.isSome = true ∧
      calmIdle.drive.sending = none ∧
      calmIdle.drive.heatMarked = false ∧
      calmIdle.drive.spinMarked = false ∧
      calmIdle.drive.latchMarked = false ∧
      calmIdle.drive.passQueue = [] ∧
      calmIdle.ctl.rehearsal = false ∧
      (calmIdle.withCtl { Control.reset with rehearsal := true }).ctl.rehearsal = true ∧
      sampleLength 1 ≠ some ([1, 2, 3] : List Byte).length ∧
      readSample 1 [7, 0xFF, 0xFF, 0xFF] = some (7, .weigh (-1)) ∧
      readSample 2 [7, 0xF0, 1, 0, 2, 0xFF, 0xFF] = some (7, .temp 1 2 4095) ∧
      readSample 3 [7, 1, 0, 0, 2] = some (7, .motor 256 2) ∧
      readSample 4 [7, 3] = some (7, .levels 3) ∧
      readSample 5 [7] = some (7, .zero)) := ⟨rfl, by decide +kernel⟩

/-- `calmIdle` with a COOK record at index 1 whose target is at the lock temperature. -/
def ready : State := calmIdle.withSteps (calmIdle.steps.setIfInBounds 1 { cookUser with target := 120 })

/-- States and operands that meet the hypotheses of Obligations.StartCommand. -/
theorem witness_StartCommand :
    ready.free ∧
    (ready.engine.state = .idle ∧
      (running cookTime).engine.state ≠ .idle ∧
      State.reset.base.loaded = false ∧
      ready.base.loaded = true ∧
      ready.food.loaded = true ∧
      ready.board.loaded = true ∧
      ready.lines.lid.level = .high ∧
      ready.lines.bowl.level = .high ∧
      ready.causePresent = false ∧
      ready.step 1 = { cookUser with target := 120 } ∧
      cookUser.kind = .cook ∧
      cookUser.pattern = none ∧
      cookUser.ramp = 0 ∧
      cookUser.flags.forceLock = false ∧
      min 120 ready.limits.maxFoodTarget ≤ ready.limits.lockTemp ∧
      ready.sched.mainsPresent = true ∧
      ready.intake.levels.live = true ∧
      ready.intake.temp.live = true ∧
      ready.food.faulted = false ∧
      ready.ready = true ∧
      ready.limits.lockTemp < min 121 ready.limits.maxFoodTarget ∧
      ({ cookUser with flags := { cookUser.flags with forceLock := true } } : StepRecord).flags.forceLock = true ∧
      ready.lock.state = .released ∧
      (ready.withLock .reset).lock.state = .unknown ∧
      (ready.withLock { Lock.reset with state := .engaging }).lock.state = .engaging ∧
      (ready.withLock { Lock.reset with state := .releasing }).lock.state = .releasing ∧
      (ready.withLock { Lock.reset with state := .engaged }).lock.state = .engaged ∧
      ready.pool.free = 0 :: [1, 2, 3, 4, 5, 6, 7, 8, 9, 10, 11] ∧
      (ready.withSched .reset).sched.mainsPresent = false ∧
      (true = true ↔ (ready.withIntake { ready.intake with temp := ⟨false, 100⟩ }).intake.levels.live = false ∨ (0 < 120 ∧ (ready.withIntake { ready.intake with temp := ⟨false, 100⟩ }).intake.temp.live = false)) ∧
      (false = true ↔ ready.intake.levels.live = false ∨ (0 < 120 ∧ ready.intake.temp.live = false))) := ⟨⟨rfl, by decide⟩, by decide +kernel⟩

/-- RUNNING with an immediate record at index 3, three contexts saved, the innermost with `remaining` repeats. -/
def calling (r : StepRecord) (remaining : Nat) : State :=
  { before 3 r .blank with
    pool := { free := [3, 4, 5, 6, 7, 8, 9, 10, 11], chain := [(2, .call ⟨255, 9, remaining⟩), (1, .call ⟨8, 9, 0⟩), (0, .call ⟨8, 9, 0⟩)], depth := 3 } }

/-- A CALL record of index 9. -/
def callNine : StepRecord := { StepRecord.blank with kind := .call, routine := 9, repeats := 1 }

/-- A RETURN record. -/
def returns : StepRecord := { StepRecord.blank with kind := .ret }

/-- States and operands that meet the hypotheses of Obligations.CallAndReturn. -/
theorem witness_CallAndReturn :
    (calling callNine 0).food.faulted = false ∧
      (calling callNine 0).engine.state = .running ∧
      ((calling callNine 0).step 3).kind = .call ∧
      ((calling callNine 0).withLimits { Limits.reset with depthLimit := 3 }).limits.depthLimit = (calling callNine 0).pool.depth ∧
      (calling callNine 0).pool.depth ≠ (calling callNine 0).limits.depthLimit ∧
      ({ Pool.rebuilt with free := [11] } : Pool).free.length ≤ 1 ∧
      (calling callNine 0).pool.free = 3 :: 4 :: [5, 6, 7, 8, 9, 10, 11] ∧
      ((calling callNine 0).step 3).routine = 9 ∧
      ((calling callNine 0).step 9).kind = .empty ∧
      (calling callNine 0).limits.warnLevel < (calling callNine 0).pool.free.length ∧
      (calling callNine 0).pool.free.length - 1 ≤ ({ Limits.reset with warnLevel := 8 } : Limits).warnLevel ∧
      ((calling returns 0).step 3).kind = .ret ∧
      Pool.rebuilt.chain = [] ∧
      held.pool.heldRecord.isSome = true ∧
      starved.pool.pendingIndex.isSome = true ∧
      (calling returns 1).pool.chain = (2, .call ⟨255, 9, 1⟩) :: [(1, .call ⟨8, 9, 0⟩), (0, .call ⟨8, 9, 0⟩)] ∧
      (0 : Nat) < 1 ∧
      ((calling returns 0).step 255).kind = .empty := by decide +kernel

/-- States and operands that meet the hypotheses of Obligations.EngineCommandRefusals. -/
theorem witness_EngineCommandRefusals :
    calmIdle.free ∧
    calmIdle.engine.state = .idle ∧
    held.free ∧
    (held.engine.state = .held ∧
      starved.engine.state = .held ∧
      starved.engine.holds ≠ { Holds.empty with pause := true } ∧
      calmIdle.stepInProgress = none ∧
      (running cookUser).stepInProgress = some 0 ∧
      ((running cookUser).step 0).condition ≠ some .time ∧
      ((running cookUser).step 0).limit = 0 ∧
      (inState calmIdle .faulted).engine.state = .faulted ∧
      ((inState calmIdle .faulted).withLines { Lines.reset with cutout := ⟨.high, true, 0⟩ }).causePresent = true) := ⟨⟨rfl, by decide⟩, by decide, ⟨rfl, by decide⟩, by decide +kernel⟩

/-- States and operands that meet the hypotheses of Obligations.PauseThenResumeRestores. -/
theorem witness_PauseThenResumeRestores :
    stirring.calm ∧
    (stirring.report.answers.length < 3 ∧
      stirring.active = true ∧
      stirring.engine.holds = .empty ∧
      stirring.engine.sub ≠ .none ∧
      stirring.lockNeeded stirring.current = false ∧
      stirring.engine.lockNeed = false ∧
      stirring.pool.free = 0 :: [1, 2, 3, 4, 5, 6, 7, 8, 9, 10, 11] ∧
      stirring.food.faulted = false ∧
      stirring.reg.target = stirring.engine.clampedTarget ∧
      stirring.stir.running = stirring.current.pattern ∧
      stirring.current.pattern.isSome = true) := ⟨rfl, by decide +kernel⟩

/-- States and operands that meet the hypotheses of Obligations.StopClearExtend. -/
theorem witness_StopClearExtend :
    held.free ∧
    (running cookTime).engine.state = .running ∧
    held.engine.state = .held ∧
    held.pool.sound ∧
    ((inState calmIdle .faulted).engine.state = .faulted ∧
      (inState calmIdle .faulted).causePresent = false ∧
      (running cookTime).stepInProgress = some 0 ∧
      ((running cookTime).step 0).condition = some .time ∧
      ((running { cookUser with limit := 1 }).step 0).condition ≠ some .time ∧
      0 < ((running { cookUser with limit := 1 }).step 0).limit) := ⟨⟨rfl, by decide⟩, by decide, by decide, ⟨rfl, by decide⟩, by decide +kernel⟩

/-- `oneBlock` after its output. -/
def spanning : State := oneBlock.withWeigh { oneBlock.weigh with average := 121000, stable := true, gross := 100 }

/-- States and operands that meet the hypotheses of Obligations.WeighingCommands. -/
theorem witness_WeighingCommands :
    spanning.free ∧
    (calmIdle.cal.gain = 0 ∧
      spanning.cal.gain ≠ 0 ∧
      spanning.weigh.stable = true ∧
      oneBlock.weigh.stable = false ∧
      (running cookTime).engine.state ≠ .idle ∧
      spanning.engine.state = .idle ∧
      -8388608 ≤ spanning.weigh.average ∧
      spanning.weigh.average ≤ 8388607 ∧
      65536 * (1 : Byte).toNat + 256 * (0x38 : Byte).toNat + (0x80 : Byte).toNat = 80000 ∧
      80000 < 65536 * (1 : Byte).toNat + 256 * (0x38 : Byte).toNat + (0x81 : Byte).toNat ∧
      (0 : Nat) < 1 ∧
      1000 ≤ spanning.weigh.average - spanning.cal.zero ∧
      (999 : Int) < 1000 ∧
      ((999 * 65536 : Nat) + (1000 : Int) / 2) / 1000 ≤ 65535 ∧
      65535 < ((1000 * 65536 : Nat) + (1000 : Int) / 2) / 1000) := ⟨⟨rfl, by decide⟩, by decide +kernel⟩

/-- States and operands that meet the hypotheses of Obligations.ClearsSuperviseRehearse. -/
theorem witness_ClearsSuperviseRehearse :
    calmIdle.free ∧
    (calmIdle.report.announce = false ∧
      full.report.sending.isSome = true ∧
      calmIdle.ctl.supervision = .disarmed ∧
      (calmIdle.withCtl { Control.reset with supervision := .expired }).ctl.supervision ≠ .disarmed ∧
      (running cookTime).engine.state ≠ .idle ∧
      calmIdle.engine.state = .idle ∧
      calmIdle.ctl.rehearsal = decide ((0 : Byte) ≠ 0) ∧
      calmIdle.ctl.rehearsal ≠ decide ((255 : Byte) ≠ 0)) := ⟨⟨rfl, by decide⟩, by decide⟩

/-- States and operands that meet the hypotheses of Obligations.WrongLengthRefused. -/
theorem witness_WrongLengthRefused :
    calmIdle.free ∧
    ((List.replicate 16 (0 : Byte)).length ≠ 17 ∧
      ([] : List Byte).length ≠ 1 ∧
      ([0] : List Byte).length ≠ 0 ∧
      calmIdle.report.answers = [] ∧
      RequestKind.stepWrite ≠ .inject ∧
      RequestKind.stepWrite ≠ .pass ∧
      6 < (7 : Byte).toNat ∧
      15 < (16 : Byte).toNat) := ⟨⟨rfl, by decide⟩, by decide⟩

end Sys2Proof.Tests
end

