-- ==== Sys2Proof/Proofs/FrameEnd.lean ====
section
/-! The frame end (R98 to R102): the lock's judgement at a HEAT frame leaves the regulator alone, each field a frame end
sets, its values in the terms of the rules, and the ZERO arrival that makes one. -/

namespace Sys2Proof.Machine

/-! ### The report of heat to the lock leaves regulator and notices -/

@[simp] theorem State.takeTarget_reg_report (s : State) (t : Nat) (d : Direction) :
    (s.takeTarget t d).reg = s.reg ∧ (s.takeTarget t d).report = s.report := by
  unfold State.takeTarget; dsimp only; split <;> exact ⟨rfl, rfl⟩

@[simp] theorem State.beginReversal_reg_report (s : State) (t : Nat) :
    (s.beginReversal t).reg = s.reg ∧ (s.beginReversal t).report = s.report := ⟨rfl, rfl⟩

@[simp] theorem State.computeTarget_reg_report (s : State) :
    s.computeTarget.reg = s.reg ∧ s.computeTarget.report = s.report := by
  unfold State.computeTarget
  split
  · exact s.takeTarget_reg_report _ _
  · simp [apply_ite State.reg, apply_ite State.report]

@[simp] theorem State.setLatch_reg_report (s : State) (c : Latch) :
    (s.setLatch c).reg = s.reg ∧ (s.setLatch c).report = s.report := by
  unfold State.setLatch; split <;> exact ⟨rfl, rfl⟩

@[simp] theorem State.setLockState_reg_report (s : State) (x : LockState) :
    (s.setLockState x).reg = s.reg ∧ (s.setLockState x).report = s.report := by
  simp [State.setLockState]

/-- ACTIVE entry hands the heater nothing: its target was handed at the step start (R22). -/
@[simp] theorem State.enterActive_reg_report (s : State) :
    s.enterActive.reg = s.reg ∧ s.enterActive.report = s.report := by
  unfold State.enterActive
  dsimp only
  split
  · simp [State.startPattern]
  · simp [State.resumePattern]

@[simp] theorem State.lockEngaged_reg_report (s : State) (w : Bool) :
    (s.lockEngaged w).reg = s.reg ∧ (s.lockEngaged w).report = s.report := by
  unfold State.lockEngaged; dsimp only; split <;> simp

@[simp] theorem State.beginRelease_reg_report (s : State) :
    s.beginRelease.reg = s.reg ∧ s.beginRelease.report = s.report := by
  simp [State.beginRelease]

@[simp] theorem State.judgeLock_reg_report (s : State) :
    s.judgeLock.reg = s.reg ∧ s.judgeLock.report = s.report := by
  unfold State.judgeLock
  split
  case h_1 => split <;> simp
  case h_2 => split <;> simp [State.lockEngagedWaiting]
  all_goals exact ⟨rfl, rfl⟩

@[simp] theorem State.heatReport_reg_report (s : State) :
    s.heatReport.reg = s.reg ∧ s.heatReport.report = s.report := by
  simp [State.heatReport]

/-! ### The HEAT frame of a cycle event -/

/-- A HEAT frame leaves the regulator, the notices, the interface and the on-counts (R111). -/
theorem State.giveHeat_keeps (s : State) (h : Heat) :
    (s.giveHeat h).reg = s.reg ∧ (s.giveHeat h).report = s.report ∧ (s.giveHeat h).ctl = s.ctl ∧
      (s.giveHeat h).sched = { s.sched with lastHeat := h } := by
  unfold State.giveHeat
  dsimp only
  split
  · have hr := ((s.withSched { s.sched with lastHeat := h }).handHeat h).heatReport_rest
    obtain ⟨hreg, hrep⟩ := ((s.withSched { s.sched with lastHeat := h }).handHeat h).heatReport_reg_report
    exact ⟨hreg, hrep, (State.ctl_of_rest hr).trans rfl, (State.sched_of_rest hr).trans rfl⟩
  · exact ⟨rfl, rfl, rfl, rfl⟩

/-! ### The frame end, field by field -/

/-- The two derate flags as a frame end finds them: one becomes true (R98, R100). -/
def State.derates (s : State) : Bool :=
  (s.boardHot && !s.reg.boardDerate) || (s.nextBaseCut && !s.reg.baseCut)

/-- The on-count of element B at a frame end (R101). -/
def State.nextKB (s : State) : Nat := min s.nextK s.allowance

/-- The on-count of element S at a frame end (R101). -/
def State.nextKS (s : State) : Nat := min (s.nextK - s.nextKB) s.limits.windowS

/-- The regulator after a frame end (R98 to R101). -/
theorem State.frameEnd_reg (s : State) : s.frameEnd.reg = { s.reg with
    integrator := if s.reg.target = 0 then 0 else s.nextIntegrator
    lastK := s.nextK, kB := s.nextKB, kS := s.nextKS, baseCut := s.nextBaseCut, boardDerate := s.boardHot } := by
  unfold State.frameEnd; dsimp only; split <;> rfl

/-- The scheduler has the on-counts (R102). -/
theorem State.frameEnd_sched (s : State) :
    s.frameEnd.sched = { s.sched with kB := s.nextKB, kS := s.nextKS } := by
  unfold State.frameEnd; dsimp only; split <;> rfl

theorem State.frameEnd_ctl (s : State) : s.frameEnd.ctl = s.ctl := by
  unfold State.frameEnd; dsimp only; split <;> rfl

/-- A derate flag becoming true raises DERATE (R98, R100). -/
theorem State.frameEnd_derate {s : State} (h : s.derates = true) : s.frameEnd.report.isPending .derate = true := by
  have hf : s.frameEnd = ((s.withReg s.frameEnd.reg).withSched s.frameEnd.sched).raise .derate := by
    rw [s.frameEnd_reg, s.frameEnd_sched]
    exact if_pos h
  rw [hf]
  exact State.raise_isPending _ _

/-! ### The values of a frame end in the terms of the rules -/

theorem clampInt_eq {lo hi : Int} (h : lo ≤ hi) (x : Int) : clampInt lo hi x = max lo (min hi x) := by
  unfold clampInt
  split
  · omega
  · split <;> omega

/-- The error of R99. -/
theorem State.heatError_eq {s : State} {v : Int} (h : s.food.value = some v) :
    s.heatError = max (-600) (min 600 (s.reg.setpoint - v)) := by
  rw [State.heatError, h]
  exact clampInt_eq (by decide) _

/-- kmax of R98. -/
theorem State.kmax_eq (s : State) : s.kmax =
    if s.boardHot then (s.limits.windowB + s.limits.windowS + 1) / 2 else s.limits.windowB + s.limits.windowS := by
  unfold State.kmax roundDiv
  dsimp only
  split <;> omega

/-- The frame ends that skip the integrator (R99 item 3). -/
def State.integratorSkips (s : State) : Prop :=
  (s.kmax ≤ s.reg.lastK ∧ 0 < s.heatError) ∨ (s.reg.lastK = 0 ∧ s.heatError < 0)

theorem State.integratorSkips_iff (s : State) :
    ((decide (s.kmax ≤ s.reg.lastK) && decide (0 < s.heatError)) ||
      (decide (s.reg.lastK = 0) && decide (s.heatError < 0))) = true ↔ s.integratorSkips := by
  simp [State.integratorSkips]

theorem State.nextIntegrator_skip {s : State} (h : s.integratorSkips) :
    s.nextIntegrator = min s.reg.integrator (s.kmax * 256) := if_pos (s.integratorSkips_iff.2 h)

theorem State.nextIntegrator_add {s : State} (h : ¬ s.integratorSkips) :
    s.nextIntegrator = max 0 (min ((s.kmax : Int) * 256) (s.reg.integrator + s.limits.ki * s.heatError)) :=
  (if_neg (mt s.integratorSkips_iff.1 h)).trans (clampInt_eq (by omega) _)

/-- k of R99 with a heater target above 0. -/
theorem State.nextK_eq {s : State} (h : 0 < s.reg.target) :
    (s.nextK : Int) = max 0 (min (s.kmax : Int) ((s.limits.kp * s.heatError + s.nextIntegrator + 128) / 256)) := by
  rw [State.nextK, if_neg (by omega), clampInt_eq (by omega)]
  unfold roundDiv
  omega

theorem State.nextK_zero {s : State} (h : s.reg.target = 0) : s.nextK = 0 := if_pos h

/-! ### The base allowance (R100) -/

theorem State.allowance_faulted {s : State} (h : s.base.faulted = true) : s.allowance = 0 := if_pos h

section
variable {s : State} {v : Int} (hf : s.base.faulted = false) (hv : s.base.value = some v)
include hf hv

theorem State.allowance_below_band (h : v < (s.limits.baseLimit : Int) - s.limits.derateBand) :
    s.allowance = s.limits.windowB := by
  simp [State.allowance, hf, hv, h]

theorem State.allowance_above_limit (h : (s.limits.baseLimit : Int) ≤ v) : s.allowance = 0 := by
  simp [State.allowance, hf, hv, show ¬ v < (s.limits.baseLimit : Int) - s.limits.derateBand by omega,
    show ¬ v < (s.limits.baseLimit : Int) by omega]

theorem State.allowance_in_band (h : (s.limits.baseLimit : Int) - s.limits.derateBand ≤ v)
    (hl : v < s.limits.baseLimit) :
    (s.allowance : Int) = (s.limits.windowB * (s.limits.baseLimit - v) + (s.limits.derateBand / 2 : Nat))
      / (s.limits.derateBand : Int) := by
  have hn : 0 ≤ (s.limits.windowB * (s.limits.baseLimit - v) + (s.limits.derateBand / 2 : Nat))
      / (s.limits.derateBand : Int) :=
    Int.ediv_nonneg (add_nonneg (mul_nonneg (by omega) (by omega)) (by omega)) (by omega)
  simp only [State.allowance, hf, hv, Bool.false_eq_true, if_false, if_neg (not_lt.2 h), if_pos hl, roundDiv]
  exact Int.toNat_of_nonneg hn

end

/-- The allowance is at most WB: in the band the distance to the limit is at most the band (R100). -/
theorem State.allowance_le (s : State) (hb : 1 ≤ s.limits.derateBand) : s.allowance ≤ s.limits.windowB := by
  cases hf : s.base.faulted with
  | true => simp [s.allowance_faulted hf]
  | false =>
    cases hv : s.base.value with
    | none => simp [State.allowance, hf, hv]
    | some v =>
      rcases lt_or_ge v ((s.limits.baseLimit : Int) - s.limits.derateBand) with h | h
      · exact (State.allowance_below_band hf hv h).le
      · rcases lt_or_ge v (s.limits.baseLimit : Int) with hl | hl
        · have hm : (s.limits.windowB : Int) * (s.limits.baseLimit - v) ≤ s.limits.windowB * s.limits.derateBand :=
            mul_le_mul_of_nonneg_left (by omega) (by omega)
          have hq : (s.limits.windowB * (s.limits.baseLimit - v) + (s.limits.derateBand / 2 : Nat))
              / (s.limits.derateBand : Int) < s.limits.windowB + 1 :=
            Int.ediv_lt_of_lt_mul (by omega) (by rw [add_mul]; omega)
          rw [← State.allowance_in_band hf hv h hl] at hq
          omega
        · simp [State.allowance_above_limit hf hv hl]

/-! ### Base cut (R100) -/

theorem State.nextBaseCut_good {s : State} {v : Int} (hf : s.base.faulted = false) (hv : s.base.value = some v) :
    s.nextBaseCut = decide ((s.limits.baseLimit : Int) ≤ v) := by
  simp [State.nextBaseCut, hf, hv, atOrAbove]

theorem State.nextBaseCut_faulted {s : State} (hf : s.base.faulted = true) : s.nextBaseCut = s.reg.baseCut :=
  if_pos hf

/-! ### The ZERO arrival that ends a frame -/

theorem State.checkSequence_of_inSequence {s : State} {seq : Byte} (h : s.inSequence seq) :
    s.checkSequence seq = s.withIntake { s.intake with lastSeq := some seq } := by
  unfold State.inSequence at h
  unfold State.checkSequence
  cases hl : s.intake.lastSeq with
  | none => simp
  | some l =>
    rw [hl] at h
    simp [h]

/-- The return of the ZERO stream is handed to the engine alone, and changes nothing outside HELD (R44). -/
theorem State.streamArrival_zero {s : State} (h : s.intake.zero.live = true ∨ s.engine.state ≠ .held) :
    s.streamArrival .zero = s.withIntake (s.intake.setStream .zero ⟨true, 0⟩) := by
  unfold State.streamArrival
  dsimp only
  split
  · rfl
  · next hw =>
    have he : s.engine.state ≠ .held := h.resolve_left hw
    rw [if_neg (by decide), State.dropSensor, State.keepHolds]
    split
    · rfl
    · exact if_pos (by simp [he])

/-- A ZERO arrival is the ZERO mark delivered, then the picks. -/
theorem exec_zeroArrival {s : State} {seq : Byte} (hs : s.senses seq)
    (hl : s.intake.zero.live = true ∨ s.engine.state ≠ .held) :
    exec (.zeroArrival seq) s = .next (s.seen .zero seq).zeroSample.settle := by
  obtain ⟨hr, hq⟩ := hs
  have ht : s.senseSample seq .zero = (s.seen .zero seq).zeroSample := by
    rw [State.senseSample, hr, State.takeFrame, s.checkSequence_of_inSequence hq]
    exact congrArg State.zeroSample (State.streamArrival_zero (s := s.withIntake _) hl)
  exact congrArg (fun u : State => Host.Outcome.next u.settle) ht

/-- The mark that wraps the position computes the frame end and decides a HEAT frame (R106). -/
theorem State.zeroSample_wrap {s : State} (hm : s.sched.mainsPresent = true)
    (hw : (s.sched.position + 1) % s.limits.frameLength = 0) :
    s.zeroSample = (s.withSched { s.sched with position := 0 }).frameEnd.cycleHeat := by
  simp [State.zeroSample, State.cycleEvent, hm, hw]

/-- The state in which a ZERO arrival that wraps the position computes the frame end. -/
def State.atWrap (s : State) (seq : Byte) : State :=
  (s.seen .zero seq).withSched { s.sched with position := 0 }

/-- A ZERO arrival that wraps the position leaves what the frame end computes from the state before it. -/
theorem State.zeroArrival_frameEnd {s : State} {seq : Byte} (hc : s.calm) (hs : s.senses seq)
    (hl : s.intake.zero.live = true ∨ s.engine.state ≠ .held) (hm : s.sched.mainsPresent = true)
    (hw : (s.sched.position + 1) % s.limits.frameLength = 0) :
    ∃ t, exec (.zeroArrival seq) s = .next t ∧ t.reg = s.frameEnd.reg ∧ t.sched.kB = s.nextKB ∧
      t.sched.kS = s.nextKS ∧ (s.derates = true → t.report.isPending .derate = true) := by
  obtain ⟨hreg, hrep, hctl, hsch⟩ := (s.atWrap seq).frameEnd.giveHeat_keeps (s.atWrap seq).frameEnd.decideHeat
  have hz : (s.seen .zero seq).zeroSample = (s.atWrap seq).frameEnd.cycleHeat :=
    State.zeroSample_wrap (s := s.seen .zero seq) hm hw
  have hcalm : (s.atWrap seq).frameEnd.cycleHeat.calm :=
    (congrArg Control.queue (hctl.trans (s.atWrap seq).frameEnd_ctl)).trans hc
  have ht := exec_zeroArrival hs hl
  rw [hz, State.settle_of_calm hcalm] at ht
  refine ⟨_, ht, ?_, ?_, ?_, ?_⟩
  · rw [State.picks_reg, State.cycleHeat, hreg, State.frameEnd_reg, State.frameEnd_reg]; rfl
  · rw [State.picks_sched, State.cycleHeat, hsch, State.frameEnd_sched]; rfl
  · rw [State.picks_sched, State.cycleHeat, hsch, State.frameEnd_sched]; rfl
  · intro hd
    rw [Report.isPending, State.picks_report_pendingSet, State.cycleHeat, hrep]
    exact State.frameEnd_derate (s := s.atWrap seq) hd

end Sys2Proof.Machine
end

