-- ==== Sys2Proof/Proofs/FrameEndSettled.lean ====
section
/-! The obligation on the frame end. -/

namespace Sys2Proof.Proofs

open Sys2Proof.Machine

/-- Settles O34: the ZERO arrival leaves the frame end's values, and each clause is one rule for them. -/
theorem frameEnd : Obligations.FrameEnd := by
  intro s seq full kmax hot hc hs hl hm hw hband hfull hhot hkmax
  obtain ⟨t, ht, hreg, htB, htS, hderate⟩ := State.zeroArrival_frameEnd hc hs hl hm hw
  have hhot' : hot = s.boardHot := by
    rw [hhot, State.boardHot]
    cases s.board.value <;> rfl
  have hkmax' : kmax = s.kmax := by rw [hkmax, hfull, hhot', s.kmax_eq]
  subst hhot' hkmax'
  refine ⟨t, s.allowance, ht, ?_⟩
  rw [hreg, s.frameEnd_reg, htB, htS]
  refine ⟨rfl, ?_, ?_, State.allowance_faulted, ?_, ?_, rfl, rfl, rfl, rfl, ?_, ?_, ?_, rfl, rfl⟩
  · exact fun h0 => ⟨if_pos h0, State.nextK_zero h0⟩
  · rintro v hpos hv e rfl
    rw [← State.heatError_eq hv]
    dsimp only
    rw [if_neg hpos.ne']
    exact ⟨State.nextIntegrator_skip, State.nextIntegrator_add, State.nextK_eq hpos⟩
  · exact fun v hf hv => ⟨State.allowance_below_band hf hv, State.allowance_in_band hf hv,
      State.allowance_above_limit hf hv, State.nextBaseCut_good hf hv⟩
  · exact fun hf _ => State.nextBaseCut_faulted hf
  · exact (min_le_right _ _).trans (s.allowance_le hband)
  · exact min_le_right _ _
  · intro h
    exact hderate (by simpa [State.derates] using h)

end Sys2Proof.Proofs
end

