-- ==== Sys2Proof/Proofs/HeatDecision.lean ====
section
/-! The HEAT frame of a cycle event (R106 to R111): what the report of heat to the lock leaves alone, the state in which
a cycle event decides, when an element is due and when it may be on, and the ZERO arrival that hands the frame. -/

namespace Sys2Proof.Machine

/-! ### What the report of heat to the lock spares -/

/-- What a judgement of the lock leaves alone beside `State.rest`, the regulator and the report: the pool, the HEAT slot
and the cool-down count. -/
def State.spared (s : State) : Pool × Option Heat × Nat := (s.pool, s.drive.heat, s.lock.coolDown)

@[simp] theorem State.withStir_spared (s : State) (x : Stir) : (s.withStir x).spared = s.spared := rfl

@[simp] theorem State.withEngine_spared (s : State) (x : Engine) : (s.withEngine x).spared = s.spared := rfl

@[simp] theorem State.handSpin_spared (s : State) : s.handSpin.spared = s.spared := rfl

@[simp] theorem State.takeTarget_spared (s : State) (t : Nat) (d : Direction) : (s.takeTarget t d).spared = s.spared := by
  unfold State.takeTarget; dsimp only; split <;> rfl

@[simp] theorem State.beginReversal_spared (s : State) (t : Nat) : (s.beginReversal t).spared = s.spared := rfl

@[simp] theorem State.computeTarget_spared (s : State) : s.computeTarget.spared = s.spared := by
  unfold State.computeTarget
  split
  · exact s.takeTarget_spared _ _
  · simp [apply_ite State.spared]

@[simp] theorem State.setLatch_spared (s : State) (c : Latch) : (s.setLatch c).spared = s.spared := by
  unfold State.setLatch; split <;> rfl

/-- A lock block of the same cool-down count. -/
theorem State.withLock_spared {s : State} {x : Lock} (h : x.coolDown = s.lock.coolDown) :
    (s.withLock x).spared = s.spared := by
  simp [State.spared, h]

@[simp] theorem State.setLockState_spared (s : State) (x : LockState) : (s.setLockState x).spared = s.spared :=
  (State.computeTarget_spared _).trans (State.withLock_spared rfl)

@[simp] theorem State.enterActive_spared (s : State) : s.enterActive.spared = s.spared := by
  unfold State.enterActive
  dsimp only
  split
  · simp [State.startPattern]
  · simp [State.resumePattern]

@[simp] theorem State.lockEngaged_spared (s : State) (w : Bool) : (s.lockEngaged w).spared = s.spared := by
  have hl : (((s.setLatch .engage).withLock { (s.setLatch .engage).lock with releaseWait := w }).setLockState
      .engaged).spared = s.spared := by
    rw [State.setLockState_spared, State.withLock_spared (by rfl), State.setLatch_spared]
  unfold State.lockEngaged
  dsimp only
  split
  · exact (State.enterActive_spared _).trans hl
  · exact hl

@[simp] theorem State.beginRelease_spared (s : State) : s.beginRelease.spared = s.spared := by
  rw [State.beginRelease, State.setLockState_spared, State.withLock_spared (by rfl), State.setLatch_spared]

/-- A judgement of the unlock conditions spares pool, HEAT slot and cool-down count (R135, R136). -/
@[simp] theorem State.judgeLock_spared (s : State) : s.judgeLock.spared = s.spared := by
  unfold State.judgeLock
  split
  case h_1 => split <;> simp
  case h_2 => split <;> simp [State.lockEngagedWaiting]
  all_goals rfl

/-- The report of heat restarts the cool-down count (R111) and spares pool and HEAT slot. -/
theorem State.heatReport_spared (s : State) : s.heatReport.spared = (s.pool, s.drive.heat, 0) :=
  State.judgeLock_spared _

/-! ### Handing a HEAT frame -/

/-- The state with a HEAT frame handed, before it is reported to the lock (R111). -/
def State.heatHanded (s : State) (h : Heat) : State := (s.withSched { s.sched with lastHeat := h }).handHeat h

/-- A HEAT frame with both elements off is not reported to the lock (R111). -/
theorem State.giveHeat_off (s : State) {h : Heat} (hb : h.b = false) (hs : h.s = false) :
    s.giveHeat h = s.heatHanded h := by
  simp [State.giveHeat, State.heatHanded, hb, hs]

/-- Outside rehearsal a HEAT frame with an element on is reported to the lock (R111). -/
theorem State.giveHeat_on {s : State} {h : Heat} (hon : h.b = true ∨ h.s = true) (hr : s.ctl.rehearsal = false) :
    s.giveHeat h = (s.heatHanded h).heatReport := by
  have hc : ((h.b || h.s) && !(s.heatHanded h).ctl.rehearsal) = true := by
    simpa [State.heatHanded, State.handHeat, hr] using hon
  exact if_pos hc

/-- A HEAT frame is handed with or without the report to the lock. -/
theorem State.giveHeat_cases (s : State) (h : Heat) :
    s.giveHeat h = (s.heatHanded h).heatReport ∨ s.giveHeat h = s.heatHanded h := ite_eq_or_eq _ _ _

/-- A HEAT frame leaves all that the engine's operations do not touch, but for the last HEAT. -/
theorem State.giveHeat_rest (s : State) (h : Heat) :
    (s.giveHeat h).rest = (s.withSched { s.sched with lastHeat := h }).rest := by
  rcases s.giveHeat_cases h with e | e
  · rw [e, State.heatReport_rest, State.heatHanded, State.handHeat_rest]
  · rw [e, State.heatHanded, State.handHeat_rest]

/-- A HEAT frame replaces the slot's frame and leaves the pool (R142). -/
theorem State.giveHeat_slot_pool (s : State) (h : Heat) :
    (s.giveHeat h).drive.heat = some h ∧ (s.giveHeat h).pool = s.pool := by
  rcases s.giveHeat_cases h with e | e
  · have hsp := (s.heatHanded h).heatReport_spared
    rw [e]
    exact ⟨congrArg (·.2.1) hsp, congrArg (·.1) hsp⟩
  · rw [e]
    exact ⟨rfl, rfl⟩

/-- A HEAT frame with an element on restarts the cool-down count (R111). -/
theorem State.giveHeat_coolDown {s : State} {h : Heat} (hon : h.b = true ∨ h.s = true) (hr : s.ctl.rehearsal = false) :
    (s.giveHeat h).lock.coolDown = 0 := by
  rw [State.giveHeat_on hon hr]
  exact congrArg (·.2.2) (s.heatHanded h).heatReport_spared

/-- A HEAT frame with both elements off leaves lock and engine. -/
theorem State.giveHeat_off_lock_engine (s : State) {h : Heat} (hb : h.b = false) (hs : h.s = false) :
    (s.giveHeat h).lock = s.lock ∧ (s.giveHeat h).engine = s.engine := by
  rw [s.giveHeat_off hb hs]
  exact ⟨rfl, rfl⟩

/-! ### The state in which a cycle event decides -/

/-- A frame end replaces regulator, scheduler and report alone. -/
theorem State.frameEnd_eq (s : State) :
    s.frameEnd = ((s.withReg s.frameEnd.reg).withSched s.frameEnd.sched).withReport s.frameEnd.report := by
  unfold State.frameEnd; dsimp only; split <;> rfl

/-- The state in which a cycle event decides its HEAT frame: the position advanced, and after a wrap the frame end
computed (R106 items 1 and 2). -/
def State.atCycle (s : State) : State :=
  let next := (s.sched.position + 1) % s.limits.frameLength
  if next = 0 then (s.withSched { s.sched with position := next }).frameEnd
  else s.withSched { s.sched with position := next }

/-- The ZERO mark with the mains PRESENT hands the HEAT frame decided in that state (R106 items 3 and 4). -/
theorem State.zeroSample_present {s : State} (hm : s.sched.mainsPresent = true) :
    s.zeroSample = s.atCycle.giveHeat s.atCycle.decideHeat := if_pos hm

/-- Up to the decision, a cycle event replaces regulator, scheduler and report alone. -/
theorem State.atCycle_eq (s : State) :
    s.atCycle = ((s.withReg s.atCycle.reg).withSched s.atCycle.sched).withReport s.atCycle.report := by
  unfold State.atCycle
  dsimp only
  split
  · exact State.frameEnd_eq _
  · rfl

@[simp] theorem State.atCycle_limits (s : State) : s.atCycle.limits = s.limits :=
  (congrArg State.limits s.atCycle_eq).trans rfl
@[simp] theorem State.atCycle_steps (s : State) : s.atCycle.steps = s.steps :=
  (congrArg State.steps s.atCycle_eq).trans rfl
@[simp] theorem State.atCycle_lines (s : State) : s.atCycle.lines = s.lines :=
  (congrArg State.lines s.atCycle_eq).trans rfl
@[simp] theorem State.atCycle_food (s : State) : s.atCycle.food = s.food :=
  (congrArg State.food s.atCycle_eq).trans rfl
@[simp] theorem State.atCycle_engine (s : State) : s.atCycle.engine = s.engine :=
  (congrArg State.engine s.atCycle_eq).trans rfl
@[simp] theorem State.atCycle_lock (s : State) : s.atCycle.lock = s.lock :=
  (congrArg State.lock s.atCycle_eq).trans rfl
@[simp] theorem State.atCycle_pool (s : State) : s.atCycle.pool = s.pool :=
  (congrArg State.pool s.atCycle_eq).trans rfl
@[simp] theorem State.atCycle_ctl (s : State) : s.atCycle.ctl = s.ctl :=
  (congrArg State.ctl s.atCycle_eq).trans rfl

/-- The position advances modulo the frame length; the mains stay PRESENT or LOST (R106). -/
theorem State.atCycle_sched (s : State) :
    s.atCycle.sched.position = (s.sched.position + 1) % s.limits.frameLength ∧
      s.atCycle.sched.mainsPresent = s.sched.mainsPresent := by
  unfold State.atCycle
  dsimp only
  split
  · rw [State.frameEnd_sched]; exact ⟨rfl, rfl⟩
  · exact ⟨rfl, rfl⟩

/-- Without a wrap there is no frame end: on-counts and regulator stay (R106 item 2). -/
theorem State.atCycle_of_no_wrap {s : State} (h : (s.sched.position + 1) % s.limits.frameLength ≠ 0) :
    s.atCycle.sched.kB = s.sched.kB ∧ s.atCycle.sched.kS = s.sched.kS ∧ s.atCycle.reg = s.reg := by
  have e : s.atCycle = s.withSched { s.sched with position := (s.sched.position + 1) % s.limits.frameLength } := if_neg h
  rw [e]
  exact ⟨rfl, rfl, rfl⟩

/-! ### Due positions, off-conditions and the decided frame -/

/-- A step of the quotients by w is a multiple of w passed (R108). -/
theorem due_iff (k w j : Nat) : due k w j = true ↔ j < w ∧ ∃ m : Nat, k * j < m * w ∧ m * w ≤ k * (j + 1) := by
  simp only [due, Bool.and_eq_true, decide_eq_true_eq, and_congr_right_iff]
  intro hj
  have hw : 0 < w := by omega
  simp only [← Nat.div_lt_iff_lt_mul hw, ← Nat.le_div_iff_mul_le hw]
  exact ⟨fun h => ⟨_, h, le_rfl⟩, fun ⟨_, hlt, hle⟩ => hlt.trans_le hle⟩

theorem State.dueB_iff (s : State) : s.dueB = true ↔
    elementDue s.sched.kB s.limits.startB s.limits.windowB s.limits.frameLength s.sched.position := due_iff _ _ _

theorem State.dueS_iff (s : State) : s.dueS = true ↔
    elementDue s.sched.kS s.limits.startS s.limits.windowS s.limits.frameLength s.sched.position := due_iff _ _ _

/-- The off-conditions (R110) by the engine's state. -/
theorem State.heatAllowed_iff (s : State) : s.heatAllowed = true ↔ s.mayHeat := by
  cases h : s.engine.state <;> simp [State.heatAllowed, State.mayHeat, Holds.gentle, h, and_assoc]

/-- The conditions of R110 are not touched before the decision. -/
theorem State.atCycle_mayHeat (s : State) : s.atCycle.mayHeat ↔ s.mayHeat := by
  simp [State.mayHeat]

/-- Element B of the decided frame (R108, R110). -/
theorem State.decideHeat_b (s : State) : s.decideHeat.b = true ↔ s.mayHeat ∧
    elementDue s.sched.kB s.limits.startB s.limits.windowB s.limits.frameLength s.sched.position := by
  rw [← s.heatAllowed_iff, ← s.dueB_iff]
  exact Bool.and_eq_true_iff

/-- Element S of the decided frame: withheld where both are due and exclusive is on (R108, R109, R110). -/
theorem State.decideHeat_s (s : State) : s.decideHeat.s = true ↔ s.mayHeat ∧
    elementDue s.sched.kS s.limits.startS s.limits.windowS s.limits.frameLength s.sched.position ∧
    ¬ (s.limits.exclusive = true ∧
      elementDue s.sched.kB s.limits.startB s.limits.windowB s.limits.frameLength s.sched.position) := by
  rw [← s.heatAllowed_iff, ← s.dueB_iff, ← s.dueS_iff]
  simp only [State.decideHeat, Bool.and_eq_true, Bool.not_eq_true', ← Bool.not_eq_true]

/-! ### The ZERO arrival of a cycle event -/

/-- The state in which a ZERO arrival with number `seq` decides its HEAT frame. -/
def State.atZero (s : State) (seq : Byte) : State := (s.seen .zero seq).atCycle

/-- With the mains PRESENT a ZERO arrival hands the HEAT frame of its cycle event, then the picks follow. -/
theorem State.zeroArrival_present {s : State} {seq : Byte} (hc : s.calm) (hs : s.senses seq)
    (hl : s.intake.zero.live = true ∨ s.engine.state ≠ .held) (hm : s.sched.mainsPresent = true) :
    exec (.zeroArrival seq) s = .next ((s.atZero seq).giveHeat (s.atZero seq).decideHeat).picks := by
  obtain ⟨-, -, hctl, -⟩ := (s.atZero seq).giveHeat_keeps (s.atZero seq).decideHeat
  have hcalm : ((s.atZero seq).giveHeat (s.atZero seq).decideHeat).calm :=
    (congrArg Control.queue (hctl.trans (State.atCycle_ctl _))).trans hc
  rw [exec_zeroArrival hs hl, State.zeroSample_present (s := s.seen .zero seq) hm]
  exact congrArg Host.Outcome.next (State.settle_of_calm hcalm)

end Sys2Proof.Machine
end

