-- ==== Sys2Proof/Proofs/HeatDecisionSettled.lean ====
section
/-! The obligation on the elements of each cycle. -/

namespace Sys2Proof.Proofs

open Sys2Proof.Machine

/-- Settles O33: the cycle event decides in `s.atZero seq`, which differs from `s` in regulator, scheduler, intake and
report alone; the handing of the decided frame adds the last HEAT and, with an element on, the report to the lock. -/
theorem heatDecision : Obligations.HeatDecision := by
  intro s seq hc hs hl hm
  obtain ⟨hreg, -, -, hsched⟩ := (s.atZero seq).giveHeat_keeps (s.atZero seq).decideHeat
  obtain ⟨hslot, hpool⟩ := (s.atZero seq).giveHeat_slot_pool (s.atZero seq).decideHeat
  have hrest := (s.atZero seq).giveHeat_rest (s.atZero seq).decideHeat
  obtain ⟨hpos, hmains⟩ := (s.seen .zero seq).atCycle_sched
  have hlimits : (s.atZero seq).limits = s.limits := State.atCycle_limits _
  have hmay : (s.atZero seq).mayHeat ↔ s.mayHeat := State.atCycle_mayHeat (s.seen .zero seq)
  refine ⟨_, (s.atZero seq).decideHeat, State.zeroArrival_present hc hs hl hm, ?_⟩
  simp only [State.picks_drive_heat, State.picks_sched, State.picks_reg, State.picks_lock, State.picks_engine,
    State.picks_steps, State.picks_limits, State.picks_lines, State.picks_pool, hreg, hsched]
  refine ⟨hslot, trivial, hpos, rfl, ?_, ?_, ?_, ?_, ?_, hmains.trans hm, ?_, ?_, ?_, ?_⟩
  · rw [← hmay, ← hlimits]
    exact State.decideHeat_b _
  · rw [← hmay, ← hlimits]
    exact State.decideHeat_s _
  · intro hne
    exact State.atCycle_of_no_wrap (s := s.seen .zero seq) (hpos ▸ hne)
  · intro hon hr
    exact State.giveHeat_coolDown hon ((congrArg Control.rehearsal (State.atCycle_ctl _)).trans hr)
  · intro hb hs
    obtain ⟨hlock, hengine⟩ := (s.atZero seq).giveHeat_off_lock_engine hb hs
    exact ⟨hlock.trans (State.atCycle_lock _), hengine.trans (State.atCycle_engine _)⟩
  · exact (State.steps_of_rest hrest).trans (State.atCycle_steps _)
  · exact (State.limits_of_rest hrest).trans (State.atCycle_limits _)
  · exact (State.lines_of_rest hrest).trans (State.atCycle_lines _)
  · exact hpool.trans (State.atCycle_pool _)

end Sys2Proof.Proofs
end

