-- ==== Sys2Proof/Proofs/Footprint.lean ====
section
/-! What an operation can touch. The state is cut into named parts; `Within F s t` says that `t` differs from `s` in the
parts of `F` at most. It is a preorder for each `F`, so that an operation's footprint is read off its definition step by
step, and every frame fact of a statement is one part that is not in the footprint. -/

namespace Sys2Proof.Machine

/-- The parts of the state that frame facts speak of. Parts overlap: `engineState` is one field of `engine`. -/
inductive Part where
  | pending | choices | steps | engineState | engine | pool
  /-- Latest average and gross weight. -/
  | output
  | tare
  /-- Net and added weight as reported. -/
  | shown
  | reference
  /-- The block, the gate, the stability test and the pending tare. -/
  | block
  | cal
  /-- The readings of the three temperature channels: value, fault flag, run counts. -/
  | temperatures
  /-- The linearization points of the three temperature channels. -/
  | linTables
  /-- The heater's target, ramp, setpoint and integrator. -/
  | heater
  /-- What a frame end leaves of the on-counts and the board derate. -/
  | onCounts
  | baseCut | limits | mains | sched | patterns
  /-- The measured speed and current. -/
  | measured
  | slowRun
  /-- The stir drive but for the measured values, with the SPIN slot. -/
  | stir
  | levels | lines | bindings | edges
  /-- The lock but for the cool-down count, with the LATCH slot. -/
  | lock
  /-- Latch command and lock state stay, or the latch command is not RELEASE after it. -/
  | latch
  | coolDown | motorLive | zeroLive | intake
  | heatSlot | refresh | passQueue | driveSending | queue | rehearsal | permission | period | ctl | receivers
  /-- No class leaves the pending set. -/
  | notices
  | pendingSet | announced
  /-- Answers and readings, the reading count and the frame in transmission. -/
  | lanes
deriving DecidableEq

/-- The state `t` has the part as `s` has it. -/
def Part.same : Part → State → State → Prop
  | .pending, s, t => t.pending = s.pending
  | .choices, s, t => t.choices = s.choices
  | .steps, s, t => t.steps = s.steps
  | .engineState, s, t => t.engine.state = s.engine.state
  | .engine, s, t => t.engine = s.engine
  | .pool, s, t => t.pool = s.pool
  | .output, s, t => t.weigh.average = s.weigh.average ∧ t.weigh.gross = s.weigh.gross
  | .tare, s, t => t.weigh.tare = s.weigh.tare
  | .shown, s, t => t.weigh.net = s.weigh.net ∧ t.weigh.added = s.weigh.added
  | .reference, s, t => t.weigh.addReference = s.weigh.addReference
  | .block, s, t => { t.weigh with average := 0, gross := 0, net := 0, added := 0, tare := 0, addReference := none }
      = { s.weigh with average := 0, gross := 0, net := 0, added := 0, tare := 0, addReference := none }
  | .cal, s, t => t.cal = s.cal
  | .temperatures, s, t => (t.base.value = s.base.value ∧ t.base.faulted = s.base.faulted)
      ∧ (t.food.value = s.food.value ∧ t.food.faulted = s.food.faulted)
      ∧ t.board.value = s.board.value ∧ t.board.faulted = s.board.faulted
  | .linTables, s, t => t.base = s.base ∧ t.food = s.food ∧ t.board = s.board
  | .heater, s, t => t.reg.target = s.reg.target ∧ t.reg.ramp = s.reg.ramp ∧ t.reg.setpoint = s.reg.setpoint
      ∧ t.reg.rampAccumulator = s.reg.rampAccumulator ∧ t.reg.rampCount = s.reg.rampCount
      ∧ t.reg.integrator = s.reg.integrator
  | .onCounts, s, t => t.reg.lastK = s.reg.lastK ∧ t.reg.kB = s.reg.kB ∧ t.reg.kS = s.reg.kS
      ∧ t.reg.boardDerate = s.reg.boardDerate
  | .baseCut, s, t => t.reg.baseCut = s.reg.baseCut
  | .limits, s, t => t.limits = s.limits
  | .mains, s, t => t.sched.mainsPresent = s.sched.mainsPresent
  | .sched, s, t => t.sched = s.sched
  | .patterns, s, t => t.patterns = s.patterns
  | .measured, s, t => t.stir.speed = s.stir.speed ∧ t.stir.current = s.stir.current
  | .slowRun, s, t => t.stir.slowRun = s.stir.slowRun
  | .stir, s, t => { t.stir with speed := 0, current := 0, slowRun := 0 }
      = { s.stir with speed := 0, current := 0, slowRun := 0 }
      ∧ t.drive.spinSpeed = s.drive.spinSpeed ∧ t.drive.spinDirection = s.drive.spinDirection
  | .levels, s, t => ∀ n, (t.lines.line n).level = (s.lines.line n).level
  | .lines, s, t => t.lines = s.lines
  | .bindings, s, t => t.lines.bindings = s.lines.bindings
  | .edges, s, t => t.lines.edges = s.lines.edges ∧ t.lines.capture = s.lines.capture
      ∧ t.lines.captureOverrun = s.lines.captureOverrun
  | .lock, s, t => { t.lock with coolDown := 0 } = { s.lock with coolDown := 0 } ∧ t.drive.latch = s.drive.latch
  | .latch, s, t => (t.lock.latch = s.lock.latch ∧ t.lock.state = s.lock.state) ∨ t.lock.latch ≠ .release
  | .coolDown, s, t => t.lock.coolDown = s.lock.coolDown
  | .motorLive, s, t => t.intake.motor.live = s.intake.motor.live
  | .zeroLive, s, t => t.intake.zero.live = s.intake.zero.live
  | .intake, s, t => t.intake = s.intake
  | .heatSlot, s, t => t.drive.heat = s.drive.heat
  | .refresh, s, t => t.drive.spinTimer = s.drive.spinTimer ∧ t.drive.latchTimer = s.drive.latchTimer
  | .passQueue, s, t => t.drive.passQueue = s.drive.passQueue
  | .driveSending, s, t => t.drive.sending = s.drive.sending
  | .queue, s, t => t.ctl.queue = s.ctl.queue
  | .rehearsal, s, t => t.ctl.rehearsal = s.ctl.rehearsal
  | .permission, s, t => t.ctl.permission = s.ctl.permission
  | .period, s, t => t.ctl.period = s.ctl.period
  | .ctl, s, t => t.ctl = s.ctl
  | .receivers, s, t => t.senseRx = s.senseRx ∧ t.ctlRx = s.ctlRx
  | .notices, s, t => ∀ n, s.report.isPending n = true → t.report.isPending n = true
  | .pendingSet, s, t => t.report.pendingSet = s.report.pendingSet
  | .announced, s, t => t.report.lastAnnounced = s.report.lastAnnounced
  | .lanes, s, t => t.report.answers = s.report.answers ∧ t.report.readings = s.report.readings
      ∧ t.report.readingCount = s.report.readingCount ∧ t.report.resetAnswer = s.report.resetAnswer
      ∧ t.report.sending = s.report.sending

theorem Part.same_refl (p : Part) (s : State) : p.same s s := by
  cases p <;> simp [Part.same]

theorem Part.same_trans {p : Part} {s t u : State} (h : p.same s t) (k : p.same t u) : p.same s u := by
  cases p
  case latch =>
    rcases k with ⟨k1, k2⟩ | k
    · rcases h with ⟨h1, h2⟩ | h
      · exact .inl ⟨k1.trans h1, k2.trans h2⟩
      · exact .inr (k1 ▸ h)
    · exact .inr k
  all_goals simp_all [Part.same]

theorem Part.lock_state {s t : State} (h : Part.lock.same s t) : t.lock.state = s.lock.state := by
  have := congrArg Lock.state h.1
  exact this

theorem Part.lock_latch {s t : State} (h : Part.lock.same s t) : t.lock.latch = s.lock.latch := by
  have := congrArg Lock.latch h.1
  exact this

/-- The state `t` differs from `s` in the parts of `F` at most. -/
def Within (F : List Part) (s t : State) : Prop := ∀ p, p ∉ F → p.same s t

theorem Within.refl (F : List Part) (s : State) : Within F s s := fun p _ => p.same_refl s

theorem Within.trans {F : List Part} {s t u : State} (h : Within F s t) (k : Within F t u) : Within F s u :=
  fun p hp => Part.same_trans (h p hp) (k p hp)

theorem Within.mono {F G : List Part} {s t : State} (h : Within F s t) (hFG : F ⊆ G) : Within G s t :=
  fun p hp => h p (fun hf => hp (hFG hf))

/-- The first operation of a row of them, within `G`, in a row within a larger `F`. -/
theorem Within.first {F G : List Part} {s t : State} (h : Within G s t) (hG : G ⊆ F) : Within F s t :=
  h.mono hG

/-- An operation within `G` after one within a larger `F`. -/
theorem Within.andThen {F G : List Part} {u s t : State} (h : Within F u s) (k : Within G s t)
    (hG : G ⊆ F) : Within F u t := h.trans (k.mono hG)

theorem Within.ite {F : List Part} {u s t : State} {c : Prop} [Decidable c] (h : c → Within F u s)
    (k : ¬ c → Within F u t) : Within F u (if c then s else t) := by
  split
  · next hc => exact h hc
  · next hc => exact k hc

/-! ### One block replaced -/

theorem State.withEngine_within (s : State) (e : Engine) : Within [.engineState, .engine] s (s.withEngine e) := by
  intro p hp; cases p <;> simp_all [Part.same]

/-- The engine replaced by one in the same state. -/
theorem State.withEngine_within' {s : State} {e : Engine} (h : e.state = s.engine.state) :
    Within [.engine] s (s.withEngine e) := by
  intro p hp; cases p <;> simp_all [Part.same]

theorem State.withPool_within (s : State) (x : Pool) : Within [.pool] s (s.withPool x) := by
  intro p hp; cases p <;> simp_all [Part.same]

theorem State.raise_within (s : State) (n : Notice) : Within [.pendingSet] s (s.raise n) := by
  have hr : ∀ r : Report, (r.raise n).lastAnnounced = r.lastAnnounced ∧ (r.raise n).answers = r.answers ∧
      (r.raise n).readings = r.readings ∧ (r.raise n).readingCount = r.readingCount ∧
      (r.raise n).resetAnswer = r.resetAnswer ∧ (r.raise n).sending = r.sending := by
    intro r; unfold Report.raise; split <;> simp
  intro p hp
  cases p
  case notices => exact fun m hm => s.raise_mono n m hm
  all_goals simp_all [Part.same, State.raise]

/-- The heater's part of the regulator replaced. -/
theorem State.withReg_within {s : State} {g : Regulator} (h : g.lastK = s.reg.lastK ∧ g.kB = s.reg.kB ∧ g.kS = s.reg.kS
    ∧ g.boardDerate = s.reg.boardDerate ∧ g.baseCut = s.reg.baseCut) :
    Within [.heater] s (s.withReg g) := by
  intro p hp; cases p <;> simp_all [Part.same]

/-- The stir drive replaced, its measured values kept. -/
theorem State.withStir_within {s : State} {x : Stir} (h : x.speed = s.stir.speed ∧ x.current = s.stir.current ∧
    x.slowRun = s.stir.slowRun) : Within [.stir] s (s.withStir x) := by
  intro p hp; cases p <;> simp_all [Part.same]

theorem State.handSpin_within (s : State) : Within [.stir] s s.handSpin := by
  unfold State.handSpin
  dsimp only
  split <;> (intro p hp; cases p <;> simp_all [Part.same])

/-- The lock replaced, its cool-down count kept. -/
theorem State.withLock_within' {s : State} {x : Lock} (h : x.coolDown = s.lock.coolDown) :
    Within [.lock, .latch] s (s.withLock x) := by
  intro p hp; cases p <;> simp_all [Part.same]

/-- The lock replaced, its state, latch command and cool-down count kept. -/
theorem State.withLock_within {s : State} {x : Lock} (h : x.coolDown = s.lock.coolDown ∧ x.latch = s.lock.latch ∧
    x.state = s.lock.state) : Within [.lock] s (s.withLock x) := by
  intro p hp; cases p <;> simp_all [Part.same]

theorem State.setLatch_within (s : State) (c : Latch) : Within [.lock, .latch] s (s.setLatch c) := by
  unfold State.setLatch
  refine Within.ite (fun _ => .refl _ s) fun _ => ?_
  intro p hp; cases p <;> simp_all [Part.same]

theorem State.clearReference_within (s : State) : Within [.reference] s s.clearReference := by
  intro p hp; cases p <;> simp_all [Part.same, State.clearReference]

end Sys2Proof.Machine
end

