-- ==== Sys2Proof/Proofs/FootEngine.lean ====
section
/-! The footprints of the stir drive's, the lock controller's and the step engine's operations. -/

namespace Sys2Proof.Machine

/-! ### The stir drive -/

theorem State.takeTarget_within (s : State) (t : Nat) (d : Direction) : Within [.stir] s (s.takeTarget t d) := by
  unfold State.takeTarget
  dsimp only
  exact .ite (fun _ => Within.andThen (State.withStir_within (by simp)) (State.handSpin_within _) (by decide)) fun _ => (State.withStir_within (by simp))

theorem State.beginReversal_within (s : State) (t : Nat) : Within [.stir] s (s.beginReversal t) :=
  Within.andThen (State.withStir_within (by simp)) (State.handSpin_within _) (by decide)

theorem State.computeTarget_within (s : State) : Within [.stir] s s.computeTarget := by
  unfold State.computeTarget
  split
  · exact s.takeTarget_within _ _
  · exact .ite (fun _ => s.beginReversal_within _) fun _ => s.takeTarget_within _ _

@[simp] theorem Stir.clearRuns_speed (x : Stir) : x.clearRuns.speed = x.speed := rfl

@[simp] theorem Stir.clearRuns_current (x : Stir) : x.clearRuns.current = x.current := rfl

@[simp] theorem Stir.clearRuns_slowRun (x : Stir) : x.clearRuns.slowRun = x.slowRun := rfl

theorem State.startPattern_within (s : State) (r : StepRecord) : Within [.stir] s (s.startPattern r) :=
  Within.andThen (State.withStir_within (by simp)) (State.computeTarget_within _) (by decide)

theorem State.resumePattern_within (s : State) (r : StepRecord) : Within [.stir] s (s.resumePattern r) :=
  Within.andThen (State.withStir_within (by simp)) (State.computeTarget_within _) (by decide)

theorem State.restoreStir_within (s : State) (h : HeldRecord) : Within [.stir] s (s.restoreStir h) :=
  (State.withStir_within (by simp))

theorem State.stirZero_within (s : State) : Within [.stir] s s.stirZero := by
  unfold State.stirZero
  exact .ite (fun _ => Within.andThen (State.withStir_within (by simp)) (State.handSpin_within _) (by decide)) fun _ => (State.withStir_within (by simp))

theorem State.clearStepSupervision_within (s : State) : Within [.stir] s s.clearStepSupervision :=
  (State.withStir_within (by simp))

theorem State.endPhase_within (s : State) : Within [.stir] s s.endPhase := by
  unfold State.endPhase
  split
  · exact .refl _ s
  · exact Within.andThen (State.withStir_within (by simp)) (State.computeTarget_within _) (by decide)

theorem State.rampStep_within (s : State) : Within [.stir] s s.rampStep :=
  Within.andThen (State.withStir_within (by simp)) (State.handSpin_within _) (by decide)

theorem State.endReversal_within (s : State) : Within [.stir] s s.endReversal := by
  unfold State.endReversal
  exact .ite (fun _ => Within.andThen (State.withStir_within (by simp)) (State.handSpin_within _) (by decide)) fun _ => (State.withStir_within (by simp))

/-! ### The lock controller -/

theorem State.setLockState_within (s : State) (l : LockState) : Within [.stir, .lock, .latch] s (s.setLockState l) :=
  Within.andThen (.first (State.withLock_within' (by simp)) (by decide)) (State.computeTarget_within _) (by decide)

/-- A latch command other than RELEASE leaves no RELEASE behind, whatever becomes of the lock state after it. -/
theorem Within.latched {F : List Part} {s t : State} (h : Within (.latch :: F) s t) (hl : t.lock.latch ≠ .release) :
    Within F s t := by
  intro p hp
  by_cases hpl : p = .latch
  · subst hpl; exact .inr hl
  · exact h p (by simp [hpl, hp])

theorem State.setLatch_latch (s : State) (c : Latch) : (s.setLatch c).lock.latch = c := by
  unfold State.setLatch
  split
  · next h => exact h
  · rfl

theorem State.setLockState_latch (s : State) (l : LockState) : (s.setLockState l).lock.latch = s.lock.latch := by
  have h := Part.lock_latch (State.computeTarget_within (s.withLock { s.lock with state := l }) .lock (by decide))
  exact h

theorem State.beginEngage_latch (s : State) : s.beginEngage.lock.latch = .engage := by
  unfold State.beginEngage
  exact (State.setLockState_latch _ _).trans (s.setLatch_latch .engage)

theorem State.lockReleased_latch (s : State) : s.lockReleased.lock.latch = .rest := by
  unfold State.lockReleased
  exact (State.setLockState_latch _ _).trans (s.setLatch_latch .rest)

theorem State.beginEngage_within (s : State) : Within [.stir, .lock] s s.beginEngage := by
  refine Within.latched ?_ (by rw [s.beginEngage_latch]; decide)
  unfold State.beginEngage
  dsimp only
  exact ((Within.first (s.setLatch_within .engage) (by decide)).andThen (State.withLock_within (by simp)) (by decide)).andThen
    (State.setLockState_within _ _) (by decide)

theorem State.lockRequest_within (s : State) (r : LockRequest) : Within [.stir, .lock] s (s.lockRequest r) := by
  cases r
  case engage =>
    exact .ite (fun _ => Within.andThen (.first (State.withLock_within (by simp)) (by decide)) (State.beginEngage_within _) (by decide))
      fun _ => .first (State.withLock_within (by simp)) (by decide)
  case release => exact .first (State.withLock_within (by simp)) (by decide)

theorem State.lockReleased_within (s : State) : Within [.stir, .lock] s s.lockReleased := by
  refine Within.latched ?_ (by rw [s.lockReleased_latch]; decide)
  unfold State.lockReleased
  dsimp only
  exact ((Within.first (s.setLatch_within .rest) (by decide)).andThen (State.withLock_within (by simp)) (by decide)).andThen
    (State.setLockState_within _ _) (by decide)

theorem State.beginRelease_within (s : State) : Within [.stir, .lock, .latch] s s.beginRelease := by
  unfold State.beginRelease
  dsimp only
  exact ((Within.first (s.setLatch_within .release) (by decide)).andThen (State.withLock_within (by simp)) (by decide)).andThen
    (State.setLockState_within _ _) (by decide)

/-! ### Faults and directions -/

theorem State.heaterOff_within (s : State) : Within [.heater] s s.heaterOff := (State.withReg_within (by simp))

theorem State.restOutputs_within (s : State) : Within [.heater, .stir, .lock] s s.restOutputs :=
  ((Within.first s.heaterOff_within (by decide)).andThen (State.stirZero_within _) (by decide)).andThen (State.lockRequest_within _ _) (by decide)

theorem State.raiseFault_within (s : State) (c : FaultCode) :
    Within [.engineState, .engine, .reference, .heater, .stir, .lock, .pendingSet] s (s.raiseFault c) := by
  unfold State.raiseFault
  refine .ite (fun _ => .ite (fun _ => .refl _ s) fun _ => ?_) fun _ => ?_
  · exact (Within.first (State.withEngine_within' (by simp)) (by decide)).andThen (State.raise_within _ _) (by decide)
  · exact ((((Within.first (s.withEngine_within _) (by decide)).andThen (State.restOutputs_within _) (by decide)).andThen
      (State.clearStepSupervision_within _) (by decide)).andThen (State.clearReference_within _) (by decide)).andThen (State.raise_within _ _) (by decide)

/-- The parts that a hold, a fault and the end of a recipe change. -/
abbrev holdParts : List Part := [.engineState, .engine, .pool, .reference, .heater, .stir, .lock, .pendingSet]

/-- The parts that the engine's operations change. -/
abbrev engineParts : List Part := .announced :: holdParts

theorem State.heldOutputs_within (s : State) :
    Within [.engineState, .engine, .reference, .heater, .stir, .lock, .pendingSet] s s.heldOutputs := by
  unfold State.heldOutputs
  dsimp only
  have h : ∀ g : Regulator, Within [.heater] s (s.withReg g) → Within [.engineState, .engine, .reference, .heater,
      .stir, .lock, .pendingSet] s ((s.withReg g).stirZero.lockRequest .release) := fun g hg =>
    ((Within.first hg (by decide)).andThen (State.stirZero_within _) (by decide)).andThen (State.lockRequest_within _ _) (by decide)
  exact .ite (fun _ => (h _ (State.withReg_within (by simp))).andThen (State.raiseFault_within _ _) (by decide))
    fun _ => h _ (State.withReg_within (by simp))

theorem State.enterHold_within (s : State) (r : Holds) : Within holdParts s (s.enterHold r) := by
  unfold State.enterHold
  dsimp only
  exact (((Within.first (s.withPool_within _) (by decide)).andThen (State.withEngine_within _ _) (by decide)).andThen
    (State.raise_within _ _) (by decide)).andThen (State.heldOutputs_within _) (by decide)

theorem State.addHold_within (s : State) (r : Holds) : Within holdParts s (s.addHold r) := by
  unfold State.addHold
  split
  · exact s.enterHold_within r
  · exact .ite (fun _ => .refl _ s) fun _ =>
      Within.andThen (.first (State.withEngine_within' (by simp)) (by decide)) (State.heldOutputs_within _) (by decide)
  all_goals exact .refl _ s

theorem State.enterStarved_within (s : State) (i : Nat) : Within holdParts s (s.enterStarved i) := by
  unfold State.enterStarved
  dsimp only
  exact ((((Within.first (s.withPool_within _) (by decide)).andThen (State.withEngine_within _ _) (by decide)).andThen
    (State.raise_within _ _) (by decide)).andThen (State.raise_within _ _) (by decide)).andThen (State.heldOutputs_within _) (by decide)

/-! ### Entry, step start, step end, resume -/

theorem State.enterActive_within (s : State) : Within [.engine, .stir] s s.enterActive := by
  unfold State.enterActive
  dsimp only
  exact .ite
    (fun _ => Within.andThen (.first (State.withEngine_within' (by simp)) (by decide)) (State.startPattern_within _ _) (by decide))
    fun _ => Within.andThen (.first (State.withEngine_within' (by simp)) (by decide)) (State.resumePattern_within _ _) (by decide)

theorem State.decideEntry_within (s : State) : Within [.engine, .stir, .lock] s s.decideEntry := by
  unfold State.decideEntry
  dsimp only
  have h : Within [.engine, .stir, .lock] s (s.withEngine { s.engine with lockNeed := s.lockNeeded s.current }) :=
    .first (State.withEngine_within' (by simp)) (by decide)
  refine .ite (fun _ => .ite (fun _ => ?_) fun _ => ?_) fun _ => ?_
  · exact (h.andThen (State.lockRequest_within _ _) (by decide)).andThen (State.enterActive_within _) (by decide)
  · exact ((h.andThen (State.withEngine_within' (by simp)) (by decide)).andThen (State.stirZero_within _) (by decide)).andThen
      (State.lockRequest_within _ _) (by decide)
  · exact (h.andThen (State.lockRequest_within _ _) (by decide)).andThen (State.enterActive_within _) (by decide)

theorem State.handStepTarget_within (s : State) (r : StepRecord) (t : Nat) :
    Within [.engine, .heater] s (s.handStepTarget r t) :=
  Within.andThen (.first (State.withReg_within (by simp)) (by decide)) (State.withEngine_within' (by simp)) (by decide)

theorem State.announceStep_within (s : State) (r : StepRecord) (i : Nat) :
    Within [.pendingSet, .announced] s (s.announceStep r i) := by
  have h : Within [.pendingSet, .announced] s (s.withReport { s.report with lastAnnounced := some i }) := by
    intro p hp; cases p <;> simp_all [Part.same, Report.isPending]
  exact .ite (fun _ => h.andThen (State.raise_within _ _) (by decide)) fun _ => .refl _ s

theorem State.startTimed_within (s : State) (i : Nat) (r : StepRecord) : Within engineParts s (s.startTimed i r) := by
  unfold State.startTimed
  dsimp only
  have h0 : Within engineParts s (s.withEngine { s.engine with index := i }) :=
    .first (State.withEngine_within' (by simp)) (by decide)
  split
  · exact h0.andThen (State.raiseFault_within _ _) (by decide)
  · have h1 := (h0.andThen (State.withEngine_within _ { s.engine with
        index := i, state := .running, holds := .empty }) (by decide)).andThen
      (State.handStepTarget_within _ r (min r.target s.limits.maxFoodTarget)) (by decide)
    refine .ite (fun _ => h1.andThen (State.raiseFault_within _ _) (by decide)) fun _ => ?_
    have h2 := fun u (hu : Within engineParts s u) => (((hu.andThen (State.withEngine_within _ u.engine.noStep) (by decide)).andThen
      (State.clearStepSupervision_within _) (by decide)).andThen (State.clearReference_within _) (by decide)).andThen
      (State.announceStep_within _ r i) (by decide)
    exact .ite (fun _ => (h2 _ h1).andThen (State.decideEntry_within _) (by decide))
      fun _ => ((h2 _ h1).andThen (State.withEngine_within' (by simp)) (by decide)).andThen (State.enterHold_within _ _) (by decide)

theorem State.enterEnding_within (s : State) (o : RecipeOutcome) : Within holdParts s (s.enterEnding o) := by
  unfold State.enterEnding
  dsimp only
  exact ((((Within.first (s.withPool_within _) (by decide)).andThen (State.withEngine_within _ _) (by decide)).andThen
    (State.restOutputs_within _) (by decide)).andThen (State.clearStepSupervision_within _) (by decide)).andThen
    (State.clearReference_within _) (by decide)

theorem State.poolLowTest_within (s : State) (n : Nat) : Within [.pendingSet] s (s.poolLowTest n) := by
  unfold State.poolLowTest
  exact .ite (fun _ => State.raise_within _ _) fun _ => .refl _ s

/-- A step start is a fault, a hold, the end of the recipe or a timed start, after index and pool edits. -/
theorem stepStart_within : ∀ (fuel i : Nat) (s : State), Within engineParts s (stepStart fuel i s)
  | 0, _, s => .refl _ s
  | fuel + 1, i, s => by
    have here : Within engineParts s (s.withEngine { s.engine with index := i }) :=
      .first (State.withEngine_within' (by simp)) (by decide)
    have fault : ∀ c, Within engineParts s ((s.withEngine { s.engine with index := i }).raiseFault c) :=
      fun c => here.andThen (State.raiseFault_within _ _) (by decide)
    unfold stepStart
    refine .ite (fun _ => .first (s.raiseFault_within _) (by decide)) fun _ => ?_
    dsimp only
    split
    · exact .first (s.enterStarved_within i) (by decide)
    · exact .ite (fun _ => fault _) fun _ => .ite (fun _ => fault _) fun _ =>
        ((here.andThen (State.withPool_within _ _) (by decide)).andThen (State.poolLowTest_within _ _) (by decide)).trans
          (stepStart_within fuel _ _)
    · split
      · exact fault _
      · exact .ite (fun _ => (here.andThen (State.withPool_within _ _) (by decide)).trans (stepStart_within fuel _ _))
          fun _ => (here.andThen (State.withPool_within _ _) (by decide)).trans (stepStart_within fuel _ _)
      · exact fault _
      · exact fault _
    · exact here.andThen (State.enterEnding_within _ _) (by decide)
    all_goals exact s.startTimed_within i _

theorem State.startStep_within (s : State) (i : Nat) : Within engineParts s (s.startStep i) := stepStart_within _ i s

theorem State.endStep_within (s : State) (o : StepOutcome) : Within engineParts s (s.endStep o) :=
  (((Within.first (s.withEngine_within _) (by decide)).andThen (State.clearStepSupervision_within _) (by decide)).andThen
    (State.clearReference_within _) (by decide)).trans (State.startStep_within _ _)

theorem State.restoreHeld_within (s : State) (h : HeldRecord) :
    Within [.engineState, .engine, .reference, .heater] s (s.restoreHeld h) := by
  have hw : ∀ u : State, Within [.reference] u (u.withWeigh { u.weigh with addReference := h.addReference }) := by
    intro u p hp; cases p <;> simp_all [Part.same]
  exact ((Within.first (s.withEngine_within _) (by decide)).andThen (hw _) (by decide)).andThen (State.withReg_within (by simp)) (by decide)

theorem State.resume_within (s : State) : Within engineParts s s.resume := by
  unfold State.resume
  have hp : Within engineParts s (s.withPool s.pool.restore) := .first (s.withPool_within _) (by decide)
  split
  · exact (hp.andThen (State.withEngine_within _ _) (by decide)).trans (State.startStep_within _ _)
  · next slot held _ hc =>
    have h := hp.andThen (State.restoreHeld_within _ held) (by decide)
    exact .ite (fun _ => h.andThen (State.raiseFault_within _ _) (by decide)) fun _ =>
      (h.andThen (State.restoreStir_within _ _) (by decide)).andThen (State.decideEntry_within _) (by decide)
  all_goals exact .first (s.raiseFault_within _) (by decide)

theorem State.keepHolds_within (s : State) (h : Holds) : Within engineParts s (s.keepHolds h) := by
  unfold State.keepHolds
  have he : Within engineParts s (s.withEngine { s.engine with holds := h }) :=
    .first (State.withEngine_within' (by simp)) (by decide)
  exact .ite (fun _ => .refl _ s) fun _ => .ite (fun _ => he.trans (State.resume_within _))
    fun _ => he.andThen (State.heldOutputs_within _) (by decide)

theorem State.clearFault_within (s : State) : Within holdParts s s.clearFault :=
  ((Within.first (s.withPool_within _) (by decide)).andThen (State.withEngine_within _ _) (by decide)).andThen (State.restOutputs_within _) (by decide)

theorem State.leaveEnding_within (s : State) :
    Within [.engineState, .engine, .heater, .stir, .lock, .pendingSet] s s.leaveEnding :=
  ((Within.first (s.withEngine_within _) (by decide)).andThen (State.restOutputs_within _) (by decide)).andThen (State.raise_within _ _) (by decide)

theorem State.lockEngaged_latch (s : State) (w : Bool) : (s.lockEngaged w).lock.latch = .engage := by
  have h : ∀ u : State, u.lock.latch = .engage → (if u.inEntry = true then u.enterActive else u).lock.latch = .engage := by
    intro u hu
    split
    · exact (Part.lock_latch (u.enterActive_within .lock (by decide))).trans hu
    · exact hu
  exact h _ ((State.setLockState_latch _ _).trans (s.setLatch_latch .engage))

theorem State.lockEngaged_within (s : State) (w : Bool) : Within [.engine, .stir, .lock] s (s.lockEngaged w) := by
  refine Within.latched ?_ (by rw [s.lockEngaged_latch]; decide)
  unfold State.lockEngaged
  dsimp only
  have h : Within [.latch, .engine, .stir, .lock] s _ := ((Within.first (s.setLatch_within .engage) (by decide)).andThen
    (State.withLock_within (x := { (s.setLatch .engage).lock with releaseWait := w }) (by simp)) (by decide)).andThen
    (State.setLockState_within _ .engaged) (by decide)
  exact .ite (fun _ => h.andThen (State.enterActive_within _) (by decide)) fun _ => h

end Sys2Proof.Machine
end

