-- ==== Sys2Proof/Proofs/Acts.lean ====
section
/-! The acts of the block: the engine's, lock controller's and stir drive's operations as units, and any change outside
engine state, pool, stir drive and lock. Every event of the block is a row of acts, so that an invariant is proved once
for each act. The index of an act is its footprint. -/

namespace Sys2Proof.Machine

/-- The parts that only the named acts change. -/
abbrev guarded : List Part := [.engineState, .pool, .stir, .lock, .latch]

/-- The stir drive replaced by one that differs in its counts alone. -/
def Stir.countsOnly (x y : Stir) : Prop :=
  { x with phaseElapsed := 0, rampCount := 0, stallRun := 0, overloadRun := 0, blockSum := 0, blockCount := 0, blockSteady := true, torqueCount := 0 }
    = { y with phaseElapsed := 0, rampCount := 0, stallRun := 0, overloadRun := 0, blockSum := 0, blockCount := 0, blockSteady := true, torqueCount := 0 }

/-- One act, with the parts it may change. -/
inductive Act : List Part → State → State → Prop
  /-- A change outside the guarded parts. -/
  | outside {F : List Part} {s t : State} (h : Within F s t) (hF : ∀ p ∈ F, p ∉ guarded) : Act F s t
  | raiseFault (s : State) (c : FaultCode) :
    Act [.engineState, .engine, .reference, .heater, .stir, .lock, .pendingSet] s (s.raiseFault c)
  | addHold (s : State) (r : Holds) : Act holdParts s (s.addHold r)
  | keepHolds (s : State) (h : Holds) : Act engineParts s (s.keepHolds h)
  | endStep {s : State} (o : StepOutcome) (h : s.engine.state = .running) : Act engineParts s (s.endStep o)
  | startStep {s : State} (i : Nat) (h : s.engine.state = .idle) : Act engineParts s (s.startStep i)
  | enterEnding (s : State) (o : RecipeOutcome) : Act holdParts s (s.enterEnding o)
  | clearFault (s : State) : Act holdParts s s.clearFault
  | leaveEnding {s : State} (h : s.engine.state = .ending) :
    Act [.engineState, .engine, .heater, .stir, .lock, .pendingSet] s s.leaveEnding
  | lockEngaged (s : State) (w : Bool) : Act [.engine, .stir, .lock] s (s.lockEngaged w)
  | lockReleased (s : State) : Act [.stir, .lock] s s.lockReleased
  | beginEngage (s : State) : Act [.stir, .lock] s s.beginEngage
  | beginRelease {s : State} (h : s.unlockConditions = true) : Act [.stir, .lock, .latch] s s.beginRelease
  /-- The adoption of RELEASED in UNKNOWN (R137). -/
  | adopt {s : State} (h : s.lock.state = .unknown) :
    Act [.stir, .lock, .latch] s ((s.withLock { s.lock with releaseWait := false }).setLockState .released)
  | lockTimer (s : State) (n : Nat) : Act [.lock] s (s.withLock { s.lock with timer := n })
  | computeTarget (s : State) : Act [.stir] s s.computeTarget
  | endPhase (s : State) : Act [.stir] s s.endPhase
  | rampStep {s : State} (h : s.ramping = true) : Act [.stir] s s.rampStep
  | endReversal (s : State) : Act [.stir] s s.endReversal
  | stirCounts {s : State} {x : Stir} (h : x.countsOnly s.stir) : Act [.stir] s (s.withStir x)
  /-- The overload cap comes into force (R125). -/
  | setCap (s : State) (n : Nat) : Act [.stir, .pendingSet] s
      (((s.withStir { s.stir with overloadRun := 0, overloadCap := some n }).raise .derate).computeTarget)

theorem Act.within {F : List Part} {s t : State} (h : Act F s t) : Within F s t := by
  cases h with
  | outside h _ => exact h
  | raiseFault => exact State.raiseFault_within _ _
  | addHold => exact State.addHold_within _ _
  | keepHolds => exact State.keepHolds_within _ _
  | endStep => exact State.endStep_within _ _
  | startStep => exact State.startStep_within _ _
  | enterEnding => exact State.enterEnding_within _ _
  | clearFault => exact State.clearFault_within _
  | leaveEnding => exact State.leaveEnding_within _
  | lockEngaged => exact State.lockEngaged_within _ _
  | lockReleased => exact State.lockReleased_within _
  | beginEngage => exact State.beginEngage_within _
  | beginRelease => exact State.beginRelease_within _
  | adopt => exact Within.andThen (.first (State.withLock_within (by simp)) (by decide)) (State.setLockState_within _ _) (by decide)
  | lockTimer => exact (State.withLock_within (by simp))
  | computeTarget => exact State.computeTarget_within _
  | endPhase => exact State.endPhase_within _
  | rampStep => exact State.rampStep_within _
  | endReversal => exact State.endReversal_within _
  | stirCounts h =>
    have hs := congrArg Stir.speed h
    have hc := congrArg Stir.current h
    have hr := congrArg Stir.slowRun h
    exact State.withStir_within ⟨hs, hc, hr⟩
  | setCap =>
    exact ((Within.first (State.withStir_within (by simp)) (by decide)).andThen (State.raise_within _ _) (by decide)).andThen (State.computeTarget_within _) (by decide)

/-- A row of acts, each within `F`. -/
inductive Acts (F : List Part) : State → State → Prop
  | refl (s : State) : Acts F s s
  | snoc {u s t : State} {G : List Part} (h : Acts F u s) (a : Act G s t) (hG : G ⊆ F) : Acts F u t

theorem Acts.within {F : List Part} {s t : State} (h : Acts F s t) : Within F s t := by
  induction h with
  | refl => exact .refl _ _
  | snoc _ a hG ih => exact ih.andThen a.within hG

theorem Acts.trans {F : List Part} {s t u : State} (h : Acts F s t) (k : Acts F t u) : Acts F s u := by
  induction k with
  | refl => exact h
  | snoc _ a hG ih => exact ih.snoc a hG

theorem Acts.mono {F G : List Part} {s t : State} (h : Acts G s t) (hG : G ⊆ F) : Acts F s t := by
  induction h with
  | refl => exact .refl _
  | snoc _ a hF ih => exact ih.snoc a (fun p hp => hG (hF hp))

/-- The first row of several. -/
theorem Acts.first {F G : List Part} {s t : State} (h : Acts G s t) (hG : G ⊆ F) : Acts F s t := h.mono hG

/-- A row of acts within a smaller footprint added. -/
theorem Acts.andThen {F G : List Part} {u s t : State} (h : Acts F u s) (k : Acts G s t) (hG : G ⊆ F) :
    Acts F u t := h.trans (k.mono hG)

/-- One act added. -/
theorem Acts.act {F G : List Part} {u s t : State} (h : Acts F u s) (a : Act G s t) (hG : G ⊆ F) :
    Acts F u t := h.snoc a hG

/-- One act. -/
theorem Acts.one {F G : List Part} {s t : State} (a : Act G s t) (hG : G ⊆ F) : Acts F s t :=
  (Acts.refl s).snoc a hG

/-- A change outside the guarded parts. -/
theorem Acts.change {F G : List Part} {s t : State} (h : Within G s t) (hG : G ⊆ F)
    (hF : ∀ p ∈ G, p ∉ guarded) : Acts F s t := .one (.outside h hF) hG

theorem Acts.ite {F : List Part} {u s t : State} {c : Prop} [Decidable c] (h : c → Acts F u s)
    (k : ¬ c → Acts F u t) : Acts F u (if c then s else t) := by
  split
  · next hc => exact h hc
  · next hc => exact k hc

/-! ### Changes of the other blocks -/

@[simp] theorem Weigh.discard_average (w : Weigh) : w.discard.average = w.average := rfl

@[simp] theorem Weigh.discard_gross (w : Weigh) : w.discard.gross = w.gross := rfl

@[simp] theorem Weigh.discard_net (w : Weigh) : w.discard.net = w.net := rfl

@[simp] theorem Weigh.discard_added (w : Weigh) : w.discard.added = w.added := rfl

@[simp] theorem Weigh.discard_tare (w : Weigh) : w.discard.tare = w.tare := rfl

@[simp] theorem Weigh.discard_addReference (w : Weigh) : w.discard.addReference = w.addReference := rfl

/-- The block of the weighing channel, its stability test and its pending tare replaced. -/
theorem State.withWeigh_within {s : State} {x : Weigh} (h : x.average = s.weigh.average ∧ x.gross = s.weigh.gross ∧
    x.net = s.weigh.net ∧ x.added = s.weigh.added ∧ x.tare = s.weigh.tare ∧ x.addReference = s.weigh.addReference) : Within [.block] s (s.withWeigh x) := by
  intro p hp; cases p <;> simp_all [Part.same]

/-- The weighing channel replaced. -/
theorem State.withWeigh_within' (s : State) (x : Weigh) :
    Within [.output, .tare, .shown, .reference, .block] s (s.withWeigh x) := by
  intro p hp; cases p <;> simp_all [Part.same]

/-- The regulator's latched faults replaced. -/
theorem State.withReg_latched_within (s : State) (base board : Bool) :
    Within [] s (s.withReg { s.reg with baseOver := base, boardOver := board }) := by
  intro p hp; cases p <;> simp_all [Part.same]

theorem State.withReg_within' (s : State) (g : Regulator) : Within [.heater, .onCounts, .baseCut] s (s.withReg g) := by
  intro p hp; cases p <;> simp_all [Part.same]

theorem State.withSched_within {s : State} {x : Scheduler} (h : x.mainsPresent = s.sched.mainsPresent) :
    Within [.sched] s (s.withSched x) := by
  intro p hp; cases p <;> simp_all [Part.same]

theorem State.withSched_within' (s : State) (x : Scheduler) : Within [.sched, .mains] s (s.withSched x) := by
  intro p hp; cases p <;> simp_all [Part.same]

theorem State.withChoices_within (s : State) (n : Nat) : Within [.choices] s (s.withChoices n) := by
  intro p hp; cases p <;> simp_all [Part.same]

theorem State.withSteps_within (s : State) (x : Vector StepRecord 256) : Within [.steps] s (s.withSteps x) := by
  intro p hp; cases p <;> simp_all [Part.same]

theorem State.withPatterns_within (s : State) (x : Vector Pattern 16) : Within [.patterns] s (s.withPatterns x) := by
  intro p hp; cases p <;> simp_all [Part.same]

theorem State.withCal_within (s : State) (x : Calibration) : Within [.cal] s (s.withCal x) := by
  intro p hp; cases p <;> simp_all [Part.same]

theorem State.withLimits_within (s : State) (x : Limits) : Within [.limits] s (s.withLimits x) := by
  intro p hp; cases p <;> simp_all [Part.same]

theorem State.handHeat_within (s : State) (h : Heat) : Within [.heatSlot] s (s.handHeat h) := by
  intro p hp; cases p <;> simp_all [Part.same, State.handHeat]

/-- The measured values and the slow run of the stir drive replaced. -/
theorem State.takeMotorValues_within (s : State) (v i : Nat) :
    Within [.measured, .slowRun] s (s.takeMotorValues v i) := by
  intro p hp; cases p <;> simp_all [Part.same, State.takeMotorValues]

theorem State.slowRun_within (s : State) (n : Nat) :
    Within [.slowRun] s (s.withStir { s.stir with slowRun := n }) := by
  intro p hp; cases p <;> simp_all [Part.same]

theorem State.coolDown_within (s : State) (n : Nat) :
    Within [.coolDown] s (s.withLock { s.lock with coolDown := n }) := by
  intro p hp; cases p <;> simp_all [Part.same]

theorem State.withReport_lanes_within {s : State} {x : Report} (h : x.pendingSet = s.report.pendingSet ∧
    x.lastAnnounced = s.report.lastAnnounced) : Within [.lanes] s (s.withReport x) := by
  intro p hp; cases p <;> simp_all [Part.same, Report.isPending]

/-- Agreement counts, candidates and levels of the lines, edges and capture replaced. -/
theorem State.withLines_within {s : State} {x : Lines} (h : x.bindings = s.lines.bindings) :
    Within [.lines, .levels, .edges] s (s.withLines x) := by
  intro p hp; cases p <;> simp_all [Part.same]

/-- The pending edges and the capture record replaced. -/
theorem State.withLines_edges_within (s : State) (e : BitVec 12) (c : Option Capture) (o : Bool) :
    Within [.lines, .edges] s (s.withLines { s.lines with edges := e, capture := c, captureOverrun := o }) := by
  intro p hp
  cases p
  case levels => intro n; cases n <;> rfl
  all_goals simp_all [Part.same]

/-- The agreement counts cleared. -/
theorem State.levelsStalled_within (s : State) : Within [.lines] s s.levelsStalled := by
  intro p hp
  cases p
  case levels => intro n; cases n <;> rfl
  all_goals simp_all [Part.same, State.levelsStalled, Lines.clearCounts]

theorem State.storeBinding_within (s : State) (x : Vector Binding 12) :
    Within [.lines, .bindings] s (s.withLines { s.lines with bindings := x }) := by
  intro p hp
  cases p
  case levels => intro n; cases n <;> rfl
  all_goals simp_all [Part.same]

/-- The last sequence number replaced. -/
theorem State.lastSeq_within (s : State) (n : Option Byte) :
    Within [.intake] s (s.withIntake { s.intake with lastSeq := n }) := by
  intro p hp; cases p <;> simp_all [Part.same]

/-- The parts of the intake that a change of a stream touches. -/
def StreamId.parts : StreamId → List Part
  | .motor => [.intake, .motorLive]
  | .zero => [.intake, .zeroLive]
  | _ => [.intake]

theorem State.setStream_within (s : State) (k : StreamId) (x : Stream) :
    Within k.parts s (s.withIntake (s.intake.setStream k x)) := by
  intro p hp; cases k <;> cases p <;> simp_all [Part.same, Intake.setStream, StreamId.parts]

theorem State.stalled_within (s : State) (k : StreamId) (x : Stream) :
    Within k.parts s (s.withIntake { s.intake.setStream k x with lastSeq := none }) := by
  intro p hp; cases k <;> cases p <;> simp_all [Part.same, Intake.setStream, StreamId.parts]

/-- A change of a stream's time alone. -/
theorem State.since_within (s : State) (k : StreamId) (x : Stream) (h : x.live = (s.intake.stream k).live) :
    Within [.intake] s (s.withIntake (s.intake.setStream k x)) := by
  intro p hp; cases k <;> cases p <;> simp_all [Part.same, Intake.setStream, Intake.stream]

theorem State.withChannels_within (s : State) (b f h : Channel) :
    Within [.temperatures, .linTables] s (((s.withBase b).withFood f).withBoard h) := by
  intro p hp; cases p <;> simp_all [Part.same]

/-- A linearization table replaced, the channel's readings kept. -/
theorem State.setLinChannel_within (s : State) (t : LinTable) (x : Channel) (h : x.value = (s.linChannel t).value ∧
    x.faulted = (s.linChannel t).faulted) : Within [.linTables] s (s.setLinChannel t x) := by
  intro p hp
  cases t <;> cases p <;> simp_all [Part.same, State.setLinChannel, State.linChannel]

/-- The interface replaced, queue, rehearsal, permission and supervision period kept. -/
theorem State.withCtl_watch_within {s : State} {x : Control} (h : x.queue = s.ctl.queue ∧
    x.rehearsal = s.ctl.rehearsal ∧ x.permission = s.ctl.permission ∧ x.period = s.ctl.period) : Within [.ctl] s (s.withCtl x) := by
  intro p hp; cases p <;> simp_all [Part.same]

theorem State.setReceiver_within (s : State) (rx : Rx) (x : Receiver) : Within [.receivers] s (s.setReceiver rx x) := by
  intro p hp; cases rx <;> cases p <;> simp_all [Part.same, State.setReceiver]

/-- The refresh timers and marks of the drive output replaced. -/
theorem State.withDrive_refresh_within {s : State} {x : Drive} (h : x.heat = s.drive.heat ∧
    x.spinSpeed = s.drive.spinSpeed ∧ x.spinDirection = s.drive.spinDirection ∧ x.latch = s.drive.latch ∧
    x.passQueue = s.drive.passQueue ∧ x.sending = s.drive.sending) :
    Within [.refresh] s (s.withDrive x) := by
  intro p hp; cases p <;> simp_all [Part.same]

theorem State.withDrive_passQueue_within (s : State) (q : List (List Byte)) :
    Within [.passQueue] s (s.withDrive { s.drive with passQueue := q }) := by
  intro p hp; cases p <;> simp_all [Part.same]

/-! ### The lock controller's events -/

abbrev lockParts : List Part := [.engine, .stir, .lock, .latch]

theorem State.judgeLock_acts (s : State) : Acts lockParts s s.judgeLock := by
  unfold State.judgeLock
  split
  · refine .ite (fun h => ?_) fun _ => .refl s
    have hu : s.unlockConditions = true := by simp_all
    exact .one (.beginRelease hu) (by decide)
  · exact .ite (fun _ => .refl s) fun _ => .one (.lockEngaged s _) (by decide)
  all_goals exact .refl s

theorem State.lockedRises_acts (s : State) : Acts lockParts s s.lockedRises := by
  unfold State.lockedRises
  split
  iterate 3 exact .one (.lockEngaged s _) (by decide)
  all_goals exact .refl s

abbrev faultParts : List Part := [.engineState, .engine, .reference, .heater, .stir, .lock, .pendingSet]

theorem State.lockedFalls_acts (s : State) : Acts (.latch :: faultParts) s s.lockedFalls := by
  unfold State.lockedFalls
  split
  · next h =>
    exact .ite (fun _ => (Acts.one (.adopt h) (by decide)).act (.beginEngage _) (by decide)) fun _ => .one (.adopt h) (by decide)
  · exact .ite (fun _ => (Acts.one (.lockReleased s) (by decide)).act (.raiseFault _ _) (by decide)) fun _ => .one (.lockReleased s) (by decide)
  · exact .ite (fun _ => (Acts.one (.lockReleased s) (by decide)).act (.beginEngage _) (by decide)) fun _ => .one (.lockReleased s) (by decide)
  all_goals exact .refl s

theorem State.raise_acts (s : State) (n : Notice) : Acts [.pendingSet] s (s.raise n) := .change (s.raise_within n) (by decide) (by decide)

theorem State.engageTimedOut_acts (s : State) : Acts faultParts s s.engageTimedOut := by
  unfold State.engageTimedOut
  exact .ite (fun _ => (Acts.one (.lockReleased s) (by decide)).act (.raiseFault _ _) (by decide)) fun _ => .one (.lockReleased s) (by decide)

theorem State.releaseTimedOut_acts (s : State) : Acts faultParts s s.releaseTimedOut :=
  (Acts.first (s.raise_acts _) (by decide)).act (.lockEngaged _ _) (by decide)

theorem State.heatReport_acts (s : State) : Acts (.coolDown :: lockParts) s s.heatReport :=
  (Acts.change (s.coolDown_within 0) (by decide) (by decide)).andThen (State.judgeLock_acts _) (by decide)

/-! ### Holds -/

theorem State.dropSensor_acts (s : State) : Acts engineParts s s.dropSensor :=
  .ite (fun _ => .refl s) fun _ => .one (.keepHolds s _) (by decide)

theorem State.unpause_acts (s : State) : Acts engineParts s s.unpause :=
  .ite (fun _ => .one (.keepHolds s _) (by decide)) fun _ => .refl s

theorem State.endStepEdge_acts (s : State) : Acts engineParts s s.endStepEdge := by
  unfold State.endStepEdge
  refine .ite (fun h => ?_) fun _ => .refl s
  have hr : s.engine.state = .running := by simp_all
  exact .one (.endStep _ hr) (by decide)

/-! ### Line events -/

theorem State.fixedRise_acts (s : State) (n : LineId) : Acts (.latch :: engineParts) s (s.fixedRise n) := by
  cases n
  case lid => exact .one (.keepHolds s _) (by decide)
  case locked => exact .first s.lockedRises_acts (by decide)
  case bowl => exact .one (.keepHolds s _) (by decide)
  case cutout => exact .one (.raiseFault s _) (by decide)
  all_goals exact .refl s

theorem State.fixedFall_acts (s : State) (n : LineId) : Acts (.latch :: engineParts) s (s.fixedFall n) := by
  cases n
  case lid => exact .ite (fun _ => .one (.raiseFault s _) (by decide)) fun _ => .one (.addHold s _) (by decide)
  case locked => exact .first s.lockedFalls_acts (by decide)
  case bowl => exact .one (.addHold s _) (by decide)
  all_goals exact .refl s

/-- The parts that an edge of a line changes. -/
abbrev edgeParts : List Part := .lines :: .edges :: .latch :: engineParts

theorem State.takeCapture_acts (s : State) (n : LineId) (falling : Bool) :
    Acts edgeParts s (s.takeCapture n falling) :=
  (Acts.change (s.withLines_edges_within _ _ _) (by decide) (by decide)).andThen (State.raise_acts _ _) (by decide)

theorem State.boundAction_acts (s : State) (a : Action) (n : LineId) (falling : Bool) :
    Acts edgeParts s (s.boundAction a n falling) := by
  have hr : Acts edgeParts s (s.raise .edge) := .first (s.raise_acts _) (by decide)
  cases a
  case none => exact .refl s
  case notify => exact hr
  case pause => exact hr.act (.addHold _ _) (by decide)
  case resume => exact hr.andThen (State.unpause_acts _) (by decide)
  case endStep => exact hr.andThen (State.endStepEdge_acts _) (by decide)
  case capture => exact hr.andThen (State.takeCapture_acts _ n falling) (by decide)

theorem State.boundEdge_acts (s : State) (n : LineId) (falling : Bool) : Acts edgeParts s (s.boundEdge n falling) :=
  .ite (fun _ => (Acts.change (s.withLines_edges_within _ _ _) (by decide) (by decide)).andThen (State.boundAction_acts _ _ n falling) (by decide))
    fun _ => .refl s

theorem State.rise_acts (s : State) (n : LineId) : Acts edgeParts s (s.rise n) :=
  (Acts.first (s.fixedRise_acts n) (by decide)).andThen (State.boundEdge_acts _ n false) (by decide)

theorem State.fall_acts (s : State) (n : LineId) : Acts edgeParts s (s.fall n) :=
  (Acts.first (s.fixedFall_acts n) (by decide)).andThen (State.boundEdge_acts _ n true) (by decide)

theorem State.accepted_acts (s : State) (n : LineId) (was : Level) (sample : Bool) :
    Acts edgeParts s (s.accepted n was sample) := by
  unfold State.accepted
  split
  · exact s.rise_acts n
  · exact s.fall_acts n
  · exact .refl s
  · exact .ite (fun _ => .first s.lockedFalls_acts (by decide)) fun _ => .refl s

theorem Lines.setLine_bindings (l : Lines) (n : LineId) (x : Line) : (l.setLine n x).bindings = l.bindings := by
  cases n <;> rfl

theorem State.sampleLine_acts (s : State) (n : LineId) (sample : Bool) :
    Acts (.levels :: edgeParts) s (s.sampleLine n sample) := by
  have h : ∀ x, Acts (.levels :: edgeParts) s (s.withLines (s.lines.setLine n x)) := fun x =>
    .change (State.withLines_within (Lines.setLine_bindings _ n x)) (by decide) (by decide)
  exact .ite (fun _ => (h _).andThen (State.accepted_acts _ n _ sample) (by decide)) fun _ => h _

theorem State.levelsSample_acts (s : State) (levels : Byte) : Acts (.levels :: edgeParts) s (s.levelsSample levels) := by
  have h : ∀ (ns : List LineId) (u : State), Acts (.levels :: edgeParts) u
      (ns.foldl (fun s n => s.sampleLine n (levels.getLsbD n.number)) u) := by
    intro ns
    induction ns with
    | nil => exact fun u => .refl u
    | cons n ns ih => exact fun u => (u.sampleLine_acts n _).trans (ih _)
  exact h _ s

/-! ### The weighing channel -/

/-- The parts that a WEIGH sample changes. -/
abbrev weighParts : List Part := .output :: .tare :: .shown :: .block :: engineParts

theorem State.judgeFill_acts (s : State) (h : s.engine.state = .running) : Acts engineParts s s.judgeFill := by
  unfold State.judgeFill
  have hr : ∀ u : State, u.engine.state = .running → Acts engineParts s u → Acts engineParts s (u.endStep .completed) :=
    fun u hu ha => ha.act (.endStep _ hu) (by decide)
  refine .ite (fun _ => ?_) fun _ => .refl s
  dsimp only
  split
  · exact hr _ h (.first (s.raise_acts _) (by decide))
  · exact hr _ h (.refl s)

theorem State.running_of_active {s : State} (h : s.active = true) : s.engine.state = .running := by
  simp_all [State.active]

theorem State.formWeight_acts (s : State) (raw : Int) : Acts weighParts s (s.formWeight raw) := by
  unfold State.formWeight
  dsimp only
  generalize (if (s.inAddRef && _) = true then _ else _ : Weigh) = w
  have hw : Acts weighParts s (s.withWeigh (w.report raw)) := .change (s.withWeigh_within' _) (by decide) (by decide)
  have hv : Acts weighParts s (if (s.inAddRef && ((s.weigh.judgeStable s.cal (clampWeight raw)).takeTare
      (clampWeight raw)).stable) = true then (s.withWeigh (w.report raw)).withEngine
        { (s.withWeigh (w.report raw)).engine with sub := .addFill } else s.withWeigh (w.report raw)) :=
    .ite (fun _ => hw.andThen (G := [.engine]) (.change (State.withEngine_within' (by simp)) (by decide) (by decide)) (by decide)) fun _ => hw
  refine .ite (fun hf => hv.andThen (State.judgeFill_acts _ ?_) (by decide)) fun _ => hv
  have hs : s.engine.state = .running := State.running_of_active (by simp_all [State.inAddFill])
  split <;> exact hs

theorem State.formOutput_acts (s : State) (sum : Int) : Acts weighParts s (s.formOutput sum) := by
  unfold State.formOutput
  dsimp only
  have hw : ∀ u x, Acts weighParts u (u.withWeigh x) := fun u x => .change (u.withWeigh_within' _) (by decide) (by decide)
  exact .ite (fun _ => (hw s _).trans (hw _ _)) fun _ => (hw s _).trans (State.formWeight_acts _ _)

theorem State.takeSample_acts (s : State) (r : Int) : Acts weighParts s (s.takeSample r) := by
  unfold State.takeSample
  have hw : ∀ x, Acts weighParts s (s.withWeigh x) := fun x => .change (s.withWeigh_within' _) (by decide) (by decide)
  exact .ite (fun _ => hw _) fun _ => .ite (fun _ => s.formOutput_acts _) fun _ => hw _

theorem State.weighSample_acts (s : State) (r : Int) : Acts weighParts s (s.weighSample r) := by
  unfold State.weighSample
  have hw : ∀ x, Acts weighParts s (s.withWeigh x) := fun x => .change (s.withWeigh_within' _) (by decide) (by decide)
  exact .ite (fun _ => .ite (fun _ => .refl s) fun _ => hw _) fun _ => (hw _).trans (State.takeSample_acts _ r)

end Sys2Proof.Machine
end

