-- ==== Sys2Proof/Proofs/EventActs.lean ====
section
/-! The acts of the sample kinds, of the stalls, of the timers and of the requests. -/

namespace Sys2Proof.Machine

/-! ### The thermal regulator -/

theorem State.sampleChannels_within (s : State) (b f h : Nat) :
    Within [.temperatures, .linTables, .pendingSet] s (s.sampleChannels b f h) := by
  have hw := fun x y z => s.withChannels_within x y z
  exact .ite (fun _ => (Within.first (hw _ _ _) (by decide)).andThen (State.raise_within _ _) (by decide)) fun _ => .first (hw _ _ _) (by decide)

theorem State.temperatureFaults_acts (s : State) (foodFell : Bool) :
    Acts faultParts s (s.temperatureFaults foodFell) := by
  unfold State.temperatureFaults
  dsimp only
  have h0 : Acts faultParts s (s.withReg { s.reg with baseOver := s.baseOverNow, boardOver := s.boardOverNow }) :=
    .change (s.withReg_latched_within _ _) (by decide) (by decide)
  have fault : ∀ (c : Prop) [Decidable c] (u : State) (k : FaultCode), Acts faultParts s u →
      Acts faultParts s (if c then u.raiseFault k else u) := fun c _ u k hu =>
    .ite (fun _ => hu.act (.raiseFault u k) (by decide)) fun _ => hu
  exact fault _ _ _ (fault _ _ _ (fault _ _ _ h0))

theorem State.judgeReached_acts (s : State) : Acts engineParts s s.judgeReached := by
  unfold State.judgeReached
  refine .ite (fun h => ?_) fun _ => .refl s
  have hr : s.engine.state = .running := State.running_of_active (by simp_all)
  have he : Acts engineParts s (s.withEngine { s.engine with
      reached := true, sub := if s.engine.sub = .approach then .reached else s.engine.sub }) :=
    .change (State.withEngine_within' (by simp)) (by decide) (by decide)
  exact .ite (fun _ => he.act (.endStep _ hr) (by decide)) fun _ => he

/-- The parts of the state that a TEMP sample changes. -/
abbrev tempParts : List Part := .temperatures :: .linTables :: .latch :: engineParts

theorem State.tempSample_acts (s : State) (b f h : Nat) : Acts tempParts s (s.tempSample b f h) :=
  ((((Acts.change (s.sampleChannels_within b f h) (by decide) (by decide)).andThen (State.temperatureFaults_acts _ _) (by decide)).andThen
    (State.judgeReached_acts _) (by decide)).act (.computeTarget _) (by decide)).andThen (State.judgeLock_acts _) (by decide)

theorem State.rampSecondExpires_acts (s : State) : Acts [.heater] s s.rampSecondExpires := by
  have h : ∀ g : Regulator, g.rampSecond.lastK = g.lastK ∧ g.rampSecond.kB = g.kB ∧ g.rampSecond.kS = g.kS ∧
      g.rampSecond.boardDerate = g.boardDerate ∧ g.rampSecond.baseCut = g.baseCut := by
    intro g; unfold Regulator.rampSecond; dsimp only; split <;> exact ⟨rfl, rfl, rfl, rfl, rfl⟩
  exact .ite (fun _ => .change (State.withReg_within (h s.reg)) (by decide) (by decide)) fun _ => .refl s

/-- The parts that a frame end changes. -/
abbrev frameParts : List Part := [.heater, .onCounts, .baseCut, .sched, .pendingSet]

theorem State.frameEnd_within (s : State) : Within frameParts s s.frameEnd := by
  unfold State.frameEnd
  dsimp only
  have h : ∀ g : Regulator, Within frameParts s ((s.withReg g).withSched
      { (s.withReg g).sched with kB := min s.nextK s.allowance, kS := min (s.nextK - min s.nextK s.allowance) s.limits.windowS }) :=
    fun g => (Within.first (s.withReg_within' g) (by decide)).andThen (State.withSched_within (by simp)) (by decide)
  exact .ite (fun _ => (h _).andThen (State.raise_within _ _) (by decide)) fun _ => h _

theorem State.frameEnd_acts (s : State) : Acts frameParts s s.frameEnd := .change s.frameEnd_within (by decide) (by decide)

/-! ### The cycle scheduler -/

/-- The parts that a HEAT frame handed changes. -/
abbrev heatParts : List Part := .sched :: .heatSlot :: .coolDown :: lockParts

/-- A HEAT frame handed over, before it is reported. -/
theorem State.handLastHeat_within (s : State) (h : Heat) :
    Within [.sched, .heatSlot] s ((s.withSched { s.sched with lastHeat := h }).handHeat h) :=
  (Within.first (State.withSched_within (by simp)) (by decide)).andThen (State.handHeat_within _ h) (by decide)

theorem State.giveHeat_acts (s : State) (h : Heat) : Acts heatParts s (s.giveHeat h) := by
  have h0 : Acts heatParts s _ := .change (s.handLastHeat_within h) (by decide) (by decide)
  exact .ite (fun _ => h0.andThen (State.heatReport_acts _) (by decide)) fun _ => h0

abbrev cycleParts : List Part := heatParts ++ frameParts

theorem State.cycleEvent_acts (s : State) : Acts cycleParts s s.cycleEvent := by
  have h0 : Acts cycleParts s (s.withSched { s.sched with position := (s.sched.position + 1) % s.limits.frameLength }) :=
    .change (State.withSched_within (by simp)) (by decide) (by decide)
  have h1 : Acts cycleParts s _ := .ite (c := (s.sched.position + 1) % s.limits.frameLength = 0)
    (fun _ => h0.andThen (State.frameEnd_acts _) (by decide)) fun _ => h0
  exact h1.andThen (State.giveHeat_acts _ _) (by decide)

/-- The parts that a ZERO mark changes. -/
abbrev zeroParts : List Part := .mains :: .choices :: .pool :: .reference :: .announced :: .engineState :: cycleParts

theorem State.mainsReturn_acts (s : State) : Acts zeroParts s s.mainsReturn := by
  unfold State.mainsReturn
  dsimp only
  have h0 : Acts zeroParts s (s.withSched { s.sched with mainsPresent := true, position := 0 }) :=
    .change (s.withSched_within' _) (by decide) (by decide)
  have hf : ∀ u : State, Acts zeroParts s u → Acts zeroParts s u.frameEnd.cycleHeat := fun u hu =>
    (hu.andThen u.frameEnd_acts (by decide)).andThen (State.giveHeat_acts _ _) (by decide)
  refine .ite (fun _ => ?_) fun _ => hf _ h0
  have hc := h0.andThen (G := [.choices]) (.change (State.withChoices_within _ (s.choices + 1)) (by decide) (by decide)) (by decide)
  exact .ite (fun _ => hf _ (hc.act (.keepHolds _ _) (by decide))) fun _ => (hf _ hc).act (.keepHolds _ _) (by decide)

theorem State.zeroSample_acts (s : State) : Acts zeroParts s s.zeroSample :=
  .ite (fun _ => .first s.cycleEvent_acts (by decide)) fun _ => s.mainsReturn_acts

/-- The parts that a mains loss changes. -/
abbrev lossParts : List Part := .mains :: .sched :: .heatSlot :: .coolDown :: .latch :: holdParts

theorem State.mainsLost_acts (s : State) : Acts lossParts s s.mainsLost :=
  .ite (fun _ => ((Acts.change (s.withSched_within' _) (by decide) (by decide)).andThen (State.giveHeat_acts _ _) (by decide)).act (.addHold _ _) (by decide))
    fun _ => .refl s

/-! ### The MOTOR sample -/

theorem State.motorReversal_acts (s : State) (v : Nat) : Acts [.stir] s (s.motorReversal v) :=
  .ite (fun _ => .one (.endReversal s) (by decide)) fun _ => .refl s

theorem State.stallTest_acts (s : State) (v : Nat) : Acts faultParts s (s.stallTest v) :=
  .ite (fun _ => .ite (fun _ => .one (.raiseFault s _) (by decide)) fun _ => .one (.stirCounts rfl) (by decide)) fun _ => .one (.stirCounts rfl) (by decide)

theorem State.overloadTest_acts (s : State) (i : Nat) : Acts faultParts s (s.overloadTest i) := by
  unfold State.overloadTest
  refine .ite (fun _ => ?_) fun _ => .one (.stirCounts rfl) (by decide)
  split
  · exact .ite (fun _ => .one (.setCap s _) (by decide)) fun _ => .one (.stirCounts rfl) (by decide)
  · exact .ite (fun _ => .one (.raiseFault s _) (by decide)) fun _ => .one (.stirCounts rfl) (by decide)

theorem State.torqueTest_acts (s : State) (v i : Nat) (h : s.engine.state = .running) :
    Acts engineParts s (s.torqueTest v i) := by
  have hb : ∀ sum steady, Acts engineParts s (s.torqueBlock sum steady) := by
    intro sum steady
    have h0 : Acts engineParts s (s.withStir { s.stir with
        blockSum := 0, blockCount := 0, blockSteady := true,
        torqueCount := if steady && decide ((s.current.amount : Int) ≤ roundDiv sum 16) then s.stir.torqueCount + 1 else 0 }) :=
      .one (.stirCounts rfl) (by decide)
    exact .ite (fun _ => h0.act (.endStep _ h) (by decide)) fun _ => h0
  exact .ite (fun _ => .ite (fun _ => hb _ _) fun _ => .one (.stirCounts rfl) (by decide)) fun _ => .refl s

theorem State.motorTests_acts (s : State) (v i : Nat) : Acts engineParts s (s.motorTests v i) := by
  unfold State.motorTests
  have h1 : Acts engineParts s (if s.active then s.stallTest v else s) :=
    .ite (fun _ => .first (s.stallTest_acts v) (by decide)) fun _ => .refl s
  have h2 := h1.trans (.ite (c := (if s.active then s.stallTest v else s).active = true)
    (fun _ => .first (State.overloadTest_acts _ i) (by decide)) fun _ => .refl _)
  exact h2.trans (.ite (fun h => State.torqueTest_acts _ v i (State.running_of_active h)) fun _ => .refl _)

/-- The motor tests of a state that is not ACTIVE change nothing. -/
theorem State.motorTests_of_not_active {s : State} (h : s.active = false) (v i : Nat) : s.motorTests v i = s := by
  simp [State.motorTests, h]

/-- The stir drive's part of a MOTOR sample keeps the engine of a state that is not ACTIVE. -/
theorem State.motorReversal_engine (s : State) (v : Nat) : (s.motorReversal v).engine = s.engine :=
  (s.motorReversal_acts v).within .engine (by decide)

/-- The parts that a MOTOR sample changes. -/
abbrev motorParts : List Part := .measured :: .slowRun :: .latch :: engineParts

/-- A MOTOR sample up to the lock controller's judgement. -/
def State.motorSampleJudged (s : State) (v i : Nat) : State :=
  let u := ((s.takeMotorValues v i).motorReversal v).motorTests v i
  if decide (s.engine.state = .ending) && decide (v < s.limits.stopThreshold) then u.leaveEnding else u

theorem State.motorSample_eq (s : State) (v i : Nat) :
    s.motorSample v i = (s.motorSampleJudged v i).judgeLock := by
  have h : (((s.takeMotorValues v i).motorReversal v).motorTests v i).limits = s.limits :=
    (((Acts.change (s.takeMotorValues_within v i) (by decide) (by decide)).andThen (State.motorReversal_acts _ v) (by decide)).andThen
      (State.motorTests_acts _ v i) (by decide) : Acts motorParts _ _).within .limits (by decide)
  simp only [State.motorSample, State.motorSampleJudged, h]

theorem State.motorSampleJudged_acts (s : State) (v i : Nat) : Acts motorParts s (s.motorSampleJudged v i) := by
  have h1 : Acts motorParts s ((s.takeMotorValues v i).motorReversal v) :=
    (Acts.change (s.takeMotorValues_within v i) (by decide) (by decide)).andThen (State.motorReversal_acts _ v) (by decide)
  refine .ite (fun he => ?_) fun _ => h1.andThen (State.motorTests_acts _ v i) (by decide)
  have hs : ((s.takeMotorValues v i).motorReversal v).engine.state = .ending := by
    rw [State.motorReversal_engine]; exact (by simp_all : s.engine.state = .ending)
  rw [State.motorTests_of_not_active (by simp [State.active, hs])]
  exact h1.act (.leaveEnding hs) (by decide)

theorem State.motorSample_acts (s : State) (v i : Nat) : Acts motorParts s (s.motorSample v i) := by
  rw [s.motorSample_eq]
  exact (s.motorSampleJudged_acts v i).andThen (State.judgeLock_acts _) (by decide)

/-! ### The sample intake -/

theorem State.checkSequence_within (s : State) (seq : Byte) :
    Within [.intake, .pendingSet, .block] s (s.checkSequence seq) := by
  have hg : ∀ u : State, Within [.intake, .pendingSet, .block] s u →
      Within [.intake, .pendingSet, .block] s (u.withIntake { u.intake with lastSeq := some seq }) :=
    fun u hu => hu.andThen (u.lastSeq_within _) (by decide)
  have hs : Within [.intake, .pendingSet, .block] s (if (match s.intake.lastSeq with
      | none => false | some l => decide (seq ≠ l + 1)) = true then (s.raise .link).weighGap else s) :=
    .ite (fun _ => (Within.first (s.raise_within _) (by decide)).andThen (State.withWeigh_within (by simp)) (by decide)) fun _ => .refl _ s
  exact hg _ hs

/-- The parts that the arrival of a frame of a stream changes, before its sample is delivered. -/
abbrev arrivalParts (k : StreamId) : List Part := k.parts ++ .latch :: engineParts

theorem State.streamArrival_acts (s : State) (k : StreamId) : Acts (arrivalParts k) s (s.streamArrival k) := by
  have h0 : Acts (arrivalParts k) s (s.withIntake (s.intake.setStream k ⟨true, 0⟩)) :=
    .change (s.setStream_within k _) (by simp) (by cases k <;> decide)
  have hE : engineParts ⊆ arrivalParts k := by simp
  refine .ite (fun _ => h0) fun _ => ?_
  have h1 := h0.trans ((State.dropSensor_acts _).mono hE)
  exact .ite (fun _ => h1.andThen (State.judgeLock_acts _) (by cases k <;> decide)) fun _ => h1

/-- The parts that a delivered sample changes. -/
def Sample.parts : Sample → List Part
  | .weigh _ => weighParts
  | .temp _ _ _ => tempParts
  | .motor _ _ => motorParts
  | .levels _ => .levels :: edgeParts
  | .zero => zeroParts

theorem State.deliver_acts (s : State) (x : Sample) : Acts x.parts s (s.deliver x) := by
  cases x
  case weigh r => exact s.weighSample_acts r
  case temp b f h => exact s.tempSample_acts b f h
  case motor v i => exact s.motorSample_acts v i
  case levels l => exact s.levelsSample_acts l
  case zero => exact s.zeroSample_acts

/-- The parts that a frame of a sample changes. -/
def Sample.frameParts (x : Sample) : List Part := .intake :: .pendingSet :: .block :: (arrivalParts x.stream ++ x.parts)

theorem Sample.arrivalParts_subset (x : Sample) : arrivalParts x.stream ⊆ x.frameParts := fun _ hp =>
  .tail _ (.tail _ (.tail _ (List.mem_append_left _ hp)))

theorem Sample.parts_subset (x : Sample) : x.parts ⊆ x.frameParts := fun _ hp =>
  .tail _ (.tail _ (.tail _ (List.mem_append_right _ hp)))

theorem State.takeFrame_acts (s : State) (seq : Byte) (x : Sample) : Acts x.frameParts s (s.takeFrame seq x) := by
  have h0 : Acts x.frameParts s (s.checkSequence seq) := .change (s.checkSequence_within seq) (by simp [Sample.frameParts]) (by decide)
  exact (h0.andThen (State.streamArrival_acts _ x.stream) x.arrivalParts_subset).andThen
    (State.deliver_acts _ x) x.parts_subset

/-- The parts that the stall of a stream changes. -/
def StreamId.stallParts : StreamId → List Part
  | .weigh => .intake :: .block :: holdParts
  | .temp => .intake :: holdParts
  | .motor => .intake :: .motorLive :: .slowRun :: .latch :: holdParts
  | .levels => .intake :: .lines :: holdParts
  | .zero => .intake :: .zeroLive :: lossParts

/-- What the readers of a kind do at its stall. -/
theorem State.stallReaders_acts (s : State) (k : StreamId) : Acts k.stallParts s (s.stallReaders k) := by
  cases k
  case weigh => exact .change (G := [.block]) (State.withWeigh_within (by simp)) (by decide) (by decide)
  case temp => exact .refl s
  case motor => exact (Acts.change (s.slowRun_within 0) (by decide) (by decide)).andThen (State.judgeLock_acts _) (by decide)
  case levels => exact .change s.levelsStalled_within (by decide) (by decide)
  case zero => exact .first s.mainsLost_acts (by decide)

theorem State.stall_acts (s : State) (k : StreamId) : Acts k.stallParts s (s.stall k) := by
  have h0 : Acts k.stallParts s (s.withIntake { s.intake.setStream k ⟨false, k.deadline⟩ with lastSeq := none }) :=
    .change (s.stalled_within k _) (by cases k <;> decide) (by cases k <;> decide)
  have h1 := h0.trans (State.stallReaders_acts _ k)
  exact .ite (fun _ => .ite (fun _ => h1.act (.addHold _ _) (by cases k <;> decide)) fun _ => h1) fun _ => .refl s

/-! ### The timers -/

theorem State.durationExpires_acts (s : State) : Acts engineParts s s.durationExpires :=
  .ite (fun h => .one (.endStep _ (State.running_of_active (by simp_all [State.elapsedRuns]))) (by decide)) fun _ => .refl s

theorem State.limitExpires_acts (s : State) : Acts engineParts s s.limitExpires :=
  .ite (fun h => (Acts.first (s.raise_acts _) (by decide)).act (.endStep _ (State.running_of_active (s := s) (by
    simp_all [State.limitRuns]))) (by decide)) fun _ => .refl s

theorem State.stepTick_acts (s : State) : Acts engineParts s s.stepTick := by
  refine .ite (fun _ => ?_) fun _ => .refl s
  have h0 : Acts engineParts s (s.withEngine { s.engine with
      limitElapsed := min (s.engine.limitElapsed + 1) timerTop
      elapsed := if s.elapsedRuns then min (s.engine.elapsed + 1) timerTop else s.engine.elapsed }) :=
    .change (State.withEngine_within' (by simp)) (by decide) (by decide)
  exact .ite (fun _ => .ite (fun _ => h0.trans (State.durationExpires_acts _)) fun _ => h0)
    fun _ => .ite (fun _ => h0.trans (State.limitExpires_acts _)) fun _ => h0

theorem State.rampTick_acts (s : State) : Acts [.heater] s s.rampTick :=
  .ite (fun _ => .ite (fun _ => s.rampSecondExpires_acts) fun _ => .change (State.withReg_within (by simp)) (by decide) (by decide)) fun _ => .refl s

theorem State.phaseExpires_acts (s : State) : Acts [.stir] s s.phaseExpires :=
  .ite (fun _ => .one (.endPhase s) (by decide)) fun _ => .refl s

theorem State.phaseTick_acts (s : State) : Acts [.stir] s s.phaseTick := by
  unfold State.phaseTick
  split
  · exact .refl s
  · exact .ite (fun _ => .ite (fun _ => s.phaseExpires_acts) fun _ => .one (.stirCounts rfl) (by decide)) fun _ => .refl s

theorem State.stirRampExpires_acts (s : State) : Acts [.stir] s s.stirRampExpires :=
  .ite (fun h => .one (.rampStep h) (by decide)) fun _ => .refl s

theorem State.stirRampTick_acts (s : State) : Acts [.stir] s s.stirRampTick :=
  .ite (fun _ => .ite (fun _ => s.stirRampExpires_acts) fun _ => .one (.stirCounts rfl) (by decide)) fun _ => .refl s

theorem State.engageExpires_acts (s : State) : Acts faultParts s s.engageExpires :=
  .ite (fun _ => (Acts.one (.lockTimer s _) (by decide)).trans (State.engageTimedOut_acts _)) fun _ => .refl s

theorem State.releaseExpires_acts (s : State) : Acts faultParts s s.releaseExpires :=
  .ite (fun _ => (Acts.one (.lockTimer s _) (by decide)).trans (State.releaseTimedOut_acts _)) fun _ => .refl s

theorem State.lockTick_acts (s : State) : Acts faultParts s s.lockTick :=
  .ite (fun _ => .ite (fun _ => s.engageExpires_acts.trans (State.releaseExpires_acts _))
    fun _ => .one (.lockTimer s _) (by decide)) fun _ => .refl s

theorem State.coolDownExpires_acts (s : State) : Acts (.coolDown :: lockParts) s s.coolDownExpires :=
  .ite (fun _ => (Acts.change (s.coolDown_within 600000) (by decide) (by decide)).andThen (State.judgeLock_acts _) (by decide)) fun _ => .refl s

theorem State.coolDownTick_acts (s : State) : Acts (.coolDown :: lockParts) s s.coolDownTick :=
  .ite (fun _ => s.coolDownExpires_acts) fun _ => .change (s.coolDown_within _) (by decide) (by decide)

theorem State.streamTick_acts (s : State) (k : StreamId) : Acts k.stallParts s (s.streamTick k) := by
  refine .ite (fun _ => .ite (fun _ => s.stall_acts k) fun _ => ?_) fun _ => .refl s
  exact .change (s.since_within k _ (by rfl)) (by cases k <;> decide) (by decide)

theorem State.supervisionExpires_acts (s : State) : Acts (.ctl :: faultParts) s s.supervisionExpires :=
  .ite (fun _ => (Acts.change (State.withCtl_watch_within (by simp)) (by decide) (by decide)).act (.raiseFault _ _) (by decide)) fun _ => .refl s

theorem State.quietExpires_acts (s : State) : Acts [.ctl, .pendingSet] s s.quietExpires :=
  .ite (fun _ => (Acts.change (State.withCtl_watch_within (by simp)) (by decide) (by decide)).andThen (State.raise_acts _ _) (by decide)) fun _ => .refl s

theorem State.watchTick_acts (s : State) : Acts (.ctl :: faultParts) s s.watchTick :=
  .ite (fun _ => .ite (fun _ => s.supervisionExpires_acts) fun _ => .change (State.withCtl_watch_within (by simp)) (by decide) (by decide))
    fun _ => .ite (fun _ => .ite (fun _ => .first s.quietExpires_acts (by decide)) fun _ => .change (State.withCtl_watch_within (by simp)) (by decide) (by decide))
      fun _ => .refl s

theorem State.readingExpires_acts (s : State) : Acts [.lanes] s s.readingExpires :=
  .change (State.withReport_lanes_within (by simp)) (by decide) (by decide)

theorem State.readingTick_acts (s : State) : Acts [.lanes] s s.readingTick :=
  .ite (fun _ => s.readingExpires_acts) fun _ => .change (State.withReport_lanes_within (by simp)) (by decide) (by decide)

theorem State.spinRefreshExpires_acts (s : State) : Acts [.refresh] s s.spinRefreshExpires :=
  .ite (fun _ => .change (State.withDrive_refresh_within (by simp)) (by decide) (by decide)) fun _ => .refl s

theorem State.spinTick_acts (s : State) : Acts [.refresh] s s.spinTick :=
  .ite (fun _ => s.spinRefreshExpires_acts) fun _ => .change (State.withDrive_refresh_within (by simp)) (by decide) (by decide)

theorem State.latchRefreshExpires_acts (s : State) : Acts [.refresh] s s.latchRefreshExpires :=
  .ite (fun _ => .change (State.withDrive_refresh_within (by simp)) (by decide) (by decide)) fun _ => .refl s

theorem State.latchTick_acts (s : State) : Acts [.refresh] s s.latchTick :=
  .ite (fun _ => s.latchRefreshExpires_acts) fun _ => .change (State.withDrive_refresh_within (by simp)) (by decide) (by decide)

end Sys2Proof.Machine
end

