-- ==== Sys2Proof/Proofs/RequestActs.lean ====
section
/-! The acts of the requests, each with its footprint, and the footprint of the soft reset. -/

namespace Sys2Proof.Machine

theorem State.answer_within (s : State) (tag : Byte) (st : Status) (content : List Byte) :
    Within [.lanes] s (s.answer tag st content) := (State.withReport_lanes_within (by simp))

theorem State.answer_acts (s : State) (tag : Byte) (st : Status) (content : List Byte) :
    Acts [.lanes] s (s.answer tag st content) := .change (s.answer_within tag st content) (by decide) (by decide)

/-- A request that ends in an answer: BAD_FRAME at a wrong length, else what its taking does. -/
theorem Acts.guarded {F : List Part} {s t : State} {c : Prop} [Decidable c] (hF : [.lanes] ⊆ F) (tag : Byte)
    (st : Status) (k : ¬ c → Acts F s t) : Acts F s (if c then s.answer tag st [] else t) :=
  .ite (fun _ => .first (s.answer_acts tag st []) hF) k

/-! ### Table requests -/

abbrev stepWriteParts : List Part := .steps :: .lanes :: engineParts

theorem takeStepWrite_acts (tag : Byte) (body : List Byte) (s : State) :
    Acts stepWriteParts s (takeStepWrite tag body s) := by
  refine .guarded (by decide) tag _ fun _ => .guarded (by decide) tag _ fun _ => ?_
  split
  · exact .first (s.answer_acts tag _ _) (by decide)
  · next r _ =>
    have h0 := (Acts.change (F := stepWriteParts) (s.withSteps_within (s.steps.setIfInBounds (byteAt body 0) r.stored)) (by decide) (by decide)).andThen
      (State.answer_acts _ tag .ok []) (by decide)
    refine .ite (fun _ => ?_) fun _ => .first (s.answer_acts tag _ _) (by decide)
    exact .ite (fun _ => h0.act (.keepHolds _ _) (by decide)) fun _ => h0

theorem takeStepRead_acts (tag : Byte) (body : List Byte) (s : State) : Acts [.lanes] s (takeStepRead tag body s) :=
  .guarded (by decide) tag _ fun _ => s.answer_acts _ _ _

theorem takeWriteLin_acts (tag : Byte) (t : LinTable) (body : List Byte) (s : State) :
    Acts [.linTables, .lanes] s (takeWriteLin tag t body s) :=
  .guarded (by decide) tag _ fun _ => .guarded (by decide) tag _ fun _ => .guarded (by decide) tag _ fun _ =>
    (Acts.change (s.setLinChannel_within t ((s.linChannel t).writePoint _ _) ⟨rfl, rfl⟩) (by decide) (by decide)).andThen (State.answer_acts _ _ _ _) (by decide)

theorem takeReadLin_acts (tag : Byte) (t : LinTable) (body : List Byte) (s : State) :
    Acts [.lanes] s (takeReadLin tag t body s) :=
  .guarded (by decide) tag _ fun _ => .guarded (by decide) tag _ fun _ => s.answer_acts _ _ _

theorem takeWritePattern_acts (tag : Byte) (body : List Byte) (s : State) :
    Acts [.patterns, .lanes] s (takeWritePattern tag body s) :=
  .guarded (by decide) tag _ fun _ => .guarded (by decide) tag _ fun _ => .guarded (by decide) tag _ fun _ =>
    (Acts.change (s.withPatterns_within _) (by decide) (by decide)).andThen (State.answer_acts _ _ _ _) (by decide)

theorem takeReadPattern_acts (tag : Byte) (body : List Byte) (s : State) :
    Acts [.lanes] s (takeReadPattern tag body s) :=
  .guarded (by decide) tag _ fun _ => .guarded (by decide) tag _ fun _ => s.answer_acts _ _ _

theorem takeWriteBind_acts (tag : Byte) (body : List Byte) (s : State) :
    Acts [.lines, .bindings, .lanes] s (takeWriteBind tag body s) := by
  refine .guarded (by decide) tag _ fun _ => ?_
  split
  · exact .first (s.answer_acts tag _ _) (by decide)
  · exact .guarded (by decide) tag _ fun _ => (Acts.change (s.storeBinding_within _) (by decide) (by decide)).andThen (State.answer_acts _ _ _ _) (by decide)

theorem takeReadBind_acts (tag : Byte) (body : List Byte) (s : State) : Acts [.lanes] s (takeReadBind tag body s) :=
  .guarded (by decide) tag _ fun _ => .guarded (by decide) tag _ fun _ => s.answer_acts _ _ _

abbrev calParts : List Part := [.cal, .block, .lanes]

/-- A calibration record stored, with what follows from it (R82). -/
theorem State.calibrate_acts (s : State) (c : Calibration) : Acts [.cal, .block] s (s.withCal c).calibrationChange :=
  (Acts.change (s.withCal_within c) (by decide) (by decide)).andThen (G := [.block]) (.change (State.withWeigh_within (by simp)) (by decide) (by decide)) (by decide)

theorem takeWriteCal_acts (tag : Byte) (body : List Byte) (s : State) : Acts calParts s (takeWriteCal tag body s) :=
  .guarded (by decide) tag _ fun _ => .guarded (by decide) tag _ fun _ => .guarded (by decide) tag _ fun _ =>
    .ite (fun _ => (Acts.first (s.calibrate_acts _) (by decide)).andThen (State.answer_acts _ _ _ _) (by decide))
      fun _ => .first (s.answer_acts tag _ _) (by decide)

theorem takeReadCal_acts (tag : Byte) (body : List Byte) (s : State) : Acts [.lanes] s (takeReadCal tag body s) :=
  .guarded (by decide) tag _ fun _ => .guarded (by decide) tag _ fun _ => s.answer_acts _ _ _

abbrev limitsParts : List Part := [.limits, .sched, .lines, .lanes]

theorem State.replaceLimits_acts (s : State) (l : Limits) : Acts limitsParts s (s.replaceLimits l) := by
  have h0 : Acts limitsParts s (s.withLimits l) := .change (s.withLimits_within l) (by decide) (by decide)
  have h1 : ∀ u : State, Acts limitsParts s u → Acts limitsParts s
      (if l.layout = s.limits.layout then u else u.withSched { u.sched with position := l.frameLength - 1 }) :=
    fun u hu => .ite (fun _ => hu) fun _ => hu.andThen (G := [.sched]) (.change (State.withSched_within (by simp)) (by decide) (by decide)) (by decide)
  have h2 : ∀ u : State, Acts limitsParts s u → Acts limitsParts s
      (if l.debounce = s.limits.debounce then u else u.withLines u.lines.clearCounts) :=
    fun u hu => .ite (fun _ => hu) fun _ => hu.andThen (G := [.lines]) (.change u.levelsStalled_within (by decide) (by decide)) (by decide)
  have h3 : ∀ u : State, Acts limitsParts s u → Acts limitsParts s
      (if l.readingInterval = s.limits.readingInterval then u else u.withReport { u.report with readingCount := 0 }) :=
    fun u hu => .ite (fun _ => hu) fun _ => hu.andThen (G := [.lanes]) (.change (State.withReport_lanes_within (by simp)) (by decide) (by decide)) (by decide)
  exact h3 _ (h2 _ (h1 _ h0))

theorem takeWriteLimits_acts (tag : Byte) (body : List Byte) (s : State) :
    Acts limitsParts s (takeWriteLimits tag body s) :=
  .guarded (by decide) tag _ fun _ => .guarded (by decide) tag _ fun _ => .guarded (by decide) tag _ fun _ =>
    .ite (fun _ => (s.replaceLimits_acts _).andThen (State.answer_acts _ _ _ _) (by decide))
      fun _ => .first (s.answer_acts tag _ _) (by decide)

theorem takeReadLimits_acts (tag : Byte) (body : List Byte) (s : State) : Acts [.lanes] s (takeReadLimits tag body s) :=
  .guarded (by decide) tag _ fun _ => .guarded (by decide) tag _ fun _ => s.answer_acts _ _ _

theorem takeGetState_acts (tag : Byte) (body : List Byte) (s : State) :
    Acts [.lanes, .choices] s (takeGetState tag body s) :=
  .guarded (by decide) tag _ fun _ =>
    (Acts.first (s.answer_acts _ _ _) (by decide)).andThen (G := [.choices]) (.change (State.withChoices_within _ _) (by decide) (by decide)) (by decide)

theorem takeGetChain_acts (tag : Byte) (body : List Byte) (s : State) : Acts [.lanes] s (takeGetChain tag body s) :=
  .guarded (by decide) tag _ fun _ => s.answer_acts _ _ _

/-! ### DO requests -/

/-- The parts that an engine command changes. -/
abbrev commandParts : List Part := .lanes :: engineParts

theorem takeStart_acts (tag : Byte) (arg : List Byte) (s : State) : Acts commandParts s (takeStart tag arg s) := by
  refine .guarded (by decide) tag _ fun _ => ?_
  by_cases hi : s.engine.state = .idle
  · refine .guarded (by decide) tag _ fun _ => .guarded (by decide) tag _ fun _ => ?_
    exact ((Acts.first (s.answer_acts tag .ok []) (by decide)).andThen (G := [.engine]) (.change (State.withEngine_within' (by simp)) (by decide) (by decide)) (by decide)).act
      (.startStep _ hi) (by decide)
  · exact .guarded (by decide) tag _ fun h => absurd hi h

theorem takePause_acts (tag : Byte) (arg : List Byte) (s : State) : Acts commandParts s (takePause tag arg s) := by
  have h : ∀ st, Acts commandParts s (s.answer tag st []) := fun st => .first (s.answer_acts tag st []) (by decide)
  refine .guarded (by decide) tag _ fun _ => ?_
  split
  iterate 2 exact (h _).act (.addHold _ _) (by decide)
  all_goals exact h _

theorem takeResume_acts (tag : Byte) (arg : List Byte) (s : State) : Acts commandParts s (takeResume tag arg s) := by
  have h : ∀ st, Acts commandParts s (s.answer tag st []) := fun st => .first (s.answer_acts tag st []) (by decide)
  exact .guarded (by decide) tag _ fun _ => .guarded (by decide) tag _ fun _ =>
    .ite (fun _ => (h _).andThen (State.unpause_acts _) (by decide)) fun _ => h _

theorem takeSkip_acts (tag : Byte) (arg : List Byte) (s : State) : Acts commandParts s (takeSkip tag arg s) := by
  have h : ∀ st, Acts commandParts s (s.answer tag st []) := fun st => .first (s.answer_acts tag st []) (by decide)
  refine .guarded (by decide) tag _ fun _ => ?_
  split
  · next hr => exact (h _).act (.endStep _ hr) (by decide)
  all_goals exact h _

theorem takeStop_acts (tag : Byte) (arg : List Byte) (s : State) : Acts commandParts s (takeStop tag arg s) := by
  have h : ∀ st, Acts commandParts s (s.answer tag st []) := fun st => .first (s.answer_acts tag st []) (by decide)
  refine .guarded (by decide) tag _ fun _ => ?_
  split
  iterate 2 exact (h _).act (.enterEnding _ _) (by decide)
  all_goals exact h _

theorem takeExtend_acts (tag : Byte) (arg : List Byte) (s : State) :
    Acts [.steps, .lanes] s (takeExtend tag arg s) := by
  have h : ∀ st, Acts [.steps, .lanes] s (s.answer tag st []) := fun st => .first (s.answer_acts tag st []) (by decide)
  refine .guarded (by decide) tag _ fun _ => ?_
  split
  · exact h _
  · split
    · exact h _
    · exact (Acts.change (s.withSteps_within _) (by decide) (by decide)).andThen (State.answer_acts _ _ _ _) (by decide)

abbrev tareParts : List Part := [.tare, .shown, .block, .lanes]

/-- A tare taken (R79). -/
theorem State.takeTare_within (s : State) :
    Within [.tare, .shown, .block] s (s.withWeigh { s.weigh with tare := s.weigh.gross, tarePending := false, net := 0 }) := by
  intro p hp; cases p <;> simp_all [Part.same]

theorem takeTare_acts (tag : Byte) (arg : List Byte) (s : State) : Acts tareParts s (takeTare tag arg s) :=
  .guarded (by decide) tag _ fun _ => .guarded (by decide) tag _ fun _ =>
    .ite (fun _ => (Acts.change s.takeTare_within (by decide) (by decide)).andThen (State.answer_acts _ _ _ _) (by decide))
      fun _ => (Acts.change (G := [.block]) (State.withWeigh_within (by simp)) (by decide) (by decide)).andThen (State.answer_acts _ _ _ _) (by decide)

theorem takeZeroCal_acts (tag : Byte) (arg : List Byte) (s : State) : Acts calParts s (takeZeroCal tag arg s) :=
  .guarded (by decide) tag _ fun _ => .guarded (by decide) tag _ fun _ => .guarded (by decide) tag _ fun _ =>
    (Acts.first (s.calibrate_acts _) (by decide)).andThen (State.answer_acts _ _ _ _) (by decide)

theorem takeSpanCal_acts (tag : Byte) (arg : List Byte) (s : State) : Acts calParts s (takeSpanCal tag arg s) :=
  .guarded (by decide) tag _ fun _ => .guarded (by decide) tag _ fun _ => .guarded (by decide) tag _ fun _ => .guarded (by decide) tag _ fun _ =>
    .guarded (by decide) tag _ fun _ => .guarded (by decide) tag _ fun _ =>
    (Acts.first (s.calibrate_acts _) (by decide)).andThen (State.answer_acts _ _ _ _) (by decide)

theorem takeClear_acts (tag : Byte) (arg : List Byte) (s : State) : Acts commandParts s (takeClear tag arg s) :=
  .guarded (by decide) tag _ fun _ => .guarded (by decide) tag _ fun _ => .guarded (by decide) tag _ fun _ =>
    (Acts.one (.clearFault s) (by decide)).andThen (State.answer_acts _ _ _ _) (by decide)

abbrev noticeParts : List Part := [.notices, .pendingSet, .ctl, .lanes]

theorem State.clearNotices_within (s : State) (left : BitVec 16) (a : Bool) :
    Within [.notices, .pendingSet] s (s.withReport { s.report with pendingSet := left, announce := a }) := by
  intro p hp; cases p <;> simp_all [Part.same]

theorem takeClearNotices_acts (tag : Byte) (arg : List Byte) (s : State) :
    Acts noticeParts s (takeClearNotices tag arg s) := by
  refine .guarded (by decide) tag _ fun _ => ?_
  have h0 := fun left a => Acts.change (F := noticeParts) (s.clearNotices_within left a) (by decide) (by decide)
  have h1 : ∀ u : State, Acts noticeParts s u → Acts noticeParts s (if (s.report.isPending .link &&
      (BitVec.ofNat 16 (wordAt arg 0)).getLsbD Notice.link.bit) = true then u.withCtl { u.ctl with overrun := false } else u) :=
    fun u hu => .ite (fun _ => hu.andThen (G := [.ctl]) (.change (State.withCtl_watch_within (by simp)) (by decide) (by decide)) (by decide)) fun _ => hu
  exact (h1 _ (h0 _ _)).andThen (State.answer_acts _ _ _ _) (by decide)

theorem takeClearEdges_acts (tag : Byte) (arg : List Byte) (s : State) :
    Acts [.lines, .edges, .lanes] s (takeClearEdges tag arg s) :=
  .guarded (by decide) tag _ fun _ => (Acts.change (s.withLines_edges_within _ _ _) (by decide) (by decide)).andThen (State.answer_acts _ _ _ _) (by decide)

theorem takeClearCapture_acts (tag : Byte) (arg : List Byte) (s : State) :
    Acts [.lines, .edges, .lanes] s (takeClearCapture tag arg s) :=
  .guarded (by decide) tag _ fun _ => (Acts.change (s.withLines_edges_within _ _ _) (by decide) (by decide)).andThen (State.answer_acts _ _ _ _) (by decide)

abbrev superviseParts : List Part := [.ctl, .period, .lanes]

theorem takeSupervise_acts (tag : Byte) (arg : List Byte) (s : State) :
    Acts superviseParts s (takeSupervise tag arg s) := by
  have hw : ∀ n, Within [.ctl, .period] s (s.withCtl { s.ctl with
      supervision := .running, period := n, supervisionCount := 0 }) := by
    intro n p hp; cases p <;> simp_all [Part.same]
  exact .guarded (by decide) tag _ fun _ => .guarded (by decide) tag _ fun _ => (Acts.change (hw _) (by decide) (by decide)).andThen (State.answer_acts _ _ _ _) (by decide)

abbrev rehearseParts : List Part := [.ctl, .rehearsal, .intake, .lanes]

theorem takeRehearse_acts (tag : Byte) (arg : List Byte) (s : State) :
    Acts rehearseParts s (takeRehearse tag arg s) := by
  have hw : ∀ on, Within [.ctl, .rehearsal] s (s.withCtl { s.ctl with rehearsal := on }) := by
    intro on p hp; cases p <;> simp_all [Part.same]
  exact .guarded (by decide) tag _ fun _ => .guarded (by decide) tag _ fun _ => .ite (fun _ => .first (s.answer_acts _ _ _) (by decide)) fun _ =>
    ((Acts.change (hw _) (by decide) (by decide)).andThen (G := [.intake]) (.change (State.lastSeq_within _ _) (by decide) (by decide)) (by decide)).andThen
      (State.answer_acts _ _ _ _) (by decide)

/-! ### The soft reset -/

/-- The parts that the soft reset changes. -/
abbrev resetParts : List Part := [.engineState, .engine, .pool, .reference, .block, .heater, .onCounts, .baseCut, .sched,
  .measured, .slowRun, .stir, .lines, .edges, .lock, .intake, .passQueue, .ctl, .queue, .rehearsal, .notices,
  .pendingSet, .announced, .lanes]

theorem State.lockRequest_release_within (s : State) : Within [.lock] s (s.lockRequest .release) := (State.withLock_within (by simp))

theorem State.softReset_within (s : State) : Within resetParts s s.softReset := by
  have hctl : ∀ c : Control, c.signalGo.permission = c.permission ∧ c.signalGo.period = c.period := by
    intro c
    unfold Control.signalGo Control.placeFlow
    split
    · split
      · exact ⟨rfl, rfl⟩
      · dsimp only; split <;> exact ⟨rfl, rfl⟩
    · exact ⟨rfl, rfl⟩
  have h1 : Within resetParts s (s.withCtl s.ctl.softReset) := by
    intro p hp; cases p <;> simp_all [Part.same, Control.softReset]
  have h2 := (h1.andThen (State.withEngine_within _ .reset) (by decide)).andThen (State.withPool_within _ .rebuilt) (by decide)
  have hw : ∀ u : State, Within [.block, .reference] u (u.withWeigh u.weigh.softReset) := by
    intro u p hp; cases p <;> simp_all [Part.same, Weigh.softReset, Weigh.discard]
  have h3 := ((h2.andThen (hw _) (by decide)).andThen (State.withReg_within' _ .reset) (by decide))
  have h4 := h3.andThen (State.withSched_within (x := { s.sched with kB := 0, kS := 0 }) (by simp)) (by decide)
  have hs : ∀ u : State, Within [.measured, .slowRun, .stir] u (u.withStir u.stir.softReset) := by
    intro u p hp; cases p <;> simp_all [Part.same]
  have h5 := (h4.andThen (hs _) (by decide)).andThen (State.handSpin_within _) (by decide)
  have hl : ∀ u : State, Within [.lines, .edges] u (u.withLines u.lines.softReset) := by
    intro u p hp
    cases p
    case levels => intro n; cases n <;> rfl
    all_goals simp_all [Part.same, Lines.softReset, Lines.clearCounts]
  have h6 := (h5.andThen (hl _) (by decide)).andThen (State.lastSeq_within _ none) (by decide)
  have h7 := h6.andThen (State.withDrive_passQueue_within _ []) (by decide)
  have h8 := fun u (hu : Within resetParts s u) => (hu.andThen
    (State.withLock_within (x := { u.lock with releaseWait := false }) (by simp)) (by decide)).andThen (State.lockRequest_release_within _) (by decide)
  have hr : ∀ u : State, Within [.notices, .pendingSet, .announced, .lanes] u (u.withReport u.report.softReset) := by
    intro u p hp; cases p <;> simp_all [Part.same]
  exact (h8 _ h7).andThen (hr _) (by decide)

theorem takeReset_within (tag : Byte) (arg : List Byte) (s : State) : Within resetParts s (takeReset tag arg s) :=
  .ite (fun _ => .first (s.answer_within tag _ _) (by decide)) fun _ =>
    (s.softReset_within.andThen (State.answer_within _ tag .ok []) (by decide)).andThen (State.withReport_lanes_within (by simp)) (by decide)

end Sys2Proof.Machine
end

