-- ==== Sys2Proof/Proofs/Deeds.lean ====
section
/-! Every step as a row of deeds. A deed is a row of acts that touches nothing an invariant is sensitive to, or one of
the few events that do: a sample frame, a stall, a write to a table, the cool-down, a soft reset, a receiver's change.
`step_keeps` is the induction that each invariant of the block uses. -/

namespace Sys2Proof.Machine

/-- The parts that the invariants depend on and the acts do not guard. -/
abbrev sensitive : List Part := [.temperatures, .slowRun, .coolDown, .motorLive, .limits, .cal, .output, .tare, .shown,
  .steps, .patterns, .mains, .zeroLive, .receivers]

/-- One deed. The flag is true where deeds of the two kinds are admitted that replace the unlock conditions without a
judgement of the lock: a LIMITS write and a soft reset (log 46). -/
inductive Deed (b : Bool) : State → State → Prop
  | acts {F : List Part} {s t : State} (h : Acts F s t) (hF : ∀ p ∈ F, p ∉ sensitive) : Deed b s t
  | frame (s : State) (seq : Byte) (x : Sample) : Deed b s (s.takeFrame seq x)
  | stall (s : State) (k : StreamId) : Deed b s (s.stall k)
  /-- The cool-down count rises. -/
  | coolDown {s : State} {n : Nat} (h : s.lock.coolDown ≤ n) : Deed b s (s.withLock { s.lock with coolDown := n })
  | storeStep {s : State} (i : Nat) {r : StepRecord} (h : (∀ j, (s.step j).valid = true ∧ (s.step j).target ≤ 400) →
      r.valid = true ∧ r.target ≤ 400) : Deed b s (s.storeStep i r)
  | storePattern (s : State) (i : Nat) {p : Pattern} (h : p.valid = true) :
    Deed b s (s.withPatterns (s.patterns.setIfInBounds i p))
  | calibrate {s : State} (c : Calibration) (h : s.engine.state = .idle) : Deed b s (s.withCal c).calibrationChange
  | takeTare (s : State) :
    Deed b s (s.withWeigh { s.weigh with tare := s.weigh.gross, tarePending := false, net := 0 })
  | receiver {s : State} {rx : Rx} {x : Receiver} (h : (s.receiver rx).sound → x.sound) : Deed b s (s.setReceiver rx x)
  | replaceLimits {s : State} {l : Limits} (hb : b = true) (h : s.engine.state = .idle) (hl : l.valid = true) :
    Deed b s (s.replaceLimits l)
  | softReset (s : State) (hb : b = true) : Deed b s s.softReset

/-- A row of deeds. -/
abbrev Deeds (b : Bool) : State → State → Prop := Relation.ReflTransGen (Deed b)

theorem Acts.deeds {b : Bool} {F : List Part} {s t : State} (h : Acts F s t) (hF : ∀ p ∈ F, p ∉ sensitive) :
    Deeds b s t := .single (.acts h hF)

/-- A change outside the guarded and the sensitive parts. -/
theorem Within.deeds {b : Bool} {F : List Part} {s t : State} (h : Within F s t)
    (hG : ∀ p ∈ F, p ∉ guarded) (hF : ∀ p ∈ F, p ∉ sensitive) : Deeds b s t :=
  Acts.deeds (.change h (List.Subset.refl F) hG) hF

theorem Deed.mono {b : Bool} {s t : State} (h : Deed false s t) : Deed b s t := by
  cases h with
  | acts h hF => exact .acts h hF
  | frame => exact .frame _ _ _
  | stall => exact .stall _ _
  | coolDown h => exact .coolDown h
  | storeStep _ h => exact .storeStep _ h
  | storePattern _ _ h => exact .storePattern _ _ h
  | calibrate _ h => exact .calibrate _ h
  | takeTare => exact .takeTare _
  | receiver h => exact .receiver h
  | replaceLimits hb _ _ => exact absurd hb (by decide)
  | softReset _ hb => exact absurd hb (by decide)

theorem Deeds.mono {b : Bool} {s t : State} (h : Deeds false s t) : Deeds b s t :=
  Relation.ReflTransGen.mono (fun _ _ => Deed.mono) _ _ h

/-- An invariant kept by each deed is kept by a row of them. -/
theorem Deeds.keep {b : Bool} {I : State → Prop} (hd : ∀ s t, Deed b s t → I s → I t) {s t : State}
    (h : Deeds b s t) (hI : I s) : I t := by
  induction h with
  | refl => exact hI
  | tail _ d ih => exact hd _ _ d ih

/-! ### Requests -/

theorem StepRecord.stored_valid {r : StepRecord} (h : r.valid = true) : r.stored.valid = true := by
  unfold StepRecord.valid at h ⊢
  cases hk : r.kind <;> simp only [StepRecord.stored, hk] at h ⊢
  case cook =>
    cases hc : r.condition with
    | none => simp_all [StepRecord.validCook]
    | some c => cases c <;> simp_all [StepRecord.validCook]
  case call => simp_all [StepRecord.fieldsAbsent]
  case empty => simp_all [StepRecord.fieldsAbsent]
  case ret => simp_all [StepRecord.fieldsAbsent]
  case finish => simp_all [StepRecord.fieldsAbsent]
  all_goals exact h

/-- An extended record is structurally valid: EXTEND lengthens a duration or a limit that the record has (R14). -/
theorem StepRecord.extended_valid {r x : StepRecord} {n : Nat} (hv : r.valid = true) (h : r.extended n = some x) :
    x.valid = true ∧ x.target = r.target := by
  unfold StepRecord.extended at h
  unfold StepRecord.valid at hv ⊢
  split at h
  · next hc =>
    cases h
    cases hk : r.kind <;> simp only [hk] at hv ⊢
    case cook => simp_all [StepRecord.validCook]
    all_goals simp_all [StepRecord.fieldsAbsent]
  · split at h
    · next hl =>
      cases h
      cases hk : r.kind <;> simp only [hk] at hv ⊢
      case cook =>
        cases hc : r.condition with
        | none => simp_all [StepRecord.validCook]
        | some c => cases c <;> simp_all [StepRecord.validCook]
      all_goals simp_all [StepRecord.fieldsAbsent]
    · cases h

theorem takeStepWrite_deeds {b : Bool} (tag : Byte) (body : List Byte) (s : State) :
    Deeds b s (takeStepWrite tag body s) := by
  have ha : ∀ st, Deeds b s (s.answer tag st []) := fun st => Within.deeds (s.answer_within tag st []) (by decide) (by decide)
  unfold takeStepWrite
  split
  · exact ha _
  · dsimp only
    split
    · exact ha _
    · split
      · exact ha _
      · next r _ =>
        split
        · next hv =>
          refine .head (.storeStep (byteAt body 0) (r := r.stored) fun _ => ⟨StepRecord.stored_valid hv, ?_⟩) ?_
          · exact Nat.min_le_right _ _
          · have h0 : Acts commandParts _ _ := .first (State.answer_acts (s.storeStep (byteAt body 0) r.stored) tag .ok []) (by decide)
            refine Acts.deeds (F := commandParts) ?_ (by decide)
            exact .ite (fun _ => h0.act (.keepHolds _ _) (by decide)) fun _ => h0
        · exact ha _

theorem takeWritePattern_deeds {b : Bool} (tag : Byte) (body : List Byte) (s : State) :
    Deeds b s (takeWritePattern tag body s) := by
  have ha : ∀ st, Deeds b s (s.answer tag st []) := fun st => Within.deeds (s.answer_within tag st []) (by decide) (by decide)
  unfold takeWritePattern
  split
  · exact ha _
  · dsimp only
    split
    · exact ha _
    · split
      · exact ha _
      · next hv => exact .head (.storePattern s _ (by simp_all)) (Within.deeds (State.answer_within _ _ _ _) (by decide) (by decide))

theorem takeWriteCal_deeds {b : Bool} (tag : Byte) (body : List Byte) (s : State) :
    Deeds b s (takeWriteCal tag body s) := by
  have ha : ∀ st, Deeds b s (s.answer tag st []) := fun st => Within.deeds (s.answer_within tag st []) (by decide) (by decide)
  unfold takeWriteCal
  split
  · exact ha _
  · split
    · exact ha _
    · split
      · exact ha _
      · next hi =>
        dsimp only
        split
        · exact .head (.calibrate _ (not_not.1 hi)) (Within.deeds (State.answer_within _ _ _ _) (by decide) (by decide))
        · exact ha _

theorem takeZeroCal_deeds {b : Bool} (tag : Byte) (arg : List Byte) (s : State) :
    Deeds b s (takeZeroCal tag arg s) := by
  have ha : ∀ st, Deeds b s (s.answer tag st []) := fun st => Within.deeds (s.answer_within tag st []) (by decide) (by decide)
  unfold takeZeroCal
  split
  · exact ha _
  · split
    · exact ha _
    · next hi =>
      split
      · exact ha _
      · exact .head (.calibrate _ (not_not.1 hi)) (Within.deeds (State.answer_within _ _ _ _) (by decide) (by decide))

theorem takeSpanCal_deeds {b : Bool} (tag : Byte) (arg : List Byte) (s : State) :
    Deeds b s (takeSpanCal tag arg s) := by
  have ha : ∀ st, Deeds b s (s.answer tag st []) := fun st => Within.deeds (s.answer_within tag st []) (by decide) (by decide)
  unfold takeSpanCal
  split
  · exact ha _
  · split
    · exact ha _
    · next hi =>
      dsimp only
      (repeat' split)
      iterate 4 exact ha _
      exact .head (.calibrate _ (not_not.1 hi)) (Within.deeds (State.answer_within _ _ _ _) (by decide) (by decide))

theorem takeExtend_deeds {b : Bool} (tag : Byte) (arg : List Byte) (s : State) :
    Deeds b s (takeExtend tag arg s) := by
  have ha : ∀ st, Deeds b s (s.answer tag st []) := fun st => Within.deeds (s.answer_within tag st []) (by decide) (by decide)
  unfold takeExtend
  split
  · exact ha _
  · split
    · exact ha _
    · next i _ =>
      split
      · exact ha _
      · next r hr =>
        refine .head (.storeStep i fun hv => ?_) (Within.deeds (State.answer_within _ _ _ _) (by decide) (by decide))
        have hx := StepRecord.extended_valid (hv i).1 hr
        exact ⟨hx.1, hx.2.trans_le (hv i).2⟩

theorem takeTare_deeds {b : Bool} (tag : Byte) (arg : List Byte) (s : State) : Deeds b s (takeTare tag arg s) := by
  have ha : ∀ st, Deeds b s (s.answer tag st []) := fun st => Within.deeds (s.answer_within tag st []) (by decide) (by decide)
  unfold takeTare
  split
  · exact ha _
  · split
    · exact ha _
    · split
      · exact .head (.takeTare s) (Within.deeds (State.answer_within _ _ _ _) (by decide) (by decide))
      · exact Within.deeds (F := [.block, .lanes])
          ((Within.first (State.withWeigh_within (by simp)) (by decide)).andThen (State.answer_within _ _ _ _) (by decide)) (by decide) (by decide)

theorem takeWriteLimits_deeds (tag : Byte) (body : List Byte) (s : State) :
    Deeds true s (takeWriteLimits tag body s) ∧ (takeWriteLimits tag body s).lock.latch = s.lock.latch := by
  refine ⟨?_, ?_⟩
  case refine_2 => exact Part.lock_latch ((takeWriteLimits_acts tag body s).within .lock (by decide))
  have ha : ∀ st, Deeds true s (s.answer tag st []) := fun st => Within.deeds (s.answer_within tag st []) (by decide) (by decide)
  unfold takeWriteLimits
  split
  · exact ha _
  · split
    · exact ha _
    · split
      · exact ha _
      · next hi =>
        dsimp only
        split
        · next hv => exact .head (.replaceLimits rfl (not_not.1 hi) hv) (Within.deeds (State.answer_within _ _ _ _) (by decide) (by decide))
        · exact ha _

theorem State.softReset_latch (s : State) : s.softReset.lock.latch = s.lock.latch := by
  unfold State.softReset State.handSpin
  dsimp only
  rfl

theorem takeReset_deeds (tag : Byte) (arg : List Byte) (s : State) :
    Deeds true s (takeReset tag arg s) ∧ (takeReset tag arg s).lock.latch = s.lock.latch := by
  unfold takeReset
  split
  · exact ⟨Within.deeds (s.answer_within tag _ _) (by decide) (by decide), rfl⟩
  · refine ⟨.head (.softReset s rfl) (Within.deeds (F := [.lanes]) ?_ (by decide) (by decide)), s.softReset_latch⟩
    exact (Within.first (State.answer_within _ tag .ok []) (by decide)).andThen (State.withReport_lanes_within (by simp)) (by decide)

/-- What a request does, as deeds; one that replaces the limits record or resets leaves the latch command. -/
def CarriedOut (s t : State) : Prop := Deeds false s t ∨ (Deeds true s t ∧ t.lock.latch = s.lock.latch)

theorem takeEntryWrite_carriedOut (tag : Byte) (body : List Byte) (s : State) :
    CarriedOut s (takeEntryWrite tag body s) := by
  have ha : CarriedOut s (s.answer tag .badField []) := .inl (Within.deeds (s.answer_within tag _ []) (by decide) (by decide))
  unfold takeEntryWrite takeEntry
  split
  · exact .inl (Within.deeds (s.answer_within tag _ []) (by decide) (by decide))
  · next code rest =>
    split
    iterate 3 exact .inl (Acts.deeds (takeWriteLin_acts tag _ rest s) (by decide))
    · exact .inl (takeWritePattern_deeds tag rest s)
    · exact .inl (Acts.deeds (takeWriteBind_acts tag rest s) (by decide))
    · exact .inl (takeWriteCal_deeds tag rest s)
    · exact .inr (takeWriteLimits_deeds tag rest s)
    · exact ha

theorem takeEntryRead_acts (tag : Byte) (body : List Byte) (s : State) : Acts [.lanes] s (takeEntryRead tag body s) := by
  unfold takeEntryRead takeEntry
  split
  · exact s.answer_acts tag _ _
  · split
    iterate 3 exact takeReadLin_acts tag _ _ s
    · exact takeReadPattern_acts tag _ s
    · exact takeReadBind_acts tag _ s
    · exact takeReadCal_acts tag _ s
    · exact takeReadLimits_acts tag _ s
    · exact s.answer_acts tag _ _

theorem takeDo_carriedOut (tag : Byte) (body : List Byte) (s : State) : CarriedOut s (takeDo tag body s) := by
  unfold takeDo
  split
  · exact .inl (Within.deeds (s.answer_within tag _ []) (by decide) (by decide))
  · next code arg =>
    split
    · exact .inl (Acts.deeds (takeStart_acts tag arg s) (by decide))
    · exact .inl (Acts.deeds (takePause_acts tag arg s) (by decide))
    · exact .inl (Acts.deeds (takeResume_acts tag arg s) (by decide))
    · exact .inl (Acts.deeds (takeSkip_acts tag arg s) (by decide))
    · exact .inl (Acts.deeds (takeStop_acts tag arg s) (by decide))
    · exact .inl (takeExtend_deeds tag arg s)
    · exact .inl (takeTare_deeds tag arg s)
    · exact .inl (takeZeroCal_deeds tag arg s)
    · exact .inl (takeSpanCal_deeds tag arg s)
    · exact .inl (Acts.deeds (takeClear_acts tag arg s) (by decide))
    · exact .inl (Acts.deeds (takeClearNotices_acts tag arg s) (by decide))
    · exact .inl (Acts.deeds (takeClearEdges_acts tag arg s) (by decide))
    · exact .inl (Acts.deeds (takeClearCapture_acts tag arg s) (by decide))
    · exact .inr (takeReset_deeds tag arg s)
    · exact .inl (Acts.deeds (takeSupervise_acts tag arg s) (by decide))
    · exact .inl (Acts.deeds (takeRehearse_acts tag arg s) (by decide))
    · exact .inl (Within.deeds (s.answer_within tag _ []) (by decide) (by decide))

theorem State.raise_deeds {b : Bool} (s : State) (n : Notice) : Deeds b s (s.raise n) := Within.deeds (s.raise_within n) (by decide) (by decide)

theorem State.intakeFrame_deeds {b : Bool} (s : State) (kind : Byte) (payload : List Byte) :
    Deeds b s (s.intakeFrame kind payload) := by
  unfold State.intakeFrame
  split
  · exact s.raise_deeds _
  · exact .single (.frame s _ _)

theorem State.injectFrame_deeds {b : Bool} (s : State) (payload : List Byte) : Deeds b s (s.injectFrame payload) := by
  unfold State.injectFrame
  split
  · split
    · exact s.raise_deeds _
    · exact s.intakeFrame_deeds _ _
  · exact s.raise_deeds _

theorem takeTagged_carriedOut {act : Byte → List Byte → State → State} {s : State}
    (h : ∀ tag body, CarriedOut s (act tag body s)) (payload : List Byte) : CarriedOut s (takeTagged payload act s) := by
  cases payload with
  | nil => exact .inl (s.raise_deeds _)
  | cons tag body => exact h tag body

theorem carryOut_carriedOut (r : Request) (s : State) : CarriedOut s (carryOut r s) := by
  unfold carryOut
  split
  · exact takeTagged_carriedOut (fun tag body => .inl (takeStepWrite_deeds tag body s)) _
  · exact takeTagged_carriedOut (fun tag body => .inl (Acts.deeds (takeStepRead_acts tag body s) (by decide))) _
  · exact takeTagged_carriedOut (fun tag body => takeEntryWrite_carriedOut tag body s) _
  · exact takeTagged_carriedOut (fun tag body => .inl (Acts.deeds (takeEntryRead_acts tag body s) (by decide))) _
  · exact takeTagged_carriedOut (fun tag body => takeDo_carriedOut tag body s) _
  · exact .inl (s.injectFrame_deeds _)
  · exact .inl (Within.deeds (s.withDrive_passQueue_within _) (by decide) (by decide))
  · exact takeTagged_carriedOut (fun tag body => .inl (Acts.deeds (takeGetState_acts tag body s) (by decide))) _
  · exact takeTagged_carriedOut (fun tag body => .inl (Acts.deeds (takeGetChain_acts tag body s) (by decide))) _

/-! ### What follows an event -/

theorem State.picks_within (s : State) : Within [.lanes, .driveSending, .passQueue, .ctl] s s.picks := by
  obtain ⟨d, c, r, h, hd, hc, hq, hr⟩ := s.picks_eq
  simp only [Drive.content, Control.content, Report.content, Drive.mk.injEq, Control.mk.injEq, Report.mk.injEq] at hd hc hr
  rw [h]
  intro p hp
  cases p <;> simp_all [Part.same, Report.isPending]

theorem State.dequeue_within (s : State) (rest : List Request) :
    Within [.ctl, .queue] s (s.withCtl (s.ctl.dequeue rest)) := by
  have h : (s.ctl.dequeue rest).rehearsal = s.ctl.rehearsal ∧ (s.ctl.dequeue rest).permission = s.ctl.permission ∧
      (s.ctl.dequeue rest).period = s.ctl.period := by
    unfold Control.dequeue Control.signalGo Control.placeFlow
    dsimp only
    (repeat' split) <;> exact ⟨rfl, rfl, rfl⟩
  intro p hp; cases p <;> simp_all [Part.same]

theorem settleWith_deeds : ∀ (n : Nat) (s : State), Deeds true s (settleWith n s)
  | 0, s => Within.deeds s.picks_within (by decide) (by decide)
  | n + 1, s => by
    have hp : Deeds true s s.picks := Within.deeds s.picks_within (by decide) (by decide)
    unfold settleWith
    dsimp only
    split
    · exact hp
    · next r rest _ =>
      split
      · refine (hp.trans (Within.deeds (State.dequeue_within _ rest) (by decide) (by decide))).trans (Relation.ReflTransGen.trans ?_
          (settleWith_deeds n _))
        rcases carryOut_carriedOut r (s.picks.withCtl (s.picks.ctl.dequeue rest)) with h | ⟨h, -⟩
        · exact h.mono
        · exact h
      · exact hp

theorem State.settle_deeds (s : State) : Deeds true s s.settle := settleWith_deeds _ s

/-! ### Commands and timers -/

/-- What a command or a timer does before the picks and takings that follow: deeds, with the command queue as it was, or
one request joining its tail and nothing done to the lock. -/
def Event (s u : State) : Prop :=
  Deeds false s u ∧ (u.ctl.queue = s.ctl.queue ∨ ∃ r, u.ctl.queue = s.ctl.queue ++ [r] ∧ u.lock = s.lock)

theorem Acts.event {F : List Part} {s u : State} (h : Acts F s u) (hF : ∀ p ∈ F, p ∉ sensitive)
    (hq : .queue ∉ F) : Event s u := ⟨Acts.deeds h hF, .inl (h.within .queue hq)⟩

theorem Within.event {F : List Part} {s u : State} (h : Within F s u) (hG : ∀ p ∈ F, p ∉ guarded)
    (hF : ∀ p ∈ F, p ∉ sensitive) (hq : .queue ∉ F) : Event s u :=
  ⟨Within.deeds h hG hF, .inl (h .queue hq)⟩

theorem State.takeFrame_queue (s : State) (seq : Byte) (x : Sample) :
    (s.takeFrame seq x).ctl.queue = s.ctl.queue :=
  (s.takeFrame_acts seq x).within .queue (by cases x <;> simp [Sample.frameParts, Sample.parts, Sample.stream,
    StreamId.parts])

theorem State.takeFrame_event (s : State) (seq : Byte) (x : Sample) : Event s (s.takeFrame seq x) :=
  ⟨.single (.frame s seq x), .inl (s.takeFrame_queue seq x)⟩

theorem State.stall_event (s : State) (k : StreamId) : Event s (s.stall k) :=
  ⟨.single (.stall s k), .inl ((s.stall_acts k).within .queue (by cases k <;> decide))⟩

theorem Event.refl (s : State) : Event s s := ⟨.refl, .inl rfl⟩

theorem State.senseSample_event (s : State) (seq : Byte) (x : Sample) : Event s (s.senseSample seq x) := by
  unfold State.senseSample
  split
  · exact .refl s
  · exact s.takeFrame_event seq x

theorem State.senseFrame_event (s : State) (kind : Byte) (payload : List Byte) :
    Event s (s.senseFrame kind payload) := by
  unfold State.senseFrame State.intakeFrame
  split
  · exact .refl s
  · split
    · exact Within.event (s.raise_within _) (by decide) (by decide) (by decide)
    · exact s.takeFrame_event _ _

theorem State.hostSeen_within (s : State) : Within [.ctl] s s.hostSeen :=
  State.withCtl_watch_within ⟨rfl, rfl, rfl, rfl⟩

theorem State.hostFlow_within (s : State) (f : Flow) : Within [.ctl, .permission] s (s.hostFlow f) := by
  intro p hp; cases p <;> simp_all [Part.same, State.hostFlow]

/-- The WAIT mark changes signalled state and flow slot alone. -/
theorem Control.waitMark_keeps (c : Control) : c.waitMark.queue = c.queue ∧ c.waitMark.rehearsal = c.rehearsal ∧
    c.waitMark.permission = c.permission ∧ c.waitMark.period = c.period := by
  unfold Control.waitMark Control.placeFlow
  (repeat' split) <;> exact ⟨rfl, rfl, rfl, rfl⟩

theorem State.enqueue_within (s : State) (r : Request) : Within [.ctl, .queue, .pendingSet] s (s.enqueue r) := by
  have hk := Control.waitMark_keeps { s.ctl with queue := s.ctl.queue ++ [r] }
  refine .ite (fun _ => ?_) fun _ => (Within.first (State.withCtl_watch_within (by simp)) (by decide)).andThen (State.raise_within _ _) (by decide)
  intro p hp; cases p <;> simp_all [Part.same]

theorem State.enqueue_queue (s : State) (r : Request) :
    (s.enqueue r).ctl.queue = s.ctl.queue ∨ (s.enqueue r).ctl.queue = s.ctl.queue ++ [r] := by
  unfold State.enqueue
  split
  · exact .inr (Control.waitMark_keeps _).1
  · exact .inl rfl

theorem State.enqueue_lock (s : State) (r : Request) : (s.enqueue r).lock = s.lock := by
  unfold State.enqueue
  split <;> rfl

theorem State.enqueue_event {s u : State} (h : Event s u) (hl : u.lock = s.lock) (hq : u.ctl.queue = s.ctl.queue)
    (r : Request) : Event s (u.enqueue r) := by
  refine ⟨h.1.trans (Within.deeds (u.enqueue_within r) (by decide) (by decide)), ?_⟩
  rcases u.enqueue_queue r with he | he
  · exact .inl (he.trans hq)
  · exact .inr ⟨r, by rw [he, hq], (u.enqueue_lock r).trans hl⟩

theorem State.hostSeen_event (s : State) : Event s s.hostSeen := Within.event s.hostSeen_within (by decide) (by decide) (by decide)

theorem State.controlFrame_event (s : State) (kind : Byte) (payload : List Byte) :
    Event s (s.controlFrame kind payload) := by
  have hf : ∀ f, Event s (s.hostSeen.hostFlow f) := fun f =>
    Within.event ((Within.first s.hostSeen_within (by decide)).andThen (State.hostFlow_within _ f) (by decide) : Within [.ctl, .permission] s _) (by decide) (by decide) (by decide)
  unfold State.controlFrame
  dsimp only
  split
  · exact hf _
  · split
    · exact hf _
    · split
      · exact State.enqueue_event s.hostSeen_event rfl rfl _
      · exact Within.event ((Within.first s.hostSeen_within (by decide)).andThen (State.raise_within _ _) (by decide) : Within [.ctl, .pendingSet] s _) (by decide) (by decide) (by decide)

/-! ### The receivers -/

/-- A receiver's change before an event of the rest of the block. -/
theorem Event.receiver {s u : State} {rx : Rx} {x : Receiver} (h : Event (s.setReceiver rx x) u)
    (hx : (s.receiver rx).sound → x.sound) : Event s u := by
  have hc : (s.setReceiver rx x).ctl = s.ctl ∧ (s.setReceiver rx x).lock = s.lock := by cases rx <;> exact ⟨rfl, rfl⟩
  rw [Event, hc.1, hc.2] at h
  exact ⟨.head (.receiver hx) h.1, h.2⟩

theorem Receiver.hunting_sound : Receiver.hunting.sound := trivial

theorem State.discardFrame_event (s : State) (rx : Rx) : Event s (s.discardFrame rx) := by
  refine Event.receiver (rx := rx) (x := .hunting) ?_ fun _ => Receiver.hunting_sound
  cases rx
  · exact .refl _
  · exact Within.event (State.raise_within _ _) (by decide) (by decide) (by decide)

theorem State.deliverFrame_event (s : State) (rx : Rx) (f : Frame) : Event s (s.deliverFrame rx f) := by
  cases rx
  · exact s.senseFrame_event _ _
  · exact s.controlFrame_event _ _

theorem State.byteArrives_event (s : State) (rx : Rx) (b : Byte) : Event s (s.byteArrives rx b) := by
  have set : ∀ x : Receiver, ((s.receiver rx).sound → x.sound) → Event s (s.setReceiver rx x) :=
    fun x hx => Event.receiver (.refl _) hx
  unfold State.byteArrives
  dsimp only
  split
  · next hst =>
    refine set _ fun _ => ?_
    split <;> simp_all [Receiver.sound]
  · exact set _ fun _ => trivial
  · split
    · exact s.discardFrame_event rx
    · next hb =>
      refine set _ fun _ => ?_
      by_cases h0 : b.toNat = 0 <;> simp [Receiver.sound, h0]
      omega
  · next hst =>
    refine set _ fun hs => ?_
    simp only [Receiver.sound, hst] at hs
    by_cases hl : (s.receiver rx).length ≤ ((s.receiver rx).payload ++ [b]).length
    · simp only [List.length_append, List.length_cons, List.length_nil] at hl
      simp [Receiver.sound, hl]; omega
    · simp only [List.length_append, List.length_cons, List.length_nil] at hl
      simp [Receiver.sound, hl]; omega
  · split
    · exact Event.receiver (State.deliverFrame_event _ rx _) fun _ => Receiver.hunting_sound
    · exact s.discardFrame_event rx

theorem State.gapTimeout_event (s : State) (rx : Rx) : Event s (s.gapTimeout rx) := by
  unfold State.gapTimeout
  split
  · exact .refl s
  · exact s.discardFrame_event rx

theorem State.gapTick_event (s : State) (rx : Rx) : Event s (s.gapTick rx) := by
  unfold State.gapTick
  dsimp only
  split
  · exact .refl s
  · split
    · exact s.gapTimeout_event rx
    · exact Event.receiver (.refl _) id

/-! ### Every command and every timer -/

theorem State.coolDownExpires_event (s : State) : Event s s.coolDownExpires := by
  refine ⟨?_, .inl (s.coolDownExpires_acts.within .queue (by decide))⟩
  unfold State.coolDownExpires
  split
  · next h => exact .head (.coolDown h.le) (Acts.deeds (State.judgeLock_acts _) (by decide))
  · exact .refl

theorem State.coolDownTick_event (s : State) : Event s s.coolDownTick := by
  unfold State.coolDownTick
  split
  · exact s.coolDownExpires_event
  · exact ⟨.single (.coolDown (Nat.le_succ _)), .inl rfl⟩

theorem State.streamTick_event (s : State) (k : StreamId) : Event s (s.streamTick k) := by
  unfold State.streamTick
  dsimp only
  split
  · split
    · exact s.stall_event k
    · exact Within.event (s.since_within k _ rfl) (by decide) (by decide) (by decide)
  · exact .refl s

theorem State.sendDone_within (s : State) : Within [.refresh, .driveSending] s (s.withDrive s.drive.sendDone) := by
  have hd : ∀ d : Drive, d.sendDone.heat = d.heat ∧ d.sendDone.spinSpeed = d.spinSpeed ∧
      d.sendDone.spinDirection = d.spinDirection ∧ d.sendDone.latch = d.latch ∧ d.sendDone.passQueue = d.passQueue := by
    intro d; unfold Drive.sendDone; split <;> exact ⟨rfl, rfl, rfl, rfl, rfl⟩
  obtain ⟨h1, h2, h3, h4, h5⟩ := hd s.drive
  intro p hp; cases p <;> simp_all [Part.same]

/-- Every command but the power-on reset is an event and what follows it. -/
theorem exec_event (c : Instr) (hc : c ≠ .powerOnReset) (s : State) :
    ∃ u, exec c s = .next u.settle ∧ Event s u := by
  have hq : ∀ kind payload, ∃ u, (.next (s.request kind payload) : Host.Outcome State Fault Refusal) = .next u.settle ∧
      Event s u := fun kind payload => ⟨_, rfl, State.enqueue_event (.refl s) rfl rfl ⟨kind, payload⟩⟩
  cases c with
  | powerOnReset => exact absurd rfl hc
  | frameDiscard rx => exact ⟨_, rfl, s.discardFrame_event rx⟩
  | receiverGapTimeout rx => exact ⟨_, rfl, s.gapTimeout_event rx⟩
  | sampleFormDiscard kind payload => exact ⟨_, rfl, s.senseFrame_event kind payload⟩
  | weighArrival | tempArrival | motorArrival | levelsArrival | zeroArrival => exact ⟨_, rfl, s.senseSample_event _ _⟩
  | weighStall | tempStall | motorStall | levelsStall | mainsLoss => exact ⟨_, rfl, s.stall_event _⟩
  | stepDurationExpiry => exact ⟨_, rfl, s.durationExpires_acts.event (by decide) (by decide)⟩
  | stepLimitExpiry => exact ⟨_, rfl, s.limitExpires_acts.event (by decide) (by decide)⟩
  | rampSecond => exact ⟨_, rfl, s.rampSecondExpires_acts.event (by decide) (by decide)⟩
  | phaseEnd => exact ⟨_, rfl, s.phaseExpires_acts.event (by decide) (by decide)⟩
  | stirRampStep => exact ⟨_, rfl, s.stirRampExpires_acts.event (by decide) (by decide)⟩
  | lockEngageTimeout => exact ⟨_, rfl, s.engageExpires_acts.event (by decide) (by decide)⟩
  | lockReleaseTimeout => exact ⟨_, rfl, s.releaseExpires_acts.event (by decide) (by decide)⟩
  | coolDownComplete => exact ⟨_, rfl, s.coolDownExpires_event⟩
  | supervisionExpiry => exact ⟨_, rfl, s.supervisionExpires_acts.event (by decide) (by decide)⟩
  | hostQuiet => exact ⟨_, rfl, s.quietExpires_acts.event (by decide) (by decide)⟩
  | readingInterval => exact ⟨_, rfl, s.readingExpires_acts.event (by decide) (by decide)⟩
  | spinRefresh => exact ⟨_, rfl, s.spinRefreshExpires_acts.event (by decide) (by decide)⟩
  | latchRefresh => exact ⟨_, rfl, s.latchRefreshExpires_acts.event (by decide) (by decide)⟩
  | driveSendComplete =>
    exact ⟨_, rfl, Within.event s.sendDone_within (by decide) (by decide) (by decide)⟩
  | upstreamSendComplete => exact ⟨_, rfl, Within.event (F := [.lanes]) (State.withReport_lanes_within (by simp)) (by decide) (by decide) (by decide)⟩
  | hostWait | hostGo =>
    exact ⟨_, rfl, Within.event ((Within.first s.hostSeen_within (by decide)).andThen (State.hostFlow_within _ _) (by decide) :
      Within [.ctl, .permission] s _) (by decide) (by decide) (by decide)⟩
  | requestArrival kind payload => exact ⟨_, rfl, State.enqueue_event s.hostSeen_event rfl rfl ⟨kind, payload⟩⟩
  | misplacedFrame kind payload => exact ⟨_, rfl, s.controlFrame_event kind payload⟩
  | byteArrival rx b => exact ⟨_, rfl, s.byteArrives_event rx b⟩
  | _ => exact hq _ _

/-- One millisecond at a timer is an event and what follows it; no request joins the command queue. -/
theorem State.timerTick_event (s : State) (t : Timer) :
    ∃ u, s.timerTick t = u.settle ∧ Deeds false s u ∧ u.ctl.queue = s.ctl.queue := by
  have ev : ∀ {F : List Part} {u : State}, Acts F s u → (∀ p ∈ F, p ∉ sensitive) → .queue ∉ F →
      Deeds false s u ∧ u.ctl.queue = s.ctl.queue := fun h hF hq => ⟨Acts.deeds h hF, h.within .queue hq⟩
  cases t with
  | step => exact ⟨_, rfl, ev s.stepTick_acts (by decide) (by decide)⟩
  | ramp => exact ⟨_, rfl, ev s.rampTick_acts (by decide) (by decide)⟩
  | phase => exact ⟨_, rfl, ev s.phaseTick_acts (by decide) (by decide)⟩
  | stirRamp => exact ⟨_, rfl, ev s.stirRampTick_acts (by decide) (by decide)⟩
  | lock => exact ⟨_, rfl, ev s.lockTick_acts (by decide) (by decide)⟩
  | coolDown => exact ⟨_, rfl, s.coolDownTick_event.1, s.coolDownTick_acts.within .queue (by decide)⟩
  | stream k =>
    exact ⟨_, rfl, (s.streamTick_event k).1, (s.streamTick_acts k).within .queue (by cases k <;> decide)⟩
  | watch => exact ⟨_, rfl, ev s.watchTick_acts (by decide) (by decide)⟩
  | reading => exact ⟨_, rfl, ev s.readingTick_acts (by decide) (by decide)⟩
  | spin => exact ⟨_, rfl, ev s.spinTick_acts (by decide) (by decide)⟩
  | latch => exact ⟨_, rfl, ev s.latchTick_acts (by decide) (by decide)⟩
  | gap rx =>
    refine ⟨_, rfl, (s.gapTick_event rx).1, ?_⟩
    have hd : (s.discardFrame rx).ctl = s.ctl := by cases rx <;> rfl
    have hs : ∀ x, (s.setReceiver rx x).ctl = s.ctl := by intro x; cases rx <;> rfl
    unfold State.gapTick State.gapTimeout
    dsimp only
    (repeat' split)
    all_goals simp only [hd, hs]

/-- The induction of the invariants: what every deed keeps and every power-on state has, every step keeps. -/
theorem step_keeps {I : State → Prop} (hd : ∀ s t, Deed true s t → I s → I t) (h0 : ∀ s : State, I s.powerOn)
    {s t : State} (hI : I s) (h : step s = .next t) : I t := by
  have hw : ∀ (u : State) (rest : List Instr), I u → I (u.withPending rest) := by
    intro u rest hu
    have hp : Within [.pending] u (u.withPending rest) := by intro p hp; cases p <;> simp_all [Part.same]
    exact (Within.deeds hp (by decide) (by decide) : Deeds true _ _).keep hd hu
  unfold step at h
  split at h
  · cases h
    have htick : ∀ (order : List Timer) (u : State), I u → I (u.tickIn order) := by
      intro order
      induction order with
      | nil => exact fun _ hu => hu
      | cons x xs ih =>
        intro u hu
        obtain ⟨v, hv, hdv, -⟩ := u.timerTick_event x
        refine ih _ ?_
        rw [hv]
        exact Deeds.keep hd (hdv.mono.trans v.settle_deeds) hu
    exact htick _ _ ((Within.deeds (s.withChoices_within _) (by decide) (by decide) : Deeds true _ _).keep hd hI)
  · next c rest hp =>
    by_cases hc : c = .powerOnReset
    · subst hc
      cases h
      exact h0 _
    · obtain ⟨u, hu, hev⟩ := exec_event c hc (s.withPending rest)
      rw [hu] at h
      cases h
      exact Deeds.keep hd (hev.1.mono.trans u.settle_deeds) (hw s rest hI)

end Sys2Proof.Machine
end

