-- ==== Sys2Proof/Proofs/PoolInvariant.lean ====
section
/-! The context pool stays sound (R51, R55, R56, R60): each act keeps the pool invariant. -/

namespace Sys2Proof.Machine

/-- A pool from which a step can start: sound, with CALL records alone on the chain and a slot free (R56). -/
def Pool.ready (p : Pool) : Prop := p.sound ∧ (∀ x ∈ p.chain, x.2.isCall) ∧ p.free ≠ []

/-- A pool with a SUSPEND record at the head above CALL records (R60). -/
def Pool.holding (p : Pool) : Prop := p.sound ∧ chainFits .held p

theorem State.poolInv_running {s : State} (h : s.engine.state = .running) : s.poolInv ↔ s.pool.ready := by
  rw [State.poolInv, h]; rfl

theorem State.poolInv_idle {s : State} (h : s.engine.state = .idle) : s.poolInv ↔ s.pool.ready := by
  rw [State.poolInv, h]; rfl

theorem State.poolInv_ending {s : State} (h : s.engine.state = .ending) : s.poolInv ↔ s.pool.ready := by
  rw [State.poolInv, h]; rfl

theorem State.poolInv_held {s : State} (h : s.engine.state = .held) : s.poolInv ↔ s.pool.holding := by
  rw [State.poolInv, h]; rfl

/-- A chain that fits any state fits FAULTED. -/
theorem chainFits_faulted {e : EngineState} {p : Pool} (h : chainFits e p) : chainFits .faulted p := by
  cases e
  case held => exact h.2
  case faulted => exact h
  all_goals exact fun x hx => h.1 x (List.mem_of_mem_tail hx)

/-- What neither touches the engine state nor the pool keeps the invariant. -/
theorem Within.poolInv {F : List Part} {s t : State} (h : Within F s t) (hF : .engineState ∉ F ∧ .pool ∉ F)
    (hI : s.poolInv) : t.poolInv := by
  have he : t.engine.state = s.engine.state := h .engineState hF.1
  have hp : t.pool = s.pool := h .pool hF.2
  rw [State.poolInv, he, hp]; exact hI

/-! ### Faults and holds -/

theorem State.raiseFault_state (s : State) (c : FaultCode) : (s.raiseFault c).engine.state = .faulted := by
  unfold State.raiseFault
  split
  · next h => split <;> exact h
  · have hw : Within [.heater, .stir, .lock, .reference, .pendingSet] _ _ :=
      (((Within.first (State.restOutputs_within (s.withEngine { s.engine.noStep with
        state := .faulted, fault := some c, further := false, holds := .empty })) (by decide)).andThen
        (State.clearStepSupervision_within _) (by decide)).andThen (State.clearReference_within _) (by decide)).andThen (State.raise_within _ .fault) (by decide)
    exact hw .engineState (by decide)

theorem State.raiseFault_pool (s : State) (c : FaultCode) : (s.raiseFault c).pool = s.pool :=
  s.raiseFault_within c .pool (by decide)

/-- A fault keeps the invariant from any state whose chain fits some state. -/
theorem State.raiseFault_poolInv {s : State} {e : EngineState} (c : FaultCode) (h : s.pool.sound)
    (hc : chainFits e s.pool) : (s.raiseFault c).poolInv := by
  rw [State.poolInv, s.raiseFault_state, s.raiseFault_pool]
  exact ⟨h, chainFits_faulted hc⟩

theorem State.heldOutputs_poolInv {s : State} (hs : s.engine.state = .held) (h : s.pool.holding) :
    s.heldOutputs.poolInv := by
  unfold State.heldOutputs
  dsimp only
  generalize hu : ((s.withReg { s.reg with target := s.heldTarget, setpoint := s.heldTarget, ramp := 0 }).stirZero.lockRequest
    .release) = u
  have hw : Within [.heater, .stir, .lock] s u := by
    rw [← hu]
    exact ((Within.first (State.withReg_within (by simp)) (by decide)).andThen (State.stirZero_within _) (by decide)).andThen (State.lockRequest_within _ _) (by decide)
  have hI : u.poolInv := hw.poolInv (by decide) ((State.poolInv_held hs).2 h)
  split
  · exact State.raiseFault_poolInv _ hI.1 hI.2
  · exact hI

/-- A hold saves its record above the CALL records of a pool that is ready. -/
theorem Pool.save_holding {p : Pool} {c : Context} (h : p.ready) (hc : c.isCall = false) : (p.save c).holding := by
  obtain ⟨slot, rest, hf⟩ := List.exists_cons_of_ne_nil h.2.2
  refine ⟨Pool.save_sound h.1 hc, ?_⟩
  rw [Pool.save_eq p c slot rest hf]
  exact ⟨by simp [hc], h.2.1⟩

theorem State.enterHold_poolInv {s : State} (r : Holds) (h : s.pool.ready) : (s.enterHold r).poolInv := by
  unfold State.enterHold
  exact State.heldOutputs_poolInv rfl (Pool.save_holding h rfl)

theorem State.enterStarved_poolInv {s : State} (i : Nat) (h : s.pool.ready) : (s.enterStarved i).poolInv := by
  unfold State.enterStarved
  exact State.heldOutputs_poolInv rfl (Pool.save_holding h rfl)

theorem State.addHold_poolInv {s : State} (r : Holds) (h : s.poolInv) : (s.addHold r).poolInv := by
  unfold State.addHold
  split
  · next hs => exact State.enterHold_poolInv r ((State.poolInv_running hs).1 h)
  · next hs =>
    dsimp only
    split
    · exact h
    · exact State.heldOutputs_poolInv hs ((State.poolInv_held hs).1 h)
  all_goals exact h

/-! ### Step starts -/

theorem State.decideEntry_poolInv {s : State} (hs : s.engine.state = .running) (h : s.pool.ready) :
    s.decideEntry.poolInv :=
  s.decideEntry_within.poolInv (by decide) ((State.poolInv_running hs).2 h)

theorem State.startTimed_poolInv {s : State} (i : Nat) (r : StepRecord) (h : s.pool.ready) :
    (s.startTimed i r).poolInv := by
  have fault : ∀ (u : State) (c : FaultCode), u.pool = s.pool → (u.raiseFault c).poolInv := fun u c hu =>
    State.raiseFault_poolInv (e := .running) c (hu ▸ h.1) (hu ▸ h.2)
  unfold State.startTimed
  dsimp only
  split
  · exact fault _ _ rfl
  · split
    · exact fault _ _ rfl
    · have ha : ∀ u : State, (u.announceStep r i).pool = u.pool ∧ (u.announceStep r i).engine = u.engine := fun u =>
        ⟨u.announceStep_within r i .pool (by decide), u.announceStep_within r i .engine (by decide)⟩
      split
      · refine State.decideEntry_poolInv ?_ ?_
        · rw [(ha _).2]; rfl
        · rw [(ha _).1]; exact h
      · refine State.enterHold_poolInv _ ?_
        change (State.announceStep _ r i).pool.ready
        rw [(ha _).1]; exact h

theorem State.enterEnding_poolInv {s : State} (o : RecipeOutcome) (h : s.pool.sound) : (s.enterEnding o).poolInv := by
  have hw : Within [.heater, .stir, .lock, .reference] ((s.withPool s.pool.freeAll).withEngine
      { s.engine.noStep with state := .ending, holds := .empty, recipeOutcome := some o }) (s.enterEnding o) :=
    ((Within.first (State.restOutputs_within _) (by decide)).andThen (State.clearStepSupervision_within _) (by decide)).andThen
      (State.clearReference_within _) (by decide)
  refine hw.poolInv (by decide) ((State.poolInv_ending rfl).2 ?_)
  change s.pool.freeAll.ready
  rw [Pool.freeAll_of_sound h]
  exact ⟨Pool.rebuilt_sound, by simp [Pool.rebuilt], by simp [Pool.rebuilt]⟩

/-- The saving of a CALL record with two slots free leaves a pool that is ready. -/
theorem Pool.saveCall_ready {p : Pool} (r : CallRecord) (h : p.ready) (h2 : ¬ p.free.length ≤ 1) :
    (p.saveCall r).ready := by
  obtain ⟨slot, rest, hf⟩ := List.exists_cons_of_ne_nil h.2.2
  refine ⟨Pool.saveCall_sound h.1 h.2.2, ?_⟩
  simp only [Pool.saveCall, Pool.save_eq p _ slot rest hf, List.mem_cons, forall_eq_or_imp]
  refine ⟨⟨rfl, h.2.1⟩, ?_⟩
  rintro rfl
  simp [hf] at h2

/-- The removal of the CALL record at the head leaves a pool that is ready. -/
theorem Pool.dropCall_ready {p : Pool} {slot : Nat} {r : CallRecord} {rest : List (Nat × Context)} (h : p.ready)
    (hc : p.chain = (slot, .call r) :: rest) : p.dropCall.ready := by
  refine ⟨Pool.dropCall_sound h.1 hc, ?_⟩
  simp only [Pool.dropCall, Pool.restore, hc]
  exact ⟨fun x hx => h.2.1 x (by rw [hc]; exact .tail _ hx), by simp⟩

/-- Another CALL record in the head's slot leaves a pool that is ready. -/
theorem Pool.replaceCall_ready {p : Pool} {slot : Nat} {r : CallRecord} {rest : List (Nat × Context)} (r' : CallRecord)
    (h : p.ready) (hc : p.chain = (slot, .call r) :: rest) :
    ({ p with chain := (slot, .call r') :: rest } : Pool).ready := by
  obtain ⟨⟨ho, hd⟩, hcalls, hfree⟩ := h
  rw [hc] at ho hd hcalls
  refine ⟨⟨by simpa using ho, by simpa [Context.isCall] using hd⟩, ?_, hfree⟩
  simp only [List.mem_cons, forall_eq_or_imp] at hcalls ⊢
  exact ⟨rfl, hcalls.2⟩

theorem stepStart_poolInv : ∀ (fuel i : Nat) (s : State), s.engine.state = .idle ∨ s.engine.state = .running →
    s.pool.ready → (stepStart fuel i s).poolInv
  | 0, _, s, hs, h => by
    rcases hs with hs | hs
    · exact (State.poolInv_idle hs).2 h
    · exact (State.poolInv_running hs).2 h
  | fuel + 1, i, s, hs, h => by
    have fault : ∀ (u : State) (c : FaultCode), u.pool = s.pool → (u.raiseFault c).poolInv := fun u c hu =>
      State.raiseFault_poolInv (e := .running) c (hu ▸ h.1) (hu ▸ h.2)
    unfold stepStart
    split
    · exact fault _ _ rfl
    · dsimp only
      split
      · exact State.enterStarved_poolInv i h
      · split
        · exact fault _ _ rfl
        · split
          · exact fault _ _ rfl
          · next h2 =>
            have hw := fun u : State => u.poolLowTest_within s.pool.free.length
            refine stepStart_poolInv fuel _ _ ?_ ?_
            · rw [hw _ .engineState (by decide)]; exact hs
            · rw [hw _ .pool (by decide)]; exact Pool.saveCall_ready _ h h2
      · split
        · exact fault _ _ rfl
        · next hc =>
          split
          · exact stepStart_poolInv fuel _ _ hs (Pool.replaceCall_ready _ h hc)
          · exact stepStart_poolInv fuel _ _ hs (Pool.dropCall_ready h hc)
        · exact fault _ _ rfl
        · exact fault _ _ rfl
      · exact State.enterEnding_poolInv _ h.1
      all_goals exact State.startTimed_poolInv i _ h

theorem State.startStep_poolInv {s : State} (i : Nat) (hs : s.engine.state = .idle ∨ s.engine.state = .running)
    (h : s.pool.ready) : (s.startStep i).poolInv := stepStart_poolInv _ i s hs h

theorem State.endStep_poolInv {s : State} (o : StepOutcome) (hs : s.engine.state = .running) (h : s.poolInv) :
    (s.endStep o).poolInv := by
  have hw : Within [.stir, .reference] (s.withEngine { s.engine.noStep with lastOutcome := some o })
      (((s.withEngine { s.engine.noStep with lastOutcome := some o }).clearStepSupervision).clearReference) :=
    (Within.first (State.clearStepSupervision_within _) (by decide)).andThen (State.clearReference_within _) (by decide)
  refine State.startStep_poolInv _ (.inr ?_) ?_
  · rw [hw .engineState (by decide)]; exact hs
  · rw [hw .pool (by decide)]; exact (State.poolInv_running hs).1 h

/-! ### Resume -/

/-- The removal of the SUSPEND record leaves a pool that is ready. -/
theorem Pool.restore_ready {p : Pool} {slot : Nat} {c : Context} {rest : List (Nat × Context)} (h : p.holding)
    (hc : p.chain = (slot, c) :: rest) : p.restore.ready := by
  obtain ⟨hs, hhead, htail⟩ := h
  rw [hc] at hhead htail
  refine ⟨Pool.restore_sound hs hc (by simpa using hhead), ?_⟩
  simp only [Pool.restore, hc]
  exact ⟨htail, by simp⟩

theorem State.resume_poolInv {s : State} (h : s.pool.holding) : s.resume.poolInv := by
  unfold State.resume
  split
  · next hc => exact State.startStep_poolInv _ (.inr rfl) (Pool.restore_ready h hc)
  · next held _ hc =>
    have hr := Pool.restore_ready h hc
    dsimp only
    split
    · exact State.raiseFault_poolInv (e := .running) _ hr.1 hr.2
    · exact State.decideEntry_poolInv rfl hr
  all_goals exact State.raiseFault_poolInv _ h.1 h.2

theorem State.keepHolds_poolInv {s : State} (x : Holds) (h : s.poolInv) : (s.keepHolds x).poolInv := by
  unfold State.keepHolds
  split
  · exact h
  · next hk =>
    have hs : s.engine.state = .held := by
      by_contra hn
      exact hk (by simp [hn])
    have hp := (State.poolInv_held hs).1 h
    dsimp only
    split
    · exact State.resume_poolInv hp
    · exact State.heldOutputs_poolInv hs hp

/-! ### Acts and deeds -/

theorem Act.poolInv {F : List Part} {s t : State} (a : Act F s t) (h : s.poolInv) : t.poolInv := by
  have hw := a.within
  cases a with
  | outside hF' hF => exact hw.poolInv ⟨fun hm => hF _ hm (by decide), fun hm => hF _ hm (by decide)⟩ h
  | raiseFault => exact State.raiseFault_poolInv _ h.1 h.2
  | addHold => exact State.addHold_poolInv _ h
  | keepHolds => exact State.keepHolds_poolInv _ h
  | endStep _ hs => exact State.endStep_poolInv _ hs h
  | startStep _ hs => exact State.startStep_poolInv _ (.inl hs) ((State.poolInv_idle hs).1 h)
  | enterEnding => exact State.enterEnding_poolInv _ h.1
  | clearFault =>
    have hr := State.restOutputs_within ((s.withPool .rebuilt).withEngine
      { s.engine with state := .idle, fault := none, further := false, previousTarget := 0 })
    exact hr.poolInv (by decide) ((State.poolInv_idle rfl).2 ⟨Pool.rebuilt_sound, by simp [Pool.rebuilt], by simp [Pool.rebuilt]⟩)
  | leaveEnding hs =>
    have hr : Within [.heater, .stir, .lock, .pendingSet] (s.withEngine { s.engine with state := .idle }) s.leaveEnding :=
      (Within.first (State.restOutputs_within _) (by decide)).andThen (State.raise_within _ _) (by decide)
    exact hr.poolInv (by decide) ((State.poolInv_idle rfl).2 ((State.poolInv_ending hs).1 h))
  | _ => exact hw.poolInv (by decide) h

theorem Acts.poolInv {F : List Part} {s t : State} (h : Acts F s t) (hI : s.poolInv) : t.poolInv := by
  induction h with
  | refl => exact hI
  | snoc _ a _ ih => exact a.poolInv ih

theorem Deed.poolInv {b : Bool} {s t : State} (d : Deed b s t) (h : s.poolInv) : t.poolInv := by
  cases d with
  | acts ha _ => exact ha.poolInv h
  | frame _ seq x => exact (s.takeFrame_acts seq x).poolInv h
  | stall _ k => exact (s.stall_acts k).poolInv h
  | coolDown => exact (s.coolDown_within _).poolInv (by decide) h
  | storeStep => exact (s.withSteps_within _).poolInv (by decide) h
  | storePattern => exact (s.withPatterns_within _).poolInv (by decide) h
  | calibrate c => exact (s.calibrate_acts c).poolInv h
  | takeTare => exact s.takeTare_within.poolInv (by decide) h
  | receiver => exact (s.setReceiver_within _ _).poolInv (by decide) h
  | replaceLimits => exact (s.replaceLimits_acts _).poolInv h
  | softReset =>
    have he : s.softReset.engine = .reset := rfl
    have hp : s.softReset.pool = .rebuilt := rfl
    exact (State.poolInv_idle (by rw [he]; rfl)).2 (hp ▸ ⟨Pool.rebuilt_sound, by simp [Pool.rebuilt], by simp [Pool.rebuilt]⟩)

theorem State.powerOn_poolInv (s : State) : s.powerOn.poolInv :=
  (State.poolInv_idle (s := s.powerOn) rfl).2 ⟨Pool.rebuilt_sound, by simp [State.powerOn, State.reset, Pool.rebuilt],
    by simp [State.powerOn, State.reset, Pool.rebuilt]⟩

end Sys2Proof.Machine

namespace Sys2Proof.Proofs
open Sys2Proof.Machine

/-- Settles O5: each deed keeps the pool invariant, a fault and a hold by what they leave of the chain, a step start by
induction on the fuel of its chain of immediate records. -/
theorem stepKeepsPool : Obligations.StepKeepsPool :=
  fun _ _ h hs => step_keeps (fun _ _ d => d.poolInv) State.powerOn_poolInv h hs

end Sys2Proof.Proofs
end

