-- ==== Sys2Proof/Proofs/SpeedInvariant.lean ====
section
/-! The motor obeys its caps (R119, R122). `State.spins true` is the invariant of the statement; `State.spins false`
leaves the caps out and is what holds between a change of a cap and the computation of the target that follows it. -/

namespace Sys2Proof.Machine

/-- The SPIN slot carries the commanded speed and direction, and a pending reversal keeps the motor at 0. -/
def State.spinSound (s : State) : Prop :=
  s.drive.spinSpeed = s.stir.commanded ∧ s.drive.spinDirection = s.stir.direction
    ∧ (s.stir.reversal = true → s.stir.commanded = 0)

/-- The motor's invariant; with `capped` false nothing is said of the caps. -/
structure State.spins (capped : Bool) (s : State) : Prop where
  sound : s.spinSound
  below : s.stir.commanded ≤ s.stir.target
  still : s.engine.state ≠ .running → s.stir.target = 0 ∧ s.stir.running = none
  caps : capped = true → ∀ c ∈ s.speedCaps, s.stir.target ≤ c

/-- The caps depend on the limits, the lock state, the food channel, the step kind, the gate speed and the overload cap. -/
theorem State.speedCaps_congr {s t : State} (hl : t.limits = s.limits) (hk : t.lock.state = s.lock.state)
    (hf : t.food.value = s.food.value ∧ t.food.faulted = s.food.faulted) (hc : t.cal = s.cal)
    (hs : t.stir.kind = s.stir.kind ∧ t.stir.overloadCap = s.stir.overloadCap) : t.speedCaps = s.speedCaps := by
  unfold State.speedCaps State.hotCapped
  rw [hl, hk, hf.1, hf.2, hc, hs.1, hs.2]

theorem State.spins_iff (s : State) : s.spins true ↔ s.speedCapped := by
  have hc : (∀ c ∈ s.speedCaps, s.stir.target ≤ c) ↔ s.stir.target ≤ s.limits.maxSpeed
      ∧ (s.lock.state ≠ .engaged → s.stir.target ≤ s.limits.lidFreeSpeed)
      ∧ (s.hotCapped = true → s.stir.target ≤ s.limits.hotCapSpeed)
      ∧ (s.stir.kind = some .add → s.stir.target ≤ s.cal.gateSpeed)
      ∧ (∀ c, s.stir.overloadCap = some c → s.stir.target ≤ c) := by
    by_cases h1 : s.lock.state = .engaged <;> by_cases h2 : s.hotCapped = true <;>
      by_cases h3 : s.stir.kind = some .add <;> simp [State.speedCaps, h1, h2, h3]
  constructor
  · rintro ⟨⟨h1, h2, h3⟩, h4, h5, h6⟩
    obtain ⟨k1, k2, k3, k4, k5⟩ := hc.1 (h6 rfl)
    exact ⟨h1, h2, h4, h3, k1, k2, k3, k4, k5, h5⟩
  · rintro ⟨h1, h2, h4, h3, k1, k2, k3, k4, k5, h5⟩
    exact ⟨⟨h1, h2, h3⟩, h4, h5, fun _ => hc.2 ⟨k1, k2, k3, k4, k5⟩⟩

theorem State.spins.weaken {b : Bool} {s : State} (h : s.spins b) : s.spins false :=
  ⟨h.sound, h.below, h.still, fun hb => absurd hb (by decide)⟩

/-- A motor at rest obeys every cap. -/
theorem State.spins_of_rest {b : Bool} {s : State} (h : s.spinSound) (ht : s.stir.target = 0) (hc : s.stir.commanded = 0)
    (hr : s.engine.state ≠ .running → s.stir.running = none) : s.spins b :=
  ⟨h, by omega, fun hs => ⟨ht, hr hs⟩, fun _ c _ => ht ▸ Nat.zero_le c⟩

/-! ### What leaves the motor alone -/

/-- The parts on which the caps depend, but for the lock, which its acts guard. -/
abbrev capParts : List Part := [.temperatures, .limits, .cal]

theorem Part.stir_same {s t : State} (h : Part.stir.same s t) : t.drive.spinSpeed = s.drive.spinSpeed ∧
    t.drive.spinDirection = s.drive.spinDirection ∧ t.stir.commanded = s.stir.commanded ∧
    t.stir.direction = s.stir.direction ∧ t.stir.reversal = s.stir.reversal ∧ t.stir.target = s.stir.target ∧
    t.stir.running = s.stir.running ∧ t.stir.kind = s.stir.kind ∧ t.stir.overloadCap = s.stir.overloadCap := by
  obtain ⟨h, h1, h2⟩ := h
  simp only [Stir.mk.injEq] at h
  simp_all

theorem Part.spinSound {s t : State} (h : Part.stir.same s t) (hs : s.spinSound) : t.spinSound := by
  obtain ⟨h1, h2, h3, h4, h5, -⟩ := Part.stir_same h
  unfold State.spinSound
  rw [h1, h2, h3, h4, h5]; exact hs

/-- What touches neither stir drive nor engine state, lock state or caps keeps the motor's invariant. -/
theorem State.spins.same {b : Bool} {s t : State} (h : s.spins b) (hs : Part.stir.same s t)
    (he : t.engine.state = s.engine.state) (hl : t.lock.state = s.lock.state)
    (hc : b = true → Part.temperatures.same s t ∧ t.limits = s.limits ∧ t.cal = s.cal) : t.spins b := by
  obtain ⟨-, -, h3, -, -, h6, h7, h8, h9⟩ := Part.stir_same hs
  refine ⟨Part.spinSound hs h.sound, by rw [h3, h6]; exact h.below, by rw [he, h6, h7]; exact h.still, fun hb => ?_⟩
  obtain ⟨⟨-, hf, -⟩, hlim, hcal⟩ := hc hb
  rw [State.speedCaps_congr hlim hl hf hcal ⟨h8, h9⟩, h6]; exact h.caps hb

theorem Within.spins {F : List Part} {b : Bool} {s t : State} (h : Within F s t)
    (hF : ∀ p ∈ F, p ∉ [Part.engineState, .stir, .lock]) (hc : b = true → ∀ p ∈ F, p ∉ capParts) (hI : s.spins b) :
    t.spins b :=
  hI.same (h .stir fun hp => hF _ hp (by decide)) (h .engineState fun hp => hF _ hp (by decide))
    (Part.lock_state (h .lock fun hp => hF _ hp (by decide)))
    fun hb => ⟨h .temperatures fun hp => hc hb _ hp (by decide), h .limits fun hp => hc hb _ hp (by decide),
      h .cal fun hp => hc hb _ hp (by decide)⟩

theorem Within.spinSound {F : List Part} {s t : State} (h : Within F s t) (hF : .stir ∉ F)
    (hs : s.spinSound) : t.spinSound := Part.spinSound (h .stir hF) hs

/-- The engine enters or stays in RUNNING. -/
theorem State.spins.running {b : Bool} {s : State} {e : Engine} (h : s.spins b) (he : e.state = .running) :
    (s.withEngine e).spins b :=
  ⟨h.sound, h.below, fun hn => absurd he hn, h.caps⟩

/-- The lock changes but for its state. -/
theorem State.spins.lock {b : Bool} {s : State} {x : Lock} (h : s.spins b) (hx : x.state = s.lock.state) :
    (s.withLock x).spins b :=
  h.same (Part.same_refl .stir s) rfl hx fun _ => ⟨Part.same_refl .temperatures s, rfl, rfl⟩

/-! ### The stir drive's operations -/

theorem Stir.countsOnly_same {x y : Stir} (h : x.countsOnly y) : x.commanded = y.commanded ∧
    x.direction = y.direction ∧ x.target = y.target ∧ x.running = y.running ∧ x.reversal = y.reversal ∧
    x.kind = y.kind ∧ x.overloadCap = y.overloadCap := by
  simp only [Stir.countsOnly, Stir.mk.injEq] at h
  simp_all

theorem State.handSpin_spinSound (s : State) (h : s.stir.reversal = true → s.stir.commanded = 0) :
    s.handSpin.spinSound := by
  unfold State.handSpin State.spinSound
  dsimp only
  split <;> exact ⟨rfl, rfl, h⟩

theorem State.handSpin_stir (s : State) : s.handSpin.stir.target = s.stir.target ∧
    s.handSpin.stir.commanded = s.stir.commanded ∧ s.handSpin.stir.running = s.stir.running ∧
    s.handSpin.stir.kind = s.stir.kind ∧ s.handSpin.stir.overloadCap = s.stir.overloadCap := by
  unfold State.handSpin
  dsimp only
  split <;> exact ⟨rfl, rfl, rfl, rfl, rfl⟩

/-- A SPIN frame handed for a stir drive `x` in place of the state's. -/
theorem State.spins_handSpin {b : Bool} {s : State} {x : Stir} (hr : x.reversal = true → x.commanded = 0)
    (hb : x.commanded ≤ x.target) (hs : s.engine.state ≠ .running → x.target = 0 ∧ x.running = none)
    (hc : b = true → ∀ c ∈ (s.withStir x).speedCaps, x.target ≤ c) : (s.withStir x).handSpin.spins b := by
  obtain ⟨h1, h2, h3, h4, h5⟩ := (s.withStir x).handSpin_stir
  have hcaps : (s.withStir x).handSpin.speedCaps = (s.withStir x).speedCaps :=
    State.speedCaps_congr rfl rfl ⟨rfl, rfl⟩ rfl ⟨h4, h5⟩
  refine ⟨State.handSpin_spinSound _ hr, ?_, ?_, ?_⟩
  · rw [h1, h2]; exact hb
  · rw [h1, h3]; exact hs
  · rw [hcaps, h1]; exact hc

theorem State.stirZero_spins {b : Bool} {s : State} (h : s.spinSound) : s.stirZero.spins b := by
  unfold State.stirZero
  dsimp only
  split
  · exact State.spins_handSpin (fun _ => rfl) le_rfl (fun _ => ⟨rfl, rfl⟩) (fun _ c _ => Nat.zero_le c)
  · next hc =>
    have h0 : s.stir.commanded = 0 := by omega
    refine State.spins_of_rest ⟨?_, h.2.1, fun _ => rfl⟩ rfl rfl fun _ => rfl
    change s.drive.spinSpeed = 0
    rw [h.1, h0]

theorem foldl_min_le (l : List Nat) (p : Nat) : l.foldl min p ≤ p ∧ ∀ c ∈ l, l.foldl min p ≤ c := by
  induction l generalizing p with
  | nil => simp
  | cons x xs ih =>
    obtain ⟨h1, h2⟩ := ih (min p x)
    simp only [List.foldl_cons, List.mem_cons, forall_eq_or_imp]
    exact ⟨h1.trans (Nat.min_le_left _ _), h1.trans (Nat.min_le_right _ _), h2⟩

theorem State.cappedSpeed_le {s : State} {p c : Nat} (h : c ∈ s.speedCaps) : s.cappedSpeed p ≤ c :=
  (foldl_min_le _ _).2 c h

/-- The caps that a stir drive `x` in place of the state's is under, where kind and overload cap are the same. -/
theorem State.under_withStir {s : State} {x : Stir} {n : Nat} (hk : x.kind = s.stir.kind)
    (ho : x.overloadCap = s.stir.overloadCap) (h : ∀ c ∈ s.speedCaps, n ≤ c) : ∀ c ∈ (s.withStir x).speedCaps, n ≤ c := by
  rw [State.speedCaps_congr (s := s) (t := s.withStir x) rfl rfl ⟨rfl, rfl⟩ rfl ⟨hk, ho⟩]; exact h

/-- A target within the caps is taken. -/
theorem State.takeTarget_spins {b : Bool} {s : State} (t : Nat) (d : Direction) (h : s.spinSound)
    (hs : s.engine.state ≠ .running → t = 0 ∧ s.stir.running = none) (hc : ∀ c ∈ s.speedCaps, t ≤ c) :
    (s.takeTarget t d).spins b := by
  have hcom : (if decide (t < s.stir.commanded) = true then t else s.stir.commanded) ≤ t := by
    split
    · exact le_rfl
    · next hn => simpa using hn
  have hrev : s.stir.reversal = true →
      (if decide (t < s.stir.commanded) = true then t else s.stir.commanded) = 0 := by
    intro hr
    have h0 := h.2.2 hr
    rw [if_neg (by simp [h0]), h0]
  unfold State.takeTarget
  dsimp only
  generalize hf : decide (t < s.stir.commanded) = fallen at hcom hrev
  generalize (!s.stir.reversal && decide (0 < t) && decide (s.stir.direction ≠ d)) = turned
  split
  · exact State.spins_handSpin hrev hcom hs fun _ => State.under_withStir rfl rfl hc
  · next hn =>
    obtain ⟨rfl, rfl⟩ : fallen = false ∧ turned = false := by simpa using hn
    exact ⟨⟨h.1, h.2.1, hrev⟩, hcom, hs, fun _ => State.under_withStir rfl rfl hc⟩

theorem State.beginReversal_spins {b : Bool} {s : State} (t : Nat) (hs : s.engine.state = .running)
    (hc : ∀ c ∈ s.speedCaps, t ≤ c) : (s.beginReversal t).spins b := by
  unfold State.beginReversal
  exact State.spins_handSpin (fun _ => rfl) (Nat.zero_le _) (fun hn => absurd hs hn)
    fun _ => State.under_withStir rfl rfl hc

theorem State.computeTarget_spins {b : Bool} {s : State} (h : s.spinSound)
    (hs : s.engine.state ≠ .running → s.stir.running = none) : s.computeTarget.spins b := by
  unfold State.computeTarget
  split
  · exact s.takeTarget_spins 0 _ h (fun hn => ⟨rfl, hs hn⟩) fun c _ => Nat.zero_le c
  · next ph hph =>
    have hrun : s.engine.state = .running := by
      by_contra hn
      simp [State.stirPhase, hs hn] at hph
    have hcap : ∀ c ∈ s.speedCaps, s.cappedSpeed ph.speed ≤ c := fun c => State.cappedSpeed_le
    have hboth : ∀ c : Bool, (if c = true then s.beginReversal (s.cappedSpeed ph.speed)
        else s.takeTarget (s.cappedSpeed ph.speed) ph.direction).spins b := by
      intro c
      cases c
      · exact s.takeTarget_spins _ _ h (fun hn => absurd hrun hn) hcap
      · exact s.beginReversal_spins _ hrun hcap
    exact hboth _

theorem State.spins.computeTarget {b c : Bool} {s : State} (h : s.spins c) : s.computeTarget.spins b :=
  State.computeTarget_spins h.sound fun hn => (h.still hn).2

/-- A stir drive of the same speeds, direction and reversal computes its target, while RUNNING. -/
theorem State.recompute_spins {b : Bool} {s : State} {x : Stir} (h : s.spinSound) (hs : s.engine.state = .running)
    (hx : x.commanded = s.stir.commanded ∧ x.direction = s.stir.direction ∧ x.reversal = s.stir.reversal) :
    (s.withStir x).computeTarget.spins b := by
  refine State.computeTarget_spins ?_ fun hn => absurd hs hn
  obtain ⟨h1, h2, h3⟩ := hx
  unfold State.spinSound
  simp only [State.withStir_stir, State.withStir_drive, h1, h2, h3]
  exact h

theorem State.clearStepSupervision_spins {b : Bool} {s : State} (h : s.spins b) :
    s.clearStepSupervision.spins b := by
  refine ⟨h.sound, h.below, h.still, fun hb c hc => h.caps hb c ?_⟩
  simp only [State.clearStepSupervision, State.speedCaps, State.hotCapped, List.mem_append] at hc ⊢
  rcases hc with hc | hc
  · exact .inl hc
  · exact absurd hc (by simp)

theorem State.endReversal_spins {b : Bool} {s : State} (h : s.spins b) : s.endReversal.spins b := by
  unfold State.endReversal
  dsimp only
  split
  · exact State.spins_handSpin (fun hr => absurd hr (by simp)) h.below h.still h.caps
  · next hd => exact ⟨⟨h.sound.1, h.sound.2.1.trans (not_not.1 hd), fun hr => absurd hr (by simp)⟩, h.below, h.still, h.caps⟩

theorem State.rampStep_spins {b : Bool} {s : State} (h : s.spins b) (hr : s.ramping = true) : s.rampStep.spins b := by
  have hrev : s.stir.reversal = false := by simp_all [State.ramping]
  unfold State.rampStep
  dsimp only
  exact State.spins_handSpin (fun h' => absurd h' (by simp [hrev])) (Nat.min_le_left _ _) h.still h.caps

theorem State.endPhase_spins {b : Bool} {s : State} (h : s.spins b) : s.endPhase.spins b := by
  unfold State.endPhase
  split
  · exact h
  · next i hi =>
    have hrun : s.engine.state = .running := by
      by_contra hn
      simp [(h.still hn).2] at hi
    exact State.recompute_spins h.sound hrun ⟨rfl, rfl, rfl⟩

/-! ### The lock controller's operations -/

theorem State.setLatch_spins {b : Bool} {s : State} (c : Latch) (h : s.spins b) : (s.setLatch c).spins b := by
  unfold State.setLatch
  split
  · exact h
  · refine h.same ⟨rfl, rfl, rfl⟩ rfl rfl fun _ => ⟨Part.same_refl .temperatures s, rfl, rfl⟩

/-- A change of the lock, and with it of a cap, computes the target. -/
theorem State.spins.setLockState {b c : Bool} {s : State} (h : s.spins c) (x : LockState) :
    (s.setLockState x).spins b :=
  State.computeTarget_spins h.sound fun hn => (h.still hn).2

theorem State.beginEngage_spins {b c : Bool} {s : State} (h : s.spins c) : s.beginEngage.spins b := by
  have h1 := State.setLatch_spins .engage h
  have h2 := h1.lock (x := { (s.setLatch .engage).lock with timer := 0 }) rfl
  exact h2.setLockState _

theorem State.lockReleased_spins {b c : Bool} {s : State} (h : s.spins c) : s.lockReleased.spins b := by
  have h1 := State.setLatch_spins .rest h
  have h2 := h1.lock (x := { (s.setLatch .rest).lock with releaseWait := false }) rfl
  exact h2.setLockState _

theorem State.beginRelease_spins {b c : Bool} {s : State} (h : s.spins c) : s.beginRelease.spins b := by
  have h1 := State.setLatch_spins .release h
  have h2 := h1.lock (x := { (s.setLatch .release).lock with timer := 0, releaseWait := false }) rfl
  exact h2.setLockState _

theorem State.lockRequest_spins {b : Bool} {s : State} (r : LockRequest) (h : s.spins b) :
    (s.lockRequest r).spins b := by
  cases r with
  | release => exact h.lock rfl
  | engage =>
    have h1 := h.lock (x := { s.lock with standing := .engage, releaseWait := false }) rfl
    unfold State.lockRequest
    dsimp only
    split
    · exact State.beginEngage_spins h1
    · exact h1

/-! ### Faults, holds, entry -/

theorem State.restOutputs_spins {b : Bool} {s : State} (h : s.spinSound) : s.restOutputs.spins b :=
  State.lockRequest_spins .release (State.stirZero_spins (s.heaterOff_within.spinSound (by decide) h))

theorem State.raiseFault_spins {b : Bool} {s : State} (c : FaultCode) (h : s.spins b) : (s.raiseFault c).spins b := by
  unfold State.raiseFault
  split
  · split
    · exact h
    · refine Within.spins ((Within.first (State.withEngine_within' (by rfl)) (by decide)).andThen (State.raise_within _ _) (by decide) :
        Within [.engine, .pendingSet] s _) (by decide) (fun _ => by decide) h
  · exact (State.raise_within _ _).spins (by decide) (fun _ => by decide) ((State.clearReference_within _).spins (by decide) (fun _ => by decide)
      (State.clearStepSupervision_spins (State.restOutputs_spins h.sound)))

theorem State.heldOutputs_spins {b : Bool} {s : State} (h : s.spinSound) : s.heldOutputs.spins b := by
  unfold State.heldOutputs
  dsimp only
  have h1 : ((s.withReg { s.reg with target := s.heldTarget, setpoint := s.heldTarget, ramp := 0 }).stirZero.lockRequest
      .release).spins b :=
    State.lockRequest_spins .release (State.stirZero_spins h)
  split
  · exact State.raiseFault_spins _ h1
  · exact h1

theorem State.enterHold_spins {b : Bool} {s : State} (r : Holds) (h : s.spinSound) : (s.enterHold r).spins b :=
  State.heldOutputs_spins h

theorem State.enterStarved_spins {b : Bool} {s : State} (i : Nat) (h : s.spinSound) : (s.enterStarved i).spins b :=
  State.heldOutputs_spins h

theorem State.addHold_spins {b : Bool} {s : State} (r : Holds) (h : s.spins b) : (s.addHold r).spins b := by
  unfold State.addHold
  split
  · exact State.enterHold_spins r h.sound
  · dsimp only
    split
    · exact h
    · exact State.heldOutputs_spins h.sound
  all_goals exact h

theorem State.enterActive_spins {b c : Bool} {s : State} (h : s.spins c) (hs : s.engine.state = .running) :
    s.enterActive.spins b := by
  unfold State.enterActive
  dsimp only
  split
  · exact State.recompute_spins h.sound hs ⟨rfl, rfl, rfl⟩
  · exact State.recompute_spins h.sound hs ⟨rfl, rfl, rfl⟩

theorem State.lockEngaged_spins {b c : Bool} {s : State} (w : Bool) (h : s.spins c) : (s.lockEngaged w).spins b := by
  unfold State.lockEngaged
  dsimp only
  have h1 := State.setLatch_spins .engage h
  have h2 := (h1.lock (x := { (s.setLatch .engage).lock with releaseWait := w }) rfl).setLockState (b := b) .engaged
  split
  · next he => exact State.enterActive_spins h2 (by simp_all [State.inEntry])
  · exact h2

theorem State.decideEntry_spins {b : Bool} {s : State} (h : s.spins b) (hs : s.engine.state = .running) :
    s.decideEntry.spins b := by
  have h1 : (s.withEngine { s.engine with lockNeed := s.lockNeeded s.current }).spins b := h.running hs
  have hr : ∀ r, ((s.withEngine { s.engine with lockNeed := s.lockNeeded s.current }).lockRequest r).engine.state
      = .running := fun r => (State.lockRequest_within _ r .engineState (by decide)).trans hs
  unfold State.decideEntry
  dsimp only
  split
  · split
    · exact State.enterActive_spins (State.lockRequest_spins _ h1) (hr _)
    · exact State.lockRequest_spins _ (State.stirZero_spins h.sound)
  · exact State.enterActive_spins (State.lockRequest_spins _ h1) (hr _)

/-! ### Step starts, step ends, resume -/

theorem State.enterEnding_spins {b : Bool} {s : State} (o : RecipeOutcome) (h : s.spinSound) :
    (s.enterEnding o).spins b :=
  (State.clearReference_within _).spins (by decide) (fun _ => by decide) (State.clearStepSupervision_spins (State.restOutputs_spins h))

theorem State.startTimed_spins {b : Bool} {s : State} (i : Nat) (r : StepRecord) (h : s.spins b) :
    (s.startTimed i r).spins b := by
  have h0 : (s.withEngine { s.engine with index := i }).spins b := (State.withEngine_within' (by rfl)).spins (by decide) (fun _ => by decide) h
  unfold State.startTimed
  dsimp only
  split
  · exact State.raiseFault_spins _ h0
  · have h1 : (((s.withEngine { s.engine with index := i }).withEngine
        { s.engine with index := i, state := .running, holds := .empty }).handStepTarget r
          (min r.target s.limits.maxFoodTarget)).spins b :=
      (State.handStepTarget_within _ _ _).spins (by decide) (fun _ => by decide) (h0.running rfl)
    split
    · exact State.raiseFault_spins _ h1
    · have h2 := fun u : State => fun (hu : u.spins b) (hs : u.engine.state = .running) =>
        (State.announceStep_within _ r i).spins (by decide) (fun _ => by decide) ((State.clearReference_within _).spins (by decide) (fun _ => by decide)
          (State.clearStepSupervision_spins (hu.running (e := u.engine.noStep) hs)))
      have h3 := h2 _ h1 rfl
      split
      · refine State.decideEntry_spins h3 ?_
        exact (State.announceStep_within _ r i .engineState (by decide))
      · exact State.enterHold_spins _ h3.sound

theorem stepStart_spins {b : Bool} : ∀ (fuel i : Nat) (s : State), s.spins b → (stepStart fuel i s).spins b
  | 0, _, _, h => h
  | fuel + 1, i, s, h => by
    have here : (s.withEngine { s.engine with index := i }).spins b := (State.withEngine_within' (by rfl)).spins (by decide) (fun _ => by decide) h
    have pool : ∀ p, ((s.withEngine { s.engine with index := i }).withPool p).spins b := fun p =>
      (State.withPool_within _ p).spins (by decide) (fun _ => by decide) here
    unfold stepStart
    split
    · exact State.raiseFault_spins _ h
    · dsimp only
      split
      · exact State.enterStarved_spins i h.sound
      · split
        · exact State.raiseFault_spins _ here
        · split
          · exact State.raiseFault_spins _ here
          · exact stepStart_spins fuel _ _ ((State.poolLowTest_within _ _).spins (by decide) (fun _ => by decide) (pool _))
      · split
        · exact State.raiseFault_spins _ here
        · split
          · exact stepStart_spins fuel _ _ (pool _)
          · exact stepStart_spins fuel _ _ (pool _)
        · exact State.raiseFault_spins _ here
        · exact State.raiseFault_spins _ here
      · exact State.enterEnding_spins _ h.sound
      all_goals exact State.startTimed_spins i _ h

theorem State.endStep_spins {b : Bool} {s : State} (o : StepOutcome) (h : s.spins b) (hs : s.engine.state = .running) :
    (s.endStep o).spins b :=
  stepStart_spins _ _ _ ((State.clearReference_within _).spins (by decide) (fun _ => by decide) (State.clearStepSupervision_spins (h.running hs)))

theorem State.resume_spins {b : Bool} {s : State} (h : s.spins b) (hs : s.engine.state = .held) : s.resume.spins b := by
  have hp : (s.withPool s.pool.restore).spins b := (s.withPool_within _).spins (by decide) (fun _ => by decide) h
  have h0 := h.still (by rw [hs]; decide)
  unfold State.resume
  split
  · exact stepStart_spins _ _ _ (hp.running rfl)
  · next held _ _ =>
    have h1 : ((s.withPool s.pool.restore).restoreHeld held).spins b :=
      State.spins_of_rest h.sound h0.1 (Nat.le_zero.1 (h0.1 ▸ h.below)) fun hn => absurd rfl hn
    dsimp only
    split
    · exact State.raiseFault_spins _ h1
    · refine State.decideEntry_spins ?_ rfl
      exact State.spins_of_rest h.sound h0.1 (Nat.le_zero.1 (h0.1 ▸ h.below)) fun hn => absurd rfl hn
  all_goals exact State.raiseFault_spins _ h

theorem State.keepHolds_spins {b : Bool} {s : State} (x : Holds) (h : s.spins b) : (s.keepHolds x).spins b := by
  unfold State.keepHolds
  split
  · exact h
  · next hk =>
    have hs : s.engine.state = .held := by
      by_contra hn
      exact hk (by simp [hn])
    have h1 : (s.withEngine { s.engine with holds := x }).spins b := (State.withEngine_within' (by rfl)).spins (by decide) (fun _ => by decide) h
    dsimp only
    split
    · exact State.resume_spins h1 hs
    · exact State.heldOutputs_spins h.sound

/-! ### Acts and deeds -/

theorem Act.spins {F : List Part} {b : Bool} {s t : State} (a : Act F s t) (h : s.spins b)
    (hc : b = true → ∀ p ∈ F, p ∉ capParts) : t.spins b := by
  cases a with
  | outside hw hF =>
    refine hw.spins (fun p hp hm => hF p hp ?_) hc h
    revert hm; cases p <;> decide
  | raiseFault => exact State.raiseFault_spins _ h
  | addHold => exact State.addHold_spins _ h
  | keepHolds => exact State.keepHolds_spins _ h
  | endStep _ hs => exact State.endStep_spins _ h hs
  | startStep => exact stepStart_spins _ _ _ h
  | enterEnding => exact State.enterEnding_spins _ h.sound
  | clearFault => exact State.restOutputs_spins h.sound
  | leaveEnding => exact (State.raise_within _ _).spins (by decide) (fun _ => by decide) (State.restOutputs_spins h.sound)
  | lockEngaged => exact State.lockEngaged_spins _ h
  | lockReleased => exact State.lockReleased_spins h
  | beginEngage => exact State.beginEngage_spins h
  | beginRelease => exact State.beginRelease_spins h
  | adopt => exact (h.lock (x := { s.lock with releaseWait := false }) rfl).setLockState _
  | lockTimer => exact h.lock rfl
  | computeTarget => exact h.computeTarget
  | endPhase => exact State.endPhase_spins h
  | rampStep hr => exact State.rampStep_spins h hr
  | endReversal => exact State.endReversal_spins h
  | stirCounts hx =>
    obtain ⟨h1, h2, h3, h4, h5, h6, h7⟩ := Stir.countsOnly_same hx
    refine ⟨by simpa [State.spinSound, h1, h2, h5] using h.sound, by simpa [h1, h3] using h.below,
      by simpa [h3, h4] using h.still, fun hb => ?_⟩
    rw [State.withStir_stir, h3]
    exact State.under_withStir h6 h7 (h.caps hb)
  | setCap =>
    exact State.computeTarget_spins h.sound fun hn => (h.still hn).2

theorem Acts.spins {F : List Part} {b : Bool} {s t : State} (h : Acts F s t) (hc : b = true → ∀ p ∈ F, p ∉ capParts)
    (hI : s.spins b) : t.spins b := by
  induction h with
  | refl => exact hI
  | snoc _ a hG ih => exact a.spins ih fun hb p hp => hc hb p (hG hp)

/-- A TEMP sample may bring a cap into force; the target is computed before it is left (R119). -/
theorem State.tempSample_spins {s : State} (b f h : Nat) (hI : s.spins true) : (s.tempSample b f h).spins true := by
  have h0 : (s.sampleChannels b f h).spins false :=
    (s.sampleChannels_within b f h).spins (by decide) (fun hb => absurd hb (by decide)) hI.weaken
  have h1 := (State.temperatureFaults_acts (s.sampleChannels b f h) (!s.food.faulted && (s.sampleChannels b f h).food.faulted)).spins
    (b := false) (fun hb => absurd hb (by decide)) h0
  have h2 := (State.judgeReached_acts _).spins (fun hb => absurd hb (by decide)) h1
  exact (State.judgeLock_acts _).spins (fun _ => by decide) h2.computeTarget

theorem State.deliver_spins {s : State} (x : Sample) (h : s.spins true) : (s.deliver x).spins true := by
  cases x with
  | temp b f k => exact State.tempSample_spins b f k h
  | weigh r => exact (s.weighSample_acts r).spins (fun _ => by decide) h
  | motor v i => exact (s.motorSample_acts v i).spins (fun _ => by decide) h
  | levels l => exact (s.levelsSample_acts l).spins (fun _ => by decide) h
  | zero => exact s.zeroSample_acts.spins (fun _ => by decide) h

theorem State.takeFrame_spins {s : State} (seq : Byte) (x : Sample) (h : s.spins true) :
    (s.takeFrame seq x).spins true := by
  refine State.deliver_spins x ((State.streamArrival_acts _ x.stream).spins (fun _ => ?_)
    ((s.checkSequence_within seq).spins (by decide) (fun _ => by decide) h))
  generalize x.stream = k
  cases k <;> decide

/-- What leaves stir drive and engine state alone, outside RUNNING: with target 0 every cap is obeyed. -/
theorem Within.spins_of_idle {F : List Part} {s t : State} (h : Within F s t) (hF : .stir ∉ F ∧ .engineState ∉ F)
    (hI : s.spins true) (hs : s.engine.state = .idle) : t.spins true := by
  obtain ⟨-, -, h3, -, -, h6, h7, -⟩ := Part.stir_same (h .stir hF.1)
  obtain ⟨ht, hr⟩ := hI.still (by rw [hs]; decide)
  exact State.spins_of_rest (Part.spinSound (h .stir hF.1) hI.sound) (h6.trans ht)
    (h3.trans (Nat.le_zero.1 (ht ▸ hI.below))) fun _ => h7.trans hr

theorem State.softReset_spins (s : State) : s.softReset.spins true := by
  have hm : ∀ u : State, (u.withStir u.stir.softReset).handSpin.spinSound ∧
      (u.withStir u.stir.softReset).handSpin.stir.target = 0 ∧
      (u.withStir u.stir.softReset).handSpin.stir.commanded = 0 ∧
      (u.withStir u.stir.softReset).handSpin.stir.running = none := fun u =>
    ⟨State.handSpin_spinSound _ fun _ => rfl, rfl, rfl, rfl⟩
  obtain ⟨h1, h2, h3, h4⟩ := hm ((((((s.withCtl s.ctl.softReset).withEngine .reset).withPool .rebuilt).withWeigh
    s.weigh.softReset).withReg .reset).withSched { s.sched with kB := 0, kS := 0 })
  exact State.spins_of_rest h1 h2 h3 fun _ => h4

theorem Deed.spins {b : Bool} {s t : State} (d : Deed b s t) (h : s.spins true) : t.spins true := by
  cases d with
  | acts ha hF => exact ha.spins (fun _ p hp hm => hF p hp (by revert hm; cases p <;> decide)) h
  | frame _ seq x => exact State.takeFrame_spins seq x h
  | stall _ k => exact (s.stall_acts k).spins (fun _ => by cases k <;> decide) h
  | coolDown => exact (s.coolDown_within _).spins (by decide) (fun _ => by decide) h
  | storeStep => exact (s.withSteps_within _).spins (by decide) (fun _ => by decide) h
  | storePattern => exact (s.withPatterns_within _).spins (by decide) (fun _ => by decide) h
  | calibrate c hs => exact (s.calibrate_acts c).within.spins_of_idle (by decide) h hs
  | takeTare => exact s.takeTare_within.spins (by decide) (fun _ => by decide) h
  | receiver => exact (s.setReceiver_within _ _).spins (by decide) (fun _ => by decide) h
  | replaceLimits _ hs => exact (s.replaceLimits_acts _).within.spins_of_idle (by decide) h hs
  | softReset => exact s.softReset_spins

theorem State.powerOn_spins (s : State) : s.powerOn.spins true :=
  State.spins_of_rest ⟨rfl, rfl, fun _ => rfl⟩ rfl rfl fun _ => rfl

end Sys2Proof.Machine

namespace Sys2Proof.Proofs
open Sys2Proof.Machine

/-- Settles O7: each act keeps the motor within its caps, since what stops the engine stops the motor and what changes a
cap computes the target; a write to a cap's record is made in IDLE alone, where the target is 0. -/
theorem stepKeepsSpeedCaps : Obligations.StepKeepsSpeedCaps := by
  intro s t h hs
  rw [← State.spins_iff] at h ⊢
  exact step_keeps (fun _ _ d => d.spins) State.powerOn_spins h hs

end Sys2Proof.Proofs
end

