-- ==== Sys2Proof/Proofs/LatchSafety.lean ====
section
/-! The latch command is RELEASE only while the unlock conditions hold (R135, R136). `State.latchSafe true` is that, with
the lock RELEASING; `State.latchSafe false` leaves the conditions out and is what holds between a change of the
conditions and the judgement of the lock that follows it. -/

namespace Sys2Proof.Machine

/-- With the latch command RELEASE the lock is RELEASING, and with `judged` true the unlock conditions hold. -/
def State.latchSafe (judged : Bool) (s : State) : Prop :=
  s.lock.latch = .release → s.lock.state = .releasing ∧ (judged = true → s.unlockConditions = true)

/-- The parts on which the unlock conditions depend. -/
abbrev unlockParts : List Part := [.temperatures, .slowRun, .coolDown, .motorLive, .limits]

theorem State.latchSafe.weaken {b : Bool} {s : State} (h : s.latchSafe b) : s.latchSafe false :=
  fun hl => ⟨(h hl).1, fun hb => absurd hb (by decide)⟩

theorem Within.unlockConditions {F : List Part} {s t : State} (h : Within F s t) (hF : ∀ p ∈ F, p ∉ unlockParts) :
    t.unlockConditions = s.unlockConditions := by
  have ht := h .temperatures fun hp => hF _ hp (by decide)
  have hr : t.stir.slowRun = s.stir.slowRun := h .slowRun fun hp => hF _ hp (by decide)
  have hc : t.lock.coolDown = s.lock.coolDown := h .coolDown fun hp => hF _ hp (by decide)
  have hm : t.intake.motor.live = s.intake.motor.live := h .motorLive fun hp => hF _ hp (by decide)
  have hl : t.limits = s.limits := h .limits fun hp => hF _ hp (by decide)
  obtain ⟨⟨hb, hbf⟩, ⟨hf, hff⟩, -⟩ := ht
  unfold State.unlockConditions
  rw [hr, hc, hm, hl, hb, hbf, hf, hff]

/-- Neither a MOTOR stream that returns nor a cool-down count that rises makes an unlock condition fail. -/
theorem State.unlockConditions_mono {s t : State} (hm : s.intake.motor.live = true → t.intake.motor.live = true)
    (hr : t.stir.slowRun = s.stir.slowRun) (hf : t.food = s.food) (hb : t.base = s.base) (hl : t.limits = s.limits)
    (hc : s.lock.coolDown ≤ t.lock.coolDown) : s.unlockConditions = true → t.unlockConditions = true := by
  unfold State.unlockConditions
  rw [hr, hf, hb, hl]
  simp only [Bool.and_eq_true, decide_eq_true_eq]
  rintro ⟨⟨h1, h2⟩, h3⟩
  refine ⟨⟨hm h1, h2⟩, ?_⟩
  cases hff : s.food.faulted <;> cases hbf : s.base.faulted <;> simp [hff, hbf] at h3 ⊢
  case true.true => exact h3.trans hc
  all_goals exact h3

/-- What neither begins a release nor touches the unlock conditions. -/
theorem Within.latchSafe {F : List Part} {b : Bool} {s t : State} (h : Within F s t) (hF : .latch ∉ F)
    (hu : b = true → ∀ p ∈ F, p ∉ unlockParts) (hI : s.latchSafe b) : t.latchSafe b := by
  intro hl
  rcases h .latch hF with ⟨h1, h2⟩ | hn
  · obtain ⟨k1, k2⟩ := hI (h1 ▸ hl)
    exact ⟨h2 ▸ k1, fun hb => (h.unlockConditions (hu hb)).trans (k2 hb)⟩
  · exact absurd hl hn

/-- A change after which the unlock conditions hold wherever they held. -/
theorem State.latchSafe.mono {b : Bool} {s t : State} (hI : s.latchSafe b) (h1 : t.lock.latch = s.lock.latch)
    (h2 : t.lock.state = s.lock.state) (h3 : s.unlockConditions = true → t.unlockConditions = true) : t.latchSafe b :=
  fun hl => ⟨h2 ▸ (hI (h1 ▸ hl)).1, fun hb => h3 ((hI (h1 ▸ hl)).2 hb)⟩

theorem State.setLockState_state (s : State) (x : LockState) : (s.setLockState x).lock.state = x := by
  have h := Part.lock_state (State.computeTarget_within (s.withLock { s.lock with state := x }) .lock (by decide))
  exact h

theorem State.beginRelease_latchSafe {b : Bool} {s : State} (h : s.unlockConditions = true) :
    s.beginRelease.latchSafe b := fun _ =>
  ⟨State.setLockState_state _ _, fun _ => (s.beginRelease_within.unlockConditions (by decide)).trans h⟩

theorem Act.latchSafe {F : List Part} {b : Bool} {s t : State} (a : Act F s t)
    (hu : b = true → ∀ p ∈ F, p ∉ unlockParts) (hI : s.latchSafe b) : t.latchSafe b := by
  have hw := a.within
  cases a with
  | outside _ hF => exact hw.latchSafe (fun hp => hF _ hp (by decide)) hu hI
  | beginRelease h => exact State.beginRelease_latchSafe h
  | adopt h =>
    intro hl
    rw [State.setLockState_latch] at hl
    have hs := (hI hl).1
    rw [h] at hs
    exact absurd hs (by decide)
  | _ => exact hw.latchSafe (by decide) hu hI

theorem Acts.latchSafe {F : List Part} {b : Bool} {s t : State} (h : Acts F s t)
    (hu : b = true → ∀ p ∈ F, p ∉ unlockParts) (hI : s.latchSafe b) : t.latchSafe b := by
  induction h with
  | refl => exact hI
  | snoc _ a hG ih => exact a.latchSafe (fun hb p hp => hu hb p (hG hp)) ih

/-- A row of acts whatever it changes. -/
theorem Acts.latchSafe_loose {F : List Part} {b : Bool} {s t : State} (h : Acts F s t) (hI : s.latchSafe b) :
    t.latchSafe false := h.latchSafe (fun hb => absurd hb (by decide)) hI.weaken

/-- The judgement: a release under way is abandoned where the conditions fail (R136). -/
theorem State.judgeLock_latchSafe {b c : Bool} {s : State} (h : s.latchSafe b) : s.judgeLock.latchSafe c := by
  have other : s.lock.state ≠ .releasing → s.latchSafe c := fun hn hl => absurd (h hl).1 hn
  unfold State.judgeLock
  split
  · next he =>
    split
    · next hw => exact State.beginRelease_latchSafe (by simp_all)
    · exact other (by rw [he]; decide)
  · next hr =>
    split
    · next hu => exact fun _ => ⟨hr, fun _ => hu⟩
    · intro hl
      exact absurd ((s.lockEngaged_latch _).symm.trans hl) (by decide)
  all_goals next hs => exact other (by rw [hs]; decide)

/-! ### The events that change the unlock conditions -/

theorem State.heatReport_latchSafe {b c : Bool} {s : State} (h : s.latchSafe b) : s.heatReport.latchSafe c :=
  State.judgeLock_latchSafe ((s.coolDown_within 0).latchSafe (by decide) (fun hb => absurd hb (by decide)) h.weaken)

theorem State.giveHeat_latchSafe {b : Bool} {s : State} (x : Heat) (h : s.latchSafe b) : (s.giveHeat x).latchSafe b := by
  have h0 := (s.handLastHeat_within x).latchSafe (by decide) (fun _ => by decide) h
  unfold State.giveHeat
  dsimp only
  split
  · exact State.heatReport_latchSafe h0
  · exact h0

theorem State.frameHeat_latchSafe {b : Bool} {s : State} (h : s.latchSafe b) : s.frameEnd.cycleHeat.latchSafe b :=
  State.giveHeat_latchSafe _ (s.frameEnd_within.latchSafe (by decide) (fun _ => by decide) h)

theorem State.keepHolds_latchSafe {b : Bool} {s : State} (x : Holds) (h : s.latchSafe b) : (s.keepHolds x).latchSafe b :=
  (s.keepHolds_within x).latchSafe (by decide) (fun _ => by decide) h

theorem State.zeroSample_latchSafe {b : Bool} {s : State} (h : s.latchSafe b) : s.zeroSample.latchSafe b := by
  have hs : ∀ x, (s.withSched x).latchSafe b := fun x =>
    (s.withSched_within' x).latchSafe (by decide) (fun _ => by decide) h
  unfold State.zeroSample State.cycleEvent State.mainsReturn
  dsimp only
  split
  · split
    · exact State.frameHeat_latchSafe (hs _)
    · exact State.giveHeat_latchSafe _ (hs _)
  · split
    · have hc := (State.withChoices_within _ (s.choices + 1)).latchSafe (by decide) (fun _ => by decide)
        (hs { s.sched with mainsPresent := true, position := 0 })
      split
      · exact State.frameHeat_latchSafe (State.keepHolds_latchSafe _ hc)
      · exact State.keepHolds_latchSafe _ (State.frameHeat_latchSafe hc)
    · exact State.frameHeat_latchSafe (hs _)

theorem State.tempSample_latchSafe {b c : Bool} {s : State} (x y z : Nat) (h : s.latchSafe b) :
    (s.tempSample x y z).latchSafe c := by
  have h0 : Acts tempParts s (((s.sampleChannels x y z).temperatureFaults
      (!s.food.faulted && (s.sampleChannels x y z).food.faulted)).judgeReached.computeTarget) :=
    (((Acts.change (s.sampleChannels_within x y z) (by decide) (by decide)).andThen (State.temperatureFaults_acts _ _)
      (by decide)).andThen (State.judgeReached_acts _) (by decide)).act (.computeTarget _) (by decide)
  exact State.judgeLock_latchSafe (h0.latchSafe_loose h)

theorem State.motorSample_latchSafe {b c : Bool} {s : State} (v i : Nat) (h : s.latchSafe b) :
    (s.motorSample v i).latchSafe c := by
  rw [s.motorSample_eq]
  exact State.judgeLock_latchSafe ((s.motorSampleJudged_acts v i).latchSafe_loose h)

theorem State.deliver_latchSafe {s : State} (x : Sample) (h : s.latchSafe true) : (s.deliver x).latchSafe true := by
  cases x with
  | temp b f k => exact State.tempSample_latchSafe b f k h
  | weigh r => exact (s.weighSample_acts r).latchSafe (fun _ => by decide) h
  | motor v i => exact State.motorSample_latchSafe v i h
  | levels l => exact (s.levelsSample_acts l).latchSafe (fun _ => by decide) h
  | zero => exact State.zeroSample_latchSafe h

/-- A stream that returns makes no unlock condition fail. -/
theorem State.setStream_latchSafe {s : State} (k : StreamId) (n : Nat) (h : s.latchSafe true) :
    (s.withIntake (s.intake.setStream k ⟨true, n⟩)).latchSafe true := by
  refine h.mono rfl rfl (State.unlockConditions_mono (fun hm => ?_) rfl rfl rfl rfl le_rfl)
  cases k
  case motor => rfl
  all_goals exact hm

theorem State.streamArrival_latchSafe {s : State} (k : StreamId) (h : s.latchSafe true) :
    (s.streamArrival k).latchSafe true := by
  have h0 := State.setStream_latchSafe k 0 h
  have h1 := (State.dropSensor_acts _).latchSafe (fun _ => by decide) h0
  unfold State.streamArrival
  dsimp only
  split
  · exact h0
  · split
    · exact State.judgeLock_latchSafe h1
    · exact h1

theorem State.takeFrame_latchSafe {s : State} (seq : Byte) (x : Sample) (h : s.latchSafe true) :
    (s.takeFrame seq x).latchSafe true :=
  State.deliver_latchSafe x (State.streamArrival_latchSafe _
    ((s.checkSequence_within seq).latchSafe (by decide) (fun _ => by decide) h))

theorem State.stall_latchSafe {s : State} (k : StreamId) (h : s.latchSafe true) : (s.stall k).latchSafe true := by
  have h0 : ((s.withIntake { s.intake.setStream k ⟨false, k.deadline⟩ with lastSeq := none }).stallReaders k).latchSafe
      true := by
    have hw := s.stalled_within k ⟨false, k.deadline⟩
    cases k with
    | motor =>
      have hl := (Acts.change (State.slowRun_within _ 0) (List.Subset.refl _) (by decide)).latchSafe_loose
        (hw.latchSafe (by decide) (fun hb => absurd hb (by decide)) h.weaken)
      exact State.judgeLock_latchSafe hl
    | weigh =>
      exact (State.withWeigh_within' _ _).latchSafe (by decide) (fun _ => by decide)
        (hw.latchSafe (by decide) (fun _ => by decide) h)
    | temp => exact hw.latchSafe (by decide) (fun _ => by decide) h
    | levels =>
      exact (State.levelsStalled_within _).latchSafe (by decide) (fun _ => by decide)
        (hw.latchSafe (by decide) (fun _ => by decide) h)
    | zero =>
      have hz := hw.latchSafe (by decide) (fun _ => by decide) h
      unfold State.stallReaders State.mainsLost
      dsimp only
      split
      · exact (State.addHold_within _ _).latchSafe (by decide) (fun _ => by decide) (State.giveHeat_latchSafe _
          ((State.withSched_within' _ _).latchSafe (by decide) (fun _ => by decide) hz))
      · exact hz
  unfold State.stall
  dsimp only
  split
  · split
    · exact (State.addHold_within _ _).latchSafe (by decide) (fun _ => by decide) h0
    · exact h0
  · exact h

/-! ### Deeds, commands and milliseconds -/

theorem Deed.latchSafe {s t : State} (d : Deed false s t) (h : s.latchSafe true) : t.latchSafe true := by
  cases d with
  | acts ha hF => exact ha.latchSafe (fun _ p hp hm => hF p hp (by revert hm; cases p <;> decide)) h
  | frame _ seq x => exact State.takeFrame_latchSafe seq x h
  | stall _ k => exact State.stall_latchSafe k h
  | coolDown hn => exact h.mono rfl rfl (State.unlockConditions_mono id rfl rfl rfl rfl hn)
  | storeStep => exact (s.withSteps_within _).latchSafe (by decide) (fun _ => by decide) h
  | storePattern => exact (s.withPatterns_within _).latchSafe (by decide) (fun _ => by decide) h
  | calibrate c => exact (s.calibrate_acts c).latchSafe (fun _ => by decide) h
  | takeTare => exact s.takeTare_within.latchSafe (by decide) (fun _ => by decide) h
  | receiver => exact (s.setReceiver_within _ _).latchSafe (by decide) (fun _ => by decide) h
  | replaceLimits hb => exact absurd hb (by decide)
  | softReset _ hb => exact absurd hb (by decide)

theorem State.picks_latchSafe {s : State} (h : s.latchSafe true) : s.picks.latchSafe true :=
  s.picks_within.latchSafe (by decide) (fun _ => by decide) h

/-- One request in the command queue, of a state whose latch command is not RELEASE. -/
theorem State.settle_one_latchSafe {s : State} {r : Request} (hq : s.ctl.queue = [r]) (hl : s.lock.latch ≠ .release) :
    s.settle.lock.latch = .release → s.settle.unlockConditions = true := by
  have h0 : s.latchSafe true := fun h => absurd h hl
  have hp := State.picks_latchSafe h0
  have hn : s.settle = if s.picks.canTake r = true then
      (carryOut r (s.picks.withCtl (s.picks.ctl.dequeue []))).picks else s.picks := by
    simp [State.settle, hq, settleWith]
  rw [hn]
  split
  · have hd := (State.dequeue_within s.picks []).latchSafe (by decide) (fun _ => by decide) hp
    rcases carryOut_carriedOut r (s.picks.withCtl (s.picks.ctl.dequeue [])) with h | ⟨-, h⟩
    · exact fun hr => ((State.picks_latchSafe (Deeds.keep (fun _ _ d => d.latchSafe) h hd)) hr).2 rfl
    · intro hr
      rw [State.picks_lock, h, State.withCtl_lock, State.picks_lock] at hr
      exact absurd hr hl
  · exact fun hr => (hp hr).2 rfl

theorem State.timerTick_latchSafe {s : State} (t : Timer) (hc : s.calm) (h : s.latchSafe true) :
    (s.timerTick t).calm ∧ (s.timerTick t).latchSafe true := by
  obtain ⟨u, hu, hd, hq⟩ := s.timerTick_event t
  have hcu : u.calm := hq.trans hc
  rw [hu, State.settle_of_calm hcu]
  exact ⟨u.picks_queue.trans hcu, State.picks_latchSafe (Deeds.keep (fun _ _ d => d.latchSafe) hd h)⟩

theorem State.tickIn_latchSafe (order : List Timer) {s : State} (hc : s.calm) (h : s.latchSafe true) :
    (s.tickIn order).latchSafe true := by
  induction order generalizing s with
  | nil => exact h
  | cons x xs ih => exact ih (State.timerTick_latchSafe x hc h).1 (State.timerTick_latchSafe x hc h).2

end Sys2Proof.Machine

namespace Sys2Proof.Proofs
open Sys2Proof.Machine

/-- Settles O12: a release begins at a judgement alone, and every change that could end the unlock conditions is judged
before its event is over; a LIMITS write and a soft reset leave the latch command as it is. -/
theorem latchReleaseNeedsUnlock : Obligations.LatchReleaseNeedsUnlock := by
  intro s t hc hs hl ht
  have h0 : ∀ u : State, u.lock.latch = s.lock.latch → u.latchSafe true := fun u hu h => absurd (hu ▸ h) hl
  unfold step at hs
  split at hs
  · cases hs
    exact (State.tickIn_latchSafe _ (s := s.withChoices (s.choices + 1)) hc (h0 _ rfl) ht).2 rfl
  · next c rest _ =>
    by_cases hp : c = .powerOnReset
    · subst hp
      cases hs
      have hr : Latch.rest = .release := ht
      exact absurd hr (by decide)
    · obtain ⟨u, hu, hd, hq⟩ := exec_event c hp (s.withPending rest)
      rw [hu] at hs
      cases hs
      rcases hq with hq | ⟨r, hq, hlk⟩
      · rw [State.settle_of_calm (hq.trans hc)] at ht ⊢
        exact (State.picks_latchSafe (Deeds.keep (fun _ _ d => d.latchSafe) hd (h0 _ rfl)) ht).2 rfl
      · have hq1 : u.ctl.queue = [r] := by
          have hc' : (s.withPending rest).ctl.queue = [] := hc
          rw [hq, hc']; rfl
        exact State.settle_one_latchSafe hq1 (by rw [hlk]; exact hl) ht

end Sys2Proof.Proofs
end

