-- ==== Sys2Proof/Proofs/RecordInvariants.lean ====
section
/-! Weights stay in range, stored records stay valid, receivers stay well formed and the mains state follows the ZERO
stream (R75, R8, R115, R151, R159, R112, R113). -/

namespace Sys2Proof.Machine

/-! ### What the deeds touch -/

theorem Sample.frameParts_avoid {x : Sample} {p : Part} (h : p ∉ Part.intake :: .pendingSet :: .block :: .motorLive ::
    .zeroLive :: .latch :: engineParts) (hx : p ∉ x.parts) : p ∉ x.frameParts := by
  have hs : x.stream.parts ⊆ [Part.intake, .motorLive, .zeroLive] := by
    generalize x.stream = k
    cases k <;> decide
  intro hp
  simp only [Sample.frameParts, List.mem_cons, List.mem_append] at hp
  simp only [List.mem_cons, not_or] at h
  rcases hp with hp | hp | hp | (hp | hp) | hp
  · exact h.1 hp
  · exact h.2.1 hp
  · exact h.2.2.1 hp
  · have := hs hp
    simp_all
  · simp_all
  · exact hx hp

/-- The parts of a stream's frame, its arrival and its reading. -/
abbrev framePartsOf (k : StreamId) (F : List Part) : List Part := .intake :: .pendingSet :: .block :: (arrivalParts k ++ F)

/-- Only a ZERO frame moves the mains state and the ZERO stream. -/
theorem Sample.frameParts_avoid_mains {x : Sample} (hx : x ≠ .zero) :
    .mains ∉ x.frameParts ∧ .zeroLive ∉ x.frameParts := by
  have avoid : ∀ k F, .mains ∉ framePartsOf k F ∧ .zeroLive ∉ framePartsOf k F → x.frameParts = framePartsOf k F →
      .mains ∉ x.frameParts ∧ .zeroLive ∉ x.frameParts := fun k F h he => he ▸ h
  cases x with
  | weigh r => exact avoid .weigh weighParts (by decide) rfl
  | temp b f k => exact avoid .temp tempParts (by decide) rfl
  | motor v i => exact avoid .motor motorParts (by decide) rfl
  | levels l => exact avoid .levels (.levels :: edgeParts) (by decide) rfl
  | zero => exact absurd rfl hx

/-! ### Weights -/

theorem State.weightsInRange_congr {s t : State} (h : t.weigh.gross = s.weigh.gross) (hs : Part.shown.same s t)
    (ht : t.weigh.tare = s.weigh.tare) (hI : s.weightsInRange) : t.weightsInRange := by
  unfold State.weightsInRange at hI ⊢
  rw [h, hs.1, hs.2, ht]; exact hI

theorem Within.weightsInRange {F : List Part} {s t : State} (h : Within F s t)
    (hF : ∀ p ∈ [Part.output, .shown, .tare], p ∉ F) (hI : s.weightsInRange) : t.weightsInRange :=
  State.weightsInRange_congr (h .output (hF _ (by decide))).2 (h .shown (hF _ (by decide))) (h .tare (hF _ (by decide))) hI

theorem clampWeight_range (x : Int) : -20000 ≤ clampWeight x ∧ clampWeight x ≤ 80000 := by
  unfold clampWeight clampInt
  split
  · omega
  · split <;> omega

theorem Weigh.judgeStable_tare (w : Weigh) (c : Calibration) (v : Int) : (w.judgeStable c v).tare = w.tare := by
  unfold Weigh.judgeStable
  split
  · rfl
  · split <;> rfl

/-- Every weight of an output is clamped (R75), and the tare it may take is its gross (R80). -/
theorem State.formWeight_range {s : State} (raw : Int) (h : s.weightsInRange) : (s.formWeight raw).weightsInRange := by
  have ht : ∀ w : Weigh, w.tare = s.weigh.tare → -20000 ≤ (w.takeTare (clampWeight raw)).tare ∧
      (w.takeTare (clampWeight raw)).tare ≤ 80000 := by
    intro w hw
    unfold Weigh.takeTare
    split
    · exact clampWeight_range raw
    · rw [hw]; exact h.2.2.2
  have hr : ∀ w : Weigh, -20000 ≤ w.tare ∧ w.tare ≤ 80000 → (s.withWeigh (w.report raw)).weightsInRange := fun w hw =>
    ⟨clampWeight_range _, clampWeight_range _, clampWeight_range _, hw⟩
  have hk := ht (s.weigh.judgeStable s.cal (clampWeight raw)) (Weigh.judgeStable_tare _ _ _)
  have hw : ∀ c : Bool, (s.withWeigh (Weigh.report (if c = true then { (s.weigh.judgeStable s.cal
      (clampWeight raw)).takeTare (clampWeight raw) with addReference := some (clampWeight raw) }
      else (s.weigh.judgeStable s.cal (clampWeight raw)).takeTare (clampWeight raw)) raw)).weightsInRange := by
    intro c
    cases c <;> exact hr _ hk
  have he : ∀ (c : Bool) (u : State), u.weightsInRange →
      (if c = true then u.withEngine { u.engine with sub := .addFill } else u).weightsInRange := by
    intro c u hu
    cases c <;> exact hu
  have hj : ∀ u : State, u.weightsInRange → u.judgeFill.weightsInRange := by
    intro u hu
    unfold State.judgeFill
    dsimp only
    split
    · split
      · exact (State.endStep_within _ _).weightsInRange (by decide)
          ((State.raise_within _ _).weightsInRange (by decide) hu)
      · exact (State.endStep_within _ _).weightsInRange (by decide) hu
    · exact hu
  unfold State.formWeight
  dsimp only
  split
  · exact hj _ (he _ _ (hw _))
  · exact he _ _ (hw _)

theorem State.withWeigh_range {s : State} {w : Weigh} (h : s.weightsInRange) (hw : w.gross = s.weigh.gross ∧
    w.net = s.weigh.net ∧ w.added = s.weigh.added ∧ w.tare = s.weigh.tare) : (s.withWeigh w).weightsInRange :=
  State.weightsInRange_congr hw.1 ⟨hw.2.1, hw.2.2.1⟩ hw.2.2.2 h

theorem Weigh.judgeStable_weights (w : Weigh) (c : Calibration) (v : Int) : (w.judgeStable c v).gross = w.gross ∧
    (w.judgeStable c v).net = w.net ∧ (w.judgeStable c v).added = w.added ∧ (w.judgeStable c v).tare = w.tare := by
  unfold Weigh.judgeStable
  split
  · exact ⟨rfl, rfl, rfl, rfl⟩
  · split <;> exact ⟨rfl, rfl, rfl, rfl⟩

theorem State.weighSample_range {s : State} (r : Int) (h : s.weightsInRange) : (s.weighSample r).weightsInRange := by
  have ht : ∀ u : State, u.weightsInRange → (u.takeSample r).weightsInRange := by
    intro u hu
    unfold State.takeSample State.formOutput
    dsimp only
    split
    · exact State.withWeigh_range hu ⟨rfl, rfl, rfl, rfl⟩
    · split
      · split
        · exact State.withWeigh_range hu (Weigh.judgeStable_weights _ _ _)
        · exact State.formWeight_range _ (State.withWeigh_range hu ⟨rfl, rfl, rfl, rfl⟩)
      · exact State.withWeigh_range hu ⟨rfl, rfl, rfl, rfl⟩
  unfold State.weighSample
  split
  · split
    · exact h
    · exact State.withWeigh_range h ⟨rfl, rfl, rfl, rfl⟩
  · exact ht _ (State.withWeigh_range h ⟨rfl, rfl, rfl, rfl⟩)

theorem State.takeFrame_range {s : State} (seq : Byte) (x : Sample) (h : s.weightsInRange) :
    (s.takeFrame seq x).weightsInRange := by
  have h1 : ((s.checkSequence seq).streamArrival x.stream).weightsInRange := by
    refine (State.streamArrival_acts _ x.stream).within.weightsInRange ?_
      ((s.checkSequence_within seq).weightsInRange (by decide) h)
    generalize x.stream = k
    cases k <;> decide
  have hd : ∀ u : State, u.weightsInRange → (u.deliver x).weightsInRange := by
    intro u hu
    cases x with
    | weigh r => exact State.weighSample_range r hu
    | temp b f k => exact (u.tempSample_acts b f k).within.weightsInRange (by decide) hu
    | motor v i => exact (u.motorSample_acts v i).within.weightsInRange (by decide) hu
    | levels l => exact (u.levelsSample_acts l).within.weightsInRange (by decide) hu
    | zero => exact u.zeroSample_acts.within.weightsInRange (by decide) hu
  exact hd _ h1

theorem Deed.weightsInRange {b : Bool} {s t : State} (d : Deed b s t) (h : s.weightsInRange) : t.weightsInRange := by
  cases d with
  | acts ha hF =>
    refine ha.within.weightsInRange (fun p hp hm => hF p hm ?_) h
    revert hp; cases p <;> decide
  | frame _ seq x => exact State.takeFrame_range seq x h
  | stall _ k => exact (s.stall_acts k).within.weightsInRange (by cases k <;> decide) h
  | coolDown => exact (s.coolDown_within _).weightsInRange (by decide) h
  | storeStep => exact (s.withSteps_within _).weightsInRange (by decide) h
  | storePattern => exact (s.withPatterns_within _).weightsInRange (by decide) h
  | calibrate c => exact (s.calibrate_acts c).within.weightsInRange (by decide) h
  | takeTare =>
    obtain ⟨hg, -, ha, -⟩ := h
    have h0 : (-20000 : Int) ≤ 0 ∧ (0 : Int) ≤ 80000 := by decide
    exact ⟨hg, h0, ha, hg⟩
  | receiver => exact (s.setReceiver_within _ _).weightsInRange (by decide) h
  | replaceLimits => exact (s.replaceLimits_acts _).within.weightsInRange (by decide) h
  | softReset => exact s.softReset_within.weightsInRange (by decide) h

/-! ### Stored records -/

theorem Within.tablesValid {F : List Part} {s t : State} (h : Within F s t)
    (hF : ∀ p ∈ [Part.steps, .patterns, .limits], p ∉ F) (hI : s.tablesValid) : t.tablesValid := by
  have h1 : t.steps = s.steps := h .steps (hF _ (by decide))
  have h2 : t.patterns = s.patterns := h .patterns (hF _ (by decide))
  have h3 : t.limits = s.limits := h .limits (hF _ (by decide))
  unfold State.tablesValid State.step State.pattern at hI ⊢
  rw [h1, h2, h3]; exact hI

theorem Vector.getD_setIfInBounds {α : Type} {n : Nat} (v : Vector α n) (i j : Nat) (x d : α) :
    ((v.setIfInBounds i x)[j]?.getD d = x ∧ i = j) ∨ (v.setIfInBounds i x)[j]?.getD d = v[j]?.getD d := by
  by_cases hij : i = j
  · subst hij
    by_cases hi : i < n
    · exact .inl ⟨by simp [hi], rfl⟩
    · exact .inr (by simp [hi])
  · exact .inr (by rw [Vector.getElem?_setIfInBounds_ne hij])

theorem State.replaceLimits_limits (s : State) (l : Limits) : (s.replaceLimits l).limits = l := by
  unfold State.replaceLimits
  dsimp only
  (repeat' split) <;> rfl

theorem Deed.tablesValid {b : Bool} {s t : State} (d : Deed b s t) (h : s.tablesValid) : t.tablesValid := by
  cases d with
  | acts ha hF =>
    refine ha.within.tablesValid (fun p hp hm => hF p hm ?_) h
    revert hp; cases p <;> decide
  | frame _ seq x =>
    refine (s.takeFrame_acts seq x).within.tablesValid (fun p hp => Sample.frameParts_avoid ?_ ?_) h
    · revert hp; cases p <;> decide
    · revert hp; cases x <;> cases p <;> simp [Sample.parts]
  | stall _ k => exact (s.stall_acts k).within.tablesValid (by cases k <;> decide) h
  | coolDown => exact (s.coolDown_within _).tablesValid (by decide) h
  | storeStep i hr =>
    obtain ⟨h1, h2, h3⟩ := h
    refine ⟨fun j => ?_, h2, h3⟩
    rcases Vector.getD_setIfInBounds s.steps i j _ .blank with ⟨he, -⟩ | he
    · rw [State.step, State.storeStep, State.withSteps_steps, he]; exact hr h1
    · rw [State.step, State.storeStep, State.withSteps_steps, he]; exact h1 j
  | storePattern _ i hp =>
    obtain ⟨h1, h2, h3⟩ := h
    refine ⟨h1, fun j => ?_, h3⟩
    rcases Vector.getD_setIfInBounds s.patterns i j _ .reset with ⟨he, -⟩ | he
    · rw [State.pattern, State.withPatterns_patterns, he]; exact hp
    · rw [State.pattern, State.withPatterns_patterns, he]; exact h2 j
  | calibrate c => exact (s.calibrate_acts c).within.tablesValid (by decide) h
  | takeTare => exact s.takeTare_within.tablesValid (by decide) h
  | receiver => exact (s.setReceiver_within _ _).tablesValid (by decide) h
  | @replaceLimits _ l _ _ hl =>
    have hw := (s.replaceLimits_acts l).within
    obtain ⟨h1, h2, -⟩ := h
    refine ⟨fun j => ?_, fun j => ?_, ?_⟩
    · rw [State.step, hw .steps (by decide)]; exact h1 j
    · rw [State.pattern, hw .patterns (by decide)]; exact h2 j
    · rw [s.replaceLimits_limits l]; exact hl
  | softReset => exact s.softReset_within.tablesValid (by decide) h

/-! ### Receivers and mains -/

/-- Both receivers are well formed. -/
def State.receiversSound (s : State) : Prop := s.senseRx.sound ∧ s.ctlRx.sound

theorem Within.receiversSound {F : List Part} {s t : State} (h : Within F s t) (hF : .receivers ∉ F)
    (hI : s.receiversSound) : t.receiversSound := by
  obtain ⟨h1, h2⟩ := h .receivers hF
  rw [State.receiversSound, h1, h2]; exact hI

theorem Deed.receiversSound {b : Bool} {s t : State} (d : Deed b s t) (h : s.receiversSound) : t.receiversSound := by
  cases d with
  | acts ha hF => exact ha.within.receiversSound (fun hm => hF _ hm (by decide)) h
  | frame _ seq x =>
    refine (s.takeFrame_acts seq x).within.receiversSound (Sample.frameParts_avoid (by decide) ?_) h
    cases x <;> simp [Sample.parts]
  | stall _ k => exact (s.stall_acts k).within.receiversSound (by cases k <;> decide) h
  | coolDown => exact (s.coolDown_within _).receiversSound (by decide) h
  | storeStep => exact (s.withSteps_within _).receiversSound (by decide) h
  | storePattern => exact (s.withPatterns_within _).receiversSound (by decide) h
  | calibrate c => exact (s.calibrate_acts c).within.receiversSound (by decide) h
  | takeTare => exact s.takeTare_within.receiversSound (by decide) h
  | @receiver _ rx x hx =>
    cases rx
    · exact ⟨hx h.1, h.2⟩
    · exact ⟨h.1, hx h.2⟩
  | replaceLimits => exact (s.replaceLimits_acts _).within.receiversSound (by decide) h
  | softReset => exact s.softReset_within.receiversSound (by decide) h

theorem Within.mainsFollowZero {F : List Part} {s t : State} (h : Within F s t) (hF : .mains ∉ F ∧ .zeroLive ∉ F)
    (hI : s.mainsFollowZero) : t.mainsFollowZero := by
  have h1 : t.sched.mainsPresent = s.sched.mainsPresent := h .mains hF.1
  have h2 : t.intake.zero.live = s.intake.zero.live := h .zeroLive hF.2
  rw [State.mainsFollowZero, h1, h2]; exact hI

/-- A ZERO mark leaves the mains PRESENT and the ZERO stream's state. -/
theorem State.zeroSample_mains (s : State) : s.zeroSample.sched.mainsPresent = true ∧
    s.zeroSample.intake.zero.live = s.intake.zero.live := by
  refine ⟨?_, s.zeroSample_acts.within .zeroLive (by decide)⟩
  have hf : ∀ u : State, u.frameEnd.cycleHeat.sched.mainsPresent = u.sched.mainsPresent := fun u =>
    ((Acts.first u.frameEnd_acts (F := cycleParts) (by decide)).andThen (State.giveHeat_acts _ _) (by decide)).within
      .mains (by decide)
  have hk : ∀ (u : State) (x : Holds), (u.keepHolds x).sched.mainsPresent = u.sched.mainsPresent := fun u x =>
    u.keepHolds_within x .mains (by decide)
  unfold State.zeroSample
  split
  · next hm => exact (s.cycleEvent_acts.within .mains (by decide)).trans hm
  · unfold State.mainsReturn State.dropMains
    dsimp only
    split
    · split
      · rw [hf, hk]; rfl
      · rw [hk, hf]; rfl
    · rw [hf]; rfl

theorem State.takeFrame_mains {s : State} (seq : Byte) (x : Sample) (h : s.mainsFollowZero) :
    (s.takeFrame seq x).mainsFollowZero := by
  by_cases hx : x = .zero
  · subst hx
    obtain ⟨h1, h2⟩ := ((s.checkSequence seq).streamArrival .zero).zeroSample_mains
    have hl : ((s.checkSequence seq).streamArrival .zero).intake.zero.live = true := by
      unfold State.streamArrival
      dsimp only
      split
      · rfl
      · exact (State.dropSensor_acts _).within .zeroLive (by decide)
    exact h1.trans (h2.trans hl).symm
  · exact (s.takeFrame_acts seq x).within.mainsFollowZero (Sample.frameParts_avoid_mains hx) h

/-- A mains loss leaves the mains LOST and the ZERO stream's state. -/
theorem State.mainsLost_mains (s : State) : s.mainsLost.sched.mainsPresent = false ∧
    s.mainsLost.intake.zero.live = s.intake.zero.live := by
  refine ⟨?_, s.mainsLost_acts.within .zeroLive (by decide)⟩
  have ha : ∀ (u : State) (r : Holds), (u.addHold r).sched.mainsPresent = u.sched.mainsPresent := fun u r =>
    u.addHold_within r .mains (by decide)
  have hg : ∀ (u : State) (x : Heat), (u.giveHeat x).sched.mainsPresent = u.sched.mainsPresent := fun u x =>
    (u.giveHeat_acts x).within .mains (by decide)
  unfold State.mainsLost
  split
  · rw [ha, hg]; rfl
  · next h => simpa using h

theorem State.stall_mains {s : State} (k : StreamId) (h : s.mainsFollowZero) : (s.stall k).mainsFollowZero := by
  by_cases hk : k = .zero
  · subst hk
    have hz : ∀ u : State, u.intake.zero.live = false → u.mainsLost.mainsFollowZero := by
      intro u hu
      obtain ⟨h1, h2⟩ := u.mainsLost_mains
      rw [State.mainsFollowZero, h1, h2, hu]
    unfold State.stall
    dsimp only
    split
    · split
      · exact (State.addHold_within _ _).mainsFollowZero (by decide) (hz _ rfl)
      · exact hz _ rfl
    · exact h
  · refine (s.stall_acts k).within.mainsFollowZero ?_ h
    cases k
    case zero => exact absurd rfl hk
    all_goals decide

theorem Deed.mainsFollowZero {b : Bool} {s t : State} (d : Deed b s t) (h : s.mainsFollowZero) : t.mainsFollowZero := by
  cases d with
  | acts ha hF => exact ha.within.mainsFollowZero ⟨fun hm => hF _ hm (by decide), fun hm => hF _ hm (by decide)⟩ h
  | frame _ seq x => exact State.takeFrame_mains seq x h
  | stall _ k => exact State.stall_mains k h
  | coolDown => exact (s.coolDown_within _).mainsFollowZero (by decide) h
  | storeStep => exact (s.withSteps_within _).mainsFollowZero (by decide) h
  | storePattern => exact (s.withPatterns_within _).mainsFollowZero (by decide) h
  | calibrate c => exact (s.calibrate_acts c).within.mainsFollowZero (by decide) h
  | takeTare => exact s.takeTare_within.mainsFollowZero (by decide) h
  | receiver => exact (s.setReceiver_within _ _).mainsFollowZero (by decide) h
  | replaceLimits => exact (s.replaceLimits_acts _).within.mainsFollowZero (by decide) h
  | softReset => exact s.softReset_within.mainsFollowZero (by decide) h

/-! ### The power-on state -/

theorem State.powerOn_weights (s : State) : s.powerOn.weightsInRange := by
  have h0 : (-20000 : Int) ≤ 0 ∧ (0 : Int) ≤ 80000 := by decide
  exact ⟨h0, h0, h0, h0⟩

theorem State.powerOn_tables (s : State) : s.powerOn.tablesValid := by
  have hs : ∀ i, s.powerOn.step i = .blank := by
    intro i
    change (Vector.replicate 256 StepRecord.blank)[i]?.getD .blank = .blank
    by_cases h : i < 256 <;> simp [h]
  have hp : ∀ i, s.powerOn.pattern i = .reset := by
    intro i
    change (Vector.replicate 16 Pattern.reset)[i]?.getD .reset = .reset
    by_cases h : i < 16 <;> simp [h]
  refine ⟨fun i => ?_, fun i => ?_, ?_⟩
  · rw [hs]; decide
  · rw [hp]; decide
  · change Limits.reset.valid = true
    decide

theorem State.powerOn_receivers (s : State) : s.powerOn.receiversSound := ⟨trivial, trivial⟩

theorem State.powerOn_mains (s : State) : s.powerOn.mainsFollowZero := rfl

end Sys2Proof.Machine

namespace Sys2Proof.Proofs
open Sys2Proof.Machine

/-- Settles O8: weights change at an output, clamped, and at a tare alone; records are stored after validation. -/
theorem stepKeepsWeightsAndRecords : Obligations.StepKeepsWeightsAndRecords :=
  ⟨fun _ _ h hs => step_keeps (fun _ _ d => d.weightsInRange) State.powerOn_weights h hs,
    fun _ _ h hs => step_keeps (fun _ _ d => d.tablesValid) State.powerOn_tables h hs⟩

/-- Settles O10: a receiver changes at its own bytes and gaps alone, and the mains state changes with the ZERO stream. -/
theorem stepKeepsReceiversAndMains : Obligations.StepKeepsReceiversAndMains :=
  ⟨fun _ _ h1 h2 hs => step_keeps (fun _ _ d => d.receiversSound) State.powerOn_receivers ⟨h1, h2⟩ hs,
    fun _ _ h hs => step_keeps (fun _ _ d => d.mainsFollowZero) State.powerOn_mains h hs⟩

/-- Settles O11: the power-on reset's invariants, at the state it leaves. -/
theorem resetSatisfiesInvariants : Obligations.ResetSatisfiesInvariants :=
  ⟨State.powerOn_poolInv .reset, by unfold State.lanesBounded; decide, (State.spins_iff _).1 (State.powerOn_spins .reset),
    State.powerOn_weights .reset, State.powerOn_tables .reset, trivial, trivial, rfl⟩

/-- Settles O1: a step on a queue with a command runs that command. -/
theorem frontCommandRuns : Obligations.FrontCommandRuns := fun _ _ _ => rfl

end Sys2Proof.Proofs
end

