-- ==== Sys2Proof/Proofs/CommandParts.lean ====
section
/-! What each command can touch: its request's footprint, or its own, and what follows with no request waiting. -/

namespace Sys2Proof.Machine

/-- The request that a request row carries. -/
def requestOf : Instr → Option Request
  | .stepWrite tag body => some ⟨.stepWrite, tag :: body⟩
  | .stepRead tag body => some ⟨.stepRead, tag :: body⟩
  | .entryWriteLin tag t body => some ⟨.entryWrite, tag :: linCode t :: body⟩
  | .entryWritePattern tag body => some ⟨.entryWrite, tag :: 3 :: body⟩
  | .entryWriteBind tag body => some ⟨.entryWrite, tag :: 4 :: body⟩
  | .entryWriteCal tag body => some ⟨.entryWrite, tag :: 5 :: body⟩
  | .entryWriteLimits tag body => some ⟨.entryWrite, tag :: 6 :: body⟩
  | .entryReadLin tag t body => some ⟨.entryRead, tag :: linCode t :: body⟩
  | .entryReadPattern tag body => some ⟨.entryRead, tag :: 3 :: body⟩
  | .entryReadBind tag body => some ⟨.entryRead, tag :: 4 :: body⟩
  | .entryReadCal tag body => some ⟨.entryRead, tag :: 5 :: body⟩
  | .entryReadLimits tag body => some ⟨.entryRead, tag :: 6 :: body⟩
  | .doStart tag arg => some ⟨.doCommand, tag :: 0 :: arg⟩
  | .doPause tag arg => some ⟨.doCommand, tag :: 1 :: arg⟩
  | .doResume tag arg => some ⟨.doCommand, tag :: 2 :: arg⟩
  | .doSkip tag arg => some ⟨.doCommand, tag :: 3 :: arg⟩
  | .doStop tag arg => some ⟨.doCommand, tag :: 4 :: arg⟩
  | .doExtend tag arg => some ⟨.doCommand, tag :: 5 :: arg⟩
  | .doTare tag arg => some ⟨.doCommand, tag :: 6 :: arg⟩
  | .doZeroCal tag arg => some ⟨.doCommand, tag :: 7 :: arg⟩
  | .doSpanCal tag arg => some ⟨.doCommand, tag :: 8 :: arg⟩
  | .doClear tag arg => some ⟨.doCommand, tag :: 9 :: arg⟩
  | .doClearNotices tag arg => some ⟨.doCommand, tag :: 10 :: arg⟩
  | .doClearEdges tag arg => some ⟨.doCommand, tag :: 11 :: arg⟩
  | .doClearCapture tag arg => some ⟨.doCommand, tag :: 12 :: arg⟩
  | .doReset tag arg => some ⟨.doCommand, tag :: 13 :: arg⟩
  | .doSupervise tag arg => some ⟨.doCommand, tag :: 14 :: arg⟩
  | .doRehearse tag arg => some ⟨.doCommand, tag :: 15 :: arg⟩
  | .inject payload => some ⟨.inject, payload⟩
  | .pass payload => some ⟨.pass, payload⟩
  | .getState tag body => some ⟨.getState, tag :: body⟩
  | .getChain tag body => some ⟨.getChain, tag :: body⟩
  | _ => none

/-- A request row hands its request to the command queue. -/
theorem exec_request {c : Instr} {r : Request} (h : requestOf c = some r) (s : State) :
    exec c s = .next (s.enqueue r).settle := by
  cases c <;> cases h <;> rfl

/-- The parts that a frame of some kind touches. -/
abbrev framesParts : List Part := [.output, .tare, .shown, .temperatures, .linTables, .motorLive, .measured, .slowRun,
  .levels, .lines, .edges, .block, .intake, .zeroLive, .mains, .choices, .pool, .reference, .announced, .engineState,
  .heatSlot, .coolDown, .engine, .stir, .lock, .latch, .heater, .onCounts, .baseCut, .sched, .pendingSet]

theorem Sample.frameParts_subset (x : Sample) : x.frameParts ⊆ framesParts := by
  have key : ∀ k F, framePartsOf k F ⊆ framesParts → x.frameParts = framePartsOf k F → x.frameParts ⊆ framesParts :=
    fun k F h he => he ▸ h
  cases x with
  | weigh r => exact key .weigh weighParts (by decide) rfl
  | temp b f k => exact key .temp tempParts (by decide) rfl
  | motor v i => exact key .motor motorParts (by decide) rfl
  | levels l => exact key .levels (.levels :: edgeParts) (by decide) rfl
  | zero => exact key .zero zeroParts (by decide) rfl

theorem State.intakeFrame_within (s : State) (kind : Byte) (payload : List Byte) :
    Within framesParts s (s.intakeFrame kind payload) := by
  unfold State.intakeFrame
  split
  · exact .first (s.raise_within _) (by decide)
  · exact .first (s.takeFrame_acts _ _).within (Sample.frameParts_subset _)

theorem State.injectFrame_within (s : State) (payload : List Byte) : Within framesParts s (s.injectFrame payload) := by
  have h : Within framesParts s (s.raise .link) := .first (s.raise_within _) (by decide)
  unfold State.injectFrame
  split
  · split
    · exact h
    · exact s.intakeFrame_within _ _
  · exact h

/-- The parts that a command touches itself, what follows the event put aside. -/
def touches : Instr → List Part
  | .frameDiscard _ | .receiverGapTimeout _ => [.receivers, .pendingSet]
  | .sampleFormDiscard _ _ => [.pendingSet]
  | .weighArrival _ _ => framePartsOf .weigh weighParts
  | .tempArrival _ _ _ _ => framePartsOf .temp tempParts
  | .motorArrival _ _ _ => framePartsOf .motor motorParts
  | .levelsArrival _ _ => framePartsOf .levels (.levels :: edgeParts)
  | .zeroArrival _ => framePartsOf .zero zeroParts
  | .weighStall => StreamId.weigh.stallParts
  | .tempStall => StreamId.temp.stallParts
  | .motorStall => StreamId.motor.stallParts
  | .levelsStall => StreamId.levels.stallParts
  | .mainsLoss => StreamId.zero.stallParts
  | .stepDurationExpiry | .stepLimitExpiry => engineParts
  | .rampSecond => [.heater]
  | .phaseEnd | .stirRampStep => [.stir]
  | .lockEngageTimeout | .lockReleaseTimeout => faultParts
  | .coolDownComplete => .coolDown :: lockParts
  | .supervisionExpiry => .ctl :: faultParts
  | .hostQuiet => [.ctl, .pendingSet]
  | .readingInterval => [.lanes]
  | .spinRefresh | .latchRefresh => [.refresh]
  | .driveSendComplete => [.refresh, .driveSending]
  | .upstreamSendComplete => [.lanes]
  | .hostWait | .hostGo => [.ctl, .permission]
  | .misplacedFrame _ _ => [.ctl, .pendingSet]
  | .stepWrite _ _ => stepWriteParts
  | .entryWriteLin _ _ _ => [.linTables, .lanes]
  | .entryWritePattern _ _ => [.patterns, .lanes]
  | .entryWriteBind _ _ => [.lines, .bindings, .lanes]
  | .entryWriteCal _ _ | .doZeroCal _ _ | .doSpanCal _ _ => calParts
  | .entryWriteLimits _ _ => limitsParts
  | .doStart _ _ | .doPause _ _ | .doResume _ _ | .doSkip _ _ | .doStop _ _ | .doClear _ _ => commandParts
  | .doExtend _ _ => [.steps, .lanes]
  | .doTare _ _ => tareParts
  | .doClearNotices _ _ => noticeParts
  | .doClearEdges _ _ | .doClearCapture _ _ => [.lines, .edges, .lanes]
  | .doReset _ _ => resetParts
  | .doSupervise _ _ => superviseParts
  | .doRehearse _ _ => rehearseParts
  | .inject _ => framesParts
  | .pass _ => [.passQueue]
  | .getState _ _ => [.lanes, .choices]
  | .stepRead _ _ | .entryReadLin _ _ _ | .entryReadPattern _ _ | .entryReadBind _ _ | .entryReadCal _ _
  | .entryReadLimits _ _ | .getChain _ _ => [.lanes]
  | .powerOnReset | .requestArrival _ _ | .byteArrival _ _ => []

/-- A request row's request touches what the row does. -/
theorem carryOut_within {c : Instr} {r : Request} (h : requestOf c = some r) (s : State) :
    Within (touches c) s (carryOut r s) := by
  cases c <;> cases h
  case stepWrite tag body => exact (takeStepWrite_acts tag body s).within
  case stepRead tag body => exact (takeStepRead_acts tag body s).within
  case entryWriteLin tag t body => cases t <;> exact (takeWriteLin_acts tag _ body s).within
  case entryWritePattern tag body => exact (takeWritePattern_acts tag body s).within
  case entryWriteBind tag body => exact (takeWriteBind_acts tag body s).within
  case entryWriteCal tag body => exact (takeWriteCal_acts tag body s).within
  case entryWriteLimits tag body => exact (takeWriteLimits_acts tag body s).within
  case entryReadLin tag t body => cases t <;> exact (takeReadLin_acts tag _ body s).within
  case entryReadPattern tag body => exact (takeReadPattern_acts tag body s).within
  case entryReadBind tag body => exact (takeReadBind_acts tag body s).within
  case entryReadCal tag body => exact (takeReadCal_acts tag body s).within
  case entryReadLimits tag body => exact (takeReadLimits_acts tag body s).within
  case doStart tag arg => exact (takeStart_acts tag arg s).within
  case doPause tag arg => exact (takePause_acts tag arg s).within
  case doResume tag arg => exact (takeResume_acts tag arg s).within
  case doSkip tag arg => exact (takeSkip_acts tag arg s).within
  case doStop tag arg => exact (takeStop_acts tag arg s).within
  case doExtend tag arg => exact (takeExtend_acts tag arg s).within
  case doTare tag arg => exact (takeTare_acts tag arg s).within
  case doZeroCal tag arg => exact (takeZeroCal_acts tag arg s).within
  case doSpanCal tag arg => exact (takeSpanCal_acts tag arg s).within
  case doClear tag arg => exact (takeClear_acts tag arg s).within
  case doClearNotices tag arg => exact (takeClearNotices_acts tag arg s).within
  case doClearEdges tag arg => exact (takeClearEdges_acts tag arg s).within
  case doClearCapture tag arg => exact (takeClearCapture_acts tag arg s).within
  case doReset tag arg => exact takeReset_within tag arg s
  case doSupervise tag arg => exact (takeSupervise_acts tag arg s).within
  case doRehearse tag arg => exact (takeRehearse_acts tag arg s).within
  case inject payload => exact s.injectFrame_within payload
  case pass payload => exact s.withDrive_passQueue_within _
  case getState tag body => exact (takeGetState_acts tag body s).within
  case getChain tag body => exact (takeGetChain_acts tag body s).within

/-- A command that carries neither a reset, nor a request, nor a byte. -/
def isEvent (c : Instr) : Prop := c ≠ .powerOnReset ∧ requestOf c = none ∧ (∀ kind payload, c ≠ .requestArrival kind payload) ∧
  ∀ rx b, c ≠ .byteArrival rx b

theorem State.discardFrame_within (s : State) (rx : Rx) : Within [.receivers, .pendingSet] s (s.discardFrame rx) := by
  have h := (s.setReceiver_within rx .hunting).mono (G := [.receivers, .pendingSet]) (by decide)
  cases rx
  · exact h
  · exact h.andThen (State.raise_within _ _) (by decide)

theorem State.senseSample_within (s : State) (seq : Byte) (x : Sample) : Within x.frameParts s (s.senseSample seq x) :=
  .ite (fun _ => .refl _ s) fun _ => (s.takeFrame_acts seq x).within

/-- A frame of the wrong form is no sample (R139 item 1). -/
theorem readSample_eq_none {kind : Byte} {payload : List Byte} (h : (Instr.sampleFormDiscard kind payload).wellFormed = true) :
    readSample kind payload = none := by
  have hne : sampleLength kind ≠ some payload.length := by
    have := (Bool.and_eq_true_iff.1 h).2
    simpa using this
  exact if_neg hne

/-- A misplaced frame raises LINK after the watch restarts (R148). -/
theorem State.controlFrame_misplaced {kind : Byte} {payload : List Byte}
    (h : (Instr.misplacedFrame kind payload).wellFormed = true) (s : State) :
    s.controlFrame kind payload = s.hostSeen.raise .link := by
  have hk : isHostKind kind = false := by
    have := (Bool.and_eq_true_iff.1 h).2
    simpa using this
  simp only [isHostKind, Bool.or_eq_false_iff, Bool.and_eq_false_iff, decide_eq_false_iff_not, beq_eq_false_iff_ne] at hk
  obtain ⟨⟨hr, hE⟩, hF⟩ := hk
  have h1 : kind ≠ 0x2E := fun he => hE (by rw [he]; rfl)
  have h2 : kind ≠ 0x2F := fun he => hF (by rw [he]; rfl)
  have h3 : readRequestKind kind.toNat = none := by
    unfold readRequestKind
    split
    any_goals omega
    rfl
  unfold State.controlFrame
  simp only [if_neg h1, if_neg h2, h3]

theorem exec_within {c : Instr} (hc : isEvent c) (hw : c.wellFormed = true) (s : State) :
    ∃ u, exec c s = .next u.settle ∧ Within (touches c) s u := by
  obtain ⟨h0, h1, h2, h3⟩ := hc
  have hctl : ∀ f, Within [.ctl, .permission] s (s.hostSeen.hostFlow f) := fun f =>
    (Within.first s.hostSeen_within (by decide)).andThen (State.hostFlow_within _ f) (by decide)
  cases c
  case powerOnReset => exact absurd rfl h0
  case requestArrival kind payload => exact absurd rfl (h2 kind payload)
  case byteArrival rx b => exact absurd rfl (h3 rx b)
  case frameDiscard rx => exact ⟨_, rfl, s.discardFrame_within rx⟩
  case receiverGapTimeout rx => exact ⟨_, rfl, .ite (fun _ => .refl _ s) fun _ => s.discardFrame_within rx⟩
  case sampleFormDiscard kind payload =>
    refine ⟨_, rfl, .ite (fun _ => .refl _ s) fun _ => ?_⟩
    rw [State.intakeFrame, readSample_eq_none hw]
    exact s.raise_within .link
  case weighArrival seq raw => exact ⟨_, rfl, s.senseSample_within seq (.weigh raw.toInt)⟩
  case tempArrival seq b f k =>
    exact ⟨_, rfl, s.senseSample_within seq (.temp (low12 b.toNat) (low12 f.toNat) (low12 k.toNat))⟩
  case motorArrival seq v i => exact ⟨_, rfl, s.senseSample_within seq (.motor v.toNat i.toNat)⟩
  case levelsArrival seq l => exact ⟨_, rfl, s.senseSample_within seq (.levels l)⟩
  case zeroArrival seq => exact ⟨_, rfl, s.senseSample_within seq .zero⟩
  case weighStall => exact ⟨_, rfl, (s.stall_acts .weigh).within⟩
  case tempStall => exact ⟨_, rfl, (s.stall_acts .temp).within⟩
  case motorStall => exact ⟨_, rfl, (s.stall_acts .motor).within⟩
  case levelsStall => exact ⟨_, rfl, (s.stall_acts .levels).within⟩
  case mainsLoss => exact ⟨_, rfl, (s.stall_acts .zero).within⟩
  case stepDurationExpiry => exact ⟨_, rfl, s.durationExpires_acts.within⟩
  case stepLimitExpiry => exact ⟨_, rfl, s.limitExpires_acts.within⟩
  case rampSecond => exact ⟨_, rfl, s.rampSecondExpires_acts.within⟩
  case phaseEnd => exact ⟨_, rfl, s.phaseExpires_acts.within⟩
  case stirRampStep => exact ⟨_, rfl, s.stirRampExpires_acts.within⟩
  case lockEngageTimeout => exact ⟨_, rfl, s.engageExpires_acts.within⟩
  case lockReleaseTimeout => exact ⟨_, rfl, s.releaseExpires_acts.within⟩
  case coolDownComplete => exact ⟨_, rfl, s.coolDownExpires_acts.within⟩
  case supervisionExpiry => exact ⟨_, rfl, s.supervisionExpires_acts.within⟩
  case hostQuiet => exact ⟨_, rfl, s.quietExpires_acts.within⟩
  case readingInterval => exact ⟨_, rfl, s.readingExpires_acts.within⟩
  case spinRefresh => exact ⟨_, rfl, s.spinRefreshExpires_acts.within⟩
  case latchRefresh => exact ⟨_, rfl, s.latchRefreshExpires_acts.within⟩
  case driveSendComplete => exact ⟨_, rfl, s.sendDone_within⟩
  case upstreamSendComplete => exact ⟨_, rfl, State.withReport_lanes_within (by simp)⟩
  case hostWait => exact ⟨_, rfl, hctl _⟩
  case hostGo => exact ⟨_, rfl, hctl _⟩
  case misplacedFrame kind payload =>
    refine ⟨_, rfl, ?_⟩
    rw [State.controlFrame_misplaced hw]
    have h : Within [.ctl, .pendingSet] s (s.hostSeen.raise .link) :=
      (Within.first s.hostSeen_within (by decide)).andThen (State.raise_within _ _) (by decide)
    exact h
  all_goals cases h1

end Sys2Proof.Machine
end

