-- ==== Sys2Proof/Proofs/OwnCommands.lean ====
section
/-! Each table, record, sample and receiver is changed by its own commands alone: a command's footprint, cut down to the
parts the statement watches. -/

namespace Sys2Proof.Machine

/-! ### What follows an event, with no request waiting -/

/-- A request whose conditions do not hold after the picks waits at the head of the queue. -/
theorem State.request_waits {s : State} {r : Request} (h : s.calm) (room : s.picks.canTake r = false) :
    (s.enqueue r).settle = s.picks.queued [r] := by
  have h0 : s.ctl.queue = [] := h
  have he : s.enqueue r = s.queued [r] := by simp [State.enqueue, h0, Control.waitMark, State.queued]
  have hc : ¬ (s.picks.queued [r]).canTake r = true := by rw [Bool.not_eq_true]; exact room
  rw [he, State.settle]
  change settleWith 1 _ = _
  simp only [settleWith, State.picks_queued]
  change (if (s.picks.queued [r]).canTake r = true then _ else s.picks.queued [r]) = _
  rw [if_neg hc]

/-- The parts that what follows an event changes with no request waiting. -/
abbrev afterParts : List Part := [.lanes, .driveSending, .passQueue, .ctl, .queue]

theorem State.queued_within (s : State) (q : List Request) : Within [.ctl, .queue] s (s.queued q) := by
  intro p hp; cases p <;> simp_all [Part.same, State.queued]

theorem touches_queue {c : Instr} (h : isEvent c) : .queue ∉ touches c := by
  obtain ⟨-, h1, -⟩ := h
  cases c
  case doReset => cases h1
  all_goals
    dsimp only [touches]
    decide

/-- A command but for a reset, a request's arrival and a byte's, with no request waiting. -/
theorem exec_calm_within {c : Instr} {s t : State} (hs : s.calm) (hw : c.wellFormed = true) (h0 : c ≠ .powerOnReset)
    (h2 : ∀ kind payload, c ≠ .requestArrival kind payload) (h3 : ∀ rx b, c ≠ .byteArrival rx b)
    (h : exec c s = .next t) : Within (touches c ++ afterParts) s t := by
  have hp : ∀ u : State, Within (touches c ++ afterParts) u u.picks := fun u =>
    u.picks_within.mono (List.Subset.trans (by decide) (List.subset_append_right _ _))
  cases hr : requestOf c with
  | none =>
    obtain ⟨u, hu, hW⟩ := exec_within ⟨h0, hr, h2, h3⟩ hw s
    have hq : u.calm := (hW .queue (touches_queue ⟨h0, hr, h2, h3⟩)).trans hs
    rw [hu, u.settle_of_calm hq] at h
    cases h
    exact (hW.mono (List.subset_append_left _ _)).trans (hp u)
  | some r =>
    rw [exec_request hr] at h
    cases h
    cases room : s.picks.canTake r with
    | true =>
      have hk : (s.enqueue r).settle = (carryOut r s.picks).picks := State.request_taken hs room
      rw [hk]
      exact ((hp s).trans ((carryOut_within hr _).mono (List.subset_append_left _ _))).trans (hp _)
    | false =>
      rw [State.request_waits hs room]
      exact (hp s).trans ((State.queued_within _ [r]).mono
        (List.Subset.trans (by decide) (List.subset_append_right _ _)))

/-! ### The watched parts -/

/-- The parts that the statement speaks of. -/
abbrev watched : List Part := [.pending, .steps, .patterns, .cal, .limits, .bindings, .rehearsal, .permission, .period,
  .receivers, .baseCut, .linTables, .output, .tare, .levels, .measured, .mains]

/-- The watched parts that are a command's own. -/
def owned : Instr → List Part
  | .stepWrite _ _ | .doExtend _ _ => [.steps]
  | .entryWritePattern _ _ => [.patterns]
  | .entryWriteCal _ _ | .doZeroCal _ _ | .doSpanCal _ _ => [.cal]
  | .entryWriteLimits _ _ => [.limits]
  | .entryWriteBind _ _ => [.bindings]
  | .doRehearse _ _ => [.rehearsal]
  | .doReset _ _ => [.rehearsal, .baseCut, .measured]
  | .hostWait | .hostGo => [.permission]
  | .doSupervise _ _ => [.period]
  | .frameDiscard _ | .receiverGapTimeout _ => [.receivers]
  | .tempArrival _ _ _ _ | .entryWriteLin _ _ _ => [.linTables]
  | .weighArrival _ _ => [.output, .tare]
  | .doTare _ _ => [.tare]
  | .levelsArrival _ _ => [.levels]
  | .motorArrival _ _ _ => [.measured]
  | .mainsLoss => [.mains]
  | .zeroArrival _ => [.mains, .baseCut]
  | .inject _ => [.linTables, .output, .tare, .levels, .measured, .mains, .baseCut]
  | _ => []

/-- A command touches no watched part but its own. -/
theorem touches_owned (c : Instr) : ∀ p ∈ touches c, p ∈ watched → p ∈ owned c := by
  cases c <;> dsimp only [touches, owned] <;> decide

/-! ### Whose a watched part is -/

theorem not_owned_pending {c : Instr} :
    .pending ∉ owned c := by
  cases c
  all_goals
    dsimp only [owned]
    decide

theorem not_owned_steps {c : Instr}
    (h0 : ∀ tag body, c ≠ .stepWrite tag body)
    (h1 : ∀ tag arg, c ≠ .doExtend tag arg) :
    .steps ∉ owned c := by
  cases c
  case stepWrite tag body => exact absurd rfl (h0 tag body)
  case doExtend tag arg => exact absurd rfl (h1 tag arg)
  all_goals
    dsimp only [owned]
    decide

theorem not_owned_patterns {c : Instr}
    (h0 : ∀ tag body, c ≠ .entryWritePattern tag body) :
    .patterns ∉ owned c := by
  cases c
  case entryWritePattern tag body => exact absurd rfl (h0 tag body)
  all_goals
    dsimp only [owned]
    decide

theorem not_owned_cal {c : Instr}
    (h0 : ∀ tag body, c ≠ .entryWriteCal tag body)
    (h1 : ∀ tag arg, c ≠ .doZeroCal tag arg)
    (h2 : ∀ tag arg, c ≠ .doSpanCal tag arg) :
    .cal ∉ owned c := by
  cases c
  case entryWriteCal tag body => exact absurd rfl (h0 tag body)
  case doZeroCal tag arg => exact absurd rfl (h1 tag arg)
  case doSpanCal tag arg => exact absurd rfl (h2 tag arg)
  all_goals
    dsimp only [owned]
    decide

theorem not_owned_limits {c : Instr}
    (h0 : ∀ tag body, c ≠ .entryWriteLimits tag body) :
    .limits ∉ owned c := by
  cases c
  case entryWriteLimits tag body => exact absurd rfl (h0 tag body)
  all_goals
    dsimp only [owned]
    decide

theorem not_owned_bindings {c : Instr}
    (h0 : ∀ tag body, c ≠ .entryWriteBind tag body) :
    .bindings ∉ owned c := by
  cases c
  case entryWriteBind tag body => exact absurd rfl (h0 tag body)
  all_goals
    dsimp only [owned]
    decide

theorem not_owned_rehearsal {c : Instr}
    (h0 : ∀ tag arg, c ≠ .doReset tag arg)
    (h1 : ∀ tag arg, c ≠ .doRehearse tag arg) :
    .rehearsal ∉ owned c := by
  cases c
  case doReset tag arg => exact absurd rfl (h0 tag arg)
  case doRehearse tag arg => exact absurd rfl (h1 tag arg)
  all_goals
    dsimp only [owned]
    decide

theorem not_owned_permission {c : Instr}
    (h0 : c ≠ .hostWait)
    (h1 : c ≠ .hostGo) :
    .permission ∉ owned c := by
  cases c
  case hostWait => exact absurd rfl h0
  case hostGo => exact absurd rfl h1
  all_goals
    dsimp only [owned]
    decide

theorem not_owned_period {c : Instr}
    (h0 : ∀ tag arg, c ≠ .doSupervise tag arg) :
    .period ∉ owned c := by
  cases c
  case doSupervise tag arg => exact absurd rfl (h0 tag arg)
  all_goals
    dsimp only [owned]
    decide

theorem not_owned_receivers {c : Instr}
    (h0 : ∀ rx, c ≠ .frameDiscard rx)
    (h1 : ∀ rx, c ≠ .receiverGapTimeout rx) :
    .receivers ∉ owned c := by
  cases c
  case frameDiscard rx => exact absurd rfl (h0 rx)
  case receiverGapTimeout rx => exact absurd rfl (h1 rx)
  all_goals
    dsimp only [owned]
    decide

theorem not_owned_baseCut {c : Instr}
    (h0 : ∀ tag arg, c ≠ .doReset tag arg)
    (h1 : ∀ seq, c ≠ .zeroArrival seq)
    (h2 : ∀ payload, c ≠ .inject payload) :
    .baseCut ∉ owned c := by
  cases c
  case doReset tag arg => exact absurd rfl (h0 tag arg)
  case zeroArrival seq => exact absurd rfl (h1 seq)
  case inject payload => exact absurd rfl (h2 payload)
  all_goals
    dsimp only [owned]
    decide

theorem not_owned_linTables {c : Instr}
    (h0 : ∀ payload, c ≠ .inject payload)
    (h1 : ∀ seq b f h, c ≠ .tempArrival seq b f h)
    (h2 : ∀ tag table body, c ≠ .entryWriteLin tag table body) :
    .linTables ∉ owned c := by
  cases c
  case inject payload => exact absurd rfl (h0 payload)
  case tempArrival seq b f h => exact absurd rfl (h1 seq b f h)
  case entryWriteLin tag table body => exact absurd rfl (h2 tag table body)
  all_goals
    dsimp only [owned]
    decide

theorem not_owned_output {c : Instr}
    (h0 : ∀ payload, c ≠ .inject payload)
    (h1 : ∀ seq raw, c ≠ .weighArrival seq raw) :
    .output ∉ owned c := by
  cases c
  case inject payload => exact absurd rfl (h0 payload)
  case weighArrival seq raw => exact absurd rfl (h1 seq raw)
  all_goals
    dsimp only [owned]
    decide

theorem not_owned_tare {c : Instr}
    (h0 : ∀ payload, c ≠ .inject payload)
    (h1 : ∀ seq raw, c ≠ .weighArrival seq raw)
    (h2 : ∀ tag arg, c ≠ .doTare tag arg) :
    .tare ∉ owned c := by
  cases c
  case inject payload => exact absurd rfl (h0 payload)
  case weighArrival seq raw => exact absurd rfl (h1 seq raw)
  case doTare tag arg => exact absurd rfl (h2 tag arg)
  all_goals
    dsimp only [owned]
    decide

theorem not_owned_levels {c : Instr}
    (h0 : ∀ payload, c ≠ .inject payload)
    (h1 : ∀ seq levels, c ≠ .levelsArrival seq levels) :
    .levels ∉ owned c := by
  cases c
  case inject payload => exact absurd rfl (h0 payload)
  case levelsArrival seq levels => exact absurd rfl (h1 seq levels)
  all_goals
    dsimp only [owned]
    decide

theorem not_owned_measured {c : Instr}
    (h0 : ∀ payload, c ≠ .inject payload)
    (h1 : ∀ seq v i, c ≠ .motorArrival seq v i)
    (h2 : ∀ tag arg, c ≠ .doReset tag arg) :
    .measured ∉ owned c := by
  cases c
  case inject payload => exact absurd rfl (h0 payload)
  case motorArrival seq v i => exact absurd rfl (h1 seq v i)
  case doReset tag arg => exact absurd rfl (h2 tag arg)
  all_goals
    dsimp only [owned]
    decide

theorem not_owned_mains {c : Instr}
    (h0 : ∀ payload, c ≠ .inject payload)
    (h1 : c ≠ .mainsLoss)
    (h2 : ∀ seq, c ≠ .zeroArrival seq) :
    .mains ∉ owned c := by
  cases c
  case inject payload => exact absurd rfl (h0 payload)
  case mainsLoss => exact absurd rfl h1
  case zeroArrival seq => exact absurd rfl (h2 seq)
  all_goals
    dsimp only [owned]
    decide

/-! ### Base cut -/

/-- The base channel stays, and with it, while it is faulted, base cut. -/
def CutStays (s t : State) : Prop := t.base = s.base ∧ (s.base.faulted = true → t.reg.baseCut = s.reg.baseCut)

theorem CutStays.trans {s t u : State} (h : CutStays s t) (k : CutStays t u) : CutStays s u :=
  ⟨k.1.trans h.1, fun hf => (k.2 (by rw [h.1]; exact hf)).trans (h.2 hf)⟩

theorem Within.cutStays {F : List Part} {s t : State} (h : Within F s t) (hb : .linTables ∉ F) (hc : .baseCut ∉ F) :
    CutStays s t := ⟨(h .linTables hb).1, fun _ => h .baseCut hc⟩

theorem State.frameEnd_cutStays (s : State) : CutStays s s.frameEnd := by
  have hr : ∀ u : State, (u.raise .derate).reg = u.reg := fun u => rfl
  refine ⟨(s.frameEnd_within .linTables (by decide)).1, fun hf => ?_⟩
  have hn : s.nextBaseCut = s.reg.baseCut := if_pos hf
  unfold State.frameEnd
  dsimp only
  split <;> exact hn

theorem State.zeroSample_cutStays (s : State) : CutStays s s.zeroSample := by
  have hh : ∀ u : State, CutStays u u.cycleHeat := fun u => (u.giveHeat_acts _).within.cutStays (by decide) (by decide)
  have hf : ∀ u : State, CutStays u u.frameEnd.cycleHeat := fun u => u.frameEnd_cutStays.trans (hh _)
  have hk : ∀ u : State, CutStays u u.dropMains := fun u => (u.keepHolds_within _).cutStays (by decide) (by decide)
  unfold State.zeroSample
  split
  · unfold State.cycleEvent
    dsimp only
    split
    · exact CutStays.trans (t := s.withSched { s.sched with position := _ }) ⟨rfl, fun _ => rfl⟩ (hf _)
    · exact CutStays.trans (t := s.withSched { s.sched with position := _ }) ⟨rfl, fun _ => rfl⟩ (hh _)
  · unfold State.mainsReturn
    dsimp only
    split
    · refine CutStays.trans (t := (s.withSched { s.sched with mainsPresent := true, position := 0 }).withChoices
        (s.choices + 1)) ⟨rfl, fun _ => rfl⟩ ?_
      split
      · exact (hk _).trans (hf _)
      · exact (hf _).trans (hk _)
    · exact CutStays.trans (t := s.withSched { s.sched with mainsPresent := true, position := 0 }) ⟨rfl, fun _ => rfl⟩ (hf _)

theorem Sample.frameParts_avoid_baseCut {x : Sample} (hx : x ≠ .zero) : .baseCut ∉ x.frameParts := by
  have avoid : ∀ k F, .baseCut ∉ framePartsOf k F → x.frameParts = framePartsOf k F → .baseCut ∉ x.frameParts :=
    fun k F h he => he ▸ h
  cases x with
  | weigh r => exact avoid .weigh weighParts (by decide) rfl
  | temp b f k => exact avoid .temp tempParts (by decide) rfl
  | motor v i => exact avoid .motor motorParts (by decide) rfl
  | levels l => exact avoid .levels (.levels :: edgeParts) (by decide) rfl
  | zero => exact absurd rfl hx

theorem State.takeFrame_baseCut {s : State} (seq : Byte) (x : Sample) (h : s.base.faulted = true) :
    (s.takeFrame seq x).reg.baseCut = s.reg.baseCut := by
  by_cases hx : x = .zero
  · subst hx
    have hc : CutStays s (s.checkSequence seq) := (s.checkSequence_within seq).cutStays (by decide) (by decide)
    have ha : CutStays s ((s.checkSequence seq).streamArrival .zero) :=
      hc.trans ((State.streamArrival_acts _ .zero).within.cutStays (by decide) (by decide))
    exact (ha.trans (State.zeroSample_cutStays _)).2 h
  · exact (s.takeFrame_acts seq x).within .baseCut (Sample.frameParts_avoid_baseCut hx)

theorem State.injectFrame_baseCut {s : State} (payload : List Byte) (h : s.base.faulted = true) :
    (s.injectFrame payload).reg.baseCut = s.reg.baseCut := by
  have hr : (s.raise .link).reg.baseCut = s.reg.baseCut := rfl
  unfold State.injectFrame State.intakeFrame
  split
  · split
    · exact hr
    · split
      · exact hr
      · exact State.takeFrame_baseCut _ _ h
  · exact hr

/-- With no request waiting, a frame of the sense link and an injected one leave base cut of a faulted base channel. -/
theorem exec_baseCut {c : Instr} {s t : State} (hs : s.calm) (hc : (∃ seq, c = .zeroArrival seq) ∨ ∃ p, c = .inject p)
    (h : s.base.faulted = true) (he : exec c s = .next t) : t.reg.baseCut = s.reg.baseCut := by
  rcases hc with ⟨seq, rfl⟩ | ⟨payload, rfl⟩
  · have hv : exec (.zeroArrival seq) s = .next (s.senseSample seq .zero).settle := rfl
    have hq : (s.senseSample seq .zero).calm := (s.senseSample_within seq .zero .queue (by decide)).trans hs
    rw [hv, State.settle_of_calm hq] at he
    cases he
    rw [State.picks_reg]
    unfold State.senseSample
    split
    · rfl
    · exact State.takeFrame_baseCut _ _ h
  · have hv : exec (.inject payload) s = .next (carryOut ⟨.inject, payload⟩ s.picks).picks := by
      rw [exec_request (c := .inject payload) rfl]
      exact congrArg _ (State.request_taken hs rfl)
    rw [hv] at he
    cases he
    rw [State.picks_reg]
    have hb : s.picks.base.faulted = true := by rw [State.picks_base]; exact h
    exact (State.injectFrame_baseCut payload hb).trans (by rw [State.picks_reg])

end Sys2Proof.Machine

namespace Sys2Proof.Proofs
open Sys2Proof.Machine

/-- Settles O9: the watched parts of a command's footprint are its own; base cut by the frame-end computation's rule. -/
theorem onlyItsOwnCommandsChange : Obligations.OnlyItsOwnCommandsChange := by
  intro c s t hs hw h0 h2 h3 h
  have hW := exec_calm_within hs hw h0 h2 h3 h
  have keep : ∀ p, p ∈ watched → p ∉ afterParts → p ∉ owned c → p.same s t := fun p hp ha ho =>
    hW p fun hm => (List.mem_append.1 hm).elim (fun ht => ho (touches_owned c p ht hp)) ha
  refine ⟨keep .pending (by decide) (by decide) not_owned_pending,
    fun k1 k2 => keep .steps (by decide) (by decide) (not_owned_steps k1 k2),
    fun k => keep .patterns (by decide) (by decide) (not_owned_patterns k),
    fun k1 k2 k3 => keep .cal (by decide) (by decide) (not_owned_cal k1 k2 k3),
    fun k => keep .limits (by decide) (by decide) (not_owned_limits k),
    fun k => keep .bindings (by decide) (by decide) (not_owned_bindings k),
    fun k1 k2 => keep .rehearsal (by decide) (by decide) (not_owned_rehearsal k1 k2),
    fun k1 k2 => keep .permission (by decide) (by decide) (not_owned_permission k1 k2),
    fun k => keep .period (by decide) (by decide) (not_owned_period k),
    fun k1 k2 => keep .receivers (by decide) (by decide) (not_owned_receivers k1 k2),
    fun k hf => ?_, fun hi => ⟨fun k1 k2 => keep .linTables (by decide) (by decide) (not_owned_linTables hi k1 k2),
      fun k => ?_, fun k => keep .levels (by decide) (by decide) (not_owned_levels hi k),
      fun k1 k2 => (keep .measured (by decide) (by decide) (not_owned_measured hi k1 k2)).1,
      fun k1 k2 => keep .mains (by decide) (by decide) (not_owned_mains hi k1 k2)⟩⟩
  · by_cases hc : (∃ seq, c = .zeroArrival seq) ∨ ∃ p, c = .inject p
    · exact exec_baseCut hs hc hf h
    · exact keep .baseCut (by decide) (by decide)
        (not_owned_baseCut k (fun seq he => hc (.inl ⟨seq, he⟩)) fun p he => hc (.inr ⟨p, he⟩))
  · obtain ⟨ha, hg⟩ := keep .output (by decide) (by decide) (not_owned_output hi k)
    exact ⟨ha, hg, fun k' => keep .tare (by decide) (by decide) (not_owned_tare hi k k')⟩

end Sys2Proof.Proofs
end

