-- ==== Sys2Proof/Proofs/LaneInvariant.lean ====
section
/-! No queue or lane overflows (R146, R148, R157, R158): a request is taken only with room for what it adds, and adds at
most one answer. -/

namespace Sys2Proof.Machine

/-- Nothing is added to a queue or lane. -/
def LanesShrink (s t : State) : Prop :=
  t.ctl.queue.length ≤ s.ctl.queue.length ∧ t.report.answers.length ≤ s.report.answers.length ∧
    t.report.readings.length ≤ s.report.readings.length ∧ t.drive.passQueue.length ≤ s.drive.passQueue.length

/-- At most one answer is added, and nothing to a queue or to the readings. -/
def Answers (s t : State) : Prop :=
  t.ctl.queue.length ≤ s.ctl.queue.length ∧ t.report.answers.length ≤ s.report.answers.length + 1 ∧
    t.report.readings.length ≤ s.report.readings.length ∧ t.drive.passQueue.length ≤ s.drive.passQueue.length

/-- A footprint without queues and lanes. -/
abbrev NoLanes (F : List Part) : Prop := .lanes ∉ F ∧ .queue ∉ F ∧ .passQueue ∉ F

theorem Within.shrinks {F : List Part} {s t : State} (h : Within F s t) (hF : NoLanes F) : LanesShrink s t := by
  obtain ⟨ha, hr, -⟩ := h .lanes hF.1
  have hq : t.ctl.queue = s.ctl.queue := h .queue hF.2.1
  have hp : t.drive.passQueue = s.drive.passQueue := h .passQueue hF.2.2
  rw [LanesShrink, ha, hr, hq, hp]
  exact ⟨le_rfl, le_rfl, le_rfl, le_rfl⟩

theorem LanesShrink.trans {s t u : State} (h : LanesShrink s t) (k : LanesShrink t u) : LanesShrink s u :=
  ⟨k.1.trans h.1, k.2.1.trans h.2.1, k.2.2.1.trans h.2.2.1, k.2.2.2.trans h.2.2.2⟩

theorem LanesShrink.bounded {s t : State} (h : LanesShrink s t) (hs : s.lanesBounded) : t.lanesBounded :=
  ⟨h.1.trans hs.1, h.2.1.trans hs.2.1, h.2.2.1.trans hs.2.2.1, h.2.2.2.trans hs.2.2.2⟩

theorem Answers.bounded {s t : State} (h : Answers s t) (hs : s.lanesBounded) (room : s.report.answers.length < 4) :
    t.lanesBounded := ⟨h.1.trans hs.1, h.2.1.trans room, h.2.2.1.trans hs.2.2.1, h.2.2.2.trans hs.2.2.2⟩

theorem LanesShrink.answers {s t : State} (h : LanesShrink s t) : Answers s t :=
  ⟨h.1, h.2.1.trans (Nat.le_succ _), h.2.2.1, h.2.2.2⟩

/-- An answer after an operation that adds nothing. -/
theorem LanesShrink.answer {s t : State} (h : LanesShrink s t) (tag : Byte) (st : Status) (content : List Byte) :
    Answers s (t.answer tag st content) := by
  refine ⟨h.1, ?_, h.2.2.1, h.2.2.2⟩
  have hl : (t.answer tag st content).report.answers.length = t.report.answers.length + 1 := by simp [State.answer]
  rw [hl]
  exact Nat.succ_le_succ h.2.1

theorem Answers.andThen {s t u : State} (h : Answers s t) (k : LanesShrink t u) : Answers s u :=
  ⟨k.1.trans h.1, k.2.1.trans h.2.1, k.2.2.1.trans h.2.2.1, k.2.2.2.trans h.2.2.2⟩

theorem LanesShrink.refl (s : State) : LanesShrink s s := ⟨le_rfl, le_rfl, le_rfl, le_rfl⟩

theorem State.answer_answers (s : State) (tag : Byte) (st : Status) (content : List Byte) :
    Answers s (s.answer tag st content) := (LanesShrink.refl s).answer tag st content

/-- A request that refuses under a condition, and else does what its taking does. -/
theorem Answers.guarded {s t : State} {c : Prop} [Decidable c] (tag : Byte) (st : Status) (k : ¬ c → Answers s t) :
    Answers s (if c then s.answer tag st [] else t) := by
  split
  · exact s.answer_answers tag st []
  · next h => exact k h

theorem Act.shrinks {F : List Part} {s t : State} (h : Act F s t) (hF : NoLanes F) : LanesShrink s t :=
  h.within.shrinks hF

/-! ### Table requests -/

theorem takeStepWrite_answers (tag : Byte) (body : List Byte) (s : State) : Answers s (takeStepWrite tag body s) := by
  refine .guarded tag _ fun _ => .guarded tag _ fun _ => ?_
  split
  · exact s.answer_answers tag _ _
  · next r _ =>
    split
    · have h0 : Answers s ((s.storeStep (byteAt body 0) r.stored).answer tag .ok []) :=
        ((s.withSteps_within _).shrinks (by decide)).answer tag .ok []
      unfold State.starvedWrite
      split
      · exact h0.andThen ((State.keepHolds_within _ _).shrinks (by decide))
      · exact h0
    · exact s.answer_answers tag _ _

theorem takeStepRead_answers (tag : Byte) (body : List Byte) (s : State) : Answers s (takeStepRead tag body s) :=
  .guarded tag _ fun _ => s.answer_answers _ _ _

theorem takeWriteLin_answers (tag : Byte) (t : LinTable) (body : List Byte) (s : State) :
    Answers s (takeWriteLin tag t body s) := by
  refine .guarded tag _ fun _ => .guarded tag _ fun _ => .guarded tag _ fun _ => LanesShrink.answer ?_ _ _ _
  cases t <;> exact .refl s

theorem takeReadLin_answers (tag : Byte) (t : LinTable) (body : List Byte) (s : State) :
    Answers s (takeReadLin tag t body s) :=
  .guarded tag _ fun _ => .guarded tag _ fun _ => s.answer_answers _ _ _

theorem takeWritePattern_answers (tag : Byte) (body : List Byte) (s : State) :
    Answers s (takeWritePattern tag body s) :=
  .guarded tag _ fun _ => .guarded tag _ fun _ => .guarded tag _ fun _ =>
    LanesShrink.answer (t := s.withPatterns _) (.refl s) _ _ _

theorem takeReadPattern_answers (tag : Byte) (body : List Byte) (s : State) : Answers s (takeReadPattern tag body s) :=
  .guarded tag _ fun _ => .guarded tag _ fun _ => s.answer_answers _ _ _

theorem takeWriteBind_answers (tag : Byte) (body : List Byte) (s : State) : Answers s (takeWriteBind tag body s) := by
  refine .guarded tag _ fun _ => ?_
  split
  · exact s.answer_answers tag _ _
  · exact .guarded tag _ fun _ => LanesShrink.answer (t := s.withLines _) (.refl s) _ _ _

theorem takeReadBind_answers (tag : Byte) (body : List Byte) (s : State) : Answers s (takeReadBind tag body s) :=
  .guarded tag _ fun _ => .guarded tag _ fun _ => s.answer_answers _ _ _

/-- A calibration record stored and answered. -/
theorem State.calibrate_answers (s : State) (c : Calibration) (tag : Byte) :
    Answers s ((s.withCal c).calibrationChange.answer tag .ok []) :=
  ((s.calibrate_acts c).within.shrinks (by decide)).answer tag .ok []

theorem takeWriteCal_answers (tag : Byte) (body : List Byte) (s : State) : Answers s (takeWriteCal tag body s) := by
  refine .guarded tag _ fun _ => .guarded tag _ fun _ => .guarded tag _ fun _ => ?_
  dsimp only
  split
  · exact s.calibrate_answers _ tag
  · exact s.answer_answers tag _ _

theorem takeReadCal_answers (tag : Byte) (body : List Byte) (s : State) : Answers s (takeReadCal tag body s) :=
  .guarded tag _ fun _ => .guarded tag _ fun _ => s.answer_answers _ _ _

theorem State.replaceLimits_shrinks (s : State) (l : Limits) : LanesShrink s (s.replaceLimits l) := by
  unfold State.replaceLimits
  dsimp only
  (repeat' split) <;> exact .refl s

theorem takeWriteLimits_answers (tag : Byte) (body : List Byte) (s : State) : Answers s (takeWriteLimits tag body s) := by
  refine .guarded tag _ fun _ => .guarded tag _ fun _ => .guarded tag _ fun _ => ?_
  dsimp only
  split
  · exact (s.replaceLimits_shrinks _).answer tag .ok []
  · exact s.answer_answers tag _ _

theorem takeReadLimits_answers (tag : Byte) (body : List Byte) (s : State) : Answers s (takeReadLimits tag body s) :=
  .guarded tag _ fun _ => .guarded tag _ fun _ => s.answer_answers _ _ _

theorem takeGetState_answers (tag : Byte) (body : List Byte) (s : State) : Answers s (takeGetState tag body s) :=
  .guarded tag _ fun _ => (s.answer_answers tag .ok s.stateContent).andThen (u := (s.answer _ _ _).withChoices _) (.refl _)

theorem takeGetChain_answers (tag : Byte) (body : List Byte) (s : State) : Answers s (takeGetChain tag body s) :=
  .guarded tag _ fun _ => s.answer_answers _ _ _

/-! ### DO requests -/

theorem takeStart_answers (tag : Byte) (arg : List Byte) (s : State) : Answers s (takeStart tag arg s) := by
  refine .guarded tag _ fun _ => ?_
  by_cases hi : s.engine.state = .idle
  · refine .guarded tag _ fun _ => .guarded tag _ fun _ => ?_
    have h0 : Answers s ((s.answer tag .ok []).withEngine
        { s.engine with lastOutcome := none, recipeOutcome := none, previousTarget := 0 }) := s.answer_answers tag .ok []
    exact h0.andThen ((State.startStep_within _ _).shrinks (by decide))
  · exact .guarded tag _ fun h => absurd hi h

theorem takePause_answers (tag : Byte) (arg : List Byte) (s : State) : Answers s (takePause tag arg s) := by
  refine .guarded tag _ fun _ => ?_
  split
  iterate 2 exact (s.answer_answers tag .ok []).andThen ((State.addHold_within _ _).shrinks (by decide))
  all_goals exact s.answer_answers tag _ _

theorem takeResume_answers (tag : Byte) (arg : List Byte) (s : State) : Answers s (takeResume tag arg s) := by
  refine .guarded tag _ fun _ => .guarded tag _ fun _ => ?_
  split
  · exact (s.answer_answers tag .ok []).andThen ((State.unpause_acts _).within.shrinks (by decide))
  · exact s.answer_answers tag _ _

theorem takeSkip_answers (tag : Byte) (arg : List Byte) (s : State) : Answers s (takeSkip tag arg s) := by
  refine .guarded tag _ fun _ => ?_
  split
  · exact (s.answer_answers tag .ok []).andThen ((State.endStep_within _ _).shrinks (by decide))
  all_goals exact s.answer_answers tag _ _

theorem takeStop_answers (tag : Byte) (arg : List Byte) (s : State) : Answers s (takeStop tag arg s) := by
  refine .guarded tag _ fun _ => ?_
  split
  iterate 2 exact (s.answer_answers tag .ok []).andThen ((State.enterEnding_within _ _).shrinks (by decide))
  all_goals exact s.answer_answers tag _ _

theorem takeExtend_answers (tag : Byte) (arg : List Byte) (s : State) : Answers s (takeExtend tag arg s) := by
  refine .guarded tag _ fun _ => ?_
  split
  · exact s.answer_answers tag _ _
  · split
    · exact s.answer_answers tag _ _
    · exact ((s.withSteps_within _).shrinks (by decide)).answer tag .ok []

theorem takeTare_answers (tag : Byte) (arg : List Byte) (s : State) : Answers s (takeTare tag arg s) := by
  refine .guarded tag _ fun _ => .guarded tag _ fun _ => ?_
  split
  · exact (s.takeTare_within.shrinks (by decide)).answer tag .ok []
  · exact LanesShrink.answer (t := s.withWeigh _) (.refl s) tag .ok []

theorem takeZeroCal_answers (tag : Byte) (arg : List Byte) (s : State) : Answers s (takeZeroCal tag arg s) :=
  .guarded tag _ fun _ => .guarded tag _ fun _ => .guarded tag _ fun _ => s.calibrate_answers _ tag

theorem takeSpanCal_answers (tag : Byte) (arg : List Byte) (s : State) : Answers s (takeSpanCal tag arg s) :=
  .guarded tag _ fun _ => .guarded tag _ fun _ => .guarded tag _ fun _ => .guarded tag _ fun _ =>
    .guarded tag _ fun _ => .guarded tag _ fun _ => s.calibrate_answers _ tag

theorem takeClear_answers (tag : Byte) (arg : List Byte) (s : State) : Answers s (takeClear tag arg s) :=
  .guarded tag _ fun _ => .guarded tag _ fun _ => .guarded tag _ fun _ =>
    ((Act.clearFault s).within.shrinks (by decide)).answer tag .ok []

theorem takeClearNotices_answers (tag : Byte) (arg : List Byte) (s : State) : Answers s (takeClearNotices tag arg s) := by
  refine .guarded tag _ fun _ => LanesShrink.answer ?_ tag .ok []
  dsimp only
  split <;> exact .refl s

theorem takeClearEdges_answers (tag : Byte) (arg : List Byte) (s : State) : Answers s (takeClearEdges tag arg s) :=
  .guarded tag _ fun _ => LanesShrink.answer (t := s.withLines _) (.refl s) tag .ok []

theorem takeClearCapture_answers (tag : Byte) (arg : List Byte) (s : State) : Answers s (takeClearCapture tag arg s) :=
  .guarded tag _ fun _ => LanesShrink.answer (t := s.withLines _) (.refl s) tag .ok []

theorem takeSupervise_answers (tag : Byte) (arg : List Byte) (s : State) : Answers s (takeSupervise tag arg s) :=
  .guarded tag _ fun _ => .guarded tag _ fun _ => LanesShrink.answer (t := s.withCtl _) (.refl s) tag .ok []

theorem takeRehearse_answers (tag : Byte) (arg : List Byte) (s : State) : Answers s (takeRehearse tag arg s) := by
  refine .guarded tag _ fun _ => .guarded tag _ fun _ => ?_
  dsimp only
  split
  · exact s.answer_answers tag _ _
  · exact LanesShrink.answer (t := (s.withCtl _).withIntake _) (.refl s) tag .ok []

theorem State.softReset_lanes (s : State) : s.softReset.ctl.queue = [] ∧ s.softReset.report.answers = [] ∧
    s.softReset.report.readings = [] ∧ s.softReset.drive.passQueue = [] := by
  unfold State.softReset State.handSpin State.lockRequest
  dsimp only
  exact ⟨rfl, rfl, rfl, rfl⟩

theorem State.softReset_shrinks (s : State) : LanesShrink s s.softReset := by
  obtain ⟨h1, h2, h3, h4⟩ := s.softReset_lanes
  rw [LanesShrink, h1, h2, h3, h4]
  exact ⟨Nat.zero_le _, Nat.zero_le _, Nat.zero_le _, Nat.zero_le _⟩

theorem takeReset_answers (tag : Byte) (arg : List Byte) (s : State) : Answers s (takeReset tag arg s) := by
  refine .guarded tag _ fun _ => ?_
  have h := s.softReset_shrinks.answer tag .ok []
  generalize s.softReset = u at h ⊢
  exact h

/-! ### A request carried out -/

theorem takeEntryWrite_answers (tag : Byte) (body : List Byte) (s : State) : Answers s (takeEntryWrite tag body s) := by
  unfold takeEntryWrite takeEntry
  split
  · exact s.answer_answers tag _ _
  · split
    iterate 3 exact takeWriteLin_answers tag _ _ s
    · exact takeWritePattern_answers tag _ s
    · exact takeWriteBind_answers tag _ s
    · exact takeWriteCal_answers tag _ s
    · exact takeWriteLimits_answers tag _ s
    · exact s.answer_answers tag _ _

theorem takeEntryRead_answers (tag : Byte) (body : List Byte) (s : State) : Answers s (takeEntryRead tag body s) := by
  unfold takeEntryRead takeEntry
  split
  · exact s.answer_answers tag _ _
  · split
    iterate 3 exact takeReadLin_answers tag _ _ s
    · exact takeReadPattern_answers tag _ s
    · exact takeReadBind_answers tag _ s
    · exact takeReadCal_answers tag _ s
    · exact takeReadLimits_answers tag _ s
    · exact s.answer_answers tag _ _

theorem takeDo_answers (tag : Byte) (body : List Byte) (s : State) : Answers s (takeDo tag body s) := by
  unfold takeDo
  split
  · exact s.answer_answers tag _ _
  · next code arg =>
    split
    · exact takeStart_answers tag arg s
    · exact takePause_answers tag arg s
    · exact takeResume_answers tag arg s
    · exact takeSkip_answers tag arg s
    · exact takeStop_answers tag arg s
    · exact takeExtend_answers tag arg s
    · exact takeTare_answers tag arg s
    · exact takeZeroCal_answers tag arg s
    · exact takeSpanCal_answers tag arg s
    · exact takeClear_answers tag arg s
    · exact takeClearNotices_answers tag arg s
    · exact takeClearEdges_answers tag arg s
    · exact takeClearCapture_answers tag arg s
    · exact takeReset_answers tag arg s
    · exact takeSupervise_answers tag arg s
    · exact takeRehearse_answers tag arg s
    · exact s.answer_answers tag _ _

theorem takeTagged_answers {act : Byte → List Byte → State → State} {s : State}
    (h : ∀ tag body, Answers s (act tag body s)) (payload : List Byte) : Answers s (takeTagged payload act s) := by
  cases payload with
  | nil => exact ((s.raise_within .link).shrinks (by decide)).answers
  | cons tag body => exact h tag body

/-- A request other than PASS adds at most one answer. -/
theorem carryOut_answers {r : Request} (hp : r.kind ≠ .pass) (s : State) : Answers s (carryOut r s) := by
  unfold carryOut
  split
  · exact takeTagged_answers (fun tag body => takeStepWrite_answers tag body s) _
  · exact takeTagged_answers (fun tag body => takeStepRead_answers tag body s) _
  · exact takeTagged_answers (fun tag body => takeEntryWrite_answers tag body s) _
  · exact takeTagged_answers (fun tag body => takeEntryRead_answers tag body s) _
  · exact takeTagged_answers (fun tag body => takeDo_answers tag body s) _
  · exact ((s.injectFrame_within _).shrinks (by decide)).answers
  · next hk => exact absurd hk hp
  · exact takeTagged_answers (fun tag body => takeGetState_answers tag body s) _
  · exact takeTagged_answers (fun tag body => takeGetChain_answers tag body s) _

/-- A request carried out leaves no longer command queue. -/
theorem carryOut_queue_le (r : Request) (s : State) : (carryOut r s).ctl.queue.length ≤ s.ctl.queue.length := by
  by_cases hp : r.kind = .pass
  · unfold carryOut
    rw [hp]
    exact le_rfl
  · exact (carryOut_answers hp s).1

/-- A request taken with room for it overflows no lane. -/
theorem carryOut_bounded {r : Request} {s : State} (room : s.canTake r = true) (h : s.lanesBounded) :
    (carryOut r s).lanesBounded := by
  by_cases hp : r.kind = .pass
  · have hl : s.drive.passQueue.length < 4 := by simpa [State.canTake, hp] using room
    obtain ⟨h1, h2, h3, -⟩ := h
    unfold carryOut
    rw [hp]
    refine ⟨h1, h2, h3, ?_⟩
    have hs : (s.drive.passQueue ++ [r.payload]).length = s.drive.passQueue.length + 1 := by simp
    exact hs.trans_le hl
  · by_cases hi : r.kind = .inject
    · unfold carryOut
      rw [hi]
      exact ((s.injectFrame_within _).shrinks (by decide)).bounded h
    · refine (carryOut_answers hp s).bounded h ?_
      unfold State.canTake at room
      split at room
      · next hk => exact absurd hk hi
      · next hk => exact absurd hk hp
      · split at room
        · have he : s.report.answers = [] := List.isEmpty_iff.1 room
          rw [he]; decide
        · exact of_decide_eq_true room
      all_goals exact of_decide_eq_true room

/-! ### What follows an event -/

theorem State.pickDrive_shrinks (s : State) : LanesShrink s s.pickDrive := by
  unfold State.pickDrive
  dsimp only
  split
  · exact .refl s
  · split
    · exact .refl s
    · split
      · exact .refl s
      · split
        · exact .refl s
        · split
          · exact .refl s
          · next hq => exact ⟨le_rfl, le_rfl, le_rfl, by rw [hq]; exact Nat.le_succ _⟩

theorem State.pickUpstream_shrinks (s : State) : LanesShrink s s.pickUpstream := by
  have ha : ∀ a rest (r : Report), s.report.answers = a :: rest → r.answers = rest → r.readings = s.report.readings →
      LanesShrink s (s.withReport r) := fun a rest r h1 h2 h3 =>
    ⟨le_rfl, by rw [h1]; exact (congrArg List.length h2).trans_le (Nat.le_succ _), (congrArg List.length h3).le, le_rfl⟩
  unfold State.pickUpstream
  dsimp only
  split
  · exact .refl s
  · split
    · split
      · next hq => exact ha _ _ _ hq rfl rfl
      · exact .refl s
    · split
      · exact .refl s
      · split
        · exact .refl s
        · split
          · exact .refl s
          · split
            · next hq => exact ha _ _ _ hq rfl rfl
            · split
              · next hq => exact ⟨le_rfl, le_rfl, by rw [hq]; exact Nat.le_succ _, le_rfl⟩
              · exact .refl s

theorem State.picks_shrinks (s : State) : LanesShrink s s.picks := s.pickDrive_shrinks.trans (State.pickUpstream_shrinks _)

theorem Control.dequeue_queue (c : Control) (rest : List Request) : (c.dequeue rest).queue = rest := by
  unfold Control.dequeue Control.signalGo Control.placeFlow
  dsimp only
  (repeat' split) <;> rfl

theorem settleWith_bounded : ∀ (n : Nat) {s : State}, s.lanesBounded → (settleWith n s).lanesBounded
  | 0, s, h => s.picks_shrinks.bounded h
  | n + 1, s, h => by
    have hp := s.picks_shrinks.bounded h
    unfold settleWith
    dsimp only
    split
    · exact hp
    · next r rest hq =>
      split
      · next room =>
        obtain ⟨h1, h2, h3, h4⟩ := hp
        refine settleWith_bounded n (carryOut_bounded room ⟨?_, h2, h3, h4⟩)
        have hl : (s.picks.ctl.dequeue rest).queue.length ≤ s.picks.ctl.queue.length := by
          rw [Control.dequeue_queue, hq]; exact Nat.le_succ _
        exact hl.trans h1
      · exact hp

theorem State.settle_bounded {s : State} (h : s.lanesBounded) : s.settle.lanesBounded := settleWith_bounded _ h

/-! ### Every command and every timer -/

theorem State.enqueue_bounded {s : State} (r : Request) (h : s.lanesBounded) : (s.enqueue r).lanesBounded := by
  obtain ⟨h1, h2, h3, h4⟩ := h
  unfold State.enqueue
  split
  · next hq =>
    refine ⟨?_, h2, h3, h4⟩
    have hl : ({ s.ctl with queue := s.ctl.queue ++ [r] } : Control).waitMark.queue.length = s.ctl.queue.length + 1 := by
      rw [(Control.waitMark_keeps _).1]; simp
    exact hl.trans_le hq
  · have hk : Within [.ctl, .pendingSet] s ((s.withCtl { s.ctl with overrun := true }).raise .link) :=
      (Within.first (State.withCtl_watch_within (by simp)) (by decide)).andThen (State.raise_within _ _) (by decide)
    exact (hk.shrinks (by decide)).bounded ⟨h1, h2, h3, h4⟩

theorem State.controlFrame_bounded {s : State} (kind : Byte) (payload : List Byte) (h : s.lanesBounded) :
    (s.controlFrame kind payload).lanesBounded := by
  have hs : s.hostSeen.lanesBounded := (s.hostSeen_within.shrinks (by decide)).bounded h
  have hf : ∀ f, (s.hostSeen.hostFlow f).lanesBounded := fun f =>
    ((State.hostFlow_within _ f).shrinks (by decide)).bounded hs
  unfold State.controlFrame
  dsimp only
  split
  · exact hf _
  · split
    · exact hf _
    · split
      · exact State.enqueue_bounded _ hs
      · exact ((State.raise_within _ _).shrinks (by decide)).bounded hs

theorem State.senseFrame_shrinks (s : State) (kind : Byte) (payload : List Byte) :
    LanesShrink s (s.senseFrame kind payload) := by
  unfold State.senseFrame
  split
  · exact .refl s
  · exact (s.intakeFrame_within kind payload).shrinks (by decide)

theorem State.setReceiver_shrinks (s : State) (rx : Rx) (x : Receiver) : LanesShrink s (s.setReceiver rx x) :=
  (s.setReceiver_within rx x).shrinks (by decide)

theorem State.discardFrame_shrinks (s : State) (rx : Rx) : LanesShrink s (s.discardFrame rx) :=
  (s.discardFrame_within rx).shrinks (by decide)

theorem State.byteArrives_bounded {s : State} (rx : Rx) (b : Byte) (h : s.lanesBounded) :
    (s.byteArrives rx b).lanesBounded := by
  unfold State.byteArrives
  dsimp only
  split
  · exact (s.setReceiver_shrinks rx _).bounded h
  · exact (s.setReceiver_shrinks rx _).bounded h
  · split
    · exact (s.discardFrame_shrinks rx).bounded h
    · exact (s.setReceiver_shrinks rx _).bounded h
  · exact (s.setReceiver_shrinks rx _).bounded h
  · split
    · have hh := (s.setReceiver_shrinks rx .hunting).bounded h
      cases rx
      · exact (State.senseFrame_shrinks _ _ _).bounded hh
      · exact State.controlFrame_bounded _ _ hh
    · exact (s.discardFrame_shrinks rx).bounded h

/-- A reading lane of at most four holds at most four after a reading joins it. -/
theorem appendReading_length {lane : List Frame} (h : lane.length ≤ 4) (f : Frame) :
    (appendReading lane f).length ≤ 4 := by
  unfold appendReading
  split
  · simp; omega
  · simp; omega

theorem State.readingExpires_bounded {s : State} (h : s.lanesBounded) : s.readingExpires.lanesBounded :=
  ⟨h.1, h.2.1, appendReading_length h.2.2.1 _, h.2.2.2⟩

theorem touches_noLanes {c : Instr} (h : isEvent c) (hr : c ≠ .readingInterval) (hu : c ≠ .upstreamSendComplete) :
    NoLanes (touches c) := by
  obtain ⟨-, h1, -⟩ := h
  cases c
  case readingInterval => exact absurd rfl hr
  case upstreamSendComplete => exact absurd rfl hu
  all_goals first
    | exact absurd h1 (Option.some_ne_none _)
    | (dsimp only [touches]; decide)

theorem exec_bounded {c : Instr} {s t : State} (h : s.lanesBounded) (he : exec c s = .next t) : t.lanesBounded := by
  have done : ∀ u : State, exec c s = .next u.settle → u.lanesBounded → t.lanesBounded := by
    intro u hu hb
    rw [hu] at he
    cases he
    exact State.settle_bounded hb
  cases hr : requestOf c with
  | some r => exact done _ (exec_request hr s) (s.enqueue_bounded r h)
  | none =>
    have other : isEvent c → c ≠ .readingInterval → c ≠ .upstreamSendComplete → c.wellFormed = true → t.lanesBounded := by
      intro hc h1 h2 hw
      obtain ⟨u, hu, hW⟩ := exec_within hc hw s
      exact done u hu ((hW.shrinks (touches_noLanes hc h1 h2)).bounded h)
    cases c
    case powerOnReset => cases he; exact (by unfold State.lanesBounded; decide : State.reset.lanesBounded)
    case sampleFormDiscard kind payload => exact done _ rfl ((s.senseFrame_shrinks _ _).bounded h)
    case misplacedFrame kind payload => exact done _ rfl (State.controlFrame_bounded _ _ h)
    case requestArrival kind payload =>
      exact done _ rfl (State.enqueue_bounded _ ((s.hostSeen_within.shrinks (by decide)).bounded h))
    case byteArrival rx b => exact done _ rfl (State.byteArrives_bounded rx b h)
    case readingInterval => exact done _ rfl (State.readingExpires_bounded h)
    case upstreamSendComplete => exact done (s.withReport _) rfl h
    all_goals first
      | exact absurd hr (Option.some_ne_none _)
      | exact other ⟨by simp, rfl, by simp, by simp⟩ (by simp) (by simp) rfl

/-- One millisecond at a timer other than the reading count adds nothing to a lane. -/
theorem State.timerTick_bounded {s : State} (x : Timer) (h : s.lanesBounded) : (s.timerTick x).lanesBounded := by
  have go : ∀ {F : List Part} {u : State}, Acts F s u → NoLanes F → u.settle.lanesBounded := fun ha hF =>
    State.settle_bounded ((ha.within.shrinks hF).bounded h)
  cases x with
  | step => exact go s.stepTick_acts (by decide)
  | ramp => exact go s.rampTick_acts (by decide)
  | phase => exact go s.phaseTick_acts (by decide)
  | stirRamp => exact go s.stirRampTick_acts (by decide)
  | lock => exact go s.lockTick_acts (by decide)
  | coolDown => exact go s.coolDownTick_acts (by decide)
  | stream k => exact go (s.streamTick_acts k) (by cases k <;> decide)
  | watch => exact go s.watchTick_acts (by decide)
  | reading =>
    refine State.settle_bounded ?_
    change s.readingTick.lanesBounded
    unfold State.readingTick
    split
    · exact State.readingExpires_bounded h
    · exact h
  | spin => exact go s.spinTick_acts (by decide)
  | latch => exact go s.latchTick_acts (by decide)
  | gap rx =>
    refine State.settle_bounded (LanesShrink.bounded (s := s) ?_ h)
    unfold State.gapTick State.gapTimeout
    dsimp only
    (repeat' split)
    · exact .refl s
    · exact s.discardFrame_shrinks rx
    · exact s.setReceiver_shrinks rx _

theorem State.tick_bounded {s : State} (h : s.lanesBounded) : s.tick.lanesBounded := by
  have go : ∀ (order : List Timer) (u : State), u.lanesBounded → (u.tickIn order).lanesBounded := by
    intro order
    induction order with
    | nil => exact fun _ hu => hu
    | cons x xs ih => exact fun u hu => ih _ (State.timerTick_bounded x hu)
  exact go _ _ h

end Sys2Proof.Machine

namespace Sys2Proof.Proofs
open Sys2Proof.Machine

/-- Settles O6: what a command or a timer adds finds room, and each taking has its own room before it. -/
theorem stepKeepsLanes : Obligations.StepKeepsLanes := by
  intro s t h hs
  unfold step at hs
  split at hs
  · cases hs
    exact State.tick_bounded h
  · next c rest _ => exact exec_bounded (s := s.withPending rest) h hs

end Sys2Proof.Proofs
end

