-- ==== Sys2Proof/Proofs/Taking.lean ====
section
/-! A request taken at once (R150; log 4): what its answer and its effect come to, with the picks before and after it put
aside. -/

namespace Sys2Proof.Machine

/-! ### Content through the operations of the state -/

@[simp] theorem State.content_withPending (s : State) (x : List Instr) :
    (s.withPending x).content = s.content.withPending x := rfl
@[simp] theorem State.content_withChoices (s : State) (n : Nat) : (s.withChoices n).content = s.content.withChoices n := rfl
@[simp] theorem State.content_withSteps (s : State) (x : Vector StepRecord 256) :
    (s.withSteps x).content = s.content.withSteps x := rfl
@[simp] theorem State.content_withEngine (s : State) (x : Engine) : (s.withEngine x).content = s.content.withEngine x := rfl
@[simp] theorem State.content_withPool (s : State) (x : Pool) : (s.withPool x).content = s.content.withPool x := rfl
@[simp] theorem State.content_withWeigh (s : State) (x : Weigh) : (s.withWeigh x).content = s.content.withWeigh x := rfl
@[simp] theorem State.content_withCal (s : State) (x : Calibration) : (s.withCal x).content = s.content.withCal x := rfl
@[simp] theorem State.content_withBase (s : State) (x : Channel) : (s.withBase x).content = s.content.withBase x := rfl
@[simp] theorem State.content_withFood (s : State) (x : Channel) : (s.withFood x).content = s.content.withFood x := rfl
@[simp] theorem State.content_withBoard (s : State) (x : Channel) : (s.withBoard x).content = s.content.withBoard x := rfl
@[simp] theorem State.content_withReg (s : State) (x : Regulator) : (s.withReg x).content = s.content.withReg x := rfl
@[simp] theorem State.content_withLimits (s : State) (x : Limits) : (s.withLimits x).content = s.content.withLimits x := rfl
@[simp] theorem State.content_withSched (s : State) (x : Scheduler) : (s.withSched x).content = s.content.withSched x := rfl
@[simp] theorem State.content_withPatterns (s : State) (x : Vector Pattern 16) :
    (s.withPatterns x).content = s.content.withPatterns x := rfl
@[simp] theorem State.content_withStir (s : State) (x : Stir) : (s.withStir x).content = s.content.withStir x := rfl
@[simp] theorem State.content_withLines (s : State) (x : Lines) : (s.withLines x).content = s.content.withLines x := rfl
@[simp] theorem State.content_withLock (s : State) (x : Lock) : (s.withLock x).content = s.content.withLock x := rfl
@[simp] theorem State.content_withIntake (s : State) (x : Intake) : (s.withIntake x).content = s.content.withIntake x := rfl

/-- An answer changes no content. -/
@[simp] theorem State.answer_content (s : State) (tag : Byte) (st : Status) (bytes : List Byte) :
    (s.answer tag st bytes).content = s.content := rfl

theorem State.content_withCtl (s : State) (c : Control) : (s.withCtl c).content = s.content.withCtl c.content := rfl

theorem State.content_withReport (s : State) (r : Report) : (s.withReport r).content = s.content.withReport r.content := rfl

theorem State.content_withDrive (s : State) (d : Drive) : (s.withDrive d).content = s.content.withDrive d.content := rfl

theorem State.picks_ctl_content (s : State) : s.picks.ctl.content = s.ctl.content := by
  obtain ⟨d, c, r, h, -, hc, -⟩ := s.picks_eq
  rw [h]; exact hc

/-- States of one content agree in the parts that the content shows. -/
theorem State.content_report {s t : State} (h : s.content = t.content) : s.report.content = t.report.content := by
  have e := congrArg State.report h
  exact e

theorem Report.raise_content {r q : Report} (n : Notice) (h : r.content = q.content) :
    (r.raise n).content = (q.raise n).content := by
  have e := congrArg Report.pendingSet h
  have hp : r.pendingSet = q.pendingSet := e
  have hi : r.isPending n = q.isPending n := by rw [Report.isPending, Report.isPending, hp]
  unfold Report.raise
  rw [hi]
  split
  · exact h
  · simp only [Report.content, Report.mk.injEq] at h ⊢
    simp [h]

/-- A raise at states of one content leaves states of one content. -/
theorem State.raise_content {s t : State} (n : Notice) (h : s.content = t.content) :
    (s.raise n).content = (t.raise n).content := by
  rw [State.raise, State.raise, State.content_withReport, State.content_withReport, h,
    Report.raise_content n (State.content_report h)]

/-- What a raise leaves of the report unit but for the pending set and the announce flag. -/
theorem State.raise_lanes (s : State) (n : Notice) : (s.raise n).report.answers = s.report.answers ∧
    (s.raise n).report.readings = s.report.readings ∧ (s.raise n).report.sending = s.report.sending := by
  unfold State.raise Report.raise
  split <;> exact ⟨rfl, rfl, rfl⟩

/-! ### What does not read the links reads the same after the picks -/

theorem State.picks_reads {α : Type} (f : State → α)
    (hf : ∀ (s : State) d c r, f (((s.withDrive d).withCtl c).withReport r) = f s) (s : State) : f s.picks = f s := by
  obtain ⟨d, c, r, h, -⟩ := s.picks_eq
  rw [h, hf]

@[simp] theorem State.picks_step (s : State) (i : Nat) : s.picks.step i = s.step i :=
  State.picks_reads (fun u => u.step i) (fun _ _ _ _ => rfl) s
@[simp] theorem State.picks_pattern (s : State) (i : Nat) : s.picks.pattern i = s.pattern i :=
  State.picks_reads (fun u => u.pattern i) (fun _ _ _ _ => rfl) s
@[simp] theorem State.picks_stepInProgress (s : State) : s.picks.stepInProgress = s.stepInProgress :=
  State.picks_reads State.stepInProgress (fun _ _ _ _ => rfl) s
@[simp] theorem State.picks_patternInUse (s : State) : s.picks.patternInUse = s.patternInUse :=
  State.picks_reads State.patternInUse (fun _ _ _ _ => rfl) s
@[simp] theorem State.picks_causePresent (s : State) : s.picks.causePresent = s.causePresent :=
  State.picks_reads State.causePresent (fun _ _ _ _ => rfl) s
@[simp] theorem State.picks_ready (s : State) : s.picks.ready = s.ready :=
  State.picks_reads State.ready (fun _ _ _ _ => rfl) s
@[simp] theorem State.picks_driftBase (s : State) : s.picks.driftBase = s.driftBase :=
  State.picks_reads State.driftBase (fun _ _ _ _ => rfl) s
@[simp] theorem State.picks_linChannel (s : State) (t : LinTable) : s.picks.linChannel t = s.linChannel t :=
  State.picks_reads (fun u => u.linChannel t) (fun _ _ _ _ => rfl) s
@[simp] theorem State.picks_isPending (s : State) (n : Notice) : s.picks.report.isPending n = s.report.isPending n := by
  rw [Report.isPending, Report.isPending, State.picks_report_pendingSet]

/-! ### A request taken at once -/

/-- The kinds whose taking needs room in the answer lane and no more. -/
def Request.plain (r : Request) : Bool := r.kind != .pass && !r.isReset

/-- With room for an answer a request other than PASS and RESET can be taken, after the picks too. -/
theorem State.free.canTake {s : State} (hs : s.free) {r : Request} (hr : r.plain = true) : s.picks.canTake r = true := by
  have hl : s.picks.report.answers.length < 4 := s.picks_answers_le.trans_lt hs.2
  simp only [Request.plain, Bool.and_eq_true, bne_iff_ne, ne_eq, Bool.not_eq_true'] at hr
  obtain ⟨hp, hn⟩ := hr
  unfold State.canTake
  split <;> simp_all

/-- With an empty answer lane every request other than PASS can be taken, after the picks too. -/
theorem State.canTake_of_empty {s : State} (ha : s.report.answers = []) {r : Request} (hr : r.kind ≠ .pass) :
    s.picks.canTake r = true := by
  have hl : s.picks.report.answers = [] := by
    have h := s.picks_answers_le
    rw [ha] at h
    exact List.eq_nil_of_length_eq_zero (Nat.le_zero.1 h)
  unfold State.canTake
  split <;> simp_all

/-- With no request waiting and room, a request row takes its request at once. -/
theorem exec_taken {c : Instr} {r : Request} {s : State} (hc : requestOf c = some r) (hs : s.calm)
    (room : s.picks.canTake r = true) : exec c s = .next (carryOut r s.picks).picks := by
  rw [exec_request hc]
  exact congrArg _ (State.request_taken hs room)

/-- A request that ends in an answer, taken at once. -/
theorem State.answers_of {c : Instr} {r : Request} {s u : State} {tag : Byte} {st : Status} {bytes : List Byte}
    (hc : requestOf c = some r) (hs : s.calm) (room : s.picks.canTake r = true)
    (h : carryOut r s.picks = u.answer tag st bytes) :
    ∃ t, exec c s = .next t ∧ t.content = u.content ∧ t.answered (answerFrame tag st bytes) := by
  refine ⟨_, exec_taken hc hs room, ?_, State.picks_answered ?_⟩
  · rw [State.picks_content, h, State.answer_content]
  · rw [h]; simp [State.answer]

/-- A request refused at its taking. -/
theorem State.refuses_of {c : Instr} {r : Request} {s : State} {tag : Byte} {st : Status} (hc : requestOf c = some r)
    (hs : s.free) (hr : r.plain = true) (h : carryOut r s.picks = s.picks.answer tag st []) : s.refuses c tag st := by
  obtain ⟨t, h1, h2, h3⟩ := State.answers_of hc hs.1 (hs.canTake hr) h
  exact ⟨t, h1, h2.trans s.picks_content, h3⟩

/-- A request accepted at its taking. -/
theorem State.accepts_of {c : Instr} {r : Request} {s u x : State} {tag : Byte} {bytes : List Byte}
    (hc : requestOf c = some r) (hs : s.free) (hr : r.plain = true) (h : carryOut r s.picks = u.answer tag .ok bytes)
    (hx : u.content = x.content) : s.accepts c tag bytes x := by
  obtain ⟨t, h1, h2, h3⟩ := State.answers_of hc hs.1 (hs.canTake hr) h
  exact ⟨t, h1, h2.trans hx, h3⟩

end Sys2Proof.Machine
end

