-- ==== Sys2Proof/Proofs/Refusals.lean ====
section
/-! Requests refused for their form (R150, R151, R163) and engine commands refused by state (Table 2-5). -/

namespace Sys2Proof.Machine

/-- A busy upstream transmitter picks nothing. -/
theorem State.pickUpstream_busy {s : State} (h : s.report.sending.isSome = true) : s.pickUpstream = s := if_pos h

theorem State.pickDrive_report (s : State) : s.pickDrive.report = s.report := by
  obtain ⟨d, h, -⟩ := s.pickDrive_eq
  rw [h]; rfl

theorem State.picks_report_busy {s : State} (h : s.report.sending.isSome = true) : s.picks.report = s.report := by
  rw [State.picks, State.pickUpstream_busy (by rw [State.pickDrive_report]; exact h), State.pickDrive_report]

theorem State.hostSeen_free {s : State} (h : s.free) : s.hostSeen.free := h

/-- An arriving request taken at once: the watch restarts and the request is carried out. -/
theorem exec_arrival_taken {k : RequestKind} {payload : List Byte} {s : State} (hs : s.free)
    (hr : (Request.mk k payload).plain = true) :
    exec (.requestArrival k payload) s = .next (carryOut ⟨k, payload⟩ s.hostSeen.picks).picks :=
  congrArg _ (State.request_taken (s := s.hostSeen) hs.1 ((State.hostSeen_free hs).canTake hr))

/-- An arriving request that is answered and does nothing else. -/
theorem exec_arrival_answers {k : RequestKind} {payload : List Byte} {s : State} {tag : Byte} {st : Status}
    {bytes : List Byte} (hs : s.free) (hr : (Request.mk k payload).plain = true)
    (h : carryOut ⟨k, payload⟩ s.hostSeen.picks = s.hostSeen.picks.answer tag st bytes) :
    ∃ t, exec (.requestArrival k payload) s = .next t ∧ t.content = s.hostSeen.content ∧
      t.answered (answerFrame tag st bytes) := by
  refine ⟨_, exec_arrival_taken hs hr, ?_, State.picks_answered ?_⟩
  · rw [State.picks_content, h, State.answer_content, State.picks_content]
  · rw [h]; simp [State.answer]

/-- A table code above 6 is refused BAD_FIELD (R151). -/
theorem takeEntry_unknown {tag code : Byte} (h : 6 < code.toNat) (body : List Byte)
    (lin : LinTable → List Byte → State → State) (pattern bind cal limits : List Byte → State → State) (s : State) :
    takeEntry tag (code :: body) lin pattern bind cal limits s = s.answer tag .badField [] := by
  unfold takeEntry
  dsimp only
  split
  any_goals omega
  rfl

/-- A command word above 15 is refused BAD_FIELD (R152). -/
theorem takeDo_unknown {tag code : Byte} (h : 15 < code.toNat) (body : List Byte) (s : State) :
    takeDo tag (code :: body) s = s.answer tag .badField [] := by
  unfold takeDo
  dsimp only
  split
  any_goals omega
  rfl

/-- A request without a tag raises LINK (R150). -/
theorem carryOut_tagless {k : RequestKind} (hi : k ≠ .inject) (hp : k ≠ .pass) (s : State) :
    carryOut ⟨k, []⟩ s = s.raise .link := by
  cases k
  case inject => exact absurd rfl hi
  case pass => exact absurd rfl hp
  all_goals rfl

theorem plain_tagless {k : RequestKind} (hp : k ≠ .pass) : (Request.mk k []).plain = true := by
  cases k
  case pass => exact absurd rfl hp
  all_goals rfl

end Sys2Proof.Machine

namespace Sys2Proof.Proofs
open Sys2Proof.Machine

/-- Settles O60: the length test comes first in every taking, and an unknown code before it. -/
theorem wrongLengthRefused : Obligations.WrongLengthRefused := by
  intro s tag body table hs
  refine ⟨fun h => State.refuses_of rfl hs rfl (if_pos h), fun h c hc => ?_, fun h c hc => ?_,
    fun h => State.refuses_of rfl hs rfl (if_pos h), fun h => State.refuses_of rfl hs rfl (if_pos h),
    fun h => State.refuses_of rfl hs rfl (if_pos h), fun h c hc => ?_, fun h c hc => ?_, fun h ha => ?_,
    fun c hc => ⟨fun k hi hp => ?_, fun k payload status h => ?_⟩⟩
  · simp only [List.mem_cons, List.not_mem_nil, or_false] at hc
    rcases hc with rfl | rfl | rfl | rfl | rfl | rfl | rfl | rfl | rfl
    · exact State.refuses_of rfl hs rfl (if_pos h)
    · cases table <;> exact State.refuses_of rfl hs rfl (if_pos h)
    all_goals exact State.refuses_of rfl hs rfl (if_pos h)
  · simp only [List.mem_cons, List.not_mem_nil, or_false] at hc
    rcases hc with rfl | rfl | rfl
    · cases table <;> exact State.refuses_of rfl hs rfl (if_pos h)
    all_goals exact State.refuses_of rfl hs rfl (if_pos h)
  · simp only [List.mem_cons, List.not_mem_nil, or_false] at hc
    rcases hc with rfl | rfl | rfl <;> exact State.refuses_of rfl hs rfl (if_pos h)
  · simp only [List.mem_cons, List.not_mem_nil, or_false] at hc
    rcases hc with rfl | rfl | rfl | rfl | rfl | rfl | rfl | rfl | rfl | rfl <;>
      exact State.refuses_of rfl hs rfl (if_pos h)
  · obtain ⟨t, h1, h2, h3⟩ := State.answers_of (c := .doReset tag body) rfl hs.1
      (State.canTake_of_empty ha (r := ⟨.doCommand, tag :: 13 :: body⟩) (by simp)) (if_pos h)
    exact ⟨t, h1, h2.trans s.picks_content, h3⟩
  · subst hc
    have hr := plain_tagless hp
    refine ⟨_, exec_arrival_taken hs hr, ?_, fun hb => ?_⟩
    · rw [State.picks_content, carryOut_tagless hi hp]
      exact State.raise_content .link s.hostSeen.picks_content
    · rw [carryOut_tagless hi hp]
      have h0 : s.hostSeen.picks.report = s.report := State.picks_report_busy (s := s.hostSeen) hb
      obtain ⟨ha, -, hsend⟩ := s.hostSeen.picks.raise_lanes .link
      rw [h0] at ha hsend
      rw [State.picks_report_busy (by rw [hsend]; exact hb)]
      exact ⟨ha, hsend⟩
  · subst hc
    rcases h with ⟨rfl, ⟨code, hcode, rfl, rfl | rfl⟩ | ⟨code, hcode, rfl, rfl⟩⟩ | ⟨rfl, rfl, rfl | rfl | rfl⟩
    · exact exec_arrival_answers hs rfl (takeEntry_unknown hcode _ _ _ _ _ _ _)
    · exact exec_arrival_answers hs rfl (takeEntry_unknown hcode _ _ _ _ _ _ _)
    · have hp : (Request.mk .doCommand (tag :: code :: body)).plain = true := by
        have hn : code.toNat ≠ 13 := by omega
        simp [Request.plain, Request.isReset, hn]
      exact exec_arrival_answers hs hp (takeDo_unknown hcode _ _)
    all_goals exact exec_arrival_answers hs rfl rfl

/-- Settles O55: each refusal is the branch of its taking that the engine state picks. -/
theorem engineCommandRefusals : Obligations.EngineCommandRefusals := by
  intro s tag hi lo hs
  refine ⟨fun h => ⟨?_, ?_, ?_⟩, fun h => ?_, fun h => ?_, fun h k => ?_, fun h => ?_, fun i h hc hl => ?_, fun h => ?_,
    fun h hc => ?_⟩
  · refine State.refuses_of rfl hs rfl ?_
    change takePause tag [] s.picks = _
    rcases h with h | h | h <;> simp [takePause, h]
  · refine State.refuses_of rfl hs rfl ?_
    change takeStop tag [] s.picks = _
    rcases h with h | h | h <;> simp [takeStop, h]
  · refine State.refuses_of rfl hs rfl ?_
    change takeSkip tag [] s.picks = _
    rcases h with h | h | h <;> simp [takeSkip, h]
  · refine State.refuses_of rfl hs rfl ?_
    change takeSkip tag [] s.picks = _
    simp [takeSkip, h]
  · refine State.refuses_of rfl hs rfl ?_
    change takeResume tag [] s.picks = _
    simp [takeResume, h]
  · refine State.refuses_of rfl hs rfl ?_
    change takeResume tag [] s.picks = _
    simp [takeResume, h, show s.engine.holds ≠ .pauseOnly from k]
  · refine State.refuses_of rfl hs rfl ?_
    change takeExtend tag [hi, lo] s.picks = _
    simp [takeExtend, h]
  · refine State.refuses_of rfl hs rfl ?_
    change takeExtend tag [hi, lo] s.picks = _
    simp [takeExtend, h, StepRecord.extended, hc, hl]
  · refine State.refuses_of rfl hs rfl ?_
    change takeClear tag [] s.picks = _
    simp [takeClear, h]
  · refine State.refuses_of rfl hs rfl ?_
    change takeClear tag [] s.picks = _
    simp [takeClear, h, hc]

end Sys2Proof.Proofs
end

