-- ==== Sys2Proof/Proofs/Resets.lean ====
section
/-! The power-on reset and DO RESET (R19, R154). -/

namespace Sys2Proof.Machine

/-- A signalled WAIT is taken back by a soft reset (R149, R154). -/
theorem Control.signalGo_keeps (c : Control) : c.signalGo.signalled = .go ∧ c.signalGo.permission = c.permission ∧
    c.signalGo.period = c.period := by
  unfold Control.signalGo Control.placeFlow
  split
  · dsimp only
    (repeat' split) <;> exact ⟨rfl, rfl, rfl⟩
  · next h =>
    refine ⟨?_, rfl, rfl⟩
    cases hs : c.signalled with
    | go => rfl
    | wait => exact absurd hs h

theorem Lines.softReset_line (l : Lines) (n : LineId) : (l.softReset.line n).level = (l.line n).level ∧
    (l.softReset.line n).agreement = 0 := by
  cases n <;> exact ⟨rfl, rfl⟩

/-- A stopped motor's SPIN frame leaves the last nonzero direction. -/
theorem State.handSpin_stopped {s : State} (h : s.stir.commanded = 0) : s.handSpin = s.withDrive
    { s.drive with spinSpeed := 0, spinDirection := s.stir.direction, spinMarked := true } := by
  unfold State.handSpin
  simp only [h, Nat.lt_irrefl, gt_iff_lt, if_false]
  rfl

/-- The blocks that a soft reset replaces (R154). -/
theorem State.softReset_blocks (s : State) : s.softReset.engine = .reset ∧ s.softReset.pool = .rebuilt ∧
    s.softReset.reg = .reset ∧ s.softReset.report = s.report.softReset ∧ s.softReset.ctl = s.ctl.softReset ∧
    s.softReset.stir = s.stir.softReset ∧ s.softReset.weigh = s.weigh.softReset ∧
    s.softReset.lines = s.lines.softReset ∧ s.softReset.drive.passQueue = [] ∧ s.softReset.drive.spinSpeed = 0 ∧
    s.softReset.sched = { s.sched with kB := 0, kS := 0 } ∧ s.softReset.intake = { s.intake with lastSeq := none } ∧
    s.softReset.lock = { s.lock with standing := .release, releaseWait := decide (s.lock.state = .engaged) } := by
  unfold State.softReset
  dsimp only
  rw [State.handSpin_stopped (by rfl)]
  by_cases h : s.lock.state = .engaged <;> simp [State.lockRequest, Stir.softReset, Stir.reset, h]

/-- The blocks that a soft reset leaves alone (R154). -/
theorem State.softReset_kept (s : State) : s.softReset.steps = s.steps ∧ s.softReset.patterns = s.patterns ∧
    s.softReset.cal = s.cal ∧ s.softReset.limits = s.limits ∧ s.softReset.base = s.base ∧ s.softReset.food = s.food ∧
    s.softReset.board = s.board ∧ s.softReset.senseRx = s.senseRx ∧ s.softReset.ctlRx = s.ctlRx ∧
    s.softReset.pending = s.pending := by
  have h := fun p hp => s.softReset_within p hp
  obtain ⟨hb, hf, hd⟩ := h .linTables (by decide)
  obtain ⟨h1, h2⟩ := h .receivers (by decide)
  exact ⟨h .steps (by decide), h .patterns (by decide), h .cal (by decide), h .limits (by decide), hb, hf, hd, h1, h2,
    h .pending (by decide)⟩

end Sys2Proof.Machine

namespace Sys2Proof.Proofs
open Sys2Proof.Machine

/-- Settles O3: the power-on state is `State.reset` but for the waiting commands and the counter. -/
theorem powerOnReset : Obligations.PowerOnReset := by
  intro s
  refine ⟨s.powerOn, rfl, rfl, rfl, rfl, rfl, rfl, fun k => by cases k <;> rfl, rfl, rfl, rfl, rfl, rfl, rfl, rfl, rfl,
    rfl, rfl, rfl, rfl, rfl, rfl, rfl, rfl, rfl, rfl, fun i => ?_⟩
  have h : s.powerOn.step i = (Vector.replicate 256 StepRecord.blank)[i]?.getD .blank := rfl
  rw [h]
  by_cases hi : i < 256 <;> simp [hi, StepRecord.blank]

/-- Settles O4: the soft reset block by block, then its answer and the picks. -/
theorem softReset : Obligations.SoftReset := by
  intro tag s hs ha
  have he := exec_taken (c := .doReset tag []) rfl hs
    (State.canTake_of_empty ha (r := ⟨.doCommand, [tag, 13]⟩) (by simp))
  obtain ⟨h1, h2, h3, h4, h5, h6, h7, h8, h9, h10, h11, h12, h13⟩ := s.picks.softReset_blocks
  obtain ⟨k1, k2, k3, k4, k5, k6, k7, k8, k9, k10⟩ := s.picks.softReset_kept
  obtain ⟨g1, g2, g3⟩ := s.picks.ctl.signalGo_keeps
  have hl := fun n => s.lines.softReset_line n
  change exec _ s = .next (takeReset tag [] s.picks).picks at he
  rw [takeReset, if_neg (by simp)] at he
  dsimp only at he
  generalize s.picks.softReset = u at *
  have hr := State.picks_shrinks ((u.answer tag .ok []).withReport { (u.answer tag .ok []).report with resetAnswer := true })
  have hreadings : ((u.answer tag .ok []).withReport
      { (u.answer tag .ok []).report with resetAnswer := true }).picks.report.readings = [] := by
    refine List.eq_nil_of_length_eq_zero (Nat.le_zero.1 (hr.2.2.1.trans ?_))
    simp [State.answer, h4, Report.softReset, Report.reset]
  have hpass : ((u.answer tag .ok []).withReport
      { (u.answer tag .ok []).report with resetAnswer := true }).picks.drive.passQueue = [] := by
    refine List.eq_nil_of_length_eq_zero (Nat.le_zero.1 (hr.2.2.2.trans ?_))
    simp [State.answer, h9]
  refine ⟨_, he, State.picks_answered (by simp [State.answer]), ?_⟩
  rw [hreadings, hpass]
  simp [State.answer, h1, h2, h3, h4, h5, h6, h7, h8, h10, h11, h12, h13, k1, k2, k3, k4, k5, k6, k7, k8, k9, k10, g1, g2,
    g3, hl, Report.softReset, Report.reset, Control.softReset, Stir.softReset, Stir.reset, Weigh.softReset, Weigh.discard]
  simp [Lines.softReset, Lines.clearCounts]
  rfl

end Sys2Proof.Proofs
end

