-- ==== Sys2Proof/Proofs/TableRows.lean ====
section
/-! The table requests and the DO requests that touch one block (R68, R79, R83 to R89, R115, R130 to R132, R151 to R155),
each taken at once. -/

namespace Sys2Proof.Machine

/-! ### The weighing commands -/

/-- The bytes of a three-byte field (R161). -/
theorem tripleAt_three (b0 b1 b2 : Byte) : tripleAt [b0, b1, b2] 0 = 65536 * b0.toNat + 256 * b1.toNat + b2.toNat := by
  simp [tripleAt, wordAt, byteAt]
  omega

/-- The gain SPAN_CAL computes, for an offset above 0, over the integers (R84). -/
theorem spanGain_eq (reference : Nat) {d : Int} (h : 0 < d) :
    spanGain reference d.toNat = ((reference * 65536 : Nat) + d / 2) / d := by
  obtain ⟨n, rfl⟩ := Int.eq_ofNat_of_zero_le h.le
  simp [spanGain, roundDiv]

/-- An accepted calibration, its content (R82). -/
theorem State.calibrationChange_content {s t : State} {w : Weigh} (hs : s.content = t.content)
    (hw : w = { t.weigh with blockSum := 0, blockCount := 0, stability := 0, stable := false, anchor := none,
                             status := .noData, tarePending := false }) :
    s.calibrationChange.content = (t.withWeigh w).content := by
  have he : s.weigh = t.weigh := by
    have e := congrArg State.weigh hs
    exact e
  subst hw
  rw [State.content_withWeigh, ← hs, ← he]
  rfl

/-! ### The clearing commands -/

theorem wordAt_pair (hi lo : Byte) : wordAt [hi, lo] 0 = 256 * hi.toNat + lo.toNat := by simp [wordAt, byteAt]

/-- A pick sets no announce flag. -/
theorem State.picks_announce {s : State} (h : s.report.announce = false) : s.picks.report.announce = false := by
  have key : ∀ u : State, u.report.announce = false → u.pickUpstream.report.announce = false := by
    intro u hu
    unfold State.pickUpstream
    dsimp only
    repeat' split
    any_goals exact hu
    all_goals rfl
  exact key _ (by rw [State.pickDrive_report]; exact h)

/-- LINK leaves the pending set when it was there and is named (R155). -/
theorem link_gone (p m : BitVec 16) : (p.getLsbD 13 && m.getLsbD 13) = (p.getLsbD 13 && !(p &&& ~~~m).getLsbD 13) := by
  simp only [BitVec.getLsbD_and, BitVec.getLsbD_not]
  cases p.getLsbD 13 <;> cases m.getLsbD 13 <;> rfl

/-- DO REHEARSE in IDLE (R152, R141). -/
theorem takeRehearse_idle (tag v : Byte) {s : State} (h : s.engine.state = .idle) : takeRehearse tag [v] s =
    if decide (v ≠ 0) = s.ctl.rehearsal then s.answer tag .ok []
    else ((s.withCtl { s.ctl with rehearsal := decide (v ≠ 0) }).withIntake { s.intake with lastSeq := none }).answer
      tag .ok [] := by
  have hv : decide (byteAt [v] 0 ≠ 0) = decide (v ≠ 0) := by
    have hb : byteAt [v] 0 = v.toNat := rfl
    rw [hb, decide_eq_decide]
    constructor <;> (intro h; bv_omega)
  rw [takeRehearse, if_neg (by simp), if_neg (not_not.2 h)]
  dsimp only
  rw [hv]

/-- DO CLEAR_NOTICES of the right form (R155). -/
theorem takeClearNotices_two (tag hi lo : Byte) {s : State} {mask left : BitVec 16}
    (hm : mask = BitVec.ofNat 16 (256 * hi.toNat + lo.toNat)) (hl : left = s.report.pendingSet &&& ~~~mask) :
    takeClearNotices tag [hi, lo] s = ((s.withReport { s.report with
      pendingSet := left, announce := if left = 0 then false else s.report.announce }).withCtl { s.ctl with
        overrun := s.ctl.overrun && !(s.report.isPending .link && !left.getLsbD 13) }).answer tag .ok [] := by
  have hg : (s.report.isPending .link && mask.getLsbD 13) = (s.report.isPending .link && !left.getLsbD 13) := by
    rw [hl]; exact link_gone _ _
  rw [takeClearNotices, if_neg (by simp)]
  dsimp only
  rw [wordAt_pair, ← hm, ← hl]
  change (if (s.report.isPending .link && mask.getLsbD 13) = true then _ else _ : State).answer tag .ok [] = _
  rw [hg]
  cases s.report.isPending .link && !left.getLsbD 13 <;> simp [State.withCtl, State.withReport]

end Sys2Proof.Machine

namespace Sys2Proof.Proofs
open Sys2Proof.Machine

/-- Settles O58: each branch of the three takings. -/
theorem weighingCommands : Obligations.WeighingCommands := by
  intro s tag b0 b1 b2 reference d gain changed hs href hd hgain hch
  have ref : tripleAt [b0, b1, b2] 0 = reference := (tripleAt_three b0 b1 b2).trans href.symm
  refine ⟨fun h => ?_, fun h k => ?_, fun h k => ?_, fun h => ⟨?_, ?_⟩, fun h k => ?_, fun h k hl hu => ?_, fun h k => ?_,
    fun h hl hu k => ?_, fun h hl hu k hr => ?_, fun h hl hu k hd1 hg1 hg2 => ?_⟩
  · refine State.refuses_of rfl hs rfl (?_ : takeTare tag [] s.picks = _)
    simp [takeTare, h]
  · refine State.accepts_of (u := s.picks.withWeigh { s.picks.weigh with
      tare := s.picks.weigh.gross, tarePending := false, net := 0 }) rfl hs rfl (?_ : takeTare tag [] s.picks = _) (by simp)
    simp [takeTare, h, k]
  · refine State.accepts_of (u := s.picks.withWeigh { s.picks.weigh with tarePending := true }) rfl hs rfl
      (?_ : takeTare tag [] s.picks = _) (by simp)
    simp [takeTare, h, k]
  · refine State.refuses_of rfl hs rfl (?_ : takeZeroCal tag [] s.picks = _)
    simp [takeZeroCal, h]
  · refine State.refuses_of rfl hs rfl (?_ : takeSpanCal tag [b0, b1, b2] s.picks = _)
    simp [takeSpanCal, h]
  · refine State.refuses_of rfl hs rfl (?_ : takeZeroCal tag [] s.picks = _)
    simp [takeZeroCal, h, k]
  · have hz : newZero s.weigh.average = s.weigh.average := if_pos (by simp [inRange, hl, hu])
    refine State.accepts_of (u := (s.picks.withCal { s.cal with zero := s.weigh.average, tcal := s.driftBase }).calibrationChange)
      rfl hs rfl (?_ : takeZeroCal tag [] s.picks = _) (State.calibrationChange_content (by simp; rfl) hch)
    simp [takeZeroCal, h, k, hz]
  · refine State.refuses_of rfl hs rfl (?_ : takeSpanCal tag [b0, b1, b2] s.picks = _)
    have hn : reference = 0 ∨ 80000 < reference := by omega
    simp only [takeSpanCal, ref]
    simp [h, hn]
  · refine State.refuses_of rfl hs rfl (?_ : takeSpanCal tag [b0, b1, b2] s.picks = _)
    have hn : ¬ (reference = 0 ∨ 80000 < reference) := by omega
    simp only [takeSpanCal, ref]
    simp [h, k, hn]
  · refine State.refuses_of rfl hs rfl (?_ : takeSpanCal tag [b0, b1, b2] s.picks = _)
    have hn : ¬ (reference = 0 ∨ 80000 < reference) := by omega
    simp only [takeSpanCal, ref, State.picks_weigh, State.picks_cal, State.picks_engine, ← hd]
    by_cases hlow : d < 1000
    · simp [h, k, hn, hlow]
    · have hg : spanGain reference d.toNat = gain := (spanGain_eq reference (by omega)).trans hgain.symm
      have hout : gain < 1 ∨ 65535 < gain := by omega
      simp [h, k, hn, hlow, hg, hout]
  · have hn : ¬ (reference = 0 ∨ 80000 < reference) := by omega
    have hg : spanGain reference d.toNat = gain := (spanGain_eq reference (by omega)).trans hgain.symm
    have hin : ¬ (gain < 1 ∨ 65535 < gain) := by omega
    have hlow : ¬ d < 1000 := by omega
    refine State.accepts_of (u := (s.picks.withCal { s.cal with gain := gain.toNat }).calibrationChange)
      rfl hs rfl (?_ : takeSpanCal tag [b0, b1, b2] s.picks = _) (State.calibrationChange_content (by simp) hch)
    simp only [takeSpanCal, ref, State.picks_weigh, State.picks_cal, State.picks_engine, ← hd]
    simp [h, k, hn, hlow, hg, hin]

/-- Settles O59: what each of the five stores, and what CLEAR_NOTICES leaves of LINK. -/
theorem clearsSuperviseRehearse : Obligations.ClearsSuperviseRehearse := by
  intro s tag hi lo v left hs hleft
  have hw := wordAt_pair hi lo
  refine ⟨?_, ?_, ?_, fun h => ?_, fun h => ?_, fun h => ?_, fun h k => ?_, fun h k => ?_⟩
  · have hl : left = s.picks.report.pendingSet &&& ~~~ (BitVec.ofNat 16 (256 * hi.toNat + lo.toNat)) := by simpa using hleft
    have ht := takeClearNotices_two tag hi lo rfl hl
    rw [State.picks_isPending, State.picks_ctl_overrun] at ht
    refine ⟨_, exec_taken (c := .doClearNotices tag [hi, lo]) rfl hs.1 (hs.canTake rfl), State.picks_answered ?_, ?_, fun h0 _ => ?_⟩
    · change _ ∈ (takeClearNotices tag [hi, lo] s.picks).report.answers
      rw [ht]; simp [State.answer]
    · rw [State.picks_content]
      change (takeClearNotices tag [hi, lo] s.picks).content = _
      rw [ht]
      simp [State.content_withCtl, State.content_withReport, Control.content, Report.content]
    · refine State.picks_announce ?_
      change (takeClearNotices tag [hi, lo] s.picks).report.announce = false
      rw [ht]
      simp [State.answer, h0]
  · refine State.accepts_of (u := s.picks.withLines { s.lines with
      edges := s.lines.edges &&& ~~~ (BitVec.ofNat 12 (256 * hi.toNat + lo.toNat)) }) rfl hs rfl
      (?_ : takeClearEdges tag [hi, lo] s.picks = _) (by simp)
    simp [takeClearEdges, hw]
  · refine State.accepts_of (u := s.picks.withLines { s.lines with capture := none, captureOverrun := false }) rfl hs rfl
      (?_ : takeClearCapture tag [] s.picks = _) (by simp)
    simp [takeClearCapture]
  · refine State.refuses_of rfl hs rfl (?_ : takeSupervise tag [v] s.picks = _)
    simp [takeSupervise, h]
  · refine State.accepts_of (u := s.picks.withCtl { s.picks.ctl with
      supervision := .running, supervisionCount := 0, period := (max 9 (min v.toNat 254) + 1) * 10 }) rfl hs rfl
      (?_ : takeSupervise tag [v] s.picks = _) ?_
    · simp [takeSupervise, h, byteAt]
    · rw [State.content_withCtl, State.content_withCtl, State.picks_content]
      exact congrArg (fun c : Control => s.content.withCtl { c with supervision := .running, supervisionCount := 0, period := (max 9 (min v.toNat 254) + 1) * 10 }) s.picks_ctl_content
  · refine State.refuses_of rfl hs rfl (?_ : takeRehearse tag [v] s.picks = _)
    simp [takeRehearse, h]
  · refine State.accepts_of (u := s.picks) rfl hs rfl (?_ : takeRehearse tag [v] s.picks = _) (by simp)
    rw [takeRehearse_idle tag v (by simpa using h), if_pos (by rw [State.picks_ctl_rehearsal, k])]
  · refine State.accepts_of (u := (s.picks.withCtl { s.picks.ctl with rehearsal := decide (v ≠ 0) }).withIntake
      { s.picks.intake with lastSeq := none }) rfl hs rfl (?_ : takeRehearse tag [v] s.picks = _) ?_
    · rw [takeRehearse_idle tag v (by simpa using h), if_neg (by rw [State.picks_ctl_rehearsal]; exact Ne.symm k)]
    · rw [State.content_withIntake, State.content_withIntake, State.content_withCtl, State.content_withCtl,
        State.picks_content, State.picks_intake]
      exact congrArg (fun c : Control => (s.content.withCtl { c with rehearsal := decide (v ≠ 0) }).withIntake { s.intake with lastSeq := none }) s.picks_ctl_content

end Sys2Proof.Proofs
end

