-- ==== Sys2Proof/Proofs/TableRecords.lean ====
section
/-! The writes and reads of the linearization tables, patterns, bindings, calibration and limits record (R68, R83, R88, R89,
R105, R115, R130, R151), and the queries of the state and the chain (R65, R164). -/

namespace Sys2Proof.Machine

@[simp] theorem byte_toNat (b : Byte) : byte b.toNat = b := by simp [byte]

theorem byteAt_cons_zero (b : Byte) (rest : List Byte) : byteAt (b :: rest) 0 = b.toNat := rfl

/-! ### Linearization tables -/

theorem State.setLinChannel_content {s t : State} (h : s.content = t.content) (table : LinTable) (d : Channel) :
    (s.setLinChannel table d).content = (t.setLinChannel table d).content := by
  cases table <;> simp [State.setLinChannel, h]

/-- A table is loaded once all its points are written (R88). -/
theorem Channel.writePoint_loaded (c : Channel) (i : Nat) (v : Int) : (c.writePoint i v).loaded = true ↔
    c.loaded = true ∨ ∀ j, j < 33 → (c.writePoint i v).written[j]? = some true := by
  have hall : ∀ w : Vector Bool 33, w.toList.all (fun x => x) = true ↔ ∀ j, j < 33 → w[j]? = some true := by
    intro w
    rw [List.all_eq_true]
    constructor
    · intro h j hj
      rw [Vector.getElem?_eq_getElem hj]
      exact congrArg some (h _ (by simp))
    · intro h x hx
      obtain ⟨j, hj, rfl⟩ := List.getElem_of_mem hx
      have hj' : j < 33 := by simpa using hj
      have := h j hj'
      rw [Vector.getElem?_eq_getElem hj'] at this
      simpa using this
  simp only [Channel.writePoint, Bool.or_eq_true, hall]

/-- ENTRY_WRITE of a point in IDLE (R88). -/
theorem takeWriteLin_idle (tag i hi lo : Byte) (table : LinTable) {s : State} (h : s.engine.state = .idle) {v : Int}
    (hv : v = signed 16 (256 * hi.toNat + lo.toNat)) : takeWriteLin tag table [i, hi, lo] s =
      if 32 < i.toNat ∨ !inRange (-200) 1200 v then s.answer tag .badField []
      else (s.setLinChannel table ((s.linChannel table).writePoint i.toNat v)).answer tag .ok [] := by
  have hw : wordAt [i, hi, lo] 1 = 256 * hi.toNat + lo.toNat := by simp [wordAt, byteAt]
  rw [takeWriteLin, if_neg (by simp), if_neg (not_not.2 h)]
  dsimp only
  rw [hw, ← hv]
  rfl

/-! ### Bindings -/

theorem readAction_code (x : Action) : readAction x.code = some x := by cases x <;> rfl

theorem readAction_none {n : Nat} (h : 5 < n) : readAction n = none := by
  unfold readAction
  split
  any_goals omega
  rfl

/-- A byte other than 0 is true (R161). -/
theorem byte_ne_zero (b : Byte) : decide (b.toNat ≠ 0) = decide (b ≠ 0) := by
  rw [decide_eq_decide]
  constructor <;> (intro h; bv_omega)

/-! ### The limits record -/

/-- What a limits record replaced moves with it (R105, R127, R157). -/
theorem State.replaceLimits_eq (s : State) (l : Limits) : s.replaceLimits l =
    (((s.withLimits l).withSched
      (if l.frameLength = s.limits.frameLength ∧ l.startB = s.limits.startB ∧ l.windowB = s.limits.windowB ∧
          l.startS = s.limits.startS ∧ l.windowS = s.limits.windowS
        then s.sched else { s.sched with position := l.frameLength - 1 })).withLines
      (if l.debounce = s.limits.debounce then s.lines else s.lines.clearCounts)).withReport { s.report with
        readingCount := if l.readingInterval = s.limits.readingInterval then s.report.readingCount else 0 } := by
  have hlay : l.layout = s.limits.layout ↔ l.frameLength = s.limits.frameLength ∧ l.startB = s.limits.startB ∧
      l.windowB = s.limits.windowB ∧ l.startS = s.limits.startS ∧ l.windowS = s.limits.windowS := by
    simp [Limits.layout]
  unfold State.replaceLimits
  dsimp only
  rw [if_congr hlay rfl rfl]
  split <;> split <;> split <;> rfl

theorem byteAt_ne_zero {i : Byte} (h : i ≠ 0) (rest : List Byte) : byteAt (i :: rest) 0 ≠ 0 := by
  have hb : byteAt (i :: rest) 0 = i.toNat := rfl
  rw [hb]
  bv_omega

end Sys2Proof.Machine

namespace Sys2Proof.Proofs
open Sys2Proof.Machine

/-- Settles O48: the range test of a point, and the point written by itself. -/
theorem linTables : Obligations.LinTables := by
  intro s tag i hi lo table v hs hv
  have write : ∀ {u : State} {st : Status}, takeWriteLin tag table [i, hi, lo] s.picks = u.answer tag st [] →
      carryOut ⟨.entryWrite, tag :: linCode table :: [i, hi, lo]⟩ s.picks = u.answer tag st [] := by
    cases table <;> exact fun h => h
  have read : ∀ {st : Status} {bytes}, takeReadLin tag table [i] s.picks = s.picks.answer tag st bytes →
      carryOut ⟨.entryRead, tag :: linCode table :: [i]⟩ s.picks = s.picks.answer tag st bytes := by
    cases table <;> exact fun h => h
  refine ⟨fun h => State.refuses_of rfl hs rfl (write ?_), fun h k => State.refuses_of rfl hs rfl (write ?_),
    fun h hi32 hlo hhi => ⟨(s.linChannel table).writePoint i.toNat v, State.accepts_of rfl hs rfl (write ?_)
      (State.setLinChannel_content s.picks_content _ _), rfl, rfl, Channel.writePoint_loaded _ _ _, rfl, rfl, rfl, rfl⟩,
    fun h => State.refuses_of rfl hs rfl (read ?_), fun p w hp hw => State.accepts_of rfl hs rfl (read ?_) s.picks_content⟩
  · simp [takeWriteLin, h]
  · rw [takeWriteLin_idle tag i hi lo table (by simpa using h) hv, if_pos]
    rcases k with k | k | k
    · exact .inl k
    · exact .inr (by simp [inRange]; omega)
    · exact .inr (by simp [inRange]; omega)
  · rw [takeWriteLin_idle tag i hi lo table (by simpa using h) hv, if_neg, State.picks_linChannel]
    simp [inRange]; omega
  · simp [takeReadLin, byteAt_cons_zero, h]
  · have hle : ¬ 32 < i.toNat := by
      intro hgt
      rw [Vector.getElem?_eq_none (by omega)] at hp
      cases hp
    simp [takeReadLin, byteAt_cons_zero, hle, hp, hw]

/-- Settles O49: the pattern in use is protected, and an entry or binding stored is read back. -/
theorem patternsAndBindings : Obligations.PatternsAndBindings := by
  intro s tag i e a bytes hs hlen
  have h0 : byteAt (i :: bytes) 0 = i.toNat := rfl
  refine ⟨fun h => State.refuses_of rfl hs rfl (?_ : takeWritePattern tag (i :: bytes) s.picks = _),
    fun h k => State.refuses_of rfl hs rfl (?_ : takeWritePattern tag (i :: bytes) s.picks = _),
    fun h h15 hv => State.accepts_of rfl hs rfl (?_ : takeWritePattern tag (i :: bytes) s.picks =
      (s.picks.withPatterns (s.patterns.setIfInBounds i.toNat (readPatternEntry bytes))).answer tag .ok []) (by simp),
    fun h => State.refuses_of rfl hs rfl (?_ : takeReadPattern tag [i] s.picks = _),
    fun h => State.accepts_of rfl hs rfl (?_ : takeReadPattern tag [i] s.picks = s.picks.answer tag .ok _) s.picks_content,
    fun h => State.refuses_of rfl hs rfl (?_ : takeWriteBind tag [i, e, a] s.picks = _),
    fun x h hx => State.accepts_of rfl hs rfl (?_ : takeWriteBind tag [i, e, a] s.picks =
      (s.picks.withLines { s.lines with
        bindings := s.lines.bindings.setIfInBounds i.toNat ⟨decide (e ≠ 0), x⟩ }).answer tag .ok []) (by simp),
    fun h => State.refuses_of rfl hs rfl (?_ : takeReadBind tag [i] s.picks = _),
    fun h => State.accepts_of rfl hs rfl (?_ : takeReadBind tag [i] s.picks = s.picks.answer tag .ok _) s.picks_content⟩
  · simp [takeWritePattern, hlen, h0, h]
  · have hk : 15 < i.toNat ∨ (!(readPatternEntry bytes).valid) = true := by simpa using k
    simp only [takeWritePattern, List.length_cons, hlen, h0, State.picks_patternInUse, List.drop_succ_cons, List.drop_zero]
    rw [if_neg (by simp), if_neg h, if_pos hk]
  · have hk : ¬ (15 < i.toNat ∨ (!(readPatternEntry bytes).valid) = true) := by simp [hv]; omega
    simp only [takeWritePattern, List.length_cons, hlen, h0, State.picks_patternInUse, List.drop_succ_cons, List.drop_zero]
    rw [if_neg (by simp), if_neg h, if_neg hk, State.picks_patterns]
  · simp [takeReadPattern, byteAt_cons_zero, h]
  · simp [takeReadPattern, byteAt_cons_zero, Nat.not_lt.2 h]
  · rcases h with h | h
    · cases ha : readAction a.toNat <;> simp [takeWriteBind, byteAt, ha, h]
    · simp [takeWriteBind, byteAt, readAction_none h]
  · have ha : readAction a.toNat = some x := by rw [← hx, readAction_code]
    have he : decide (byteAt [i, e, a] 1 ≠ 0) = decide (e ≠ 0) := byte_ne_zero e
    have h2 : byteAt [i, e, a] 2 = a.toNat := rfl
    rw [takeWriteBind, if_neg (by simp)]
    dsimp only
    rw [h2, ha]
    dsimp only
    rw [byteAt_cons_zero, if_neg (Nat.not_lt.2 h), he, State.picks_lines]
  · simp [takeReadBind, byteAt_cons_zero, h]
  · simp [takeReadBind, byteAt_cons_zero, Nat.not_lt.2 h, Lines.binding]

/-- Settles O50: the records' writes by their refusals in order, and what a limits write moves with it. -/
theorem calibrationAndLimits : Obligations.CalibrationAndLimits := by
  intro s tag i cal limits hs hcal hlim
  refine ⟨fun h => ⟨State.refuses_of rfl hs rfl (?_ : takeWriteCal tag (i :: cal) s.picks = _),
      State.refuses_of rfl hs rfl (?_ : takeWriteLimits tag (i :: limits) s.picks = _),
      State.refuses_of rfl hs rfl (?_ : takeReadCal tag [i] s.picks = _),
      State.refuses_of rfl hs rfl (?_ : takeReadLimits tag [i] s.picks = _)⟩,
    fun h => ⟨State.refuses_of rfl hs rfl (?_ : takeWriteCal tag (0 :: cal) s.picks = _),
      State.refuses_of rfl hs rfl (?_ : takeWriteLimits tag (0 :: limits) s.picks = _)⟩,
    fun h k => State.refuses_of rfl hs rfl (?_ : takeWriteCal tag (0 :: cal) s.picks = _),
    fun h k => State.refuses_of rfl hs rfl (?_ : takeWriteLimits tag (0 :: limits) s.picks = _),
    fun h k => State.accepts_of rfl hs rfl (?_ : takeWriteCal tag (0 :: cal) s.picks =
      (s.picks.withCal (readCalibration cal)).calibrationChange.answer tag .ok [])
      (State.calibrationChange_content (by simp) rfl),
    fun l h hl k => State.accepts_of rfl hs rfl (?_ : takeWriteLimits tag (0 :: limits) s.picks =
      (s.picks.replaceLimits l).answer tag .ok []) ?_, fun n => by cases n <;> rfl,
    State.accepts_of rfl hs rfl (?_ : takeReadCal tag [0] s.picks = s.picks.answer tag .ok _) s.picks_content,
    State.accepts_of rfl hs rfl (?_ : takeReadLimits tag [0] s.picks = s.picks.answer tag .ok _) s.picks_content⟩
  · simp [takeWriteCal, hcal, byteAt_ne_zero h]
  · simp [takeWriteLimits, hlim, byteAt_ne_zero h]
  · simp [takeReadCal, byteAt_ne_zero h]
  · simp [takeReadLimits, byteAt_ne_zero h]
  · simp [takeWriteCal, hcal, byteAt, h]
  · simp [takeWriteLimits, hlim, byteAt, h]
  · simp [takeWriteCal, hcal, byteAt, h, k]
  · simp [takeWriteLimits, hlim, byteAt, h, k]
  · simp [takeWriteCal, hcal, byteAt, h, k]
  · simp [takeWriteLimits, hlim, byteAt, h, ← hl, k]
  · rw [State.replaceLimits_eq]
    simp [State.content_withReport, Report.content]
  · simp [takeReadCal, byteAt]
  · simp [takeReadLimits, byteAt]

end Sys2Proof.Proofs
end

