-- ==== Sys2Proof/Proofs/LinkRows.lean ====
section
/-! The rows of the links: queries, PASS and INJECT (R65, R141, R146, R151). -/

namespace Sys2Proof.Machine

/-- GET_STATE reads nothing that a pick moves (R151). -/
theorem State.picks_stateContent (s : State) : s.picks.stateContent = s.stateContent := by
  obtain ⟨d, c, r, h, -, hc, hq, -⟩ := s.picks_eq
  have he : c = { s.ctl with flowSlot := c.flowSlot } := by
    simp only [Control.content, Control.mk.injEq] at hc
    rcases c with ⟨⟩
    simp_all
  rw [h, he]
  rfl

theorem State.stateContent_length (s : State) : s.stateContent.length = 62 := by
  unfold State.stateContent
  dsimp only
  simp only [List.length_append, word_length, wordInt_length, tripleInt_length, reportedTemp_length, List.length_cons,
    List.length_nil]

theorem State.stateContent_elapsed (s : State) : (s.stateContent.drop 5).take 2 = word (seconds s.reported.2.2.1) := by
  unfold State.stateContent
  dsimp only
  simp only [word, List.cons_append, List.nil_append, List.drop_succ_cons, List.drop_zero, List.take_succ_cons,
    List.take_zero]

theorem State.stateContent_setpoint (s : State) : (s.stateContent.drop 32).take 4 =
    wordInt s.reportedControl.1 ++ wordInt s.reportedControl.2.1 := by
  unfold State.stateContent
  dsimp only
  simp only [word, wordInt, tripleInt, reportedTemp, List.cons_append, List.nil_append, List.drop_succ_cons,
    List.drop_zero, List.take_succ_cons, List.take_zero]

theorem State.stateContent_cap (s : State) : (s.stateContent.drop 44).take 2 = word (s.reportedControl.2.2.getD 0) := by
  unfold State.stateContent
  dsimp only
  simp only [word, wordInt, tripleInt, reportedTemp, List.cons_append, List.nil_append, List.drop_succ_cons,
    List.drop_zero, List.take_succ_cons, List.take_zero]

theorem State.stateContent_index (s : State) : s.stateContent[1]? = some (byte s.engine.index) := by
  unfold State.stateContent
  dsimp only
  simp only [List.cons_append, List.getElem?_cons_succ, List.getElem?_cons_zero]

theorem State.stateContent_flow (s : State) : s.stateContent[61]? = some (byte (s.ctl.queue.length +
    bit 5 s.ctl.overrun + bit 6 (s.ctl.signalled = .wait) + bit 7 (s.ctl.permission = .wait))) := by
  unfold State.stateContent
  dsimp only
  simp only [word, wordInt, tripleInt, reportedTemp, List.cons_append, List.nil_append, List.getElem?_cons_succ,
    List.getElem?_cons_zero]

/-- The bytes of one record of the chain (R65). -/
theorem contextSummary_eq (x : Nat × Context) : contextSummary x = match x with
    | (slot, .call r) =>
      [byte (slot % 16 + if 256 ≤ r.returnIndex then 64 else 0), byte r.returnIndex, byte r.routine, byte r.remaining]
    | (slot, .starved reasons i) => [byte (slot % 16 + 16), byte i, byte reasons.code, 0]
    | (slot, .held r) => [byte (slot % 16 + 48), byte r.index, byte r.reasons.code, byte r.phase.code] := by
  rcases x with ⟨slot, r | ⟨reasons, i⟩ | r⟩
  · by_cases h : 256 ≤ r.returnIndex <;> simp [contextSummary, bit, h]
  · rfl
  · rfl

/-! ### The picks of the drive link -/

theorem State.pickUpstream_drive (s : State) : s.pickUpstream.drive = s.drive := by
  obtain ⟨c, r, h, -⟩ := s.pickUpstream_eq
  rw [h]; rfl

theorem State.picks_drive (s : State) : s.picks.drive = s.pickDrive.drive := State.pickUpstream_drive _

/-- A busy drive transmitter picks nothing. -/
theorem State.picks_drive_busy {s : State} (h : s.drive.sending.isSome = true) : s.picks.drive = s.drive := by
  have hp : s.pickDrive = s := if_pos h
  rw [State.picks_drive, hp]

/-- With no slot marked, a free drive transmitter looks at the PASS queue (R144). -/
theorem State.picks_drive_unmarked {s : State} (h : s.drive.sending = none) (h1 : s.drive.heatMarked = false)
    (h2 : s.drive.spinMarked = false) (h3 : s.drive.latchMarked = false) : s.picks.drive =
      match s.drive.passQueue with
      | [] => s.drive
      | p :: rest => { s.drive with passQueue := rest, sending := some (.pass p) } := by
  rw [State.picks_drive]
  unfold State.pickDrive
  simp only [h, h1, h2, h3, Option.isSome_none, Bool.false_eq_true, if_false]
  split <;> next hq => simp [hq]

/-- INJECT with rehearsal off (R141). -/
theorem State.injectFrame_off {s : State} (h : s.ctl.rehearsal = false) (payload : List Byte) :
    s.injectFrame payload = s.raise .link := if_neg (by simp [h])

/-- INJECT with rehearsal on (R141). -/
theorem State.injectFrame_on {s : State} (h : s.ctl.rehearsal = true) (kind : Byte) (rest : List Byte) :
    s.injectFrame (kind :: rest) = s.intakeFrame kind rest := if_pos h

end Sys2Proof.Machine

namespace Sys2Proof.Proofs
open Sys2Proof.Machine

/-- Settles O51: the answers' bytes, position by position. -/
theorem stateAndChainQueries : Obligations.StateAndChainQueries := by
  intro s tag hs
  have hq : s.ctl.queue = [] := hs.1
  refine ⟨?_, s.stateContent_length, s.stateContent_index, ?_, fun r h hr => ?_, fun h => ?_, ?_⟩
  · obtain ⟨t, h1, h2, h3⟩ := State.answers_of (c := .getState tag []) (u := s.picks.withChoices (s.picks.choices + 1))
      rfl hs.1 (hs.canTake rfl) (rfl : takeGetState tag [] s.picks = _)
    rw [State.picks_stateContent] at h3
    exact ⟨t, h1, by rw [h2]; simp, h3⟩
  · rw [State.stateContent_flow, hq]
    simp
  · rw [State.stateContent_elapsed, State.stateContent_setpoint, State.stateContent_cap, State.reported_held h hr,
      State.reportedControl_held h hr, seconds_eq]
    exact ⟨rfl, rfl, rfl⟩
  · rw [State.stateContent_setpoint, State.stateContent_cap, State.reportedControl_own h]
    exact ⟨rfl, rfl⟩
  · refine State.accepts_of rfl hs rfl (?_ : takeGetChain tag [] s.picks = s.picks.answer tag .ok _) s.picks_content
    rw [takeGetChain, if_neg (by simp), State.picks_pool, Pool.summary]
    congr 2
    exact List.flatMap_congr fun x _ => contextSummary_eq x

/-- Settles O52: a PASS at the drive output, an INJECT at the intake. -/
theorem passAndInject : Obligations.PassAndInject := by
  intro s payload hs
  have inject : exec (.inject payload) s = .next (s.picks.injectFrame payload).picks :=
    exec_taken (c := .inject payload) (r := ⟨.inject, payload⟩) rfl hs rfl
  have hn : ∀ u : State, u.ctl.rehearsal = true → ∀ kind seq rest x, payload = kind :: rest →
      readSample kind rest = some (seq, x) → u.injectFrame payload = u.takeFrame seq x := by
    intro u hu kind seq rest x hp hx
    rw [hp, State.injectFrame_on hu]
    simp only [State.intakeFrame, hx]
  refine ⟨fun hroom => ?_, fun h => ⟨_, inject, ?_⟩, fun kind seq rest x h hp hx => ?_, fun seq b0 b1 b2 h hp => ?_,
    fun kind rest h hp hl => ⟨_, inject, ?_⟩⟩
  · have room : s.picks.canTake ⟨.pass, payload⟩ = true :=
      decide_eq_true (s.picks_shrinks.2.2.2.trans_lt hroom)
    refine ⟨_, exec_taken (c := .pass payload) rfl hs room, ?_, fun hb => ?_, fun h1 h2 h3 h4 h5 => ?_⟩
    · rw [State.picks_content]
      exact (State.content_withDrive s.picks _).trans s.picks_content
    · have hd := State.picks_drive_busy hb
      rw [State.picks_drive_busy]
      · change s.picks.drive.passQueue ++ [payload] = _
        rw [hd]
      · change s.picks.drive.sending.isSome = true
        rw [hd]; exact hb
    · have hd : s.picks.drive = s.drive := by rw [State.picks_drive_unmarked h1 h2 h3 h4, h5]
      rw [State.picks_drive_unmarked]
      all_goals simp [carryOut, hd, h1, h2, h3, h4, h5]
  · rw [State.picks_content, State.injectFrame_off (by simpa using h)]
    exact State.raise_content .link s.picks_content
  · rw [inject, hn _ (by simpa using h) kind seq rest x hp hx]
  · rw [inject, hn _ (by simpa using h) 1 seq [seq, b0, b1, b2] (.weigh (signed 24 (tripleAt [seq, b0, b1, b2] 1))) hp rfl]
    have h3 : tripleAt [seq, b0, b1, b2] 1 = 65536 * b0.toNat + 256 * b1.toNat + b2.toNat := by
      simp [tripleAt, wordAt, byteAt]; omega
    rw [h3]
  · have hx : readSample kind rest = none := if_neg hl
    rw [State.picks_content, hp, State.injectFrame_on (by simpa using h)]
    simp only [State.intakeFrame, hx]
    exact State.raise_content .link s.picks_content

end Sys2Proof.Proofs
end

