-- ==== Sys2Proof/Proofs/Coding.lean ====
section
/-! The codings of the frames: records read back from their bytes (Tables 12-4, 12-5) and the check byte (R160). -/

namespace Sys2Proof.Machine

/-! ### Fields -/

theorem toNat_byte {n : Nat} (h : n < 256) : (byte n).toNat = n := by
  simp [byte]; omega

/-- A two-byte field is read back (R161). -/
theorem toNat_word {n : Nat} (h : n < 65536) : 256 * (byte (n / 256)).toNat + (byte n).toNat = n := by
  simp [byte]; omega

/-- A three-byte field is read back (R161). -/
theorem toNat_triple {n : Nat} (h : n < 16777216) :
    256 * (256 * (byte (n / 65536)).toNat + (byte (n / 256)).toNat) + (byte n).toNat = n := by
  simp [byte]; omega

/-- A field read in two's complement (R161). -/
theorem signed_toNat {w : Nat} (hw : 0 < w) (b : BitVec w) : signed w b.toNat = b.toInt := by
  have h2 : 2 ^ w = 2 * 2 ^ (w - 1) := by
    rw [← Nat.pow_succ', Nat.succ_eq_add_one, Nat.sub_add_cancel hw]
  rw [signed, BitVec.toInt_eq_toNat_cond, h2]
  split <;> split <;> omega

/-- A signed field is read back (R161). -/
theorem signed_ofInt {w : Nat} (hw : 0 < w) {x : Int} (hl : -2 ^ (w - 1) ≤ x) (hh : x < 2 ^ (w - 1)) :
    signed w (BitVec.ofInt w x).toNat = x := by
  rw [signed_toNat hw, BitVec.toInt_ofInt_eq_self hw hl hh]

/-! ### The step record -/

theorem readKind_code (k : StepKind) : readKind (byte k.code).toNat = some k := by cases k <;> rfl

theorem readFlags_bits (f : StepFlags) : readFlags (byte (bit 0 f.announce + bit 1 f.userEnd + bit 2 f.forceLock +
    bit 3 f.atTemp)).toNat = some f := by
  rcases f with ⟨a, b, c, d⟩
  cases a <;> cases b <;> cases c <;> cases d <;> rfl

theorem readPattern_byte {p : Option Nat} (h : ∀ i, p = some i → i < 16) : readPattern (byte (p.getD 255)).toNat = some p := by
  cases p with
  | none => rfl
  | some i =>
    have hi := h i rfl
    have hb : (byte i).toNat = i := toNat_byte (by omega)
    simp [readPattern, hb, hi]

theorem readCondition_code (c : Option Condition) : readCondition (byte (conditionCode c)).toNat = some c := by
  cases c with
  | none => rfl
  | some c => cases c <;> rfl

/-! ### The table records -/

theorem toNat_flag (b : Bool) : decide ((byte (bit 0 b)).toNat ≠ 0) = b := by cases b <;> rfl

/-- A phase is read back from its five bytes (Table 12-5). -/
theorem readPhase_encode {bytes : List Byte} {p : StirPhase} {i : Nat} (hs : p.speed < 65536) (hd : p.duration < 256)
    (ha : p.acceleration < 256) (h : (bytes.drop i).take 5 = p.encode) : readPhase bytes i = p := by
  have hb : ∀ k, k < 5 → byteAt bytes (i + k) = byteAt p.encode k := by
    intro k hk
    rw [← h]
    simp [byteAt, hk]
  have hdir : readDirection (byte p.direction.code).toNat = p.direction := by cases p.direction <;> rfl
  have h0 := hb 0 (by omega)
  have h1 := hb 1 (by omega)
  have h2 := hb 2 (by omega)
  have h3 := hb 3 (by omega)
  have h4 := hb 4 (by omega)
  simp only [StirPhase.encode, word, List.cons_append, List.nil_append, byteAt, List.getD_cons_succ, List.getD_cons_zero,
    Nat.add_zero] at h0 h1 h2 h3 h4
  simp only [readPhase, wordAt, byteAt, h0, h1, h2, h3, h4, toNat_word hs, toNat_byte hd, toNat_byte ha, hdir]

/-- The bytes of a pattern's phase within its entry (Table 12-5). -/
theorem Pattern.encode_phase (p : Pattern) {i : Nat} (h : i < 8) :
    (p.encode.drop (2 + 5 * i)).take 5 = (p.phase i).encode := by
  have key : ∀ j, j < 8 → (p.encode.drop (2 + 5 * j)).take 5 = (p.phase j).encode := by
    have he : p.encode = [byte p.count, byte p.loop] ++ ((p.phase 0).encode ++ ((p.phase 1).encode ++
      ((p.phase 2).encode ++ ((p.phase 3).encode ++ ((p.phase 4).encode ++ ((p.phase 5).encode ++
      ((p.phase 6).encode ++ ((p.phase 7).encode ++ [])))))))) := rfl
    intro j hj
    rw [he]
    interval_cases j <;> rfl
  exact key i h

/-! ### The check byte (R160) -/

/-- A shift of the check register undone: the bit that left it is bit 0 of what it became. -/
def crcUnshift (r : Byte) : Byte := if r.getLsbD 0 then ((r ^^^ 0x07#8) >>> 1) ||| 0x80#8 else r >>> 1

theorem crcUnshift_crcShift (r : Byte) : crcUnshift (crcShift r) = r := by
  revert r
  decide

theorem crcShift_injective : Function.Injective crcShift := Function.LeftInverse.injective crcUnshift_crcShift

theorem crcByte_left_injective {r q b : Byte} (h : crcByte r b = crcByte q b) : r = q := by
  have hx := crcShift_injective (crcShift_injective (crcShift_injective (crcShift_injective (crcShift_injective
    (crcShift_injective (crcShift_injective (crcShift_injective h)))))))
  exact (BitVec.xor_left_inj b).1 hx

theorem crcByte_right_injective {r a b : Byte} (h : crcByte r a = crcByte r b) : a = b := by
  have hx := crcShift_injective (crcShift_injective (crcShift_injective (crcShift_injective (crcShift_injective
    (crcShift_injective (crcShift_injective (crcShift_injective h)))))))
  exact (BitVec.xor_right_inj r).1 hx

/-- Different registers stay different over the same bytes. -/
theorem crc_foldl_injective : ∀ (bytes : List Byte) {r q : Byte}, bytes.foldl crcByte r = bytes.foldl crcByte q → r = q
  | [], _, _, h => h
  | _ :: bytes, _, _, h => crcByte_left_injective (crc_foldl_injective bytes h)

theorem crcByte_self (r : Byte) : crcByte r r = 0 := by
  unfold crcByte
  rw [BitVec.xor_self]
  rfl

end Sys2Proof.Machine

namespace Sys2Proof.Proofs
open Sys2Proof.Machine

/-- Settles O14: field by field. -/
theorem stepRecordRoundTrip : Obligations.StepRecordRoundTrip := by
  intro r ht hr hp hd hl ha hto hro hre hcall
  refine ⟨rfl, ?_⟩
  have he : r.encode = [byte r.kind.code, byte (bit 0 r.flags.announce + bit 1 r.flags.userEnd + bit 2 r.flags.forceLock +
      bit 3 r.flags.atTemp), byte (r.target / 256), byte r.target, byte r.ramp, byte (r.pattern.getD 255),
      byte (r.duration / 256), byte r.duration, byte (conditionCode r.condition), byte (r.limit / 256), byte r.limit,
      byte (r.amount / 256), byte r.amount, byte r.tolerance, byte r.routine, byte r.repeats] := rfl
  unfold readStep
  simp only [he, wordAt, byteAt, List.getD_cons_succ, List.getD_cons_zero, readKind_code, readFlags_bits,
    readPattern_byte hp, readCondition_code, toNat_word ht, toNat_word hd, toNat_word hl, toNat_word ha, toNat_byte hr,
    toNat_byte hto, toNat_byte hro, toNat_byte hre]
  have hrout : (if r.kind = .call then r.routine else 0) = r.routine := by
    split
    · rfl
    · next h => exact (hcall h).1.symm
  have hrep : (if r.kind = .call then r.repeats else 0) = r.repeats := by
    split
    · rfl
    · next h => exact (hcall h).2.symm
  simp [hrout, hrep]

/-- Settles O15: field by field, the phases of a pattern by their place. -/
theorem tableRecordRoundTrips : Obligations.TableRecordRoundTrips := by
  refine ⟨fun c hz0 hz1 hg hd0 hd1 ht0 ht1 hb hba hc hgs => ⟨rfl, ?_⟩, fun l hv hkp hki hh hdb hoc => ⟨rfl, ?_⟩,
    fun p hc hl hph => ⟨rfl, ?_⟩⟩
  · have he : c.encode = [byte ((BitVec.ofInt 24 c.zero).toNat / 65536), byte ((BitVec.ofInt 24 c.zero).toNat / 256),
        byte (BitVec.ofInt 24 c.zero).toNat, byte (c.gain / 256), byte c.gain, BitVec.ofInt 8 c.drift,
        byte ((BitVec.ofInt 16 c.tcal).toNat / 256), byte (BitVec.ofInt 16 c.tcal).toNat, byte c.blockLength, byte c.band,
        byte c.countM, byte (c.gateSpeed / 256), byte c.gateSpeed] := rfl
    have h24 := (BitVec.ofInt 24 c.zero).isLt
    have h16 := (BitVec.ofInt 16 c.tcal).isLt
    unfold readCalibration
    simp only [he, tripleAt, wordAt, byteAt, List.getD_cons_succ, List.getD_cons_zero, toNat_triple h24, toNat_word h16,
      toNat_word hg, toNat_word hgs, toNat_byte hb, toNat_byte hba, toNat_byte hc]
    rw [signed_ofInt (by omega) (by omega) (by omega), signed_ofInt (by omega) (by omega) (by omega),
      signed_ofInt (by omega) (by omega) (by omega)]
  · simp only [Limits.valid, Bool.and_eq_true, decide_eq_true_eq] at hv
    unfold readLimits Limits.encode
    simp (disch := omega) only [List.flatMap_cons, List.flatMap_nil, List.map_cons, List.map_nil, word, List.cons_append,
      List.nil_append, wordAt, byteAt, List.getD_cons_succ, List.getD_cons_zero, toNat_word, toNat_flag]
    simp (disch := omega) only [toNat_byte]
  · have hphase : ∀ i (h : i < 8), readPhase p.encode (2 + 5 * i) = p.phases[i] := by
      intro i h
      obtain ⟨hs, hd, ha⟩ := hph i h
      have hp : p.phase i = p.phases[i] := by simp [Pattern.phase, h]
      rw [← hp]
      exact readPhase_encode hs hd ha (p.encode_phase h)
    unfold readPatternEntry
    have h0 : byteAt p.encode 0 = p.count := toNat_byte hc
    have h1 : byteAt p.encode 1 = p.loop := toNat_byte hl
    rw [h0, h1]
    have hv : Vector.ofFn (fun i : Fin 8 => readPhase p.encode (2 + 5 * i.val)) = p.phases := by
      ext i hi
      simpa using hphase i hi
    rw [hv]

/-- Settles O16: each byte enters the register by an injective map. -/
theorem checkDetectsOneByte : Obligations.CheckDetectsOneByte := by
  refine ⟨fun bytes => ?_, fun front back a b hab he => hab ?_⟩
  · rw [crc, List.foldl_append]
    exact crcByte_self _
  · rw [crc, crc, List.foldl_append, List.foldl_append] at he
    exact crcByte_right_injective (crc_foldl_injective back he)

end Sys2Proof.Proofs
end

