-- ==== Sys2Proof/Proofs/ReceiverRows.lean ====
section
/-! The two receivers (R159): what a byte, a discard and a gap do, and the bytes of a whole frame. -/

namespace Sys2Proof.Machine

/-! ### An event with no request waiting -/

/-- An event that leaves no request waiting leads to what it leaves, but for the picks. -/
theorem State.leadsTo_of {c : Instr} {s u x : State} (h : exec c s = .next u.settle) (hq : u.calm)
    (hx : u.content = x.content) : s.leadsTo c x :=
  ⟨_, h, (State.settle_content hq).trans hx⟩

theorem State.setReceiver_calm {s : State} (h : s.calm) (rx : Rx) (x : Receiver) : (s.setReceiver rx x).calm := by
  cases rx <;> exact h

theorem State.discardFrame_calm {s : State} (h : s.calm) (rx : Rx) : (s.discardFrame rx).calm := by
  cases rx <;> exact h

/-- A command that sets a receiver. -/
theorem State.leadsTo_setReceiver {c : Instr} {s : State} {rx : Rx} {x : Receiver} (hs : s.calm)
    (h : exec c s = .next (s.setReceiver rx x).settle) : s.leadsTo c (s.setReceiver rx x) :=
  State.leadsTo_of h (State.setReceiver_calm hs rx x) rfl

/-- A command that discards a frame. -/
theorem State.leadsTo_discard {c : Instr} {s : State} {rx : Rx} (hs : s.calm)
    (h : exec c s = .next (s.discardFrame rx).settle) : s.leadsTo c (s.discardFrame rx) :=
  State.leadsTo_of h (State.discardFrame_calm hs rx) rfl

/-! ### What a byte does, by the receiver's state -/

theorem State.byteArrives_hunt {s : State} {rx : Rx} (h : (s.receiver rx).state = .hunt) (b : Byte) :
    s.byteArrives rx b = s.setReceiver rx
      (if b = 0xC3 then { Receiver.hunting with state := .kind } else { s.receiver rx with gap := 0 }) := by
  simp only [State.byteArrives, h]

theorem State.byteArrives_kind {s : State} {rx : Rx} (h : (s.receiver rx).state = .kind) (b : Byte) :
    s.byteArrives rx b = s.setReceiver rx { s.receiver rx with state := .length, kind := b, gap := 0 } := by
  simp only [State.byteArrives, h]

theorem State.byteArrives_length {s : State} {rx : Rx} (h : (s.receiver rx).state = .length) (b : Byte) :
    s.byteArrives rx b = if 64 < b.toNat then s.discardFrame rx else s.setReceiver rx { s.receiver rx with
      state := if b.toNat = 0 then .check else .payload, length := b.toNat, payload := [], gap := 0 } := by
  simp only [State.byteArrives, h]

theorem State.byteArrives_payload {s : State} {rx : Rx} (h : (s.receiver rx).state = .payload) (b : Byte) :
    s.byteArrives rx b = s.setReceiver rx { s.receiver rx with
      payload := (s.receiver rx).payload ++ [b], gap := 0
      state := if (s.receiver rx).length ≤ (s.receiver rx).payload.length + 1 then .check else .payload } := by
  simp only [State.byteArrives, h, List.length_append, List.length_cons, List.length_nil]

theorem State.byteArrives_check {s : State} {rx : Rx} (h : (s.receiver rx).state = .check) (b : Byte) :
    s.byteArrives rx b =
      if b = crc ((s.receiver rx).kind :: byte (s.receiver rx).length :: (s.receiver rx).payload) then
        (s.setReceiver rx .hunting).deliverFrame rx ⟨(s.receiver rx).kind, (s.receiver rx).payload⟩
      else s.discardFrame rx := by
  simp only [State.byteArrives, h]

/-! ### Receivers and what follows an event -/

theorem State.pickDrive_setReceiver (s : State) (rx : Rx) (x : Receiver) :
    (s.setReceiver rx x).pickDrive = s.pickDrive.setReceiver rx x := by
  rcases s with ⟨_, _, _, _, _, _, _, _, _, _, _, _, _, _, _, _, _, _, d, _, _, _, _⟩
  rcases d with ⟨heat, hm, _, _, sm, _, lm, pq, _, _, sending⟩
  cases rx <;> cases sending with
  | some _ => rfl
  | none => cases hm <;> cases heat <;> cases sm <;> cases lm <;> cases pq <;> rfl

theorem State.pickUpstream_setReceiver (s : State) (rx : Rx) (x : Receiver) :
    (s.setReceiver rx x).pickUpstream = s.pickUpstream.setReceiver rx x := by
  rcases s with ⟨_, _, _, _, _, _, _, _, _, _, _, _, _, _, _, _, _, _, _, c, _, _, r⟩
  rcases c with ⟨_, _, _, slot, permission, _, _, _, _, _, _⟩
  rcases r with ⟨_, announce, _, answers, readings, _, resetAnswer, sending⟩
  cases rx <;> cases sending with
  | some _ => rfl
  | none =>
    cases resetAnswer <;> cases permission <;> cases answers <;> cases slot <;> cases announce <;> cases readings <;> rfl

/-- The picks do not look at the receivers. -/
theorem State.picks_setReceiver (s : State) (rx : Rx) (x : Receiver) :
    (s.setReceiver rx x).picks = s.picks.setReceiver rx x := by
  rw [State.picks, State.pickDrive_setReceiver, State.pickUpstream_setReceiver]; rfl

/-- What follows an event leaves no longer command queue. -/
theorem settleWith_queue_le : ∀ (n : Nat) (s : State), (settleWith n s).ctl.queue.length ≤ s.ctl.queue.length
  | 0, s => s.picks_queue ▸ le_rfl
  | n + 1, s => by
    unfold settleWith
    dsimp only
    split
    · rw [State.picks_queue]
    · next r rest hq =>
      have hs : s.ctl.queue = r :: rest := s.picks_queue ▸ hq
      split
      · have h1 := settleWith_queue_le n (carryOut r (s.picks.withCtl (s.picks.ctl.dequeue rest)))
        have h2 := carryOut_queue_le r (s.picks.withCtl (s.picks.ctl.dequeue rest))
        rw [State.withCtl_ctl, Control.dequeue_queue] at h2
        rw [hs]
        exact (h1.trans h2).trans (Nat.le_succ _)
      · rw [State.picks_queue]

/-- Nothing is left to pick, and the head of the command queue, if there is one, cannot be taken. -/
def State.quiet (s : State) : Prop := s.picks = s ∧ ∀ r rest, s.ctl.queue = r :: rest → s.canTake r = false

/-- A state that what follows an event leaves alone is quiet. -/
theorem State.quiet_of_settle {s : State} (h : s.settle = s) : s.quiet := by
  cases hq : s.ctl.queue with
  | nil => exact ⟨(State.settle_of_calm hq).symm.trans h, fun r rest he => absurd (hq.symm.trans he) (by simp)⟩
  | cons r rest =>
    have hp : s.picks.ctl.queue = r :: rest := s.picks_queue.trans hq
    unfold State.settle at h
    rw [hq, List.length_cons, settleWith] at h
    rw [hp] at h
    dsimp only at h
    split at h
    · exfalso
      have h1 := settleWith_queue_le rest.length (carryOut r (s.picks.withCtl (s.picks.ctl.dequeue rest)))
      have h2 := carryOut_queue_le r (s.picks.withCtl (s.picks.ctl.dequeue rest))
      rw [State.withCtl_ctl, Control.dequeue_queue] at h2
      rw [h, hq, List.length_cons] at h1
      omega
    · next hn =>
      refine ⟨h, fun r' rest' he => ?_⟩
      rw [hq] at he
      cases he
      rw [← h]
      exact Bool.not_eq_true _ ▸ hn

theorem State.settle_of_quiet {s : State} (h : s.quiet) : s.settle = s := by
  obtain ⟨hp, hn⟩ := h
  cases hq : s.ctl.queue with
  | nil => exact (State.settle_of_calm hq).trans hp
  | cons r rest =>
    unfold State.settle
    rw [hq, List.length_cons, settleWith]
    rw [hp, hq]
    dsimp only
    rw [if_neg (by simp [hn r rest hq])]

theorem State.setReceiver_quiet {s : State} (h : s.quiet) (rx : Rx) (x : Receiver) : (s.setReceiver rx x).quiet := by
  refine ⟨by rw [State.picks_setReceiver, h.1], fun r rest hq => ?_⟩
  cases rx <;> exact h.2 r rest hq

@[simp] theorem State.setReceiver_setReceiver (s : State) (rx : Rx) (x y : Receiver) :
    (s.setReceiver rx x).setReceiver rx y = s.setReceiver rx y := by cases rx <;> rfl

@[simp] theorem State.receiver_setReceiver (s : State) (rx : Rx) (x : Receiver) :
    (s.setReceiver rx x).receiver rx = x := by cases rx <;> rfl

theorem State.setReceiver_receiver (s : State) (rx : Rx) : s.setReceiver rx (s.receiver rx) = s := by cases rx <;> rfl

/-! ### The bytes of a frame -/

theorem runCommands_append {a b : List Instr} {s t : State} (h : runCommands a s = .next t) :
    runCommands (a ++ b) s = runCommands b t := by
  induction a generalizing s with
  | nil => cases h; rfl
  | cons c rest ih =>
    have run : ∀ l, runCommands (c :: l) s = match exec c s with
        | .next u => runCommands l u
        | .fault f => .fault f
        | .refused r => .refused r := fun _ => rfl
    rw [List.cons_append, run]
    rw [run] at h
    cases hc : exec c s with
    | next u => rw [hc] at h; exact ih h
    | fault f => rw [hc] at h; cases h
    | refused r => rw [hc] at h; cases h

/-- A byte that changes the receiver alone, in a quiet state. -/
theorem exec_byte_sets {s : State} (hs : s.quiet) {rx : Rx} {x y : Receiver} {b : Byte}
    (h : (s.setReceiver rx x).byteArrives rx b = s.setReceiver rx y) :
    exec (.byteArrival rx b) (s.setReceiver rx x) = .next (s.setReceiver rx y) := by
  change Host.Outcome.next ((s.setReceiver rx x).byteArrives rx b).settle = _
  rw [h, State.settle_of_quiet (State.setReceiver_quiet hs rx y)]

/-- The receiver with `n` payload bytes announced and `got` of them taken. -/
def Receiver.taking (kind : Byte) (n : Nat) (got : List Byte) : Receiver :=
  { state := if n ≤ got.length then .check else .payload, kind := kind, length := n, payload := got, gap := 0 }

/-- The payload's bytes reach the receiver one by one. -/
theorem run_payload {s : State} (hs : s.quiet) (rx : Rx) (kind : Byte) : ∀ (rest got : List Byte),
    runCommands (rest.map (Instr.byteArrival rx))
        (s.setReceiver rx (.taking kind (got.length + rest.length) got)) =
      .next (s.setReceiver rx (.taking kind (got.length + rest.length) (got ++ rest)))
  | [], got => by simp [runCommands]
  | b :: rest, got => by
    have hst : ((s.setReceiver rx (.taking kind (got.length + (b :: rest).length) got)).receiver rx).state = .payload := by
      rw [State.receiver_setReceiver]
      exact if_neg (by simp)
    have he : exec (.byteArrival rx b) (s.setReceiver rx (.taking kind (got.length + (b :: rest).length) got)) =
        .next (s.setReceiver rx (.taking kind ((got ++ [b]).length + rest.length) (got ++ [b]))) := by
      refine exec_byte_sets hs ?_
      rw [State.byteArrives_payload hst, State.setReceiver_setReceiver, State.receiver_setReceiver]
      have hn : (got ++ [b]).length + rest.length = got.length + (b :: rest).length := by simp; omega
      rw [hn]
      simp only [Receiver.taking, List.length_append, List.length_cons, List.length_nil, Nat.zero_add]
      rfl
    have ih := run_payload hs rx kind rest (got ++ [b])
    rw [List.map_cons, runCommands, he]
    simp only
    rw [ih]
    have hn : (got ++ [b]).length + rest.length = got.length + (b :: rest).length := by simp; omega
    rw [hn, List.append_assoc]
    rfl

end Sys2Proof.Machine

namespace Sys2Proof.Proofs
open Sys2Proof.Machine

/-- Settles O17: the discard of each receiver. -/
theorem receiverDiscards : Obligations.ReceiverDiscards := by
  intro s hs
  have gap : ∀ rx, exec (.receiverGapTimeout rx) s = .next (if (s.receiver rx).state = .hunt then s else s.discardFrame rx).settle :=
    fun _ => rfl
  refine ⟨State.leadsTo_discard (rx := .sense) hs rfl, State.leadsTo_discard (rx := .control) hs rfl, ?_, ?_⟩
  · split
    · next h => exact State.leadsTo_of ((gap .sense).trans (by rw [if_pos (by exact h)])) hs rfl
    · next h => exact State.leadsTo_discard (rx := .sense) hs ((gap .sense).trans (by rw [if_neg (by exact h)]))
  · split
    · next h => exact State.leadsTo_of ((gap .control).trans (by rw [if_pos (by exact h)])) hs rfl
    · next h => exact State.leadsTo_discard (rx := .control) hs ((gap .control).trans (by rw [if_neg (by exact h)]))

/-- Settles O18: the receiver's states in turn. -/
theorem byteArrivalByState : Obligations.ByteArrivalByState := by
  intro rx b s x hs hx
  subst hx
  have run : ∀ {u}, s.byteArrives rx b = u → exec (.byteArrival rx b) s = .next u.settle := fun h => h ▸ rfl
  refine ⟨fun h k => ?_, fun h k => ?_, fun h => ?_, fun h k => ?_, fun h k => ?_, fun h k k' => ?_, fun h k => ?_,
    fun h k => ?_, fun h k => ?_, fun h k => ?_⟩
  · exact State.leadsTo_setReceiver hs (run (by rw [State.byteArrives_hunt h, if_neg k]))
  · exact State.leadsTo_setReceiver hs (run (by rw [State.byteArrives_hunt h, if_pos k]))
  · exact State.leadsTo_setReceiver hs (run (State.byteArrives_kind h b))
  · exact State.leadsTo_discard hs (run (by rw [State.byteArrives_length h, if_pos k]))
  · exact State.leadsTo_setReceiver hs (run (by rw [State.byteArrives_length h, if_neg (by omega), if_pos k, k]))
  · exact State.leadsTo_setReceiver hs (run (by rw [State.byteArrives_length h, if_neg (by omega), if_neg (by omega)]))
  · refine State.leadsTo_setReceiver hs (run ?_)
    rw [State.byteArrives_payload h, if_neg (by omega), h]
  · exact State.leadsTo_setReceiver hs (run (by rw [State.byteArrives_payload h, if_pos k]))
  · exact State.leadsTo_discard hs (run (by rw [State.byteArrives_check h, if_neg k]))
  · exact run (by rw [State.byteArrives_check h, if_pos k])

/-- Settles O13: start byte, kind and length, the payload by induction, and the check that delivers. -/
theorem frameBytesDeliver : Obligations.FrameBytesDeliver := by
  intro rx f s hset hunt hlen
  have hs := State.quiet_of_settle hset
  have hn : (byte f.payload.length).toNat = f.payload.length := toNat_byte (by omega)
  have h1 : exec (.byteArrival rx 0xC3) s = .next (s.setReceiver rx { Receiver.hunting with state := .kind }) := by
    have h := exec_byte_sets (x := s.receiver rx) (rx := rx) (b := 0xC3)
      (y := { Receiver.hunting with state := .kind }) hs (by rw [State.setReceiver_receiver, State.byteArrives_hunt hunt, if_pos rfl])
    rwa [State.setReceiver_receiver] at h
  have h2 := exec_byte_sets (rx := rx) (x := { Receiver.hunting with state := .kind }) (b := f.kind)
    (y := { Receiver.hunting with state := .length, kind := f.kind }) hs
    (by rw [State.byteArrives_kind (by simp), State.setReceiver_setReceiver, State.receiver_setReceiver]; rfl)
  have h3 := exec_byte_sets (rx := rx) (x := { Receiver.hunting with state := .length, kind := f.kind })
    (b := byte f.payload.length) (y := .taking f.kind f.payload.length []) hs (by
      rw [State.byteArrives_length (by simp), if_neg (by omega), State.setReceiver_setReceiver,
        State.receiver_setReceiver, hn]
      by_cases h0 : f.payload.length = 0 <;> simp [Receiver.taking, h0])
  have h4 := run_payload hs rx f.kind f.payload []
  simp only [List.length_nil, Nat.zero_add, List.nil_append] at h4
  have h5 : exec (.byteArrival rx f.check) (s.setReceiver rx (.taking f.kind f.payload.length f.payload)) =
      .next ((s.setReceiver rx .hunting).deliverFrame rx f).settle := by
    have hst : ((s.setReceiver rx (.taking f.kind f.payload.length f.payload)).receiver rx).state = .check := by
      rw [State.receiver_setReceiver]
      exact if_pos le_rfl
    change Host.Outcome.next (State.byteArrives _ rx f.check).settle = _
    rw [State.byteArrives_check hst, State.receiver_setReceiver, if_pos (by rfl), State.setReceiver_setReceiver]
    rfl
  have hb : f.bytes.map (Instr.byteArrival rx) = .byteArrival rx 0xC3 :: .byteArrival rx f.kind ::
      .byteArrival rx (byte f.payload.length) :: (f.payload.map (Instr.byteArrival rx) ++ [.byteArrival rx f.check]) := by
    simp [Frame.bytes]
  rw [hb]
  simp only [runCommands, h1, h2, h3]
  rw [runCommands_append h4]
  simp only [runCommands, h5]

end Sys2Proof.Proofs
end

