-- ==== Sys2Proof/Proofs/SampleRows.lean ====
section
/-! The sample intake (R139 to R141): what an arrival leaves before its sample is delivered, and the samples of the
weighing channel up to the output. -/

namespace Sys2Proof.Machine

/-! ### An arrival with no request waiting -/

/-- An event with no request waiting is followed by the picks alone. -/
theorem exec_event_picks {c : Instr} {s u : State} (h : exec c s = .next u.settle) (hq : u.calm) :
    exec c s = .next u.picks := by
  rw [h, State.settle_of_calm hq]

/-- A sample row with rehearsal off takes its frame. -/
theorem exec_sample {c : Instr} {s : State} {seq : Byte} {x : Sample} (h : exec c s = .next (s.senseSample seq x).settle)
    (hs : s.calm) (hr : s.ctl.rehearsal = false) : exec c s = .next (s.takeFrame seq x).picks := by
  have hu : s.senseSample seq x = s.takeFrame seq x := if_neg (by simp [hr])
  rw [hu] at h
  exact exec_event_picks h ((s.takeFrame_queue seq x).trans hs)

/-- The state with the sequence number of an arrival recorded. -/
def State.numbered (s : State) (seq : Byte) : State := s.withIntake { s.intake with lastSeq := some seq }

/-- The state at a gap: LINK raised and the weighing block discarded. -/
def State.gapped (s : State) : State := (s.raise .link).weighGap

theorem State.checkSequence_of_gap {s : State} {seq : Byte} (h : ¬ s.inSequence seq) :
    s.checkSequence seq = s.gapped.numbered seq := by
  unfold State.inSequence at h
  unfold State.checkSequence
  cases hl : s.intake.lastSeq with
  | none => rw [hl] at h; exact absurd trivial h
  | some l =>
    rw [hl] at h
    exact congrArg (fun u : State => u.numbered seq) (if_pos (by simpa using h))

theorem State.streamArrival_of_live {s : State} {k : StreamId} (h : (s.intake.stream k).live = true) :
    s.streamArrival k = s.withIntake (s.intake.setStream k ⟨true, 0⟩) := if_pos h

theorem State.keepHolds_of_not_held {s : State} (h : s.engine.state ≠ .held) (x : Holds) : s.keepHolds x = s := if_pos (by simp [h])

theorem State.dropSensor_of_not_held {s : State} (h : s.engine.state ≠ .held) : s.dropSensor = s := by
  unfold State.dropSensor
  rw [State.keepHolds_of_not_held h, ite_self]

/-- Outside HELD the return of a stream other than MOTOR reaches no owner. -/
theorem State.streamArrival_of_not_held {s : State} {k : StreamId} (hk : k ≠ .motor) (h : s.engine.state ≠ .held) :
    s.streamArrival k = s.withIntake (s.intake.setStream k ⟨true, 0⟩) := by
  have hd := State.dropSensor_of_not_held (s := s.withIntake (s.intake.setStream k ⟨true, 0⟩)) h
  unfold State.streamArrival
  dsimp only
  rw [hd, if_neg hk, ite_self]

theorem Intake.setStream_numbered (i : Intake) (k : StreamId) (x : Stream) (seq : Byte) :
    ({ i with lastSeq := some seq } : Intake).setStream k x = { i.setStream k x with lastSeq := some seq } := by
  cases k <;> rfl

theorem Intake.stream_numbered (i : Intake) (k : StreamId) (seq : Byte) :
    ({ i with lastSeq := some seq } : Intake).stream k = i.stream k := by
  cases k <;> rfl

theorem State.seen_eq (s : State) (k : StreamId) (seq : Byte) :
    s.seen k seq = (s.numbered seq).withIntake ((s.numbered seq).intake.setStream k ⟨true, 0⟩) := by
  simp only [State.seen, State.numbered, State.withIntake_intake, Intake.setStream_numbered]
  rfl

theorem State.checkSequence_numbered {s : State} {seq : Byte} (h : s.inSequence seq) :
    s.checkSequence seq = s.numbered seq := State.checkSequence_of_inSequence h

/-- An arrival in sequence whose return reaches no owner: the sample is delivered to the state that has seen it. -/
theorem State.takeFrame_seen {s : State} {seq : Byte} {x : Sample} (hq : s.inSequence seq)
    (hk : (s.intake.stream x.stream).live = true ∨ (x.stream ≠ .motor ∧ s.engine.state ≠ .held)) :
    s.takeFrame seq x = (s.seen x.stream seq).deliver x := by
  unfold State.takeFrame
  rw [State.checkSequence_numbered hq, s.seen_eq]
  rcases hk with hl | ⟨hm, hh⟩
  · rw [State.streamArrival_of_live (by rw [← hl]; exact congrArg _ (Intake.stream_numbered _ _ _))]
  · rw [State.streamArrival_of_not_held (s := s.numbered seq) hm hh]

theorem exec_seen {c : Instr} {s : State} {seq : Byte} {x : Sample} (h : exec c s = .next (s.senseSample seq x).settle)
    (hs : s.calm) (hq : s.senses seq)
    (hk : (s.intake.stream x.stream).live = true ∨ (x.stream ≠ .motor ∧ s.engine.state ≠ .held)) :
    exec c s = .next ((s.seen x.stream seq).deliver x).picks := by
  rw [exec_sample h hs hq.1, State.takeFrame_seen hq.2 hk]

/-- A sample whose delivery comes to `u` leads to it. -/
theorem State.leadsTo_sample {c : Instr} {s u : State} {seq : Byte} {x : Sample}
    (h : exec c s = .next (s.senseSample seq x).settle) (hs : s.calm) (hq : s.senses seq)
    (hk : (s.intake.stream x.stream).live = true ∨ (x.stream ≠ .motor ∧ s.engine.state ≠ .held))
    (hd : (s.seen x.stream seq).deliver x = u) : s.leadsTo c u := by
  refine ⟨_, exec_seen h hs hq hk, ?_⟩
  rw [hd, State.picks_content]

/-! ### What an arrival leaves of the intake -/

theorem State.streamArrival_intake (s : State) (k : StreamId) :
    (s.streamArrival k).intake = s.intake.setStream k ⟨true, 0⟩ := by
  have h : (s.streamArrival k).rest = (s.withIntake (s.intake.setStream k ⟨true, 0⟩)).rest := by
    unfold State.streamArrival
    dsimp only
    split
    · rfl
    · split <;> simp
  exact State.intake_of_rest h

/-- The parts that the return of a stream changes. -/
abbrev returnParts : List Part := .intake :: .motorLive :: .zeroLive :: .latch :: engineParts

theorem arrivalParts_subset (k : StreamId) : arrivalParts k ⊆ returnParts := by
  cases k <;> decide

/-- The parts that delivered samples change. -/
abbrev deliveredParts : List Part := .output :: .tare :: .shown :: .block :: .temperatures :: .linTables :: .measured ::
  .slowRun :: .levels :: .mains :: .choices :: .coolDown :: (edgeParts ++ zeroParts)

theorem Sample.parts_delivered (x : Sample) : x.parts ⊆ deliveredParts := by
  cases x
  case weigh => exact (by decide : weighParts ⊆ deliveredParts)
  case temp => exact (by decide : tempParts ⊆ deliveredParts)
  case motor => exact (by decide : motorParts ⊆ deliveredParts)
  case levels => exact (by decide : .levels :: edgeParts ⊆ deliveredParts)
  case zero => exact (by decide : zeroParts ⊆ deliveredParts)

/-- Samples other than those of the weighing channel leave its block. -/
theorem Sample.parts_block {x : Sample} (h : x.stream ≠ .weigh) : .block ∉ x.parts := by
  cases x
  case weigh => exact absurd rfl h
  case temp => exact (by decide : .block ∉ tempParts)
  case motor => exact (by decide : .block ∉ motorParts)
  case levels => exact (by decide : .block ∉ (.levels :: edgeParts : List Part))
  case zero => exact (by decide : .block ∉ zeroParts)

theorem State.streamArrival_within (s : State) (k : StreamId) : Within returnParts s (s.streamArrival k) :=
  (s.streamArrival_acts k).within.mono (arrivalParts_subset k)

theorem State.deliver_within (s : State) (x : Sample) : Within deliveredParts s (s.deliver x) :=
  (s.deliver_acts x).within.mono x.parts_delivered

theorem State.deliver_intake (s : State) (x : Sample) : (s.deliver x).intake = s.intake :=
  s.deliver_within x .intake (by decide)

theorem State.checkSequence_intake (s : State) (seq : Byte) :
    (s.checkSequence seq).intake = { s.intake with lastSeq := some seq } := by
  by_cases h : s.inSequence seq
  · rw [State.checkSequence_numbered h]; rfl
  · rw [State.checkSequence_of_gap h]; rfl

theorem State.takeFrame_intake (s : State) (seq : Byte) (x : Sample) :
    (s.takeFrame seq x).intake = (s.seen x.stream seq).intake := by
  unfold State.takeFrame
  rw [State.deliver_intake, State.streamArrival_intake, State.checkSequence_intake, Intake.setStream_numbered]
  rfl

/-- A gap leaves LINK pending. -/
theorem State.takeFrame_link {s : State} {seq : Byte} (h : ¬ s.inSequence seq) (x : Sample) :
    (s.takeFrame seq x).report.isPending .link = true := by
  have h0 : (s.checkSequence seq).report.isPending .link = true := by
    rw [State.checkSequence_of_gap h]; exact s.raise_isPending .link
  have h1 := State.streamArrival_within (s.checkSequence seq) x.stream .notices (by decide) _ h0
  exact State.deliver_within _ x .notices (by decide) _ h1

/-- At a gap of a kind other than WEIGH the weighing block is gone. -/
theorem State.takeFrame_block {s : State} {seq : Byte} (h : ¬ s.inSequence seq) {x : Sample} (hx : x.stream ≠ .weigh) :
    Part.block.same (s.withWeigh s.weigh.discard) (s.takeFrame seq x) := by
  have h0 : Part.block.same (s.withWeigh s.weigh.discard) (s.checkSequence seq) := by
    rw [State.checkSequence_of_gap h]; exact rfl
  have h1 := State.streamArrival_within (s.checkSequence seq) x.stream .block (by decide)
  have h2 := (State.deliver_acts ((s.checkSequence seq).streamArrival x.stream) x).within .block (Sample.parts_block hx)
  exact Part.same_trans (Part.same_trans h0 h1) h2

/-! ### The weighing channel up to its output -/

theorem State.weighSample_gated {s : State} (h : s.cal.gateSpeed < s.stir.speed) (r : Int) :
    s.weighSample r = if s.weigh.gateClosed then s
      else s.withWeigh { s.weigh.discard with gateClosed := true, status := .gated } := if_pos h

theorem State.weighSample_passes {s : State} (h : s.stir.speed ≤ s.cal.gateSpeed) (r : Int) :
    s.weighSample r = (s.withWeigh { s.weigh with gateClosed := false }).takeSample r := if_neg (Nat.not_lt.2 h)

theorem State.takeSample_saturated {s : State} {r : Int} (h : r = -8388608 ∨ r = 8388607) :
    s.takeSample r = s.withWeigh { s.weigh.discard with status := .overload } := if_pos h

/-- A sample that is not saturated is added, and the last one of a block forms the output. -/
theorem State.takeSample_counted {s : State} {r : Int} (hl : r ≠ -8388608) (hh : r ≠ 8388607) :
    s.takeSample r = if s.cal.blockLength ≤ s.weigh.blockCount + 1 then s.formOutput (s.weigh.blockSum + r)
      else s.withWeigh { s.weigh with blockSum := s.weigh.blockSum + r, blockCount := s.weigh.blockCount + 1 } :=
  if_neg (by simp [hl, hh])

/-- The latest average that a block sum forms (R73). -/
def State.averageOf (s : State) (sum : Int) : Int :=
  blockAverage sum s.cal.blockLength - driftCorrection s.cal.drift s.driftBase s.cal.tcal

/-- The state in which an output of average `a` is formed: its block gone, its gate open. -/
def State.averaged (s : State) (a : Int) : State :=
  s.withWeigh { s.weigh with gateClosed := false, blockSum := 0, blockCount := 0, average := a }

/-- The arrival that completes a block. -/
theorem State.weighSample_completes {s : State} {r : Int} (hg : s.stir.speed ≤ s.cal.gateSpeed) (hl : r ≠ -8388608)
    (hh : r ≠ 8388607) (hc : s.cal.blockLength ≤ s.weigh.blockCount + 1) :
    s.weighSample r = (s.withWeigh { s.weigh with gateClosed := false }).formOutput (s.weigh.blockSum + r) := by
  rw [State.weighSample_passes hg, State.takeSample_counted hl hh]
  exact if_pos hc

theorem State.formOutput_uncalibrated {s : State} (h : s.cal.gain = 0) (sum : Int) :
    (s.withWeigh { s.weigh with gateClosed := false }).formOutput sum = (s.averaged (s.averageOf sum)).withWeigh
      { (s.averaged (s.averageOf sum)).weigh.judgeStable s.cal (s.averageOf sum) with status := .uncalibrated } :=
  if_pos h

theorem State.formOutput_calibrated {s : State} (h : s.cal.gain ≠ 0) (sum : Int) :
    (s.withWeigh { s.weigh with gateClosed := false }).formOutput sum =
      (s.averaged (s.averageOf sum)).formWeight (rawGross (s.averageOf sum) s.cal.zero s.cal.gain) := if_neg h

/-- The weighing channel after the stability test on `v`, which lies `near` the anchor or not (R76). -/
def Weigh.judged (w : Weigh) (c : Calibration) (near : Bool) (v : Int) : Weigh :=
  { w with
    anchor := if near then w.anchor else some v
    stability := if near then min (w.stability + 1) c.countM else 0
    stable := decide (c.countM ≤ if near then min (w.stability + 1) c.countM else 0) }

/-- The stability test: a value within the band of the anchor counts, another becomes the anchor. -/
theorem Weigh.judgeStable_eq {w : Weigh} {c : Calibration} {v : Int} {near : Bool} (hn : near = match w.anchor with
      | none => false
      | some a => decide ((v - a).natAbs ≤ c.band)) : w.judgeStable c v = w.judged c near v := by
  subst hn
  unfold Weigh.judgeStable Weigh.judged
  cases ha : w.anchor with
  | none => rfl
  | some a =>
    by_cases h : (v - a).natAbs ≤ c.band
    · simp [h]
    · simp [h]

/-- Outside an ADD step the output changes the weighing channel alone. -/
theorem State.formWeight_plain {s : State} (hr : s.inAddRef = false) (hf : s.inAddFill = false) (raw : Int) :
    s.formWeight raw = s.withWeigh
      (((s.weigh.judgeStable s.cal (clampWeight raw)).takeTare (clampWeight raw)).report raw) := by
  simp [State.formWeight, hr, hf]

theorem clampWeight_eq (x : Int) : clampWeight x = max (-20000) (min 80000 x) := clampInt_eq (by decide) x

/-- The weighing channel after a pending tare is taken, if the output is stable (R80). -/
def Weigh.tared (w : Weigh) (g : Int) : Weigh :=
  { w with tare := if w.tarePending && w.stable then g else w.tare, tarePending := w.tarePending && !w.stable }

theorem Weigh.takeTare_eq (w : Weigh) (g : Int) : w.takeTare g = w.tared g := by
  unfold Weigh.takeTare Weigh.tared
  rcases w with ⟨_, _, _, _, _, _, _, _, _, _, stable, _, pending, _⟩
  cases pending <;> cases stable <;> rfl

theorem Weigh.report_net (w : Weigh) (raw : Int) : (w.report raw).net = clampWeight (clampWeight raw - w.tare) := rfl

theorem Weigh.report_added (w : Weigh) (raw : Int) : (w.report raw).added = clampWeight (match w.addReference with
    | none => 0
    | some a => clampWeight raw - a) := by cases h : w.addReference <;> simp [Weigh.report, h]

theorem Weigh.report_status (w : Weigh) (raw : Int) :
    (w.report raw).status = .valid ∨ (w.report raw).status = .clamped := by
  unfold Weigh.report
  dsimp only
  generalize (_ || _ : Bool) = b
  cases b
  · exact .inl rfl
  · exact .inr rfl

/-- The status is CLAMPED when gross, net or added had to be clamped (R75). -/
theorem Weigh.report_clamped_iff (w : Weigh) (raw : Int) : (w.report raw).status = .clamped ↔
    clampWeight raw ≠ raw ∨ (w.report raw).net ≠ clampWeight raw - w.tare ∨
      ∃ a, w.addReference = some a ∧ (w.report raw).added ≠ clampWeight raw - a := by
  cases h : w.addReference with
  | none =>
    have h0 : clampWeight 0 = 0 := rfl
    simp [Weigh.report, h, h0, imp_iff_not_or]
  | some a => simp [Weigh.report, h, imp_iff_not_or, or_assoc]

end Sys2Proof.Machine

namespace Sys2Proof.Proofs
open Sys2Proof.Machine

/-- Settles O19: a frame of another form is read as no sample, and rehearsal sends every frame away. -/
theorem senseDiscards : Obligations.SenseDiscards := by
  intro s hs
  refine ⟨fun kind payload hw => ?_, fun hr seq levels raw a b c => ?_⟩
  · have hn := readSample_eq_none hw
    refine State.leadsTo_of (u := if s.ctl.rehearsal then s else s.raise .link) ?_ ?_ rfl
    · change Host.Outcome.next (s.senseFrame kind payload).settle = _
      rw [State.senseFrame, State.intakeFrame, hn]
    · split <;> exact hs
  · have sent : ∀ (i : Instr) (x : Sample), exec i s = .next (s.senseSample seq x).settle → s.leadsTo i s := fun i x h =>
      State.leadsTo_of (u := s) (h.trans (by rw [State.senseSample, if_pos hr])) hs rfl
    exact ⟨sent _ (.weigh raw.toInt) rfl, sent _ (.temp (low12 a.toNat) (low12 b.toNat) (low12 c.toNat)) rfl,
      sent _ (.motor a.toNat b.toNat) rfl, sent _ (.levels levels) rfl, sent _ .zero rfl⟩

/-- Settles O20: the intake, LINK and the block at a gap, and the parts outside every frame's footprint. -/
theorem arrivalAtIntake : Obligations.ArrivalAtIntake := by
  intro s seq levels raw a b c hs hr k i hk
  have row : ∀ x : Sample, x.stream = k → exec i s = .next (s.senseSample seq x).settle →
      ∃ t, exec i s = .next t ∧ t.intake = (s.seen k seq).intake ∧
        (¬ s.inSequence seq → t.report.isPending .link = true ∧
          (k ≠ .weigh → t.weigh.blockSum = 0 ∧ t.weigh.blockCount = 0 ∧ t.weigh.stability = 0 ∧
            t.weigh.stable = false ∧ t.weigh.anchor = none)) ∧
        t.steps = s.steps ∧ t.patterns = s.patterns ∧ t.cal = s.cal ∧ t.limits = s.limits ∧
        t.senseRx = s.senseRx ∧ t.ctlRx = s.ctlRx ∧ t.pending = s.pending ∧ t.ctl.content = s.ctl.content := by
    rintro x rfl h
    have w := (s.takeFrame_acts seq x).within.mono x.frameParts_subset
    refine ⟨_, exec_sample h hs hr, ?_, fun hg => ⟨?_, fun hw => ?_⟩, ?_⟩
    · rw [State.picks_intake]; exact s.takeFrame_intake seq x
    · rw [State.picks_isPending]; exact State.takeFrame_link hg x
    · have e := State.takeFrame_block hg hw
      rw [State.picks_weigh]
      simp only [Part.same, Weigh.mk.injEq] at e
      simp_all [Weigh.discard]
    · have hrx := w .receivers (by decide)
      have hctl := w .ctl (by decide)
      simp only [State.picks_steps, State.picks_patterns, State.picks_cal, State.picks_limits, State.picks_senseRx,
        State.picks_ctlRx, State.picks_pending, State.picks_ctl_content]
      exact ⟨w .steps (by decide), w .patterns (by decide), w .cal (by decide),
        w .limits (by decide), hrx.1, hrx.2, w .pending (by decide), congrArg Control.content hctl⟩
  simp only [List.mem_cons, Prod.mk.injEq, List.not_mem_nil, or_false] at hk
  rcases hk with ⟨rfl, rfl⟩ | ⟨rfl, rfl⟩ | ⟨rfl, rfl⟩ | ⟨rfl, rfl⟩ | ⟨rfl, rfl⟩
  · exact row (.weigh raw.toInt) rfl rfl
  · exact row (.temp (low12 a.toNat) (low12 b.toNat) (low12 c.toNat)) rfl rfl
  · exact row (.motor a.toNat b.toNat) rfl rfl
  · exact row (.levels levels) rfl rfl
  · exact row .zero rfl rfl

/-- A WEIGH sample in sequence, outside HELD or with its stream LIVE. -/
theorem weighArrival_leadsTo {s : State} {seq : Byte} {raw : BitVec 24} (hs : s.calm) (hq : s.senses seq)
    (hk : s.intake.weigh.live = true ∨ s.engine.state ≠ .held) {u : State}
    (h : (s.seen .weigh seq).weighSample raw.toInt = u) : s.leadsTo (.weighArrival seq raw) u :=
  State.leadsTo_sample (x := .weigh raw.toInt) rfl hs hq (hk.imp_right fun h => ⟨StreamId.noConfusion, h⟩) h

/-- Settles O21: the gate, the saturated sample, and the block that is not yet complete. -/
theorem weighSampleTaken : Obligations.WeighSampleTaken := by
  intro s seq raw hs hq hk
  have gated := State.weighSample_gated (s := s.seen .weigh seq) (r := raw.toInt)
  have passes := State.weighSample_passes (s := s.seen .weigh seq) (r := raw.toInt)
  refine ⟨fun hg hc => ?_, fun hg hc => ?_, fun hg hr => ?_, fun hg hl hh hb => ?_⟩
  · exact weighArrival_leadsTo hs hq hk ((gated hg).trans (if_pos hc))
  · exact weighArrival_leadsTo hs hq hk ((gated hg).trans (if_neg (Bool.eq_false_iff.1 hc)))
  · exact weighArrival_leadsTo hs hq hk ((passes hg).trans (State.takeSample_saturated hr))
  · exact weighArrival_leadsTo hs hq hk ((passes hg).trans ((State.takeSample_counted hl hh).trans (if_neg (Nat.not_le.2 hb))))

/-- Settles O22: the output with gain 0, and the output with a gross. -/
theorem weighOutput : Obligations.WeighOutput := by
  intro s seq raw average gross value near hs hq hk hg hl hh hb0 hb hr hf ha hgr hv hn
  have hc := State.weighSample_completes (s := s.seen .weigh seq) (r := raw.toInt) hg hl hh hb
  have hav : (s.seen .weigh seq).averageOf (s.weigh.blockSum + raw.toInt) = average := ha.symm
  have hgr' : clampWeight (rawGross average s.cal.zero s.cal.gain) = gross := by
    rw [clampWeight_eq, hgr]; rfl
  have hj := Weigh.judgeStable_eq (w := ((s.seen .weigh seq).averaged average).weigh) (c := s.cal) (v := value)
      (near := near) hn
  by_cases h0 : s.cal.gain = 0
  · rw [if_pos h0] at hv
    subst hv
    have hu := hc.trans (State.formOutput_uncalibrated (s := s.seen .weigh seq) h0 (s.weigh.blockSum + raw.toInt))
    rw [hav] at hu
    refine ⟨_, weighArrival_leadsTo hs hq hk (hu.trans (congrArg (fun w : Weigh =>
      ((s.seen .weigh seq).averaged value).withWeigh { w with status := .uncalibrated }) hj)), ?_⟩
    exact ⟨rfl, rfl, rfl, rfl, rfl, rfl, rfl, rfl, fun _ => ⟨rfl, rfl, rfl, rfl, rfl, rfl⟩, fun h => absurd h0 h⟩
  · rw [if_neg h0] at hv
    subst hv
    have hu := hc.trans (State.formOutput_calibrated (s := s.seen .weigh seq) h0 (s.weigh.blockSum + raw.toInt))
    rw [hav, State.formWeight_plain (s := (s.seen .weigh seq).averaged average) hr hf] at hu
    change _ = ((s.seen .weigh seq).averaged average).withWeigh
      (((Weigh.judgeStable _ s.cal (clampWeight (rawGross average s.cal.zero s.cal.gain))).takeTare
        (clampWeight (rawGross average s.cal.zero s.cal.gain))).report (rawGross average s.cal.zero s.cal.gain)) at hu
    rw [hgr', hj, Weigh.takeTare_eq] at hu
    refine ⟨_, weighArrival_leadsTo hs hq hk hu, rfl, rfl, rfl, rfl, rfl, rfl, rfl, rfl, fun h => absurd h h0,
      fun _ => ⟨hgr', rfl, rfl, ?_, ?_, Weigh.report_status _ _, ?_⟩⟩
    · rw [Weigh.report_net, hgr', clampWeight_eq]; rfl
    · rw [Weigh.report_added, hgr', clampWeight_eq]; rfl
    · rw [Weigh.report_clamped_iff, hgr']; rfl

end Sys2Proof.Proofs
end

