-- ==== Sys2Proof/Proofs/Windows.lean ====
section
/-! The even distribution of an on-count over a window (R108). -/

namespace Sys2Proof.Machine

/-- The rise of `k * j / w` over one offset is the offset's due position. -/
theorem due_step {k w : Nat} (hw : 0 < w) (hk : k ≤ w) {j : Nat} (hj : j < w) :
    k * (j + 1) / w = k * j / w + if due k w j then 1 else 0 := by
  have hle : k * j / w ≤ k * (j + 1) / w := Nat.div_le_div_right (Nat.mul_le_mul_left k (Nat.le_succ j))
  have hlt : k * (j + 1) / w ≤ k * j / w + 1 := by
    rw [← Nat.add_div_right _ hw, Nat.mul_succ]
    exact Nat.div_le_div_right (Nat.add_le_add_left hk _)
  by_cases h : k * j / w < k * (j + 1) / w
  · simp only [due, hj, h, decide_true, Bool.and_self, if_true]
    omega
  · simp only [due, hj, h, decide_true, decide_false, Bool.and_false, Bool.false_eq_true, if_false]
    omega

/-- Of the first `n` offsets `k * n / w` are due. -/
theorem due_count {k w : Nat} (hw : 0 < w) (hk : k ≤ w) :
    ∀ n, n ≤ w → ((List.range n).filter (due k w)).length = k * n / w
  | 0, _ => by simp
  | n + 1, hn => by
    rw [List.range_succ, List.filter_append, List.length_append, due_count hw hk n (Nat.le_of_succ_le hn),
      due_step hw hk hn]
    cases h : due k w n <;> simp [h]

end Sys2Proof.Machine

namespace Sys2Proof.Proofs
open Sys2Proof.Machine

/-- Settles O35: the quotients `k * j / w` rise by one at the due offsets, from 0 to `k`. -/
theorem duePositions : Obligations.DuePositions := by
  intro k w hw hk
  refine ⟨?_, due_iff k w, fun h0 => ?_, fun he j hj => ?_⟩
  · rw [due_count hw hk w le_rfl, Nat.mul_div_cancel _ hw]
  · have hs := due_step hw hk (Nat.sub_lt hw one_pos)
    rw [Nat.sub_one_add_one hw.ne', Nat.mul_div_cancel _ hw] at hs
    have hlt : k * (w - 1) / w < k := Nat.div_lt_of_lt_mul (by
      rw [Nat.mul_comm]; exact Nat.mul_lt_mul_of_pos_right (Nat.sub_lt hw one_pos) h0)
    by_contra hn
    rw [if_neg hn] at hs
    omega
  · subst he
    have hs := due_step hw le_rfl hj
    rw [Nat.mul_div_cancel_left _ hw, Nat.mul_div_cancel_left _ hw] at hs
    by_contra hn
    rw [if_neg hn] at hs
    omega

end Sys2Proof.Proofs
end

