-- ==== Sys2Proof/Proofs/EngineRows.lean ====
section
/-! What the operations that stop and direct the engine leave, field by field: direction 0, the rest outputs, a fault, the
moves of the lock, and the directions of HELD. -/

namespace Sys2Proof.Machine

/-! ### Direction 0 and the computation of the target -/

/-- The stir drive at direction 0 (R117). -/
def Stir.zeroed (x : Stir) : Stir := { x.clearRuns with running := none, target := 0, commanded := 0, rampCount := 0 }

theorem State.stirZero_eq (s : State) : ∃ d, s.stirZero = (s.withStir s.stir.zeroed).withDrive d := by
  unfold State.stirZero
  dsimp only
  split
  · exact ⟨_, rfl⟩
  · exact ⟨s.drive, rfl⟩

@[simp] theorem State.stirZero_stir (s : State) : s.stirZero.stir = s.stir.zeroed := by obtain ⟨d, h⟩ := s.stirZero_eq; rw [h]; rfl
@[simp] theorem State.stirZero_engine (s : State) : s.stirZero.engine = s.engine := by obtain ⟨d, h⟩ := s.stirZero_eq; rw [h]; rfl
@[simp] theorem State.stirZero_pool (s : State) : s.stirZero.pool = s.pool := by obtain ⟨d, h⟩ := s.stirZero_eq; rw [h]; rfl
@[simp] theorem State.stirZero_weigh (s : State) : s.stirZero.weigh = s.weigh := by obtain ⟨d, h⟩ := s.stirZero_eq; rw [h]; rfl
@[simp] theorem State.stirZero_reg (s : State) : s.stirZero.reg = s.reg := by obtain ⟨d, h⟩ := s.stirZero_eq; rw [h]; rfl
@[simp] theorem State.stirZero_lock (s : State) : s.stirZero.lock = s.lock := by obtain ⟨d, h⟩ := s.stirZero_eq; rw [h]; rfl
@[simp] theorem State.stirZero_report (s : State) : s.stirZero.report = s.report := by obtain ⟨d, h⟩ := s.stirZero_eq; rw [h]; rfl

theorem State.withStir_withDrive (s : State) (x : Stir) : s.withStir x = (s.withStir x).withDrive s.drive := rfl

theorem State.takeTarget_eq (s : State) (t : Nat) (dir : Direction) : ∃ x d, s.takeTarget t dir = (s.withStir x).withDrive d := by
  unfold State.takeTarget
  dsimp only
  split
  · exact ⟨_, _, rfl⟩
  · exact ⟨_, _, s.withStir_withDrive _⟩

theorem State.computeTarget_eq (s : State) : ∃ x d, s.computeTarget = (s.withStir x).withDrive d := by
  unfold State.computeTarget
  cases s.stirPhase with
  | none => exact s.takeTarget_eq _ _
  | some ph =>
    have key : ∀ (b : Bool) (t : Nat), ∃ x d, (if b then s.beginReversal t else s.takeTarget t ph.direction) =
        (s.withStir x).withDrive d := fun b t => by
      cases b
      · exact s.takeTarget_eq t _
      · exact ⟨_, _, rfl⟩
    exact key _ _

@[simp] theorem State.computeTarget_engine (s : State) : s.computeTarget.engine = s.engine := by
  obtain ⟨x, d, h⟩ := s.computeTarget_eq; rw [h]; rfl
@[simp] theorem State.computeTarget_pool (s : State) : s.computeTarget.pool = s.pool := by
  obtain ⟨x, d, h⟩ := s.computeTarget_eq; rw [h]; rfl
@[simp] theorem State.computeTarget_weigh (s : State) : s.computeTarget.weigh = s.weigh := by
  obtain ⟨x, d, h⟩ := s.computeTarget_eq; rw [h]; rfl
@[simp] theorem State.computeTarget_reg (s : State) : s.computeTarget.reg = s.reg := by
  obtain ⟨x, d, h⟩ := s.computeTarget_eq; rw [h]; rfl
@[simp] theorem State.computeTarget_lock (s : State) : s.computeTarget.lock = s.lock := by
  obtain ⟨x, d, h⟩ := s.computeTarget_eq; rw [h]; rfl
@[simp] theorem State.computeTarget_report (s : State) : s.computeTarget.report = s.report := by
  obtain ⟨x, d, h⟩ := s.computeTarget_eq; rw [h]; rfl

/-! ### What a computation of the target does to the commanded speed -/

/-- Counts and cap that a computation of the target leaves. -/
def Stir.supervision (x : Stir) : Nat × Nat × Option Nat × Nat × Nat × Bool × Nat :=
  (x.stallRun, x.overloadRun, x.overloadCap, x.blockSum, x.blockCount, x.blockSteady, x.torqueCount)

theorem State.handSpin_stir_eq (s : State) : s.handSpin.stir = { s.stir with
    lastDirection := if s.stir.commanded > 0 then some s.stir.direction else s.stir.lastDirection } := by
  unfold State.handSpin
  dsimp only
  split <;> rfl

theorem State.takeTarget_stir (s : State) (t : Nat) (dir : Direction) : ∃ last, (s.takeTarget t dir).stir = { s.stir with
    target := t
    commanded := min s.stir.commanded t
    rampCount := if t < s.stir.commanded then 0 else s.stir.rampCount
    direction := if !s.stir.reversal && decide (0 < t) && decide (s.stir.direction ≠ dir) then dir else s.stir.direction
    lastDirection := last } := by
  have hm : (if t < s.stir.commanded then t else s.stir.commanded) = min s.stir.commanded t := by split <;> omega
  unfold State.takeTarget
  simp only [decide_eq_true_eq, hm]
  split
  · exact ⟨_, State.handSpin_stir_eq _⟩
  · exact ⟨_, rfl⟩

/-- The target is the phase speed under the caps in force, 0 without a pattern (R119). -/
theorem State.computeTarget_target (s : State) :
    s.computeTarget.stir.target = (s.stirPhase.map fun ph => s.cappedSpeed ph.speed).getD 0 := by
  have take : ∀ t dir, (s.takeTarget t dir).stir.target = t := fun t dir => by
    obtain ⟨last, h⟩ := s.takeTarget_stir t dir
    rw [h]
  unfold State.computeTarget
  cases s.stirPhase with
  | none => exact take _ _
  | some ph =>
    have key : ∀ (b : Bool) (t : Nat), (if b then s.beginReversal t else s.takeTarget t ph.direction).stir.target = t := by
      intro b t
      cases b
      · exact take t _
      · rfl
    exact key _ _

/-- A computation of the target takes a fall at once, raises nothing, and leaves counts and cap. -/
theorem State.computeTarget_commanded (s : State) : s.computeTarget.stir.commanded ≤ s.stir.commanded ∧
    s.computeTarget.stir.commanded ≤ s.computeTarget.stir.target ∧
    s.computeTarget.stir.supervision = s.stir.supervision := by
  have take : ∀ t dir, (s.takeTarget t dir).stir.commanded ≤ s.stir.commanded ∧
      (s.takeTarget t dir).stir.commanded ≤ (s.takeTarget t dir).stir.target ∧
      (s.takeTarget t dir).stir.supervision = s.stir.supervision := fun t dir => by
    obtain ⟨last, h⟩ := s.takeTarget_stir t dir
    rw [h]
    exact ⟨min_le_left _ _, min_le_right _ _, rfl⟩
  unfold State.computeTarget
  cases s.stirPhase with
  | none => exact take _ _
  | some ph =>
    have key : ∀ (b : Bool) (t : Nat) (u : State), u = (if b then s.beginReversal t else s.takeTarget t ph.direction) →
        u.stir.commanded ≤ s.stir.commanded ∧ u.stir.commanded ≤ u.stir.target ∧
        u.stir.supervision = s.stir.supervision := by
      rintro b t u rfl
      cases b
      · exact take t _
      · exact ⟨Nat.zero_le _, Nat.zero_le _, rfl⟩
    exact key _ _ _ rfl

/-- The stir drive stands still: no pattern, target and commanded speed 0. -/
def Stir.still (x : Stir) : Prop := x.running = none ∧ x.target = 0 ∧ x.commanded = 0

theorem Stir.zeroed_still (x : Stir) : x.zeroed.still := ⟨rfl, rfl, rfl⟩

/-- A computation of the target leaves a stir drive that stands still as it is. -/
theorem State.computeTarget_of_still {s : State} (h : s.stir.still) : s.computeTarget = s := by
  obtain ⟨hr, ht, hc⟩ := h
  have hp : s.stirPhase = none := by simp [State.stirPhase, hr]
  unfold State.computeTarget
  rw [hp]
  simp only [State.takeTarget, hc, decide_false, lt_irrefl, Bool.and_false, Bool.false_and, Bool.or_self,
    Bool.false_eq_true, if_false]
  rcases s with ⟨_, _, _, _, _, _, _, _, _, _, _, _, _, _, x, _, _, _, _, _, _, _, _⟩
  cases x
  simp_all [State.withStir]

/-! ### The rest outputs and a fault -/

@[simp] theorem State.restOutputs_stir (s : State) : s.restOutputs.stir = s.stir.zeroed := s.heaterOff.stirZero_stir
@[simp] theorem State.restOutputs_engine (s : State) : s.restOutputs.engine = s.engine := s.heaterOff.stirZero_engine
@[simp] theorem State.restOutputs_pool (s : State) : s.restOutputs.pool = s.pool := s.heaterOff.stirZero_pool
@[simp] theorem State.restOutputs_weigh (s : State) : s.restOutputs.weigh = s.weigh := s.heaterOff.stirZero_weigh
@[simp] theorem State.restOutputs_report (s : State) : s.restOutputs.report = s.report := s.heaterOff.stirZero_report
@[simp] theorem State.restOutputs_reg (s : State) : s.restOutputs.reg = s.heaterOff.reg := s.heaterOff.stirZero_reg
theorem State.restOutputs_lock (s : State) : s.restOutputs.lock = { s.lock with
    standing := .release, releaseWait := if s.lock.state = .engaged then true else s.lock.releaseWait } := by
  have h : s.heaterOff.stirZero.lock = s.lock := s.heaterOff.stirZero_lock
  have hr : ∀ u : State, (u.lockRequest .release).lock = { u.lock with
    standing := .release, releaseWait := if u.lock.state = .engaged then true else u.lock.releaseWait } := fun _ => rfl
  unfold State.restOutputs
  rw [hr, h]

/-- The engine at a fault raised outside FAULTED. -/
def Engine.faultedAs (e : Engine) (code : FaultCode) : Engine :=
  { e.noStep with state := .faulted, fault := some code, further := false, holds := .empty }

theorem State.raiseFault_of_not_faulted {s : State} (h : s.engine.state ≠ .faulted) (code : FaultCode) :
    s.raiseFault code =
      ((s.withEngine (s.engine.faultedAs code)).restOutputs.clearStepSupervision.clearReference.raise .fault) := if_neg h

theorem State.raiseFault_of_faulted {s : State} (h : s.engine.state = .faulted) (code : FaultCode) :
    s.raiseFault code = if s.engine.further then s else (s.withEngine { s.engine with further := true }).raise .fault :=
  if_pos h

/-- While FAULTED a fault sets further faults and no more. -/
theorem State.raiseFault_further {s : State} (h : s.engine.state = .faulted) (code : FaultCode) :
    (s.raiseFault code).engine = { s.engine with further := true } ∧ (s.raiseFault code).pool = s.pool := by
  rw [State.raiseFault_of_faulted h]
  split
  · next hf => exact ⟨by rw [← hf], rfl⟩
  · exact ⟨rfl, rfl⟩

/-- A fault raised outside FAULTED enters it with safe outputs. -/
theorem State.raiseFault_faultedWith {s : State} (h : s.engine.state ≠ .faulted) (code : FaultCode) :
    s.faultedWith (s.raiseFault code) code := by
  rw [State.raiseFault_of_not_faulted h]
  refine ⟨?_, ?_, ?_, ?_, ?_, ?_, ?_, ?_, ?_, ?_, ?_, ?_, ?_, ?_, ?_, rfl, ?_, State.raise_isPending _ _⟩
  all_goals simp [State.raise, State.clearReference, State.clearStepSupervision, Engine.faultedAs, Engine.noStep,
    State.heaterOff, Stir.zeroed, State.restOutputs_lock]

theorem State.raiseFault_lock (s : State) (code : FaultCode) :
    (s.raiseFault code).lock.state = s.lock.state ∧ (s.raiseFault code).lock.latch = s.lock.latch := by
  by_cases h : s.engine.state = .faulted
  · rw [State.raiseFault_of_faulted h]
    split <;> exact ⟨rfl, rfl⟩
  · rw [State.raiseFault_of_not_faulted h]
    simp [State.raise, State.clearReference, State.clearStepSupervision, State.restOutputs_lock]

/-! ### Moves of the lock -/

/-- `t` differs from `s` in the lock (but for the standing request), the stir drive and the drive slots alone: a stir drive
that stands still stays so, the commanded speed does not rise, and the supervision of the step is kept. -/
structure State.Moves (s t : State) : Prop where
  engine : t.engine = s.engine
  pool : t.pool = s.pool
  weigh : t.weigh = s.weigh
  reg : t.reg = s.reg
  report : t.report = s.report
  standing : t.lock.standing = s.lock.standing
  still : s.stir.still → t.stir.still
  commanded : t.stir.commanded ≤ s.stir.commanded
  supervision : t.stir.supervision = s.stir.supervision

theorem State.Moves.refl (s : State) : s.Moves s := ⟨rfl, rfl, rfl, rfl, rfl, rfl, id, le_rfl, rfl⟩

theorem State.Moves.trans {s t u : State} (h : s.Moves t) (k : t.Moves u) : s.Moves u :=
  ⟨k.engine.trans h.engine, k.pool.trans h.pool, k.weigh.trans h.weigh, k.reg.trans h.reg, k.report.trans h.report,
    k.standing.trans h.standing, k.still ∘ h.still, k.commanded.trans h.commanded, k.supervision.trans h.supervision⟩

theorem State.computeTarget_moves (s : State) : s.Moves s.computeTarget :=
  ⟨by simp, by simp, by simp, by simp, by simp, by simp, fun h => by rwa [State.computeTarget_of_still h],
    s.computeTarget_commanded.1, s.computeTarget_commanded.2.2⟩

theorem State.withLock_moves {s : State} {x : Lock} (h : x.standing = s.lock.standing) : s.Moves (s.withLock x) :=
  ⟨rfl, rfl, rfl, rfl, rfl, h, id, le_rfl, rfl⟩

theorem State.setLatch_moves (s : State) (c : Latch) : s.Moves (s.setLatch c) := by
  unfold State.setLatch
  split
  · exact .refl s
  · exact ⟨rfl, rfl, rfl, rfl, rfl, rfl, id, le_rfl, rfl⟩

theorem State.setLockState_moves (s : State) (x : LockState) : s.Moves (s.setLockState x) := by
  unfold State.setLockState
  refine .trans ?_ (State.computeTarget_moves _)
  exact State.withLock_moves rfl

/-- Latch command, an edit of the lock and a lock state, one after another. -/
theorem State.latch_moves (s : State) {c : Latch} {x : Lock} (y : LockState) (h : x.standing = (s.setLatch c).lock.standing) :
    s.Moves (((s.setLatch c).withLock x).setLockState y) :=
  ((s.setLatch_moves c).trans (State.withLock_moves h)).trans (State.setLockState_moves _ y)

theorem State.beginEngage_moves (s : State) : s.Moves s.beginEngage := s.latch_moves _ rfl

theorem State.lockReleased_moves (s : State) : s.Moves s.lockReleased := s.latch_moves _ rfl

theorem State.beginRelease_moves (s : State) : s.Moves s.beginRelease := s.latch_moves _ rfl

/-- The lock made ENGAGED, before the engine takes it. -/
def State.lockMadeEngaged (s : State) (wait : Bool) : State :=
  let s := s.setLatch .engage
  (s.withLock { s.lock with releaseWait := wait }).setLockState .engaged

theorem State.lockEngaged_eq (s : State) (wait : Bool) : s.lockEngaged wait =
    if (s.lockMadeEngaged wait).inEntry then (s.lockMadeEngaged wait).enterActive else s.lockMadeEngaged wait := rfl

theorem State.lockMadeEngaged_moves (s : State) (wait : Bool) : s.Moves (s.lockMadeEngaged wait) := s.latch_moves _ rfl

theorem State.Moves.inEntry {s t : State} (h : s.Moves t) : t.inEntry = s.inEntry := by
  unfold State.inEntry; rw [h.engine]

theorem State.Moves.active {s t : State} (h : s.Moves t) : t.active = s.active := by
  unfold State.active; rw [h.engine]

theorem State.lockEngaged_of_not_inEntry {s : State} (h : s.inEntry = false) (wait : Bool) :
    s.lockEngaged wait = s.lockMadeEngaged wait := by
  rw [State.lockEngaged_eq, (s.lockMadeEngaged_moves wait).inEntry, h]; rfl

theorem State.lockEngaged_moves {s : State} (h : s.inEntry = false) (wait : Bool) : s.Moves (s.lockEngaged wait) := by
  rw [State.lockEngaged_of_not_inEntry h]; exact s.lockMadeEngaged_moves wait

theorem State.judgeLock_moves {s : State} (h : s.inEntry = false) : s.Moves s.judgeLock := by
  unfold State.judgeLock
  split
  · split
    · exact s.beginRelease_moves
    · exact .refl s
  · split
    · exact .refl s
    · exact State.lockEngaged_moves h _
  all_goals exact .refl s

/-! ### A fault taken, and what follows it in the same event -/

theorem State.faultedWith.inEntry {s t : State} {code : FaultCode} (h : s.faultedWith t code) : t.inEntry = false := by
  simp [State.inEntry, h.1]

theorem State.faultedWith.active {s t : State} {code : FaultCode} (h : s.faultedWith t code) : t.active = false := by
  simp [State.active, h.1]

theorem State.faultedWith.moves {s t u : State} {code : FaultCode} (h : s.faultedWith t code) (k : t.Moves u) :
    s.faultedWith u code := by
  obtain ⟨h1, h2, h3, h4, h5, h6, h7, h8, h9, h10, h11, h12, h13, h14, h15, h16, h17, h18⟩ := h
  obtain ⟨k1, k2, k3⟩ := k.still ⟨h14, h13, h12⟩
  unfold State.faultedWith
  rw [k.engine, k.reg, k.standing, k.weigh, k.pool, k.report]
  exact ⟨h1, h2, h3, h4, h5, h6, h7, h8, h9, h10, h11, k3, k2, k1, h15, h16, h17, h18⟩

theorem State.faultedWith.picks {s t : State} {code : FaultCode} (h : s.faultedWith t code) :
    s.faultedWith t.picks code := by
  unfold State.faultedWith at h ⊢
  simpa using h

theorem State.faultedWith.judgeLock {s t : State} {code : FaultCode} (h : s.faultedWith t code) :
    s.faultedWith t.judgeLock code := h.moves (State.judgeLock_moves h.inEntry)

theorem State.faultedWith.computeTarget {s t : State} {code : FaultCode} (h : s.faultedWith t code) :
    s.faultedWith t.computeTarget code := h.moves t.computeTarget_moves

/-- A further fault leaves the first one standing. -/
theorem State.faultedWith.raiseFault {s t : State} {code : FaultCode} (h : s.faultedWith t code) (code' : FaultCode) :
    s.faultedWith (t.raiseFault code') code := by
  obtain ⟨h1, h2, h3, h4, h5, h6, h7, h8, h9, h10, h11, h12, h13, h14, h15, h16, h17, h18⟩ := h
  rw [State.raiseFault_of_faulted h1]
  split
  · exact ⟨h1, h2, h3, h4, h5, h6, h7, h8, h9, h10, h11, h12, h13, h14, h15, h16, h17, h18⟩
  · exact ⟨h1, h2, h3, h4, h5, h6, h7, h8, h9, h10, h11, h12, h13, h14, h15, h16, h17, State.raise_isPending _ _⟩

/-- A fault is one of the state it was raised in, whatever that state's other blocks. -/
theorem State.faultedWith.congr {s s' t : State} {code : FaultCode} (h : s.faultedWith t code)
    (hi : s.engine.index = s'.engine.index) (hp : s.pool = s'.pool) : s'.faultedWith t code := by
  unfold State.faultedWith at h ⊢
  rwa [← hi, ← hp]

end Sys2Proof.Machine
end

