-- ==== Sys2Proof/Proofs/EndRows.lean ====
section
/-! A step that ends keeps its outcome through whatever the engine does next (R34), and a step of the weighing channel that
completes (R30). -/

namespace Sys2Proof.Machine

/-! ### What the engine carries along -/

/-- The last step outcome is kept, and an absent ADD reference stays absent. -/
def State.Carries (s t : State) : Prop :=
  t.engine.lastOutcome = s.engine.lastOutcome ∧ (s.weigh.addReference = none → t.weigh.addReference = none)

theorem State.Carries.refl (s : State) : s.Carries s := ⟨rfl, id⟩

theorem State.Carries.trans {s t u : State} (h : s.Carries t) (k : t.Carries u) : s.Carries u :=
  ⟨k.1.trans h.1, k.2 ∘ h.2⟩

theorem State.Carries.after {s t u : State} (k : t.Carries u) (h : s.Carries t) : s.Carries u := h.trans k

theorem State.Moves.carries {s t : State} (h : s.Moves t) : s.Carries t := by
  unfold State.Carries
  rw [h.engine, h.weigh]
  exact ⟨rfl, id⟩

/-- What leaves the outcome, and the ADD reference too. -/
theorem State.Carries.of_eq {s t : State} (he : t.engine.lastOutcome = s.engine.lastOutcome) (hw : t.weigh = s.weigh) :
    s.Carries t := ⟨he, fun h => by rwa [hw]⟩

theorem State.raiseFault_carries (s : State) (code : FaultCode) : s.Carries (s.raiseFault code) := by
  by_cases h : s.engine.state = .faulted
  · rw [State.raiseFault_of_faulted h]
    split
    · exact .refl s
    · exact ⟨rfl, id⟩
  · rw [State.raiseFault_of_not_faulted h]
    exact ⟨by simp [State.raise, State.clearReference, State.clearStepSupervision, Engine.faultedAs, Engine.noStep], fun _ => rfl⟩

/-- The outputs of HELD, before the food channel is judged (R35). -/
def State.heldSet (s : State) : State :=
  (s.withReg { s.reg with target := s.heldTarget, setpoint := s.heldTarget, ramp := 0 }).stirZero.lockRequest .release

theorem State.heldOutputs_eq (s : State) : s.heldOutputs =
    if decide (0 < s.heldTarget) && s.food.faulted then s.heldSet.raiseFault .foodSensor else s.heldSet := by
  have hf : s.heldSet.food = s.food := State.food_of_rest (by simp [State.heldSet])
  unfold State.heldOutputs
  dsimp only
  exact congrArg (fun b => if decide (0 < s.heldTarget) && b then s.heldSet.raiseFault .foodSensor else s.heldSet)
    (congrArg Channel.faulted hf)

@[simp] theorem State.heldSet_engine (s : State) : s.heldSet.engine = s.engine := State.stirZero_engine _
@[simp] theorem State.heldSet_pool (s : State) : s.heldSet.pool = s.pool := State.stirZero_pool _
@[simp] theorem State.heldSet_weigh (s : State) : s.heldSet.weigh = s.weigh := State.stirZero_weigh _
@[simp] theorem State.heldSet_report (s : State) : s.heldSet.report = s.report := State.stirZero_report _
@[simp] theorem State.heldSet_stir (s : State) : s.heldSet.stir = s.stir.zeroed := State.stirZero_stir _
@[simp] theorem State.heldSet_reg (s : State) : s.heldSet.reg =
    { s.reg with target := s.heldTarget, setpoint := s.heldTarget, ramp := 0 } := State.stirZero_reg _

theorem State.heldOutputs_carries (s : State) : s.Carries s.heldOutputs := by
  have h : s.Carries s.heldSet := .of_eq (by rw [s.heldSet_engine]) s.heldSet_weigh
  rw [State.heldOutputs_eq]
  split
  · exact h.trans (State.raiseFault_carries _ _)
  · exact h

theorem State.enterHold_carries (s : State) (r : Holds) : s.Carries (s.enterHold r) := by
  unfold State.enterHold
  exact (State.heldOutputs_carries _).after ⟨rfl, id⟩

theorem State.enterStarved_carries (s : State) (i : Nat) : s.Carries (s.enterStarved i) := by
  unfold State.enterStarved
  exact (State.heldOutputs_carries _).after ⟨rfl, id⟩

theorem State.enterActive_carries (s : State) : s.Carries s.enterActive := by
  unfold State.enterActive
  dsimp only
  split
  · exact .of_eq (by simp [State.startPattern]) (by simp [State.startPattern])
  · exact .of_eq (by simp [State.resumePattern]) (by simp [State.resumePattern])

/-- A request moves the lock from the state in which it stands. -/
theorem State.lockRequest_moves (s : State) (r : LockRequest) :
    ∃ l : Lock, l.standing = r ∧ l.state = s.lock.state ∧ (s.withLock l).Moves (s.lockRequest r) := by
  cases r with
  | release =>
    exact ⟨{ s.lock with standing := .release, releaseWait := if s.lock.state = .engaged then true else s.lock.releaseWait },
      rfl, rfl, .refl _⟩
  | engage =>
    refine ⟨{ s.lock with standing := .engage, releaseWait := false }, rfl, rfl, ?_⟩
    unfold State.lockRequest
    dsimp only
    split
    · exact State.beginEngage_moves _
    · exact .refl _

@[simp] theorem State.lockRequest_engine (s : State) (r : LockRequest) : (s.lockRequest r).engine = s.engine := by
  obtain ⟨l, -, -, h⟩ := s.lockRequest_moves r; exact h.engine
@[simp] theorem State.lockRequest_pool (s : State) (r : LockRequest) : (s.lockRequest r).pool = s.pool := by
  obtain ⟨l, -, -, h⟩ := s.lockRequest_moves r; exact h.pool
@[simp] theorem State.lockRequest_weigh (s : State) (r : LockRequest) : (s.lockRequest r).weigh = s.weigh := by
  obtain ⟨l, -, -, h⟩ := s.lockRequest_moves r; exact h.weigh
@[simp] theorem State.lockRequest_reg (s : State) (r : LockRequest) : (s.lockRequest r).reg = s.reg := by
  obtain ⟨l, -, -, h⟩ := s.lockRequest_moves r; exact h.reg
@[simp] theorem State.lockRequest_report (s : State) (r : LockRequest) : (s.lockRequest r).report = s.report := by
  obtain ⟨l, -, -, h⟩ := s.lockRequest_moves r; exact h.report
@[simp] theorem State.lockRequest_standing (s : State) (r : LockRequest) : (s.lockRequest r).lock.standing = r := by
  obtain ⟨l, hl, -, h⟩ := s.lockRequest_moves r; exact h.standing.trans hl

theorem State.decideEntry_carries (s : State) : s.Carries s.decideEntry := by
  have h0 : ∀ (e : Engine) (r : LockRequest), e.lastOutcome = s.engine.lastOutcome → s.Carries ((s.withEngine e).lockRequest r) :=
    fun e r h => .of_eq (by rw [State.lockRequest_engine]; exact h) (State.lockRequest_weigh _ r)
  unfold State.decideEntry
  dsimp only
  split
  · split
    · exact (State.enterActive_carries _).after (h0 _ _ rfl)
    · exact .of_eq (by simp) (by simp)
  · exact (State.enterActive_carries _).after (h0 _ _ rfl)

theorem State.announceStep_carries (s : State) (r : StepRecord) (i : Nat) : s.Carries (s.announceStep r i) := by
  unfold State.announceStep
  split
  · exact ⟨rfl, id⟩
  · exact .refl s

/-- A timed step start up to its target handed (R22 items 1 to 4). -/
def State.startBase (s : State) (i : Nat) (r : StepRecord) : State :=
  (s.withEngine { s.engine with index := i, state := .running, holds := .empty }).handStepTarget r
    (min r.target s.limits.maxFoodTarget)

/-- A timed step start up to the standing conditions (R22 items 5 and 6). -/
def State.startSet (s : State) (i : Nat) (r : StepRecord) : State :=
  (((s.startBase i r).withEngine (s.startBase i r).engine.noStep).clearStepSupervision.clearReference).announceStep r i

theorem State.startTimed_eq (s : State) (i : Nat) (r : StepRecord) : s.startTimed i r =
    match s.startCheck r with
    | some code => (s.withEngine { s.engine with index := i }).raiseFault code
    | none =>
      if decide (0 < (s.startBase i r).reg.target) && (s.startBase i r).food.faulted then
        (s.startBase i r).raiseFault .foodSensor
      else if (s.startSet i r).standingHolds = .empty then (s.startSet i r).decideEntry
      else ((s.startSet i r).withEngine { (s.startSet i r).engine with phase := .entry }).enterHold
        (s.startSet i r).standingHolds := rfl

theorem State.startSet_carries (s : State) (i : Nat) (r : StepRecord) : s.Carries (s.startSet i r) :=
  (State.announceStep_carries _ _ _).after ⟨rfl, fun _ => rfl⟩

theorem State.startTimed_carries (s : State) (i : Nat) (r : StepRecord) : s.Carries (s.startTimed i r) := by
  rw [State.startTimed_eq]
  split
  · exact (State.raiseFault_carries _ _).after ⟨rfl, id⟩
  · split
    · exact (State.raiseFault_carries _ _).after ⟨rfl, id⟩
    · split
      · exact (State.decideEntry_carries _).after (s.startSet_carries i r)
      · exact (State.enterHold_carries _ _).after (.after ⟨rfl, id⟩ (s.startSet_carries i r))

theorem State.enterEnding_carries (s : State) (o : RecipeOutcome) : s.Carries (s.enterEnding o) := by
  unfold State.enterEnding
  exact ⟨by simp [State.clearReference, State.clearStepSupervision, Engine.noStep], fun _ => rfl⟩

theorem State.poolLowTest_carries (s : State) (n : Nat) : s.Carries (s.poolLowTest n) := by
  unfold State.poolLowTest
  split
  · exact ⟨rfl, id⟩
  · exact .refl s

theorem stepStart_carries : ∀ (fuel i : Nat) (s : State), s.Carries (stepStart fuel i s)
  | 0, _, s => .refl s
  | fuel + 1, i, s => by
    have here : ∀ x : Pool, s.Carries ((s.withEngine { s.engine with index := i }).withPool x) := fun _ => ⟨rfl, id⟩
    have fault : ∀ c, s.Carries ((s.withEngine { s.engine with index := i }).raiseFault c) := fun c =>
      (State.raiseFault_carries _ _).after ⟨rfl, id⟩
    unfold stepStart
    split
    · exact s.raiseFault_carries _
    · dsimp only
      split
      · exact s.enterStarved_carries i
      · split
        · exact fault _
        · split
          · exact fault _
          · exact ((here _).trans (State.poolLowTest_carries _ _)).trans (stepStart_carries fuel _ _)
      · split
        · exact fault _
        · split
          · exact (here _).trans (stepStart_carries fuel _ _)
          · exact (here _).trans (stepStart_carries fuel _ _)
        · exact fault _
        · exact fault _
      · exact (State.enterEnding_carries _ _).after ⟨rfl, id⟩
      all_goals exact s.startTimed_carries i _

/-- A step that ends has its outcome recorded, and its ADD reference is gone. -/
theorem State.endStep_ends (s : State) (o : StepOutcome) :
    (s.endStep o).engine.lastOutcome = some o ∧ (s.endStep o).weigh.addReference = none := by
  have h := stepStart_carries chainFuel (s.engine.index + 1)
    (((s.withEngine { s.engine.noStep with lastOutcome := some o }).clearStepSupervision).clearReference)
  exact ⟨h.1, h.2 rfl⟩

theorem State.lockEngaged_carries (s : State) (w : Bool) : s.Carries (s.lockEngaged w) := by
  rw [State.lockEngaged_eq]
  split
  · exact (s.lockMadeEngaged_moves w).carries.trans (State.enterActive_carries _)
  · exact (s.lockMadeEngaged_moves w).carries

theorem State.judgeLock_carries (s : State) : s.Carries s.judgeLock := by
  unfold State.judgeLock
  split
  · split
    · exact s.beginRelease_moves.carries
    · exact .refl s
  · split
    · exact .refl s
    · exact s.lockEngaged_carries _
  all_goals exact .refl s

/-! ### An ADD step at an output (R30) -/

theorem State.not_inAddFill_of_inAddRef {s : State} (h : s.inAddRef = true) : s.inAddFill = false := by
  simp_all [State.inAddRef, State.inAddFill]

theorem State.not_inAddRef_of_inAddFill {s : State} (h : s.inAddFill = true) : s.inAddRef = false := by
  simp_all [State.inAddRef, State.inAddFill]

/-- In ADD_REF a stable output becomes the reference. -/
theorem State.formWeight_addRef {s : State} {raw : Int} {w : Weigh} (h : s.inAddRef = true)
    (hw : (s.weigh.judgeStable s.cal (clampWeight raw)).takeTare (clampWeight raw) = w) (hst : w.stable = true) :
    s.formWeight raw = (s.withWeigh ({ w with addReference := some (clampWeight raw) }.report raw)).withEngine
      { s.engine with sub := .addFill } := by
  simp [State.formWeight, h, hw, hst, State.not_inAddFill_of_inAddRef h]

/-- In ADD_FILL the output is judged. -/
theorem State.formWeight_addFill {s : State} {raw : Int} {w : Weigh} (h : s.inAddFill = true)
    (hw : (s.weigh.judgeStable s.cal (clampWeight raw)).takeTare (clampWeight raw) = w) :
    s.formWeight raw = (s.withWeigh (w.report raw)).judgeFill := by
  simp [State.formWeight, h, hw, State.not_inAddRef_of_inAddFill h]

/-- A stable output that reaches the amount less the tolerance ends the step. -/
theorem State.judgeFill_completes {s : State} (hst : s.weigh.stable = true)
    (h : (s.current.amount : Int) - s.current.tolerance ≤ s.weigh.added) :
    s.judgeFill = (if (s.current.amount : Int) + s.current.tolerance < s.weigh.added then s.raise .overfill else s).endStep .completed := by
  simp [State.judgeFill, hst, h]

/-- An output near its anchor that brings the count to M is stable. -/
theorem Weigh.judged_stable {w : Weigh} {c : Calibration} (v : Int) (h : c.countM ≤ w.stability + 1) :
    (w.judged c true v).stable = true := by
  simp [Weigh.judged, h]

end Sys2Proof.Machine

namespace Sys2Proof.Proofs
open Sys2Proof.Machine

/-- Settles O23: the reference of ADD_REF, and the end of an ADD step that reaches its amount. -/
theorem addStepJudged : Obligations.AddStepJudged := by
  intro s seq raw average gross a hs hq hg hl hh h0 hb ha hgr hanc hnear hm
  have hraw : clampWeight (rawGross average s.cal.zero s.cal.gain) = gross := hgr.symm
  have hav : (s.seen .weigh seq).averageOf (s.weigh.blockSum + raw.toInt) = average := ha.symm
  have hout := (State.weighSample_completes (s := s.seen .weigh seq) (r := raw.toInt) hg hl hh hb).trans
    (State.formOutput_calibrated (s := s.seen .weigh seq) h0 (s.weigh.blockSum + raw.toInt))
  obtain ⟨w, hw, hst, hwr⟩ : ∃ w : Weigh, (Weigh.judgeStable ((s.seen .weigh seq).averaged average).weigh s.cal
      (clampWeight (rawGross average s.cal.zero s.cal.gain))).takeTare (clampWeight (rawGross average s.cal.zero s.cal.gain)) = w
      ∧ w.stable = true ∧ w.addReference = s.weigh.addReference := by
    have hj := Weigh.judgeStable_eq (w := ((s.seen .weigh seq).averaged average).weigh) (c := s.cal) (v := gross)
      (near := true) (by simp [State.averaged, State.seen, hanc, hnear])
    refine ⟨_, rfl, ?_, ?_⟩ <;> rw [hraw, hj, Weigh.takeTare_eq]
    · exact Weigh.judged_stable gross hm
    · rfl
  have hcal : (s.seen .weigh seq).cal = s.cal := rfl
  rw [hav, hcal] at hout
  have run : s.engine.state = .running → exec (.weighArrival seq raw) s =
      .next (((s.seen .weigh seq).averaged average).formWeight (rawGross average s.cal.zero s.cal.gain)).picks := fun hr =>
    (exec_seen (x := .weigh raw.toInt) rfl hs hq (.inr ⟨StreamId.noConfusion, by rw [hr]; decide⟩)).trans
      (congrArg (fun u : State => Host.Outcome.next u.picks) hout)
  refine ⟨fun hr => ?_, fun hf r href hamount => ?_⟩
  · refine ⟨_, run (State.running_of_active (by simp_all [State.inAddRef])), ?_⟩
    rw [State.formWeight_addRef (s := (s.seen .weigh seq).averaged average) hr hw hst, hraw]
    simp only [State.picks_weigh, State.picks_engine, State.picks_pool, State.picks_stir, State.picks_reg]
    refine ⟨rfl, ?_, hraw, hst, rfl, rfl, rfl, rfl⟩
    have hz : clampWeight (gross - gross) = 0 := by rw [Int.sub_self]; rfl
    exact (Weigh.report_added _ _).trans (by rw [hraw]; exact hz)
  · refine ⟨_, run (State.running_of_active (by simp_all [State.inAddFill])), ?_⟩
    have hadd : (w.report (rawGross average s.cal.zero s.cal.gain)).added = clampWeight (gross - r) := by
      rw [Weigh.report_added, hwr, href, hraw]
    rw [State.formWeight_addFill (s := (s.seen .weigh seq).averaged average) hf hw,
      State.judgeFill_completes hst (hadd ▸ hamount)]
    refine ⟨?_, fun hover => ?_, ?_, ?_, ?_⟩
    · rw [State.picks_engine]; exact (State.endStep_ends _ _).1
    · rw [State.picks_isPending, if_pos (hadd ▸ hover)]
      exact State.endStep_within _ _ .notices (by decide) _ (State.raise_isPending _ _)
    · rw [State.picks_weigh]
      refine ((State.endStep_within _ .completed .output (by decide)).2).trans ?_
      split <;> exact hraw
    · rw [State.picks_weigh]; exact (State.endStep_ends _ _).2
    · rw [State.picks_steps]
      refine (State.endStep_within _ .completed .steps (by decide)).trans ?_
      split <;> rfl

end Sys2Proof.Proofs
end

