-- ==== Sys2Proof/Proofs/TempRows.lean ====
section
/-! The TEMP sample: Table 5-2 for each channel, the temperature faults, and the comparison for reached. -/

namespace Sys2Proof.Machine

/-! ### The channels -/

theorem rawInRange_iff (r : Nat) : rawInRange r = true ↔ 16 ≤ r ∧ r ≤ 4079 := by simp [rawInRange]

/-- Table 5-2, row by row. -/
theorem Channel.sample_responds (c : Channel) (r : Nat) : c.responds r (c.sample r) := by
  have hc : c.convert r = c.interpolated r := rfl
  unfold Channel.responds Channel.sample
  rw [← rawInRange_iff, hc]
  cases c.faulted <;> cases rawInRange r <;> cases c.loaded <;> simp +contextual [Nat.not_le.2]

/-- A rounded interpolation lies between the ends of its segment. -/
theorem Channel.interpolated_between (c : Channel) (r : Nat) :
    min (c.point (r / 128)) (c.point (r / 128 + 1)) ≤ c.interpolated r ∧
      c.interpolated r ≤ max (c.point (r / 128)) (c.point (r / 128 + 1)) := by
  unfold Channel.interpolated
  generalize c.point (r / 128) = p
  generalize c.point (r / 128 + 1) = q
  have hm : r % 128 < 128 := Nat.mod_lt _ (by decide)
  generalize r % 128 = m at hm
  have h0 : (0 : Int) ≤ m := Int.natCast_nonneg m
  have h1 : (m : Int) ≤ 128 := by omega
  rcases le_total p q with h | h
  · have hlo : 0 ≤ (q - p) * (m : Int) := mul_nonneg (by omega) h0
    have hhi : (q - p) * (m : Int) ≤ (q - p) * 128 := mul_le_mul_of_nonneg_left h1 (by omega)
    omega
  · have hlo : (q - p) * (m : Int) ≤ 0 := mul_nonpos_of_nonpos_of_nonneg (by omega) h0
    have hhi : (q - p) * 128 ≤ (q - p) * (m : Int) := mul_le_mul_of_nonpos_left h1 (by omega)
    omega

theorem State.sampleChannels_eq (s : State) (b f h : Nat) : ∃ r, s.sampleChannels b f h =
    (((s.withBase (s.base.sample b)).withFood (s.food.sample f)).withBoard (s.board.sample h)).withReport r := by
  unfold State.sampleChannels
  dsimp only
  split
  · exact ⟨_, rfl⟩
  · exact ⟨s.report, rfl⟩

/-- What follows the channels at a TEMP sample. -/
def State.tempJudged (s : State) (foodFell : Bool) : State :=
  (((s.temperatureFaults foodFell).judgeReached).computeTarget).judgeLock

theorem State.tempSample_eq (s : State) (b f h : Nat) : s.tempSample b f h =
    (s.sampleChannels b f h).tempJudged (!s.food.faulted && (s.sampleChannels b f h).food.faulted) := rfl

theorem State.tempJudged_within (s : State) (fell : Bool) : Within (.latch :: engineParts) s (s.tempJudged fell) :=
  ((((Acts.first (s.temperatureFaults_acts fell) (by decide)).andThen (State.judgeReached_acts _) (by decide)).act
    (.computeTarget _) (by decide)).andThen (State.judgeLock_acts _) (by decide) : Acts _ _ _).within

theorem State.tempSample_channels (s : State) (b f h : Nat) : (s.tempSample b f h).base = s.base.sample b ∧
    (s.tempSample b f h).food = s.food.sample f ∧ (s.tempSample b f h).board = s.board.sample h := by
  obtain ⟨r, hr⟩ := s.sampleChannels_eq b f h
  have w := (s.sampleChannels b f h).tempJudged_within (!s.food.faulted && (s.sampleChannels b f h).food.faulted)
    .linTables (by decide)
  rw [← State.tempSample_eq, hr] at w
  exact w

/-- A flag that becomes true at the arrival leaves SENSOR pending. -/
theorem State.tempSample_sensor {s : State} {b f h : Nat}
    (hf : s.base.faulted = false ∧ (s.base.sample b).faulted = true ∨
      s.food.faulted = false ∧ (s.food.sample f).faulted = true ∨
      s.board.faulted = false ∧ (s.board.sample h).faulted = true) :
    (s.tempSample b f h).report.isPending .sensor = true := by
  have h0 : (s.sampleChannels b f h).report.isPending .sensor = true := by
    unfold State.sampleChannels
    dsimp only
    rw [if_pos (by rcases hf with ⟨h1, h2⟩ | ⟨h1, h2⟩ | ⟨h1, h2⟩ <;> simp [h1, h2])]
    exact State.raise_isPending _ _
  rw [State.tempSample_eq]
  exact State.tempJudged_within _ _ .notices (by decide) _ h0

/-! ### The temperature faults -/

/-- The state with the two conditions of R93 recorded. -/
def State.overJudged (s : State) : State :=
  s.withReg { s.reg with baseOver := s.baseOverNow, boardOver := s.boardOverNow }

/-- The faults of R93 in their order: each is raised when its condition stands. -/
def State.faultIf (s : State) (b : Bool) (code : FaultCode) : State := if b then s.raiseFault code else s

theorem State.temperatureFaults_eq (s : State) (fell : Bool) : s.temperatureFaults fell =
    ((s.overJudged.faultIf (s.baseOverNow && (!decide (s.engine.state = .faulted) || !s.reg.baseOver)) .baseOver).faultIf
      (s.boardOverNow && (!decide (s.engine.state = .faulted) || !s.reg.boardOver)) .boardOver).faultIf
      (fell && decide (0 < s.reg.target)) .foodSensor := rfl

theorem State.faultedWith.faultIf {s t : State} {code : FaultCode} (h : s.faultedWith t code) (b : Bool)
    (code' : FaultCode) : s.faultedWith (t.faultIf b code') code := by
  cases b
  · exact h
  · exact h.raiseFault code'

/-- A fault of a state whose engine index and pool are those of `s`. -/
theorem State.faultedWith_of {s u : State} (h : u.engine.state ≠ .faulted) (hi : u.engine.index = s.engine.index)
    (hp : u.pool = s.pool) (code : FaultCode) : s.faultedWith (u.raiseFault code) code :=
  (State.raiseFault_faultedWith h code).congr hi hp

/-- The comparison for reached is made of an ACTIVE step alone. -/
theorem State.judgeReached_of_not_active {s : State} (h : s.active = false) : s.judgeReached = s := if_neg (by simp [h])

theorem State.faultedWith.tempRest {s t : State} {code : FaultCode} (h : s.faultedWith t code) :
    s.faultedWith ((t.judgeReached.computeTarget).judgeLock) code := by
  rw [State.judgeReached_of_not_active h.active]
  exact h.computeTarget.judgeLock

/-- The first temperature fault of a state not FAULTED. -/
theorem State.tempJudged_faults {s : State} (h : s.engine.state ≠ .faulted) (fell : Bool) :
    (s.baseOverNow = true → s.faultedWith (s.tempJudged fell) .baseOver) ∧
    (s.baseOverNow = false → s.boardOverNow = true → s.faultedWith (s.tempJudged fell) .boardOver) ∧
    (s.baseOverNow = false → s.boardOverNow = false → fell = true → 0 < s.reg.target →
      s.faultedWith (s.tempJudged fell) .foodSensor) := by
  have h0 : s.overJudged.engine.state ≠ .faulted := h
  have fault := fun code => State.faultedWith_of (s := s) (u := s.overJudged) h0 rfl rfl code
  unfold State.tempJudged
  rw [State.temperatureFaults_eq, decide_eq_false h, Bool.not_false, Bool.true_or, Bool.true_or, Bool.and_true, Bool.and_true]
  refine ⟨fun hb => ?_, fun hb hd => ?_, fun hb hd hf ht => ?_⟩
  · rw [hb]
    exact (((fault _).faultIf _ _).faultIf _ _).tempRest
  · rw [hb, hd]
    exact ((fault _).faultIf _ _).tempRest
  · rw [hb, hd, hf, decide_eq_true ht]
    exact (fault _).tempRest

/-- Without a condition and a lost food sensor nothing is raised. -/
theorem State.temperatureFaults_none {s : State} (hb : s.baseOverNow = false ∨ (s.engine.state = .faulted ∧ s.reg.baseOver = true))
    (hd : s.boardOverNow = false) : s.temperatureFaults false = s.overJudged := by
  rw [State.temperatureFaults_eq, hd]
  rcases hb with hb | ⟨hs, hb⟩
  · rw [hb]; rfl
  · rw [decide_eq_true hs, hb, Bool.not_true, Bool.or_self, Bool.and_false]; rfl

theorem State.faultIf_further {s : State} (h : s.engine.state = .faulted) (b : Bool) (code : FaultCode) :
    ((s.faultIf b code).engine = s.engine ∨ (s.faultIf b code).engine = { s.engine with further := true }) ∧
      (s.faultIf b code).pool = s.pool := by
  cases b
  · exact ⟨.inl rfl, rfl⟩
  · exact ⟨.inr (State.raiseFault_further h code).1, (State.raiseFault_further h code).2⟩

theorem State.faultIf_stays {s : State} {e : Engine} (h : s.engine = e) (hs : e.state = .faulted) (hf : e.further = true)
    (b : Bool) (code : FaultCode) : (s.faultIf b code).engine = e ∧ (s.faultIf b code).pool = s.pool := by
  obtain ⟨h1, h2⟩ := State.faultIf_further (s := s) (h ▸ hs) b code
  refine ⟨?_, h2⟩
  rcases h1 with h1 | h1
  · exact h1.trans h
  · rw [h1, h, ← hf]

/-- While FAULTED a BASE_OVER condition that is new sets further faults. -/
theorem State.temperatureFaults_further {s : State} (h : s.engine.state = .faulted) (hb : s.baseOverNow = true)
    (hn : s.reg.baseOver = false) (fell : Bool) :
    (s.temperatureFaults fell).engine = { s.engine with further := true } ∧ (s.temperatureFaults fell).pool = s.pool := by
  rw [State.temperatureFaults_eq, hb, hn, Bool.not_false, Bool.or_true, Bool.and_true]
  generalize (s.boardOverNow && _) = board
  generalize (fell && _) = food
  obtain ⟨he1, hp1⟩ := State.raiseFault_further (s := s.overJudged) h .baseOver
  obtain ⟨he2, hp2⟩ := State.faultIf_stays (s := s.overJudged.faultIf true .baseOver) he1 h rfl board .boardOver
  obtain ⟨he3, hp3⟩ := State.faultIf_stays he2 h rfl food .foodSensor
  exact ⟨he3, hp3.trans (hp2.trans hp1)⟩

/-- What follows the faults of a TEMP sample leaves an engine outside RUNNING alone. -/
theorem State.tempRest_keeps {s : State} (h : s.engine.state ≠ .running) :
    ((s.judgeReached.computeTarget).judgeLock).engine = s.engine ∧ ((s.judgeReached.computeTarget).judgeLock).pool = s.pool := by
  rw [State.judgeReached_of_not_active (by simp [State.active, h])]
  have k := s.computeTarget_moves.trans (State.judgeLock_moves (s := s.computeTarget) (by
    rw [s.computeTarget_moves.inEntry]; simp [State.inEntry, h]))
  exact ⟨k.engine, k.pool⟩

/-! ### The comparison for reached -/

/-- Outside ENTRY the target and the lock leave the engine as the comparison left it. -/
theorem State.reachedRest_engine {s : State} (h : s.inEntry = false) : ((s.computeTarget).judgeLock).engine = s.engine :=
  (s.computeTarget_moves.trans (State.judgeLock_moves (by rw [s.computeTarget_moves.inEntry]; exact h))).engine

theorem State.not_inEntry_of_active {s : State} (h : s.active = true) : s.inEntry = false := by
  simp_all [State.active, State.inEntry]

/-- The food value judged in an ACTIVE step that has not reached. -/
theorem State.judgeReached_eq {s : State} {v : Int} (ha : s.active = true) (hr : s.engine.reached = false)
    (hf : s.food.faulted = false) (hv : s.food.value = some v) : s.judgeReached =
      if (s.engine.clampedTarget : Int) - s.limits.band ≤ v then
        let u := s.withEngine { s.engine with
          reached := true, sub := if s.engine.sub = .approach then .reached else s.engine.sub }
        if s.current.condition = some .temp then u.endStep .completed else u
      else s := by
  unfold State.judgeReached
  simp only [ha, hr, hf, hv, atOrAbove, Bool.not_false, Bool.and_self, Bool.true_and, decide_eq_true_eq]
  rfl

/-- A TEMP sample in sequence on a LIVE stream. -/
theorem exec_temp {s : State} {seq : Byte} {b f h : BitVec 16} (hs : s.calm) (hq : s.senses seq)
    (hl : s.intake.temp.live = true) {u : State} (hu : u = s.sampleChannels (b.toNat % 4096) (f.toNat % 4096) (h.toNat % 4096)) :
    exec (.tempArrival seq b f h) s = .next (((u.withIntake (s.seen .temp seq).intake).tempJudged
      (!s.food.faulted && u.food.faulted)).picks) := by
  have hrow := exec_seen (x := .temp (b.toNat % 4096) (f.toNat % 4096) (h.toNat % 4096)) (c := .tempArrival seq b f h) rfl hs hq
    (.inl hl)
  rw [hrow]
  have hc : (s.seen .temp seq).sampleChannels (b.toNat % 4096) (f.toNat % 4096) (h.toNat % 4096) =
      u.withIntake (s.seen .temp seq).intake := by
    subst hu
    unfold State.sampleChannels
    dsimp only
    split <;> next hx => first | rw [if_pos (by exact hx)]; rfl | rw [if_neg (by exact hx)]; rfl
  change Host.Outcome.next ((s.seen .temp seq).tempSample _ _ _).picks = _
  rw [State.tempSample_eq, hc]
  rfl

end Sys2Proof.Machine

namespace Sys2Proof.Proofs
open Sys2Proof.Machine

/-- Settles O24: Table 5-2 of each channel, SENSOR, and the frame of a TEMP arrival. -/
theorem tempChannelResponse : Obligations.TempChannelResponse := by
  refine ⟨fun s seq b f h hs hr => ?_, Channel.interpolated_between⟩
  have hrow := exec_sample (seq := seq) (x := .temp (b.toNat % 4096) (f.toNat % 4096) (h.toNat % 4096))
    (c := .tempArrival seq b f h) rfl hs hr
  have w : Within (framePartsOf .temp tempParts) s (s.takeFrame seq
      (.temp (b.toNat % 4096) (f.toNat % 4096) (h.toNat % 4096))) :=
    (s.takeFrame_acts seq (.temp (b.toNat % 4096) (f.toNat % 4096) (h.toNat % 4096))).within
  have hu : Within (.block :: .pendingSet :: returnParts) s ((s.checkSequence seq).streamArrival .temp) :=
    Within.andThen (.first (s.checkSequence_within seq) (by decide)) (State.streamArrival_within _ .temp) (by decide)
  have hlin := hu .linTables (by decide)
  have hch := State.tempSample_channels ((s.checkSequence seq).streamArrival .temp) (b.toNat % 4096) (f.toNat % 4096) (h.toNat % 4096)
  rw [hlin.1, hlin.2.1, hlin.2.2] at hch
  refine ⟨_, hrow, ?_⟩
  simp only [State.picks_base, State.picks_food, State.picks_board, State.picks_isPending, State.picks_steps,
    State.picks_patterns, State.picks_cal, State.picks_limits, State.picks_sched, State.picks_lines, State.picks_pending,
    State.picks_choices]
  obtain ⟨hb, hf, hh⟩ := hch
  refine ⟨hb ▸ Channel.sample_responds _ _, hf ▸ Channel.sample_responds _ _, hh ▸ Channel.sample_responds _ _, ?_, ?_⟩
  · intro hfell
    refine State.tempSample_sensor (s := (s.checkSequence seq).streamArrival .temp) ?_
    rw [hlin.1, hlin.2.1, hlin.2.2, ← hb, ← hf, ← hh]
    exact hfell
  · exact ⟨w .steps (by decide), w .patterns (by decide), w .cal (by decide), w .limits (by decide), w .sched (by decide),
      w .lines (by decide), w .pending (by decide), w .choices (by decide)⟩

/-- Settles O25: the faults in their order, and what a condition does while FAULTED. -/
theorem temperatureFaults : Obligations.TemperatureFaults := by
  intro s u seq b f h hs hq hl hu
  have hrow := exec_temp hs hq hl hu
  obtain ⟨r, hr⟩ := s.sampleChannels_eq (b.toNat % 4096) (f.toNat % 4096) (h.toNat % 4096)
  have hue : u.engine = s.engine := by rw [hu, hr]; rfl
  have hup : u.pool = s.pool := by rw [hu, hr]; rfl
  have hug : u.reg = s.reg := by rw [hu, hr]; rfl
  generalize hw : u.withIntake (s.seen .temp seq).intake = w at hrow
  have hwe : w.engine = s.engine := by rw [← hw]; exact hue
  have hwp : w.pool = s.pool := by rw [← hw]; exact hup
  have hwg : w.reg = s.reg := by rw [← hw]; exact hug
  have hbase : w.baseOverNow = u.baseOverNow := by rw [← hw]; rfl
  have hboard : w.boardOverNow = u.boardOverNow := by rw [← hw]; rfl
  have faults := fun hs' => State.tempJudged_faults (s := w) (hwe ▸ hs') (!s.food.faulted && u.food.faulted)
  rw [hbase, hboard, hwg] at faults
  have move : ∀ {t code}, w.faultedWith t code → s.faultedWith t code := fun hf => hf.congr (by rw [hwe]) hwp
  refine ⟨fun hs' hb => ⟨_, hrow, (move ((faults hs').1 hb)).picks⟩,
    fun hs' hb hd => ⟨_, hrow, (move ((faults hs').2.1 hb hd)).picks⟩,
    fun hs' hb hd hff huf ht => ⟨_, hrow, (move ((faults hs').2.2 hb hd (by rw [hff, huf]; rfl) ht)).picks⟩,
    fun hs' hb hn => ⟨_, hrow, ?_⟩, fun hs' hb hn hd hff => ⟨_, hrow, ?_⟩⟩
  · obtain ⟨he, hp⟩ := State.temperatureFaults_further (s := w) (hwe ▸ hs') (hbase.trans hb) (hwg ▸ hn)
      (!s.food.faulted && u.food.faulted)
    obtain ⟨ke, kp⟩ := State.tempRest_keeps (s := w.temperatureFaults (!s.food.faulted && u.food.faulted))
      (by rw [he, hwe, hs']; decide)
    rw [State.picks_engine, State.picks_pool]
    exact ⟨by rw [← hwe, ← he]; exact ke, kp.trans (hp.trans hwp)⟩
  · rw [hff, Bool.not_true, Bool.false_and]
    have he := State.temperatureFaults_none (s := w) (.inr ⟨hwe ▸ hs', hwg ▸ hn⟩) (hboard.trans hd)
    obtain ⟨ke, kp⟩ := State.tempRest_keeps (s := w.overJudged) (by rw [show w.overJudged.engine = _ from hwe, hs']; decide)
    rw [State.picks_engine, State.picks_pool, State.tempJudged, he]
    exact ⟨ke.trans hwe, kp.trans hwp⟩

/-- Settles O26: the food value against the band. -/
theorem reachedAtTempArrival : Obligations.ReachedAtTempArrival := by
  intro s u seq b f h v hs hq hl hu hb hd ha hr hff hv
  have hrow := exec_temp hs hq hl hu
  obtain ⟨r, hrr⟩ := s.sampleChannels_eq (b.toNat % 4096) (f.toNat % 4096) (h.toNat % 4096)
  rw [hff, Bool.and_false] at hrow
  generalize hw : u.withIntake (s.seen .temp seq).intake = w at hrow
  have hwe : w.overJudged.engine = s.engine := by rw [← hw, hu, hrr]; simp [State.overJudged]
  have hws : w.overJudged.steps = s.steps := by rw [← hw, hu, hrr]; simp [State.overJudged]
  have hwc : w.overJudged.current = s.current := by unfold State.current State.step; rw [hws, hwe]
  have hwl : w.overJudged.limits = s.limits := by rw [← hw, hu, hrr]; simp [State.overJudged]
  have hfaults : w.temperatureFaults false = w.overJudged :=
    State.temperatureFaults_none (.inl (by rw [← hw]; exact hb)) (by rw [← hw]; exact hd)
  have hact : w.overJudged.active = true := by unfold State.active at ha ⊢; rwa [hwe]
  have hj := State.judgeReached_eq (s := w.overJudged) (v := v) hact (by rw [hwe]; exact hr) (by rw [← hw]; exact hff)
    (by rw [← hw]; exact hv)
  rw [hwe, hwc, hwl] at hj
  unfold State.tempJudged at hrow
  rw [hfaults] at hrow
  refine ⟨fun hv' hc => ⟨_, hrow, ?_⟩, fun hv' hc => ⟨_, hrow, ?_⟩, fun hv' => ⟨_, hrow, ?_⟩⟩
  · rw [hj, if_pos hv', State.picks_engine]
    dsimp only
    rw [if_pos hc]
    exact ((State.judgeLock_carries _).after (State.computeTarget_moves _).carries).1.trans (State.endStep_ends _ _).1
  · rw [hj, if_pos hv', State.picks_engine]
    dsimp only
    rw [if_neg hc, State.reachedRest_engine (State.not_inEntry_of_active (by unfold State.active at hact ⊢; rwa [hwe] at hact))]
    rfl
  · rw [hj, if_neg (by omega), State.picks_engine, State.reachedRest_engine (State.not_inEntry_of_active hact), hwe]

end Sys2Proof.Proofs
end

