-- ==== Sys2Proof/Proofs/MotorRows.lean ====
section
/-! The MOTOR sample: the values and the wait of a reversal, the stall, overload and torque tests, and the end of ENDING. -/

namespace Sys2Proof.Machine

/-! ### Values and reversal -/

/-- The end of a reversal's wait touches the direction items and the ramp count alone. -/
theorem State.motorReversal_eq (s : State) (v : Nat) : ∃ rev dir last ramp d, s.motorReversal v =
    (s.withStir { s.stir with reversal := rev, direction := dir, lastDirection := last, rampCount := ramp }).withDrive d := by
  unfold State.motorReversal
  split
  · unfold State.endReversal
    dsimp only
    split
    · by_cases hc : 0 < s.stir.commanded
      · exact ⟨false, _, some _, 0, _, by simp [State.handSpin, hc]; rfl⟩
      · exact ⟨false, _, s.stir.lastDirection, 0, _, by simp [State.handSpin, hc]; rfl⟩
    · exact ⟨false, _, s.stir.lastDirection, 0, s.drive, rfl⟩
  · exact ⟨_, _, _, _, s.drive, rfl⟩

/-- Without a pattern the direction stays as it is (log 19). -/
theorem State.motorReversal_idle {s : State} (h : s.stir.running = none) (v : Nat) : s.motorReversal v =
    s.withStir { s.stir with
      reversal := s.stir.reversal && !decide (v < s.limits.stopThreshold)
      rampCount := if s.stir.reversal = true ∧ v < s.limits.stopThreshold then 0 else s.stir.rampCount } := by
  have hp : s.stirPhase = none := by simp [State.stirPhase, h]
  unfold State.motorReversal
  by_cases hb : (s.stir.reversal && decide (v < s.limits.stopThreshold)) = true
  · have hs : s.stir.reversal = true ∧ v < s.limits.stopThreshold := by simpa using hb
    rw [if_pos hb, if_pos hs, State.endReversal, hp, decide_eq_true hs.2, Bool.not_true, Bool.and_false]
    exact if_neg (by simp)
  · have hs : ¬ (s.stir.reversal = true ∧ v < s.limits.stopThreshold) := by simpa using hb
    have hr : (s.stir.reversal && !decide (v < s.limits.stopThreshold)) = s.stir.reversal := by
      cases hrev : s.stir.reversal
      · rfl
      · simp_all
    rw [if_neg hb, if_neg hs, hr]
    rfl

/-! ### The tests -/

theorem State.motorTests_of_active {s : State} (h : s.active = true) (v i : Nat) : s.motorTests v i =
    let u := s.stallTest v
    let w := if u.active then u.overloadTest i else u
    if w.active then w.torqueTest v i else w := by
  unfold State.motorTests
  simp only [h, if_true]

/-- A fault of the first test ends the tests. -/
theorem State.motorTests_stall {s : State} (h : s.active = true) {v : Nat} (i : Nat)
    (hs : 100 ≤ s.stir.commanded ∧ 8 * v < s.stir.commanded) (hn : 149 ≤ s.stir.stallRun) :
    s.motorTests v i = s.raiseFault .stall := by
  have hu : s.stallTest v = s.raiseFault .stall := by unfold State.stallTest; rw [if_pos hs, if_pos hn]
  have ha : (s.raiseFault .stall).active = false :=
    (State.raiseFault_faultedWith (by rw [State.running_of_active h]; decide) _).active
  rw [State.motorTests_of_active h, hu]
  simp only [ha, Bool.false_eq_true, if_false]

/-- A sample that is no stall clears the stall run. -/
theorem State.stallTest_passes {s : State} {v : Nat} (h : s.stir.commanded ≤ 8 * v) :
    s.stallTest v = s.withStir { s.stir with stallRun := 0 } := if_neg (by omega)

theorem State.motorTests_passes {s : State} (h : s.active = true) {v : Nat} (i : Nat) (hv : s.stir.commanded ≤ 8 * v) :
    s.motorTests v i =
      let w := (s.withStir { s.stir with stallRun := 0 }).overloadTest i
      if w.active then w.torqueTest v i else w := by
  have ha : (s.withStir { s.stir with stallRun := 0 }).active = true := h
  rw [State.motorTests_of_active h, State.stallTest_passes hv]
  simp only [ha, if_true]

/-- The state in which the overload cap comes into force (R125). -/
def State.capped (s : State) : State :=
  ((s.withStir { s.stir with
    overloadRun := 0, overloadCap := some (max 100 ((s.stir.commanded + 1) / 2)) }).raise .derate).computeTarget

theorem State.overloadTest_caps {s : State} {i : Nat} (hi : s.limits.overloadCurrent ≤ i) (hc : s.stir.overloadCap = none)
    (hn : 99 ≤ s.stir.overloadRun) : s.overloadTest i = s.capped := by
  have hcap : (roundDiv s.stir.commanded 2).toNat = (s.stir.commanded + 1) / 2 := by simp [roundDiv]; omega
  unfold State.overloadTest
  rw [if_pos hi, hc]
  dsimp only
  rw [if_pos hn, hcap]
  rfl

theorem State.overloadTest_faults {s : State} {i : Nat} (hi : s.limits.overloadCurrent ≤ i) (hc : s.stir.overloadCap ≠ none)
    (hn : 249 ≤ s.stir.overloadRun) : s.overloadTest i = s.raiseFault .overload := by
  obtain ⟨c, hc⟩ := Option.ne_none_iff_exists'.1 hc
  unfold State.overloadTest
  rw [if_pos hi, hc]
  dsimp only
  rw [if_pos hn]

theorem State.overloadTest_passes {s : State} {i : Nat} (hi : i < s.limits.overloadCurrent) :
    s.overloadTest i = s.withStir { s.stir with overloadRun := 0 } := if_neg (Nat.not_le.2 hi)

/-- The block's last sample brings the count to the tolerance. -/
theorem State.torqueTest_completes {s : State} {v i : Nat} (hk : s.current.kind = .cook)
    (hc : s.current.condition = some .torque) (hn : s.stir.blockCount = 15)
    (hs : (s.stir.blockSteady && steadySample s.stir.commanded v) = true)
    (ha : (s.current.amount : Int) ≤ roundDiv (s.stir.blockSum + i : Nat) 16)
    (ht : s.current.tolerance ≤ s.stir.torqueCount + 1) :
    ∃ x : Stir, s.torqueTest v i = (s.withStir x).endStep .completed := by
  refine ⟨{ s.stir with blockSum := 0, blockCount := 0, blockSteady := true, torqueCount := s.stir.torqueCount + 1 }, ?_⟩
  unfold State.torqueTest State.torqueBlock
  simp only [hk, hc, hn, hs, ha, ht, and_self, if_true, decide_true, Bool.and_self, Nat.reduceAdd, le_refl,
    Nat.zero_lt_succ]

theorem State.torqueTest_other {s : State} (h : s.current.condition ≠ some .torque) (v i : Nat) : s.torqueTest v i = s :=
  if_neg (by simp [h])

/-! ### The sample as a whole -/

/-- Values and reversal leave the commanded speed and the supervision of the step. -/
theorem State.motorTaken_eq (s : State) (v i : Nat) : ∃ x d, (s.takeMotorValues v i).motorReversal v =
    (s.withStir x).withDrive d ∧ x.commanded = s.stir.commanded ∧ x.supervision = s.stir.supervision := by
  obtain ⟨rev, dir, last, ramp, d, h⟩ := (s.takeMotorValues v i).motorReversal_eq v
  exact ⟨_, d, h, rfl, rfl⟩

theorem exec_motor {s : State} {seq : Byte} (v i : BitVec 16) (hs : s.calm) (hq : s.senses seq)
    (hl : s.intake.motor.live = true) : exec (.motorArrival seq v i) s =
      .next ((s.seen .motor seq).motorSample v.toNat i.toNat).picks :=
  exec_seen (x := .motor v.toNat i.toNat) rfl hs hq (.inl hl)

/-- A lock in no state that is judged. -/
theorem State.judgeLock_of_not_judged {s : State} (h1 : s.lock.state ≠ .engaged) (h2 : s.lock.state ≠ .releasing) :
    s.judgeLock = s := by
  unfold State.judgeLock
  cases h : s.lock.state
  case engaged => exact absurd h h1
  case releasing => exact absurd h h2
  all_goals rfl

/-- `w` is `s` as the tests of a MOTOR sample find it: engine, pool and tables, commanded speed and supervision as before. -/
structure State.TestedAs (s w : State) : Prop where
  engine : w.engine = s.engine
  pool : w.pool = s.pool
  limits : w.limits = s.limits
  steps : w.steps = s.steps
  commanded : w.stir.commanded = s.stir.commanded
  overloadRun : w.stir.overloadRun = s.stir.overloadRun
  overloadCap : w.stir.overloadCap = s.stir.overloadCap
  blockSum : w.stir.blockSum = s.stir.blockSum
  blockCount : w.stir.blockCount = s.stir.blockCount
  blockSteady : w.stir.blockSteady = s.stir.blockSteady
  torqueCount : w.stir.torqueCount = s.stir.torqueCount

theorem State.TestedAs.active {s w : State} (h : s.TestedAs w) : w.active = s.active := by
  unfold State.active; rw [h.engine]

theorem State.TestedAs.current {s w : State} (h : s.TestedAs w) : w.current = s.current := by
  unfold State.current State.step; rw [h.engine, h.steps]

theorem State.TestedAs.faultedWith {s w : State} (h : s.TestedAs w) (hs : s.engine.state ≠ .faulted) (code : FaultCode) :
    s.faultedWith (w.raiseFault code) code :=
  State.faultedWith_of (by rw [h.engine]; exact hs) (by rw [h.engine]) h.pool code

/-- A MOTOR sample outside ENDING: values and reversal, the tests, the lock. -/
theorem exec_motor_tests {s : State} {seq : Byte} (v i : BitVec 16) (hs : s.calm) (hq : s.senses seq)
    (hl : s.intake.motor.live = true) (he : s.engine.state ≠ .ending) : ∃ u, s.TestedAs u ∧
      u.stir.stallRun = s.stir.stallRun ∧ exec (.motorArrival seq v i) s =
        .next ((u.motorTests v.toNat i.toNat).judgeLock).picks := by
  obtain ⟨x, d, h, hc, hsup⟩ := (s.seen .motor seq).motorTaken_eq v.toNat i.toNat
  simp only [Stir.supervision, Prod.mk.injEq] at hsup
  obtain ⟨hstall, hover, hcap, hsum, hcount, hsteady, htorque⟩ := hsup
  refine ⟨((s.seen .motor seq).withStir x).withDrive d,
    ⟨rfl, rfl, rfl, rfl, hc, hover, hcap, hsum, hcount, hsteady, htorque⟩, hstall, (exec_motor v i hs hq hl).trans ?_⟩
  have hd : decide ((s.seen .motor seq).engine.state = .ending) = false := decide_eq_false he
  rw [State.motorSample_eq, State.motorSampleJudged, h, hd]
  rfl

/-- A sample of an ACTIVE step that is no stall goes on to the overload test. -/
theorem exec_motor_passes {s : State} {seq : Byte} {v i : BitVec 16} (hs : s.calm) (hq : s.senses seq)
    (hl : s.intake.motor.live = true) (ha : s.active = true) (hv : s.stir.commanded ≤ 8 * v.toNat) :
    ∃ w, s.TestedAs w ∧ exec (.motorArrival seq v i) s = .next ((if (w.overloadTest i.toNat).active
      then (w.overloadTest i.toNat).torqueTest v.toNat i.toNat else w.overloadTest i.toNat).judgeLock).picks := by
  obtain ⟨u, h, -, hrow⟩ := exec_motor_tests v i hs hq hl (by rw [State.running_of_active ha]; decide)
  rw [State.motorTests_passes (h.active.trans ha) _ (by rw [h.commanded]; exact hv)] at hrow
  exact ⟨u.withStir { u.stir with stallRun := 0 }, ⟨h.engine, h.pool, h.limits, h.steps, h.commanded, h.overloadRun, h.overloadCap, h.blockSum, h.blockCount,
    h.blockSteady, h.torqueCount⟩, hrow⟩

/-- The cap coming into force keeps the engine and lowers the commanded speed to it. -/
theorem State.capped_fields (s : State) (n : Nat) (hn : n = max 100 ((s.stir.commanded + 1) / 2)) :
    s.capped.engine = s.engine ∧ s.capped.stir.overloadCap = some n ∧ s.capped.stir.overloadRun = 0 ∧
      s.capped.report.isPending .derate = true ∧ s.capped.stir.commanded ≤ n ∧ s.capped.steps = s.steps := by
  subst hn
  have hsup := (State.computeTarget_commanded ((s.withStir { s.stir with
    overloadRun := 0, overloadCap := some (max 100 ((s.stir.commanded + 1) / 2)) }).raise .derate)).2.2
  have hle := (State.computeTarget_commanded ((s.withStir { s.stir with
    overloadRun := 0, overloadCap := some (max 100 ((s.stir.commanded + 1) / 2)) }).raise .derate)).2.1
  simp only [Stir.supervision, Prod.mk.injEq] at hsup
  refine ⟨State.computeTarget_engine _, hsup.2.2.1, hsup.2.1, ?_, hle.trans ?_, State.steps_of_rest (by simp [State.capped])⟩
  · exact (State.computeTarget_report _).symm ▸ State.raise_isPending _ _
  · rw [State.computeTarget_target]
    cases State.stirPhase _ with
    | none => exact Nat.zero_le _
    | some ph => exact State.cappedSpeed_le (by simp [State.speedCaps, State.raise])

/-- What leaving ENDING leaves (R47). -/
theorem State.leaveEnding_fields (s : State) : s.leaveEnding.engine = { s.engine with state := .idle } ∧
    s.leaveEnding.pool = s.pool ∧ s.leaveEnding.report.isPending .done = true ∧ s.leaveEnding.reg.target = 0 ∧
    s.leaveEnding.stir.commanded = 0 ∧ s.leaveEnding.lock.standing = .release := by
  unfold State.leaveEnding
  refine ⟨?_, ?_, State.raise_isPending _ _, ?_, ?_, ?_⟩
  all_goals simp [State.raise, State.restOutputs_lock, State.heaterOff, Stir.zeroed]

end Sys2Proof.Machine

namespace Sys2Proof.Proofs
open Sys2Proof.Machine

/-- Settles O27: a sample in IDLE, and in ENDING on either side of the stop threshold. -/
theorem motorArrivalOutsideRunning : Obligations.MotorArrivalOutsideRunning := by
  intro s seq v i hs hq hl
  have hrow := exec_motor v i hs hq hl
  have tests : s.engine.state ≠ .running → ((((s.seen .motor seq).takeMotorValues v.toNat i.toNat).motorReversal v.toNat).motorTests
      v.toNat i.toNat) = ((s.seen .motor seq).takeMotorValues v.toNat i.toNat).motorReversal v.toNat := fun hr =>
    State.motorTests_of_not_active (by
      unfold State.active
      rw [State.motorReversal_engine]
      exact Bool.and_eq_false_iff.2 (.inl (decide_eq_false hr))) _ _
  refine ⟨fun he hr h1 h2 => ⟨_, hrow, ?_⟩, fun he hv => ⟨_, hrow, ?_⟩, fun he hv => ⟨_, hrow, ?_⟩⟩
  · have hd : decide ((s.seen .motor seq).engine.state = .ending) = false := decide_eq_false (by
      change s.engine.state ≠ _; rw [he]; decide)
    rw [State.picks_content, State.motorSample_eq, State.motorSampleJudged, tests (by rw [he]; decide), hd, Bool.false_and,
      State.motorReversal_idle (by exact hr)]
    exact congrArg State.content (State.judgeLock_of_not_judged h1 h2)
  · have hd : decide ((s.seen .motor seq).engine.state = .ending) = true := decide_eq_true he
    have hv' : decide (v.toNat < (s.seen .motor seq).limits.stopThreshold) = true := decide_eq_true hv
    rw [State.motorSample_eq, State.motorSampleJudged, tests (by rw [he]; decide), hd, hv', Bool.and_true]
    obtain ⟨x, d, h, hc, -⟩ := (s.seen .motor seq).motorTaken_eq v.toNat i.toNat
    have hm : (((s.seen .motor seq).takeMotorValues v.toNat i.toNat).motorReversal v.toNat).stir.speed = v.toNat :=
      ((State.motorReversal_acts ((s.seen .motor seq).takeMotorValues v.toNat i.toNat) v.toNat).within .measured (by decide)).1
    rw [h] at hm ⊢
    dsimp only [if_true]
    generalize hu : ((s.seen .motor seq).withStir x).withDrive d = u at hm
    have hue : u.engine = s.engine := by rw [← hu]; rfl
    have hup : u.pool = s.pool := by rw [← hu]; rfl
    have hle : u.leaveEnding.engine = { s.engine with state := .idle } := by
      rw [← hue]; exact State.restOutputs_engine _
    have k := State.judgeLock_moves (s := u.leaveEnding) (by simp [State.inEntry, hle])
    have hspeed : u.leaveEnding.judgeLock.stir.speed = v.toNat :=
      ((State.judgeLock_acts _).within .measured (by decide)).1.trans ((State.leaveEnding_within u .measured (by decide)).1.trans hm)
    obtain ⟨-, hlp, hdone, htarget, hcom, hst⟩ := u.leaveEnding_fields
    simp only [State.picks_engine, State.picks_isPending, State.picks_reg, State.picks_stir, State.picks_lock, State.picks_pool,
      if_true]
    rw [k.engine, k.report, k.reg, k.standing, k.pool]
    exact ⟨hle, hdone, htarget, Nat.le_zero.1 (k.commanded.trans hcom.le), hst, hlp.trans hup, hspeed⟩
  · have hv' : decide (v.toNat < (s.seen .motor seq).limits.stopThreshold) = false := decide_eq_false (Nat.not_lt.2 hv)
    rw [State.motorSample_eq, State.motorSampleJudged, tests (by rw [he]; decide), hv', Bool.and_false]
    have hslow : (((s.seen .motor seq).takeMotorValues v.toNat i.toNat).motorReversal v.toNat).stir.slowRun = 0 :=
      ((State.motorReversal_acts ((s.seen .motor seq).takeMotorValues v.toNat i.toNat) v.toNat).within .slowRun (by decide)).trans
        (if_neg (Nat.not_lt.2 hv))
    have hen : (((s.seen .motor seq).takeMotorValues v.toNat i.toNat).motorReversal v.toNat).engine = s.engine :=
      State.motorReversal_engine _ _
    have k := State.judgeLock_moves (s := ((s.seen .motor seq).takeMotorValues v.toNat i.toNat).motorReversal v.toNat)
      (by simp [State.inEntry, hen, he])
    rw [State.picks_engine, State.picks_stir]
    exact ⟨k.engine.trans hen, ((State.judgeLock_acts _).within .slowRun (by decide)).trans hslow⟩

/-- Settles O28: the stall, the cap, the overload, and the torque block that completes. -/
theorem motorSupervision : Obligations.MotorSupervision := by
  intro s seq v i hs hq hl ha
  have hne : s.engine.state ≠ .faulted := by rw [State.running_of_active ha]; decide
  refine ⟨fun h1 h2 h3 => ?_, fun h1 h2 h3 h4 h5 => ?_, fun h1 h2 h3 h4 => ?_, fun h1 h2 h3 h4 h5 h6 h7 h8 h9 => ?_⟩
  · obtain ⟨u, h, hstall, hrow⟩ := exec_motor_tests v i hs hq hl (by rw [State.running_of_active ha]; decide)
    refine ⟨_, hrow, ?_⟩
    rw [State.motorTests_stall (h.active.trans ha) _ (by rw [h.commanded]; exact ⟨h1, h2⟩) (by rw [hstall]; exact h3)]
    exact (h.faultedWith hne _).judgeLock.picks
  · obtain ⟨w, h, hrow⟩ := exec_motor_passes (i := i) hs hq hl ha h1
    refine ⟨_, hrow, ?_⟩
    obtain ⟨he, hcap, hover, hder, hcom, hsteps⟩ := w.capped_fields _ (by rw [h.commanded])
    have hcur : w.capped.current = s.current := by unfold State.current State.step; rw [he, hsteps, h.engine, h.steps]
    rw [State.overloadTest_caps (by rw [h.limits]; exact h2) (by rw [h.overloadCap]; exact h3) (by rw [h.overloadRun]; exact h4),
      State.torqueTest_other (by rw [hcur]; exact h5), ite_self]
    have k := State.judgeLock_moves (s := w.capped) (State.not_inEntry_of_active (by
      unfold State.active at ha ⊢; rwa [he, h.engine]))
    have hsup := k.supervision
    simp only [Stir.supervision, Prod.mk.injEq] at hsup
    simp only [State.picks_engine, State.picks_isPending, State.picks_stir]
    rw [k.engine, k.report, hsup.2.1, hsup.2.2.1]
    exact ⟨hcap, hover, hder, k.commanded.trans hcom, he.trans h.engine⟩
  · obtain ⟨w, h, hrow⟩ := exec_motor_passes (i := i) hs hq hl ha h1
    refine ⟨_, hrow, ?_⟩
    have hf := h.faultedWith hne .overload
    rw [State.overloadTest_faults (by rw [h.limits]; exact h2) (by rw [h.overloadCap]; exact h3) (by rw [h.overloadRun]; exact h4),
      if_neg (by rw [hf.active]; decide)]
    exact hf.judgeLock.picks
  · obtain ⟨w, h, hrow⟩ := exec_motor_passes (v := v) (i := i) hs hq hl ha (by omega)
    refine ⟨_, hrow, ?_⟩
    have hwc : (w.withStir { w.stir with overloadRun := 0 }).current = s.current := h.current
    have hwa : (w.withStir { w.stir with overloadRun := 0 }).active = true := h.active.trans ha
    obtain ⟨y, hy⟩ := State.torqueTest_completes (s := w.withStir { w.stir with overloadRun := 0 }) (v := v.toNat)
      (i := i.toNat) (hwc ▸ h1) (hwc ▸ h2) (h.blockCount.trans h7)
      (by rw [show State.stir _ = _ from rfl]; simp [h.blockSteady, h.commanded, h6, steadySample, h3, h4])
      (by rw [hwc]; simpa [h.blockSum, roundDiv] using h8) (by rw [hwc]; simpa [h.torqueCount] using h9)
    rw [State.overloadTest_passes (by rw [h.limits]; exact h5), if_pos hwa, hy, State.picks_engine]
    exact (State.judgeLock_carries _).1.trans (State.endStep_ends _ _).1

end Sys2Proof.Proofs
end

