-- ==== Sys2Proof/Proofs/HoldRows.lean ====
section
/-! Holds, their removal, the resume of a started step, and the step start at a record that is not timed: what each leaves
of the engine, the pool and the directions. -/

namespace Sys2Proof.Machine

/-! ### A class raised -/

theorem Report.raise_pendingSet (r : Report) (n : Notice) : (r.raise n).pendingSet = r.pendingSet ||| n.mask := by
  unfold Report.raise
  split
  · next h =>
    refine BitVec.eq_of_getLsbD_eq fun i hi => ?_
    rw [BitVec.getLsbD_or]
    by_cases hb : i = n.bit
    · subst hb
      have hp : r.pendingSet.getLsbD n.bit = true := h
      rw [hp, Bool.true_or]
    · have hm : n.mask.getLsbD i = false := by
        simp [Notice.mask, BitVec.getLsbD_shiftLeft, BitVec.getLsbD_one]
        omega
      rw [hm, Bool.or_false]
  · rfl

@[simp] theorem State.raise_pendingSet (s : State) (n : Notice) :
    (s.raise n).report.pendingSet = s.report.pendingSet ||| n.mask := s.report.raise_pendingSet n

/-! ### Hold entry, added and removed reasons -/

/-- The outputs of HELD with no target for a faulted food channel to forbid. -/
theorem State.heldOutputs_of_safe {s : State} (h : s.engine.holds.gentle = false ∨ s.food.faulted = false) :
    s.heldOutputs = s.heldSet := by
  rw [State.heldOutputs_eq]
  refine if_neg ?_
  rcases h with h | h
  · simp [State.heldTarget, h]
  · simp [h]

@[simp] theorem State.heldSet_standing (s : State) : s.heldSet.lock.standing = .release := rfl

theorem State.lockRequest_release_lock (s : State) : (s.lockRequest .release).lock = { s.lock with
    standing := .release, releaseWait := if s.lock.state = .engaged then true else s.lock.releaseWait } := rfl

@[simp] theorem State.heldSet_lock_state (s : State) : s.heldSet.lock.state = s.lock.state := by
  rw [State.heldSet, State.lockRequest_release_lock, State.stirZero_lock]
  rfl

/-- The engine and the pool at a hold entry, HELD raised, before the outputs. -/
def State.heldWith (s : State) (r : Holds) : State :=
  ((s.withPool (s.pool.save (.held (s.suspendRecord r)))).withEngine
    { s.engine.noStep with state := .held, holds := r }).raise .held

theorem State.enterHold_of_safe {s : State} {r : Holds} (h : r.gentle = false ∨ s.food.faulted = false) :
    s.enterHold r = (s.heldWith r).heldSet := State.heldOutputs_of_safe h

theorem State.addHold_running {s : State} (h : s.engine.state = .running) (r : Holds) : s.addHold r = s.enterHold r := by
  unfold State.addHold; rw [h]

theorem State.addHold_held {s : State} (h : s.engine.state = .held) (r : Holds) : s.addHold r =
    if s.engine.holds.union r = s.engine.holds then s
    else (s.withEngine { s.engine with holds := s.engine.holds.union r }).heldOutputs := by
  unfold State.addHold; rw [h]

theorem State.addHold_other {s : State} (h1 : s.engine.state ≠ .running) (h2 : s.engine.state ≠ .held) (r : Holds) :
    s.addHold r = s := by
  unfold State.addHold
  cases h : s.engine.state
  case running => exact absurd h h1
  case held => exact absurd h h2
  all_goals rfl

theorem State.keepHolds_same {s : State} {h : Holds} (hh : h = s.engine.holds) : s.keepHolds h = s := if_pos (by simp [hh])

/-- A removal that leaves a reason. -/
theorem State.keepHolds_rest_reason {s : State} {h : Holds} (hs : s.engine.state = .held) (hh : h ≠ s.engine.holds)
    (h0 : h ≠ .empty) : s.keepHolds h = (s.withEngine { s.engine with holds := h }).heldOutputs := by
  unfold State.keepHolds
  rw [if_neg (by simp [hs, hh])]
  exact if_neg h0

/-- The removal of the last reason. -/
theorem State.keepHolds_last {s : State} (hs : s.engine.state = .held) (hh : s.engine.holds ≠ .empty) :
    s.keepHolds .empty = (s.withEngine { s.engine with holds := .empty }).resume := by
  unfold State.keepHolds
  rw [if_neg (by simp [hs, Ne.symm hh])]
  exact if_pos rfl

/-- The heater target of a hold (R35). -/
theorem State.heldTarget_eq (s : State) : s.heldTarget = if s.engine.holds.gentle then
    min s.limits.keepWarm (if s.pool.heldRecord.isSome then s.engine.clampedTarget else s.engine.previousTarget) else 0 := rfl

/-! ### Entry into ACTIVE and resume -/

/-- The engine at ACTIVE entry (R26). -/
def State.activeEngine (s : State) : Engine :=
  if s.engine.sub = .none then { s.engine with
    phase := .active, reached := s.engine.reached || decide (s.engine.clampedTarget = 0)
    sub := firstSubPhase s.current.kind (s.engine.reached || decide (s.engine.clampedTarget = 0)) }
  else { s.engine with phase := .active }

theorem State.enterActive_engine (s : State) : s.enterActive.engine = s.activeEngine := by
  unfold State.enterActive State.activeEngine
  dsimp only
  split
  · simp [State.startPattern]
  · simp [State.resumePattern]

@[simp] theorem State.enterActive_pool (s : State) : s.enterActive.pool = s.pool :=
  State.enterActive_within s .pool (by decide)

@[simp] theorem State.enterActive_weigh (s : State) : s.enterActive.weigh = s.weigh := by
  unfold State.enterActive
  dsimp only
  split
  · simp [State.startPattern]
  · simp [State.resumePattern]

@[simp] theorem State.enterActive_reg (s : State) : s.enterActive.reg = s.reg := by
  unfold State.enterActive
  dsimp only
  split
  · simp [State.startPattern]
  · simp [State.resumePattern]

@[simp] theorem State.enterActive_lock (s : State) : s.enterActive.lock = s.lock := by
  unfold State.enterActive
  dsimp only
  split
  · simp [State.startPattern]
  · simp [State.resumePattern]

@[simp] theorem State.enterActive_report (s : State) : s.enterActive.report = s.report := by
  unfold State.enterActive
  dsimp only
  split
  · simp [State.startPattern]
  · simp [State.resumePattern]

/-- A step that needs no lock enters ACTIVE under RELEASE. -/
theorem State.decideEntry_unlocked {s : State} (h : s.lockNeeded s.current = false) :
    s.decideEntry = ((s.withEngine { s.engine with lockNeed := false }).lockRequest .release).enterActive := by
  unfold State.decideEntry
  dsimp only
  rw [h]
  exact if_neg (by decide)

/-- The state at a resume of the started step `h`, before its entry. -/
def State.restored (s : State) (h : HeldRecord) : State := ((s.withPool s.pool.restore).restoreHeld h).restoreStir h

theorem State.resume_started {s : State} {slot : Nat} {h : HeldRecord} {rest : List (Nat × Context)}
    (hc : s.pool.chain = (slot, .held h) :: rest) (hf : s.food.faulted = false) : s.resume = (s.restored h).decideEntry := by
  unfold State.resume
  rw [hc]
  exact if_neg (by simp [State.restoreHeld, hf])

/-! ### A step start at a record that is not timed -/

theorem chainFuel_succ : ∃ n, chainFuel = n + 1 := ⟨2 ^ 200 - 1, by norm_num [chainFuel]⟩

theorem State.startStep_beyond {s : State} {i : Nat} (h : 256 ≤ i) : s.startStep i = s.raiseFault .stepRange := by
  obtain ⟨n, hn⟩ := chainFuel_succ
  unfold State.startStep
  rw [hn, stepStart, if_pos h]

theorem State.startStep_finish {s : State} {i : Nat} (h : i < 256) (hk : (s.step i).kind = .finish) :
    s.startStep i = (s.withEngine { s.engine with index := i }).enterEnding .completed := by
  obtain ⟨n, hn⟩ := chainFuel_succ
  unfold State.startStep
  rw [hn, stepStart, if_neg (by omega)]
  dsimp only
  rw [hk]

theorem stepStart_empty {s : State} {i : Nat} (n : Nat) (h : i < 256) (hk : (s.step i).kind = .empty) :
    stepStart (n + 1) i s = s.enterStarved i := by
  rw [stepStart, if_neg (by omega)]
  dsimp only
  rw [hk]

theorem State.startStep_timed {s : State} {i : Nat} (h : i < 256)
    (hk : (s.step i).kind = .cook ∨ (s.step i).kind = .add ∨ (s.step i).kind = .waitUser) :
    s.startStep i = s.startTimed i (s.step i) := by
  obtain ⟨n, hn⟩ := chainFuel_succ
  unfold State.startStep
  rw [hn, stepStart, if_neg (by omega)]
  dsimp only
  rcases hk with hk | hk | hk <;> rw [hk]

/-- What ENDING leaves (R47). -/
theorem State.enterEnding_fields (s : State) (o : RecipeOutcome) :
    (s.enterEnding o).engine = { s.engine.noStep with state := .ending, holds := .empty, recipeOutcome := some o } ∧
    (s.enterEnding o).pool = s.pool.freeAll ∧ (s.enterEnding o).reg = s.heaterOff.reg ∧
    (s.enterEnding o).stir.commanded = 0 ∧ (s.enterEnding o).stir.running = none ∧
    (s.enterEnding o).lock.standing = .release ∧ (s.enterEnding o).weigh = { s.weigh with addReference := none } ∧
    (s.enterEnding o).report = s.report := by
  unfold State.enterEnding
  refine ⟨?_, ?_, ?_, ?_, ?_, ?_, ?_, ?_⟩
  all_goals simp [State.clearReference, State.clearStepSupervision, State.restOutputs_lock, Stir.zeroed, State.heaterOff]

end Sys2Proof.Machine
end

