-- ==== Sys2Proof/Proofs/LineRows.lean ====
section
/-! The LEVELS sample: debouncing line by line, and a frame that completes one acceptance alone, with the fixed action and
the bound action of its edge. -/

namespace Sys2Proof.Machine

/-! ### One line -/

@[simp] theorem Lines.line_setLine (l : Lines) (n : LineId) (x : Line) : (l.setLine n x).line n = x := by cases n <;> rfl

theorem Lines.line_setLine_other {l : Lines} {m n : LineId} (h : m ≠ n) (x : Line) : (l.setLine n x).line m = l.line m := by
  have key : (l.setLine n x).line m = if m = n then x else l.line m := by cases m <;> cases n <;> rfl
  rw [key, if_neg h]

theorem Level.agrees_iff (l : Level) (b : Bool) : l.agrees b = true ↔ l = .ofSample b := by
  cases l <;> cases b <;> decide

/-- A line after its sample. -/
def Line.sampled (x : Line) (d : Nat) (sample : Bool) : Line :=
  if (x.count sample).accepts d then (x.count sample).accept else x.count sample

theorem Line.count_agrees {x : Line} {b : Bool} (h : x.level = .ofSample b) : x.count b = { x with agreement := 0 } :=
  if_pos ((x.level.agrees_iff b).2 h)

theorem Line.count_differs {x : Line} {b : Bool} (h : x.level ≠ .ofSample b) : x.count b =
    if x.candidate = b then { x with agreement := x.agreement + 1 } else { x with candidate := b, agreement := 1 } :=
  if_neg (fun ha => h ((x.level.agrees_iff b).1 ha))

/-- The debouncing of one line, by its cases (R127). -/
theorem Line.sampled_debounced (x : Line) (d : Nat) (b : Bool) : x.debounced d b (x.sampled d b) := by
  unfold Line.sampled
  refine ⟨fun h => ?_, fun h hc hn => ?_, fun h hc hn => ?_, fun h hc hn => ?_, fun h hc hn => ?_⟩
  · rw [Line.count_agrees h]; exact if_neg (by simp [Line.accepts])
  · rw [Line.count_differs h, if_pos hc]; exact if_neg (by simp [Line.accepts]; omega)
  · rw [Line.count_differs h, if_pos hc, if_pos (by simp [Line.accepts]; omega), Line.accept, hc]
  · rw [Line.count_differs h, if_neg hc]; exact if_neg (by simp [Line.accepts]; omega)
  · rw [Line.count_differs h, if_neg hc, if_pos (by simp [Line.accepts]; omega)]; rfl

/-! ### What an acceptance leaves of the lines -/

theorem State.fixedRise_rest (s : State) (n : LineId) : (s.fixedRise n).rest = s.rest := by
  cases n <;> simp [State.fixedRise]

theorem State.fixedFall_rest (s : State) (n : LineId) : (s.fixedFall n).rest = s.rest := by
  cases n <;> simp only [State.fixedFall] <;> (try split) <;> simp

/-- The lines agree but for pending edges and the capture record. -/
def Lines.sameLines (a b : Lines) : Prop := a.bindings = b.bindings ∧ ∀ m, a.line m = b.line m

/-- The capture record aside, an action leaves the monitor. -/
theorem State.boundAction_lines (s : State) (a : Action) (n : LineId) (falling : Bool) :
    (s.boundAction a n falling).lines.edges = s.lines.edges ∧ (s.boundAction a n falling).lines.sameLines s.lines := by
  have same : ∀ {t : State}, t.rest = s.rest → t.lines.edges = s.lines.edges ∧ t.lines.sameLines s.lines := fun h => by
    rw [State.lines_of_rest h]; exact ⟨rfl, rfl, fun _ => rfl⟩
  cases a
  case capture => exact ⟨rfl, rfl, fun m => by cases m <;> rfl⟩
  all_goals exact same (by simp [State.boundAction])

theorem State.boundEdge_lines (s : State) (n : LineId) (falling : Bool) :
    (s.boundEdge n falling).lines.sameLines s.lines ∧
    (s.boundEdge n falling).lines.edges = (if (s.lines.binding (bindingIndex n falling)).enable
      then s.lines.edges ||| (1#12 <<< bindingIndex n falling) else s.lines.edges) := by
  unfold State.boundEdge
  dsimp only
  split
  · next h =>
    obtain ⟨he, hb, hl⟩ := State.boundAction_lines (s.withLines { s.lines with
      edges := s.lines.edges ||| (1#12 <<< bindingIndex n falling) }) (s.lines.binding (bindingIndex n falling)).action n falling
    exact ⟨⟨hb, fun m => (hl m).trans (by cases m <;> rfl)⟩, he⟩
  · exact ⟨⟨rfl, fun _ => rfl⟩, rfl⟩

theorem State.rise_lines (s : State) (n : LineId) : (s.rise n).lines.sameLines s.lines := by
  have h := ((s.fixedRise n).boundEdge_lines n false).1
  rwa [State.lines_of_rest (s.fixedRise_rest n)] at h

theorem State.fall_lines (s : State) (n : LineId) : (s.fall n).lines.sameLines s.lines := by
  have h := ((s.fixedFall n).boundEdge_lines n true).1
  rwa [State.lines_of_rest (s.fixedFall_rest n)] at h

theorem State.accepted_lines (s : State) (n : LineId) (was : Level) (b : Bool) : (s.accepted n was b).lines.sameLines s.lines := by
  unfold State.accepted
  split
  · exact s.rise_lines n
  · exact s.fall_lines n
  · exact ⟨rfl, fun _ => rfl⟩
  · split
    · rw [State.lines_of_rest (s.lockedFalls_rest)]; exact ⟨rfl, fun _ => rfl⟩
    · exact ⟨rfl, fun _ => rfl⟩

theorem State.sampleLine_lines (s : State) (n : LineId) (b : Bool) :
    (s.sampleLine n b).lines.line n = (s.lines.line n).sampled s.limits.debounce b ∧
    ∀ m, m ≠ n → (s.sampleLine n b).lines.line m = s.lines.line m := by
  unfold State.sampleLine Line.sampled
  dsimp only
  split
  · have h := (State.accepted_lines (s.withLines (s.lines.setLine n ((s.lines.line n).count b).accept)) n (s.lines.line n).level b).2
    exact ⟨(h n).trans (Lines.line_setLine _ n _), fun m hm => (h m).trans (Lines.line_setLine_other hm _)⟩
  · exact ⟨Lines.line_setLine _ n _, fun m hm => Lines.line_setLine_other hm _⟩

/-- The lines in line order. -/
abbrev allLines : List LineId := [.lid, .locked, .bowl, .knob, .cutout, .spare]

/-- The samples of a list of lines, taken one after another. -/
def State.sampleLines (s : State) (levels : Byte) (ns : List LineId) : State :=
  ns.foldl (fun s n => s.sampleLine n (sampleOf levels n)) s

theorem State.levelsSample_eq (s : State) (levels : Byte) : s.levelsSample levels = s.sampleLines levels allLines := rfl

theorem State.sampleLine_limits (s : State) (n : LineId) (b : Bool) : (s.sampleLine n b).limits = s.limits :=
  (s.sampleLine_acts n b).within .limits (by decide)

theorem State.sampleLines_lines (levels : Byte) : ∀ (ns : List LineId), ns.Nodup → ∀ s : State,
    (∀ n ∈ ns, (s.sampleLines levels ns).lines.line n = (s.lines.line n).sampled s.limits.debounce (sampleOf levels n)) ∧
    ∀ m, m ∉ ns → (s.sampleLines levels ns).lines.line m = s.lines.line m
  | [], _, s => ⟨fun n hn => absurd hn (by simp), fun _ _ => rfl⟩
  | n :: ns, hnd, s => by
    obtain ⟨hn, hns⟩ := List.nodup_cons.1 hnd
    obtain ⟨h1, h2⟩ := s.sampleLine_lines n (sampleOf levels n)
    obtain ⟨k1, k2⟩ := State.sampleLines_lines levels ns hns (s.sampleLine n (sampleOf levels n))
    rw [State.sampleLine_limits] at k1
    have hstep : s.sampleLines levels (n :: ns) = (s.sampleLine n (sampleOf levels n)).sampleLines levels ns := rfl
    rw [hstep]
    refine ⟨fun m hm => ?_, fun m hm => ?_⟩
    · rcases List.mem_cons.1 hm with rfl | hm
      · exact (k2 m hn).trans h1
      · have hne : m ≠ n := fun he => hn (he ▸ hm)
        rw [k1 m hm, h2 m hne]
    · rw [List.mem_cons, not_or] at hm
      exact (k2 m hm.2).trans (h2 m hm.1)

/-! ### A frame that completes one acceptance alone -/

/-- The monitors differ in level, candidate and count of lines alone. -/
def Lines.sameRecords (a b : Lines) : Prop :=
  a.bindings = b.bindings ∧ a.edges = b.edges ∧ a.capture = b.capture ∧ a.captureOverrun = b.captureOverrun

theorem Lines.sameRecords.trans {a b c : Lines} (h : a.sameRecords b) (k : b.sameRecords c) : a.sameRecords c :=
  ⟨h.1.trans k.1, h.2.1.trans k.2.1, h.2.2.1.trans k.2.2.1, h.2.2.2.trans k.2.2.2⟩

theorem Lines.setLine_sameRecords (l : Lines) (n : LineId) (x : Line) : (l.setLine n x).sameRecords l := by
  cases n <;> exact ⟨rfl, rfl, rfl, rfl⟩

theorem Lines.sameRecords.binding {a b : Lines} (h : a.sameRecords b) (i : Nat) : a.binding i = b.binding i := by
  unfold Lines.binding; rw [h.1]

/-- Samples that agree with their lines clear counts and no more. -/
theorem State.sampleLines_agree (levels : Byte) : ∀ (ns : List LineId) (s : State),
    (∀ n ∈ ns, (s.lines.line n).level = .ofSample (sampleOf levels n)) →
    ∃ l : Lines, s.sampleLines levels ns = s.withLines l ∧ l.sameRecords s.lines ∧
      (∀ m, m ∉ ns → l.line m = s.lines.line m) ∧ ∀ m, (l.line m).level = (s.lines.line m).level
  | [], s, _ => ⟨s.lines, rfl, ⟨rfl, rfl, rfl, rfl⟩, fun _ _ => rfl, fun _ => rfl⟩
  | n :: ns, s, h => by
    have hn := Line.count_agrees (h n (List.mem_cons_self ..))
    have hlevel : ∀ m, ((s.lines.setLine n ((s.lines.line n).count (sampleOf levels n))).line m).level = (s.lines.line m).level := by
      intro m
      by_cases hm : m = n
      · subst hm; rw [Lines.line_setLine, hn]
      · rw [Lines.line_setLine_other hm]
    have hs : s.sampleLine n (sampleOf levels n) = s.withLines (s.lines.setLine n ((s.lines.line n).count (sampleOf levels n))) := by
      unfold State.sampleLine
      exact if_neg (by rw [hn]; simp [Line.accepts])
    obtain ⟨l, hl, hr, hm, hlv⟩ := State.sampleLines_agree levels ns (s.sampleLine n (sampleOf levels n)) (fun m hm => by
      rw [hs]; exact (hlevel m).trans (h m (List.mem_cons_of_mem _ hm)))
    rw [hs] at hl hr hm hlv
    have hstep : s.sampleLines levels (n :: ns) = (s.sampleLine n (sampleOf levels n)).sampleLines levels ns := rfl
    refine ⟨l, ?_, hr.trans (Lines.setLine_sameRecords _ n _), fun m hmn => ?_, fun m => (hlv m).trans (hlevel m)⟩
    · rw [hstep, hs, hl]; rfl
    · rw [List.mem_cons, not_or] at hmn
      exact (hm m hmn.2).trans (Lines.line_setLine_other hmn.1 _)

theorem allLines_split (n : LineId) : ∃ pre post, allLines = pre ++ n :: post ∧ n ∉ pre ∧ n ∉ post := by
  cases n
  case lid => exact ⟨[], _, rfl, by decide, by decide⟩
  case locked => exact ⟨[.lid], _, rfl, by decide, by decide⟩
  case bowl => exact ⟨[.lid, .locked], _, rfl, by decide, by decide⟩
  case knob => exact ⟨[.lid, .locked, .bowl], _, rfl, by decide, by decide⟩
  case cutout => exact ⟨[.lid, .locked, .bowl, .knob], _, rfl, by decide, by decide⟩
  case spare => exact ⟨[.lid, .locked, .bowl, .knob, .cutout], _, rfl, by decide, by decide⟩

/-- A frame that completes the acceptance on line `n` alone: its edge, between two clearings of counts. -/
theorem State.levelsSample_onlyAccepts {s : State} {n : LineId} {levels : Byte} (h : s.onlyAccepts n levels) :
    ∃ l l' : Lines, l.sameRecords s.lines ∧
      s.levelsSample levels = ((s.withLines l).accepted n (s.lines.line n).level (sampleOf levels n)).withLines l' ∧
      l'.sameRecords ((s.withLines l).accepted n (s.lines.line n).level (sampleOf levels n)).lines := by
  obtain ⟨⟨hne, hcand, hcount⟩, hothers⟩ := h
  obtain ⟨pre, post, hall, hpre, hpost⟩ := allLines_split n
  obtain ⟨l1, h1, hr1, hm1, hlv1⟩ := State.sampleLines_agree levels pre s (fun m hm => hothers m fun he => hpre (he ▸ hm))
  have hx : l1.line n = s.lines.line n := hm1 n hpre
  have hacc : ((s.lines.line n).count (sampleOf levels n)).accepts s.limits.debounce = true := by
    rw [Line.count_differs hne, if_pos hcand]; simp [Line.accepts]; omega
  have hs : (s.withLines l1).sampleLine n (sampleOf levels n) =
      (s.withLines (l1.setLine n ((s.lines.line n).count (sampleOf levels n)).accept)).accepted n (s.lines.line n).level
        (sampleOf levels n) := by
    rw [← hx]
    exact if_pos (by rw [← hx] at hacc; exact hacc)
  have hl := State.accepted_lines (s.withLines (l1.setLine n ((s.lines.line n).count (sampleOf levels n)).accept)) n
    (s.lines.line n).level (sampleOf levels n)
  obtain ⟨l2, h2, hr2, -, -⟩ := State.sampleLines_agree levels post ((s.withLines l1).sampleLine n (sampleOf levels n))
    (fun m hm => by
      have hmn : m ≠ n := fun he => hpost (he ▸ hm)
      rw [hs, hl.2 m]
      exact ((congrArg Line.level (Lines.line_setLine_other hmn _)).trans (hlv1 m)).trans (hothers m hmn))
  rw [hs] at h2 hr2
  refine ⟨l1.setLine n ((s.lines.line n).count (sampleOf levels n)).accept, l2, (Lines.setLine_sameRecords _ n _).trans hr1, ?_, hr2⟩
  rw [State.levelsSample_eq, hall]
  unfold State.sampleLines at h1 h2 ⊢
  rw [List.foldl_append, List.foldl_cons, h1, hs, h2]

end Sys2Proof.Machine

namespace Sys2Proof.Proofs
open Sys2Proof.Machine

/-- Settles O29: each line's own sample, and the frame of a LEVELS arrival. -/
theorem levelsDebounce : Obligations.LevelsDebounce := by
  intro s seq levels hs hr _
  have hrow := exec_sample (seq := seq) (x := .levels levels) (c := .levelsArrival seq levels) rfl hs hr
  have w : Within (framePartsOf .levels (.levels :: edgeParts)) s (s.takeFrame seq (.levels levels)) :=
    (s.takeFrame_acts seq (.levels levels)).within
  have hu : Within (.block :: .pendingSet :: returnParts) s ((s.checkSequence seq).streamArrival .levels) :=
    Within.andThen (.first (s.checkSequence_within seq) (by decide)) (State.streamArrival_within _ .levels) (by decide)
  have hlines : ((s.checkSequence seq).streamArrival .levels).lines = s.lines := hu .lines (by decide)
  have hlimits : ((s.checkSequence seq).streamArrival .levels).limits = s.limits := hu .limits (by decide)
  have hline := (State.sampleLines_lines levels allLines (by decide) ((s.checkSequence seq).streamArrival .levels)).1
  rw [hlines, hlimits] at hline
  have htemp := w .linTables (by decide)
  refine ⟨_, hrow, fun n => ?_, ?_⟩
  · rw [State.picks_lines]
    have hframe : s.takeFrame seq (.levels levels) = ((s.checkSequence seq).streamArrival .levels).levelsSample levels := rfl
    rw [hframe, State.levelsSample_eq, hline n (by cases n <;> decide)]
    exact Line.sampled_debounced _ _ _
  · simp only [State.picks_lines, State.picks_steps, State.picks_patterns, State.picks_cal, State.picks_limits,
      State.picks_base, State.picks_food, State.picks_board, State.picks_sched, State.picks_pending]
    exact ⟨w .bindings (by decide), w .steps (by decide), w .patterns (by decide), w .cal (by decide),
      w .limits (by decide), htemp.1, htemp.2.1, htemp.2.2, w .sched (by decide), w .pending (by decide)⟩

end Sys2Proof.Proofs
end

