-- ==== Sys2Proof/Proofs/EdgeRows.lean ====
section
/-! The edges of a LEVELS frame: the fixed actions of LID, BOWL, CUTOUT and LOCKED. -/

namespace Sys2Proof.Machine

/-! ### The edge of a frame that accepts on one line -/

/-- The state in which the edge of a LEVELS arrival acts: `s` with the intake and the lines' counts of the arrival. -/
def State.edgeAt (s : State) (i : Intake) (l : Lines) : State := (s.withIntake i).withLines l

theorem exec_edge {s : State} {seq levels : Byte} {n : LineId} (hs : s.calm) (hq : s.senses seq)
    (hk : s.intake.levels.live = true ∨ s.engine.state ≠ .held) (h : s.onlyAccepts n levels) :
    ∃ i l l', l.sameRecords s.lines ∧
      exec (.levelsArrival seq levels) s = .next
        (((s.edgeAt i l).accepted n (s.lines.line n).level (sampleOf levels n)).withLines l').picks ∧
      l'.sameRecords ((s.edgeAt i l).accepted n (s.lines.line n).level (sampleOf levels n)).lines := by
  obtain ⟨l, l', hl, he, hl'⟩ := State.levelsSample_onlyAccepts (s := s.seen .levels seq) (n := n) (levels := levels) h
  exact ⟨_, l, l', hl, (exec_seen (x := .levels levels) rfl hs hq (hk.imp_right fun h => ⟨StreamId.noConfusion, h⟩)).trans
    (congrArg (fun u : State => Host.Outcome.next u.picks) he), hl'⟩

theorem State.boundEdge_off {s : State} {n : LineId} {falling : Bool}
    (h : (s.lines.binding (bindingIndex n falling)).enable = false) : s.boundEdge n falling = s := if_neg (by simp [h])

theorem State.accepted_true (s : State) (n : LineId) (was : Level) : s.accepted n was true = s.rise n := by cases was <;> rfl

theorem State.accepted_rise_off {s : State} (hoff : ∀ i, (s.lines.binding i).enable = false) (n : LineId) (was : Level) :
    s.accepted n was true = s.fixedRise n := by
  rw [State.accepted_true, State.rise]
  exact State.boundEdge_off (by rw [State.lines_of_rest (s.fixedRise_rest n)]; exact hoff _)

theorem State.accepted_fall_off {s : State} (hoff : ∀ i, (s.lines.binding i).enable = false) (n : LineId) :
    s.accepted n .high false = s.fixedFall n :=
  State.boundEdge_off (by rw [State.lines_of_rest (s.fixedFall_rest n)]; exact hoff _)

/-- A rising edge with the bindings off. -/
theorem exec_rise {s : State} {seq levels : Byte} {n : LineId} (hs : s.calm) (hq : s.senses seq)
    (hk : s.intake.levels.live = true ∨ s.engine.state ≠ .held) (hoff : ∀ i, (s.lines.binding i).enable = false)
    (h : s.onlyAccepts n levels) (hb : sampleOf levels n = true) :
    ∃ i l l', exec (.levelsArrival seq levels) s = .next (((s.edgeAt i l).fixedRise n).withLines l').picks := by
  obtain ⟨i, l, l', hl, hrow, -⟩ := exec_edge hs hq hk h
  rw [hb, State.accepted_rise_off (s := s.edgeAt i l) (fun j => by rw [← hoff j]; exact congrArg Binding.enable (hl.binding j))] at hrow
  exact ⟨i, l, l', hrow⟩

/-- A falling edge with the bindings off. -/
theorem exec_fall {s : State} {seq levels : Byte} {n : LineId} (hs : s.calm) (hq : s.senses seq)
    (hk : s.intake.levels.live = true ∨ s.engine.state ≠ .held) (hoff : ∀ i, (s.lines.binding i).enable = false)
    (h : s.onlyAccepts n levels) (hb : sampleOf levels n = false) (hw : (s.lines.line n).level = .high) :
    ∃ i l l', exec (.levelsArrival seq levels) s = .next (((s.edgeAt i l).fixedFall n).withLines l').picks := by
  obtain ⟨i, l, l', hl, hrow, -⟩ := exec_edge hs hq hk h
  rw [hb, hw, State.accepted_fall_off (s := s.edgeAt i l)
    (fun j => by rw [← hoff j]; exact congrArg Binding.enable (hl.binding j))] at hrow
  exact ⟨i, l, l', hrow⟩

/-- A line that accepts 0 was at 1 or unknown. -/
theorem State.onlyAccepts.was {s : State} {n : LineId} {levels : Byte} (h : s.onlyAccepts n levels)
    (hb : sampleOf levels n = false) : (s.lines.line n).level = .high ∨ (s.lines.line n).level = .unknown := by
  have hne := h.1.1
  rw [hb] at hne
  cases hl : (s.lines.line n).level
  case low => exact absurd hl hne
  case high => exact .inl rfl
  case unknown => exact .inr rfl

/-! ### Holds by an edge -/

/-- The hold that an edge enters saves the step of the state before it. -/
theorem State.edgeAt_enterHold {s : State} {slot : Nat} {free : List Nat} (i : Intake) (l l' : Lines) {r : Holds}
    (hfree : s.pool.free = slot :: free) (hg : r.gentle = false) :
    let t := (((s.edgeAt i l).enterHold r).withLines l').picks
    t.engine = { s.engine.noStep with state := .held, holds := r } ∧
    t.pool = { free := free, chain := (slot, .held (s.suspendRecord r)) :: s.pool.chain, depth := s.pool.depth } ∧
    t.reg.target = 0 ∧ t.stir.commanded = 0 ∧ t.lock.standing = .release ∧ t.report.isPending .held = true := by
  have hp : (s.edgeAt i l).pool.save (.held (s.suspendRecord r)) =
      { free := free, chain := (slot, .held (s.suspendRecord r)) :: s.pool.chain, depth := s.pool.depth } := by
    simp [Pool.save, State.edgeAt, hfree]
  have he := State.enterHold_of_safe (s := s.edgeAt i l) (r := r) (.inl hg)
  have ht : ((s.edgeAt i l).heldWith r).heldTarget = 0 := by
    rw [State.heldTarget_eq]
    exact if_neg (by rw [show ((s.edgeAt i l).heldWith r).engine.holds = r from rfl, hg]; decide)
  dsimp only
  rw [he]
  simp only [State.picks_engine, State.picks_pool, State.picks_reg, State.picks_stir, State.picks_lock, State.picks_isPending,
    State.withLines_engine, State.withLines_pool, State.withLines_reg, State.withLines_stir, State.withLines_lock,
    State.withLines_report, State.heldSet_engine, State.heldSet_pool, State.heldSet_reg, State.heldSet_stir,
    State.heldSet_report, State.heldSet_standing]
  exact ⟨rfl, hp, ht, rfl, trivial, State.raise_isPending _ _⟩

/-- In HELD a set of reasons that lets no heat through. -/
theorem State.addHold_strict {s : State} {r h : Holds} (hs : s.engine.state = .held) (hh : h = s.engine.holds.union r)
    (hg : h.gentle = false) : (s.addHold r).engine = { s.engine with holds := h } ∧ (s.addHold r).pool = s.pool ∧
      (s.addHold r).report = s.report ∧ (h ≠ s.engine.holds → (s.addHold r).reg.target = 0 ∧
        (s.addHold r).stir.commanded = 0 ∧ (s.addHold r).lock.standing = .release) ∧
      (h = s.engine.holds → (s.addHold r).reg = s.reg) := by
  rw [State.addHold_held hs, ← hh]
  by_cases he : h = s.engine.holds
  · rw [if_pos he]
    exact ⟨by rw [he], rfl, rfl, fun hn => absurd he hn, fun _ => rfl⟩
  · rw [if_neg he, State.heldOutputs_of_safe (s := s.withEngine { s.engine with holds := h }) (.inl hg)]
    refine ⟨State.heldSet_engine _, State.heldSet_pool _, State.heldSet_report _, fun _ => ⟨?_, ?_, rfl⟩, fun h' => absurd h' he⟩
    · rw [State.heldSet_reg, State.heldTarget_eq]
      exact if_neg (by rw [show (s.withEngine { s.engine with holds := h }).engine.holds = h from rfl, hg]; decide)
    · rw [State.heldSet_stir]; rfl

/-- In HELD the removal of a reason that leaves another. -/
theorem State.keepHolds_fields {s : State} {h : Holds} (hs : s.engine.state = .held) (h0 : h ≠ .empty)
    (hf : s.food.faulted = false) : (s.keepHolds h).engine = { s.engine with holds := h } ∧ (s.keepHolds h).pool = s.pool ∧
      (s.keepHolds h).report = s.report ∧ (h = s.engine.holds → (s.keepHolds h).reg = s.reg) ∧
      (h ≠ s.engine.holds → (s.keepHolds h).reg.target = if h.gentle then min s.limits.keepWarm
        (if s.pool.heldRecord.isSome then s.engine.clampedTarget else s.engine.previousTarget) else 0) := by
  by_cases he : h = s.engine.holds
  · rw [State.keepHolds_same he]
    exact ⟨by rw [he], rfl, rfl, fun _ => rfl, fun hn => absurd he hn⟩
  · rw [State.keepHolds_rest_reason hs he h0,
      State.heldOutputs_of_safe (s := s.withEngine { s.engine with holds := h }) (.inr hf)]
    exact ⟨State.heldSet_engine _, State.heldSet_pool _, State.heldSet_report _, fun h' => absurd h' he,
      fun _ => by rw [State.heldSet_reg]; rfl⟩

/-! ### The lock -/

theorem State.setLockState_lock (s : State) (x : LockState) : (s.setLockState x).lock = { s.lock with state := x } :=
  State.computeTarget_lock _

theorem State.lockMadeEngaged_lock (s : State) (w : Bool) : (s.lockMadeEngaged w).lock.state = .engaged ∧
    (s.lockMadeEngaged w).lock.latch = .engage ∧ (s.lockMadeEngaged w).lock.releaseWait = w := by
  unfold State.lockMadeEngaged
  dsimp only
  rw [State.setLockState_lock]
  exact ⟨rfl, State.setLatch_latch _ _, rfl⟩

theorem State.lockEngaged_lock (s : State) (w : Bool) : (s.lockEngaged w).lock = (s.lockMadeEngaged w).lock := by
  rw [State.lockEngaged_eq]
  split
  · exact State.enterActive_lock _
  · rfl

theorem State.lockReleased_lock (s : State) : s.lockReleased.lock.state = .released ∧ s.lockReleased.lock.latch = .rest ∧
    s.lockReleased.lock.releaseWait = false := by
  unfold State.lockReleased
  dsimp only
  rw [State.setLockState_lock]
  exact ⟨rfl, State.setLatch_latch _ _, rfl⟩

/-- The lock becoming ENGAGED ends an ENTRY phase. -/
theorem State.lockEngaged_enters {s : State} (h : s.inEntry = true) (w : Bool) :
    (s.lockEngaged w).engine.state = .running ∧ (s.lockEngaged w).engine.phase = .active := by
  have hm := s.lockMadeEngaged_moves w
  have hr : s.engine.state = .running := by simp_all [State.inEntry]
  rw [State.lockEngaged_eq, hm.inEntry, if_pos h, State.enterActive_engine]
  unfold State.activeEngine
  rw [hm.engine]
  split <;> exact ⟨hr, rfl⟩

theorem State.lockEngaged_pool (s : State) (w : Bool) : (s.lockEngaged w).pool = s.pool :=
  s.lockEngaged_within w .pool (by decide)

end Sys2Proof.Machine

namespace Sys2Proof.Proofs
open Sys2Proof.Machine

/-- Settles O32: the LOCKED line by the lock's state. -/
theorem lockedLine : Obligations.LockedLine := by
  intro s seq levels hs hq hk hd hoff hn
  refine ⟨fun hb hst => ?_, fun hb hst hrel => ?_, fun hb hw hst hrel => ?_, fun hb hw hst hno => ?_, fun hb hw hst ha hneed => ?_⟩
  · obtain ⟨i, l, l', hrow⟩ := exec_rise hs hq hk hoff hn hb
    have hr : (s.edgeAt i l).fixedRise .locked = (s.edgeAt i l).lockEngaged (decide (s.lock.standing = .release)) := by
      change State.lockedRises _ = _
      unfold State.lockedRises
      rw [show (s.edgeAt i l).lock = s.lock from rfl]
      rcases hst with h | h | h <;> rw [h] <;> rfl
    have hlock := State.lockEngaged_lock (s.edgeAt i l) (decide (s.lock.standing = .release))
    obtain ⟨h1, h2, h3⟩ := State.lockMadeEngaged_lock (s.edgeAt i l) (decide (s.lock.standing = .release))
    rw [← hlock] at h1 h2 h3
    rw [hr] at hrow
    refine ⟨_, hrow, ?_⟩
    simp only [State.picks_lock, State.picks_engine, State.picks_pool, State.withLines_lock, State.withLines_engine, State.withLines_pool]
    exact ⟨h1, h2, fun he => State.lockEngaged_enters (s := s.edgeAt i l) he _,
      fun he => ⟨(State.lockEngaged_moves (s := s.edgeAt i l) he _).engine, h3⟩, State.lockEngaged_pool _ _⟩
  · obtain ⟨i, l, l', hl, hrow, -⟩ := exec_edge hs hq hk hn
    have hlock : (s.edgeAt i l).lock = s.lock := rfl
    have hf : (s.edgeAt i l).lockedFalls = ((s.edgeAt i l).withLock { s.lock with releaseWait := false }).setLockState .released := by
      unfold State.lockedFalls
      rw [hlock, hst]
      dsimp only
      rw [if_neg]
      rw [State.setLockState_lock]
      change ¬ s.lock.standing = _
      rw [hrel]; decide
    have hacc : (s.edgeAt i l).accepted .locked (s.lines.line .locked).level (sampleOf levels .locked) =
        (s.edgeAt i l).lockedFalls := by
      rw [hb]
      rcases hn.was hb with hw | hw <;> rw [hw]
      · exact State.accepted_fall_off (fun j => by rw [← hoff j]; exact congrArg Binding.enable (hl.binding j)) _
      · rfl
    rw [hacc, hf] at hrow
    refine ⟨_, hrow, ?_⟩
    have k := State.setLockState_moves ((s.edgeAt i l).withLock { s.lock with releaseWait := false }) .released
    simp only [State.picks_lock, State.picks_engine, State.picks_pool, State.withLines_lock, State.withLines_engine, State.withLines_pool]
    rw [State.setLockState_lock]
    exact ⟨rfl, rfl, k.engine, k.pool⟩
  · obtain ⟨i, l, l', hrow⟩ := exec_fall hs hq hk hoff hn hb hw
    obtain ⟨h1, h2, h3⟩ := State.lockReleased_lock (s.edgeAt i l)
    have k := State.lockReleased_moves (s.edgeAt i l)
    have hf : (s.edgeAt i l).fixedFall .locked = (s.edgeAt i l).lockReleased := by
      change State.lockedFalls _ = _
      unfold State.lockedFalls
      rw [show (s.edgeAt i l).lock = s.lock from rfl, hst]
      dsimp only
      unfold State.releaseCompleted
      dsimp only
      rw [if_neg]
      rw [k.standing]
      change ¬ s.lock.standing = _
      rw [hrel]; decide
    rw [hf] at hrow
    refine ⟨_, hrow, ?_⟩
    simp only [State.picks_lock, State.picks_engine, State.picks_pool, State.withLines_lock, State.withLines_engine, State.withLines_pool]
    exact ⟨h1, h2, h3, k.engine, k.pool⟩
  · obtain ⟨i, l, l', hrow⟩ := exec_fall hs hq hk hoff hn hb hw
    obtain ⟨h1, h2, -⟩ := State.lockReleased_lock (s.edgeAt i l)
    have hf : (s.edgeAt i l).fixedFall .locked = (s.edgeAt i l).lockReleased := by
      change State.lockedFalls _ = _
      unfold State.lockedFalls
      rw [show (s.edgeAt i l).lock = s.lock from rfl, hst]
      exact if_neg (show ¬ (s.active && s.engine.lockNeed) = true by rcases hno with h | h <;> simp [h])
    rw [hf] at hrow
    refine ⟨_, hrow, ?_⟩
    simp only [State.picks_lock, State.picks_engine, State.withLines_lock, State.withLines_engine]
    exact ⟨h1, h2, (State.lockReleased_moves (s.edgeAt i l)).engine⟩
  · obtain ⟨i, l, l', hrow⟩ := exec_fall hs hq hk hoff hn hb hw
    have k := State.lockReleased_moves (s.edgeAt i l)
    have hf : (s.edgeAt i l).fixedFall .locked = (s.edgeAt i l).lockReleased.raiseFault .lockLost := by
      change State.lockedFalls _ = _
      unfold State.lockedFalls
      rw [show (s.edgeAt i l).lock = s.lock from rfl, hst]
      exact if_pos (Bool.and_eq_true_iff.2 ⟨ha, hneed⟩)
    rw [hf] at hrow
    refine ⟨_, hrow, ?_, ?_⟩
    · have hfw := State.faultedWith_of (s := s) (u := (s.edgeAt i l).lockReleased)
        (by rw [k.engine, show (s.edgeAt i l).engine.state = .running from State.running_of_active ha]; decide)
        (by rw [k.engine]; rfl) k.pool .lockLost
      exact State.faultedWith.picks (t := State.withLines _ l') hfw
    · rw [State.picks_lock]
      exact (State.raiseFault_lock _ _).1.trans (State.lockReleased_lock _).1

end Sys2Proof.Proofs
end

