-- ==== Sys2Proof/Proofs/FixedRows.lean ====
section
/-! The edges of LID, BOWL and CUTOUT: the reasons they add and remove, the breach and the trip. -/

namespace Sys2Proof.Machine

/-- A set with a reason of LID, BOWL, MAINS or SENSOR lets no heat through (R35). -/
theorem Holds.gentle_iff (h : Holds) :
    h.gentle = true ↔ h.lid = false ∧ h.bowl = false ∧ h.mains = false ∧ h.sensor = false := by
  cases h; simp [Holds.gentle, and_assoc]

theorem Holds.not_gentle_of {h : Holds} (k : h.lid = true ∨ h.bowl = true ∨ h.mains = true ∨ h.sensor = true) :
    h.gentle = false := by
  rw [Bool.eq_false_iff, Ne, Holds.gentle_iff]
  rcases k with k | k | k | k <;> simp [k]

/-- A row whose edge adds reasons in HELD. -/
theorem State.addHold_strict_row {s : State} {i : Intake} {l l' : Lines} {r h : Holds} (hs : s.engine.state = .held)
    (hh : h = s.engine.holds.union r) (hg : h.gentle = false) :
    let t := (((s.edgeAt i l).addHold r).withLines l').picks
    t.engine = { s.engine with holds := h } ∧ t.pool = s.pool ∧ t.report.pendingSet = s.report.pendingSet ∧
      (h ≠ s.engine.holds → t.reg.target = 0 ∧ t.stir.commanded = 0 ∧ t.lock.standing = .release) ∧
      (h = s.engine.holds → t.reg = s.reg) := by
  obtain ⟨he, hp, hr, hn, hsame⟩ := State.addHold_strict (s := s.edgeAt i l) hs hh hg
  dsimp only
  simp only [State.picks_engine, State.picks_pool, State.picks_report_pendingSet, State.picks_reg, State.picks_stir, State.picks_lock,
    State.withLines_engine, State.withLines_pool, State.withLines_report, State.withLines_reg, State.withLines_stir,
    State.withLines_lock]
  exact ⟨he, hp, congrArg Report.pendingSet hr, hn, hsame⟩

/-- A row whose edge removes a reason in HELD and leaves another. -/
theorem State.keepHolds_row {s : State} {i : Intake} {l l' : Lines} {h : Holds} (hs : s.engine.state = .held)
    (h0 : h ≠ .empty) (hf : s.food.faulted = false) :
    let t := (((s.edgeAt i l).keepHolds h).withLines l').picks
    t.engine = { s.engine with holds := h } ∧ t.pool = s.pool ∧ t.report.pendingSet = s.report.pendingSet ∧
      (h = s.engine.holds → t.reg = s.reg) ∧
      (h ≠ s.engine.holds → (h.lid = true ∨ h.bowl = true ∨ h.mains = true ∨ h.sensor = true) → t.reg.target = 0) ∧
      (h ≠ s.engine.holds → h.lid = false → h.bowl = false → h.mains = false → h.sensor = false →
        t.reg.target = min s.limits.keepWarm
          (if s.pool.heldRecord.isSome then s.engine.clampedTarget else s.engine.previousTarget)) := by
  obtain ⟨he, hp, hr, hsame, hn⟩ := State.keepHolds_fields (s := s.edgeAt i l) hs h0 hf
  dsimp only
  simp only [State.picks_engine, State.picks_pool, State.picks_report_pendingSet, State.picks_reg, State.withLines_engine,
    State.withLines_pool, State.withLines_report, State.withLines_reg]
  refine ⟨he, hp, congrArg Report.pendingSet hr, hsame, fun hne hcause => ?_, fun hne h1 h2 h3 h4 => ?_⟩
  · exact (hn hne).trans (if_neg (by rw [Holds.not_gentle_of hcause]; decide))
  · exact (hn hne).trans (if_pos (h.gentle_iff.2 ⟨h1, h2, h3, h4⟩))

end Sys2Proof.Machine

namespace Sys2Proof.Proofs
open Sys2Proof.Machine

/-- Settles O30: the fixed actions of LID, BOWL and CUTOUT. -/
theorem lineEdgeActions : Obligations.LineEdgeActions := by
  intro s seq levels slot free hs hq hk hd hoff
  refine ⟨fun hn hb hw hl hr hfree => ?_, fun hn hb hw hr hfree => ?_, fun hn hb hw hl hr => ?_, fun hn hb hr => ?_,
    fun n h hcase hn hb hw hst => ?_, fun n h hcase hn hb hst h0 hf => ?_, fun n hcase hn hb hl hst => ?_⟩
  · obtain ⟨i, l, l', hrow⟩ := exec_fall hs hq hk hoff hn hb hw
    have hf : (s.edgeAt i l).fixedFall .lid = (s.edgeAt i l).enterHold .lidPause :=
      (if_neg hl).trans (State.addHold_running (s := s.edgeAt i l) hr _)
    rw [hf] at hrow
    obtain ⟨he, hp, hrest⟩ := s.edgeAt_enterHold i l l' (r := .lidPause) hfree rfl
    exact ⟨_, hrow, by rw [he], by rw [he]; rfl, by rw [he]; rfl, by rw [he]; rfl, hp, hrest⟩
  · obtain ⟨i, l, l', hrow⟩ := exec_fall hs hq hk hoff hn hb hw
    have hf : (s.edgeAt i l).fixedFall .bowl = (s.edgeAt i l).enterHold .bowlPause := State.addHold_running (s := s.edgeAt i l) hr _
    rw [hf] at hrow
    obtain ⟨he, hp, hrest⟩ := s.edgeAt_enterHold i l l' (r := .bowlPause) hfree rfl
    exact ⟨_, hrow, by rw [he], by rw [he]; rfl, hp, hrest⟩
  · obtain ⟨i, l, l', hrow⟩ := exec_fall hs hq hk hoff hn hb hw
    have hf : (s.edgeAt i l).fixedFall .lid = (s.edgeAt i l).raiseFault .lockBreach := if_pos hl
    rw [hf] at hrow
    refine ⟨_, hrow, State.faultedWith.picks (t := State.withLines _ l')
      (State.faultedWith_of (s := s) (u := s.edgeAt i l) hr rfl rfl .lockBreach), ?_⟩
    rw [State.picks_lock]
    exact (State.raiseFault_lock _ _).1.trans hl
  · obtain ⟨i, l, l', hrow⟩ := exec_rise hs hq hk hoff hn hb
    exact ⟨_, hrow, State.faultedWith.picks (t := State.withLines _ l')
      (State.faultedWith_of (s := s) (u := s.edgeAt i l) hr rfl rfl .cutout)⟩
  · obtain ⟨i, l, l', hrow⟩ := exec_fall hs hq hk hoff hn hb hw
    rcases hcase with ⟨rfl, hh, hl⟩ | ⟨rfl, hh⟩
    · rw [show (s.edgeAt i l).fixedFall .lid = (s.edgeAt i l).addHold .lidPause from if_neg hl] at hrow
      exact ⟨_, hrow, State.addHold_strict_row hst (by rw [hh]; simp [Holds.union, Holds.lidPause, Holds.empty])
        (Holds.not_gentle_of (.inl (by rw [hh])))⟩
    · exact ⟨_, hrow, State.addHold_strict_row (r := .bowlPause) hst
        (by rw [hh]; simp [Holds.union, Holds.bowlPause, Holds.empty]) (Holds.not_gentle_of (.inr (.inl (by rw [hh]))))⟩
  · obtain ⟨i, l, l', hrow⟩ := exec_rise hs hq hk hoff hn hb
    rcases hcase with ⟨rfl, hh⟩ | ⟨rfl, hh⟩ <;>
      exact ⟨_, hrow.trans (by rw [hh]; rfl), State.keepHolds_row (i := i) (l := l) (l' := l') hst h0 hf⟩
  · have hother : ∀ i l r, (s.edgeAt i l).addHold r = s.edgeAt i l := fun i l r =>
      State.addHold_other (s := s.edgeAt i l) (by rcases hst with h | h <;> simp [State.edgeAt, h])
        (by rcases hst with h | h <;> simp [State.edgeAt, h]) r
    obtain ⟨i, l, l', hl', hrow, -⟩ := exec_edge hs hq hk hn
    have hacc : (s.edgeAt i l).accepted n (s.lines.line n).level (sampleOf levels n) = s.edgeAt i l := by
      rw [hb]
      rcases hn.was hb with hw | hw <;> rw [hw]
      · rw [State.accepted_fall_off (fun j => by rw [← hoff j]; exact congrArg Binding.enable (hl'.binding j))]
        rcases hcase with rfl | rfl
        · exact (if_neg hl).trans (hother i l _)
        · exact hother i l _
      · rcases hcase with rfl | rfl <;> rfl
    rw [hacc] at hrow
    refine ⟨_, hrow, ?_⟩
    simp only [State.picks_engine, State.picks_pool, State.picks_reg, State.picks_stir, State.picks_lock]
    exact ⟨rfl, rfl, rfl, rfl, rfl⟩

end Sys2Proof.Proofs
end

