-- ==== Sys2Proof/Proofs/BoundRows.lean ====
section
/-! The bound actions of an edge, and the resume of a started step that needs no lock. -/

namespace Sys2Proof.Machine

/-! ### The resume of a started step that needs no lock -/

/-- A step that needs no lock, before its ACTIVE entry. -/
def State.unlocked (s : State) : State := (s.withEngine { s.engine with lockNeed := false }).lockRequest .release

@[simp] theorem State.unlocked_engine (s : State) : s.unlocked.engine = { s.engine with lockNeed := false } :=
  State.lockRequest_engine _ _
@[simp] theorem State.unlocked_pool (s : State) : s.unlocked.pool = s.pool := State.lockRequest_pool _ _
@[simp] theorem State.unlocked_weigh (s : State) : s.unlocked.weigh = s.weigh := State.lockRequest_weigh _ _
@[simp] theorem State.unlocked_reg (s : State) : s.unlocked.reg = s.reg := State.lockRequest_reg _ _
@[simp] theorem State.unlocked_standing (s : State) : s.unlocked.lock.standing = .release := State.lockRequest_standing _ _
@[simp] theorem State.unlocked_stir (s : State) : s.unlocked.stir = s.stir := rfl
@[simp] theorem State.unlocked_report (s : State) : s.unlocked.report = s.report := rfl

/-- What ACTIVE entry keeps of the engine. -/
theorem State.activeEngine_fields (s : State) : s.activeEngine.state = s.engine.state ∧ s.activeEngine.phase = .active ∧
    s.activeEngine.holds = s.engine.holds ∧ s.activeEngine.index = s.engine.index ∧ s.activeEngine.elapsed = s.engine.elapsed ∧
    s.activeEngine.limitElapsed = s.engine.limitElapsed := by
  unfold State.activeEngine
  split <;> exact ⟨rfl, rfl, rfl, rfl, rfl, rfl⟩

theorem State.resume_unlocked {s : State} {slot : Nat} {h : HeldRecord} {rest : List (Nat × Context)}
    (hc : s.pool.chain = (slot, .held h) :: rest) (hf : s.food.faulted = false)
    (hl : s.lockNeeded (s.step h.index) = false) : s.resume = (s.restored h).unlocked.enterActive :=
  (State.resume_started hc hf).trans (State.decideEntry_unlocked (s := s.restored h) hl)

theorem Pool.restore_cons {p : Pool} {slot : Nat} {c : Context} {rest : List (Nat × Context)} (h : p.chain = (slot, c) :: rest) :
    p.restore = { p with free := slot :: p.free, chain := rest } := by
  unfold Pool.restore; rw [h]

/-- RESUME of a started step that needs no lock, PAUSE the sole reason. -/
theorem State.unpause_unlocked {s : State} {slot : Nat} {h : HeldRecord} {rest : List (Nat × Context)}
    (hs : s.engine.state = .held) (hh : s.engine.holds = .pauseOnly) (hc : s.pool.chain = (slot, .held h) :: rest)
    (hf : s.food.faulted = false) (hl : s.lockNeeded (s.step h.index) = false) :
    s.unpause = ((s.withEngine { s.engine with holds := .empty }).restored h).unlocked.enterActive := by
  have he : s.engine.holds ≠ .empty := by rw [hh]; decide
  have hu : s.unpause = s.keepHolds .empty := if_pos (by simp [hs, hh])
  rw [hu, State.keepHolds_last hs he]
  exact State.resume_unlocked (s := s.withEngine { s.engine with holds := .empty }) hc hf hl

theorem State.unpause_refused {s : State} (h : s.engine.state ≠ .held ∨ s.engine.holds ≠ .pauseOnly) : s.unpause = s :=
  if_neg (by simp only [Bool.and_eq_true, decide_eq_true_eq, not_and_or]; exact h)

/-- What the resume of a started step that needs no lock restores (R46). -/
theorem State.restored_fields (s : State) {slot : Nat} {h : HeldRecord} {rest : List (Nat × Context)}
    (hc : s.pool.chain = (slot, .held h) :: rest) :
    let t := (s.restored h).unlocked.enterActive
    t.engine.state = .running ∧ t.engine.phase = .active ∧ t.engine.holds = s.engine.holds ∧ t.engine.index = h.index ∧
      t.engine.elapsed = h.elapsed ∧ t.engine.limitElapsed = h.limitElapsed ∧ t.weigh.addReference = h.addReference ∧
      t.reg.target = s.engine.clampedTarget ∧ t.reg.setpoint = h.setpoint ∧ t.reg.integrator = h.integrator ∧
      t.pool = { free := slot :: s.pool.free, chain := rest, depth := s.pool.depth } ∧ t.lock.standing = .release := by
  dsimp only
  rw [State.enterActive_engine, State.enterActive_weigh, State.enterActive_reg, State.enterActive_pool, State.enterActive_lock,
    State.unlocked_weigh, State.unlocked_reg, State.unlocked_pool, State.unlocked_standing]
  obtain ⟨h1, h2, h3, h4, h5, h6⟩ := (s.restored h).unlocked.activeEngine_fields
  rw [State.unlocked_engine] at h1 h3 h4 h5 h6
  exact ⟨h1, h2, h3, h4, h5, h6, rfl, rfl, rfl, rfl, Pool.restore_cons hc, rfl⟩

/-! ### The edge of a LEVELS frame and its binding -/

/-- The fixed action of an edge. -/
def State.fixedEdge (s : State) (n : LineId) (falling : Bool) : State := if falling then s.fixedFall n else s.fixedRise n

theorem State.accepted_edge (s : State) {n : LineId} {was : Level} {b falling : Bool} (hb : b = !falling)
    (hw : falling = true → was = .high) : s.accepted n was b = (s.fixedEdge n falling).boundEdge n falling := by
  subst hb
  cases falling with
  | false => exact State.accepted_true s n was
  | true => rw [hw rfl]; rfl

theorem State.fixedEdge_rest (s : State) (n : LineId) (falling : Bool) : (s.fixedEdge n falling).rest = s.rest := by
  cases falling
  · exact s.fixedRise_rest n
  · exact s.fixedFall_rest n

/-- KNOB and SPARE have no fixed action (R129). -/
theorem State.fixedEdge_free (s : State) {n : LineId} (h : n = .knob ∨ n = .spare) (falling : Bool) :
    s.fixedEdge n falling = s := by
  rcases h with rfl | rfl <;> cases falling <;> rfl

theorem State.boundEdge_enabled {s : State} {n : LineId} {falling : Bool} {a : Action}
    (h : s.lines.binding (bindingIndex n falling) = ⟨true, a⟩) : s.boundEdge n falling =
      (s.withLines { s.lines with edges := s.lines.edges ||| (1#12 <<< bindingIndex n falling) }).boundAction a n falling := by
  unfold State.boundEdge
  dsimp only
  rw [h]
  exact if_pos rfl

/-- The edge of KNOB or SPARE with an enabled binding: its index is pending, and its action is taken. -/
theorem exec_bound {s : State} {seq levels : Byte} {n : LineId} {falling : Bool} {a : Action} (hs : s.calm) (hq : s.senses seq)
    (hk : s.intake.levels.live = true ∨ s.engine.state ≠ .held) (h : s.onlyAccepts n levels)
    (hb : sampleOf levels n = !falling) (hw : falling = true → (s.lines.line n).level = .high)
    (hn : n = .knob ∨ n = .spare) (ha : s.lines.binding (bindingIndex n falling) = ⟨true, a⟩) :
    ∃ i l l', l.edges = s.lines.edges ||| (1#12 <<< bindingIndex n falling) ∧ l.capture = s.lines.capture ∧
      l.captureOverrun = s.lines.captureOverrun ∧
      exec (.levelsArrival seq levels) s = .next (((s.edgeAt i l).boundAction a n falling).withLines l').picks ∧
      l'.sameRecords ((s.edgeAt i l).boundAction a n falling).lines ∧ l'.edges = l.edges := by
  obtain ⟨i, l, l', hl, hrow, hl'⟩ := exec_edge hs hq hk h
  rw [State.accepted_edge _ hb hw, State.fixedEdge_free _ hn,
    State.boundEdge_enabled (s := s.edgeAt i l) (a := a) ((hl.binding _).trans ha)] at hrow hl'
  obtain ⟨-, hedges, hcapture, hoverrun⟩ := hl
  refine ⟨i, { l with edges := l.edges ||| (1#12 <<< bindingIndex n falling) }, l',
    congrArg (· ||| (1#12 <<< bindingIndex n falling)) hedges, hcapture, hoverrun, hrow, hl', hl'.2.1.trans ?_⟩
  exact (State.boundAction_lines _ a n falling).1

/-- A bound PAUSE holds a RUNNING engine. -/
theorem State.pause_running {s : State} (hs : s.engine.state = .running) (hf : s.food.faulted = false) :
    s.pause = (s.heldWith .pauseOnly).heldSet := by
  unfold State.pause
  rw [State.addHold_running hs, State.enterHold_of_safe (.inr hf)]

theorem State.endStepEdge_taken {s : State} (hs : s.engine.state = .running)
    (h : s.current.condition = some .user ∨ s.current.flags.userEnd = true) : s.endStepEdge = s.endStep .completed :=
  if_pos (by simp [hs, h])

theorem State.endStepEdge_ignored {s : State}
    (h : s.engine.state ≠ .running ∨ (s.current.condition ≠ some .user ∧ s.current.flags.userEnd = false)) :
    s.endStepEdge = s := by
  refine if_neg ?_
  rcases h with h | ⟨h1, h2⟩
  · simp [h]
  · simp [h1, h2]

/-- A step that ends before an END record takes the recipe to its end (R34, R47). -/
theorem State.endStep_finish {s : State} (o : StepOutcome) (hi : s.engine.index < 255)
    (hk : (s.step (s.engine.index + 1)).kind = .finish) : s.endStep o =
      ((((s.withEngine { s.engine.noStep with lastOutcome := some o }).clearStepSupervision).clearReference).withEngine
        { s.engine.noStep with lastOutcome := some o, index := s.engine.index + 1 }).enterEnding .completed :=
  State.startStep_finish
    (s := ((s.withEngine { s.engine.noStep with lastOutcome := some o }).clearStepSupervision).clearReference) (by omega) hk

@[simp] theorem State.takeCapture_engine (s : State) (n : LineId) (falling : Bool) :
    (s.takeCapture n falling).engine = s.engine := rfl

theorem State.takeCapture_lines (s : State) (n : LineId) (falling : Bool) : (s.takeCapture n falling).lines =
    { s.lines with captureOverrun := s.lines.captureOverrun || s.lines.capture.isSome, capture := some (s.captureNow n falling) } :=
  rfl

theorem State.takeCapture_pends (s : State) (n : LineId) (falling : Bool) :
    (s.takeCapture n falling).report.isPending .capture = true ∧
    ∀ m, s.report.isPending m = true → (s.takeCapture n falling).report.isPending m = true :=
  ⟨State.raise_isPending _ _, fun m h => Report.raise_mono _ _ m h⟩

theorem State.captureNow_eq (s : State) (n : LineId) (falling : Bool) : s.captureNow n falling =
    { line := n.number, falling := falling, net := s.weigh.net, stable := s.weigh.stable
      food := s.food.value.getD 0, foodFault := s.food.faulted, stepIndex := s.engine.index
      stepElapsed := ((s.reported.2.2.1 + 500) / 1000 : Nat) } := by
  rw [State.captureNow, seconds_eq]

/-- EDGE stays pending through what an edge asks of the engine. -/
theorem State.edge_kept {s u : State} {parts : List Part} (w : Within parts (s.raise .edge) u) (h : Part.notices ∉ parts)
    (l : Lines) : (u.withLines l).picks.report.isPending .edge = true := by
  rw [State.picks_isPending]
  exact w .notices h _ (State.raise_isPending _ _)

end Sys2Proof.Machine

namespace Sys2Proof.Proofs
open Sys2Proof.Machine

/-- Settles O31: the binding of an edge, and what it asks of the engine. -/
theorem boundEdges : Obligations.BoundEdges := by
  intro s seq levels n falling k hs hq hk hd hn hb hw hidx
  obtain rfl : k = bindingIndex n falling := hidx
  refine ⟨?_, fun hfree => ⟨fun hoff => ?_, fun ha => ?_, fun ha => ?_, fun ha => ?_, fun ha hrun hfood => ?_,
    fun ha => ⟨fun hno => ?_, fun slot r rest hst hh hc hf hl => ?_⟩, fun ha => ⟨fun hrun hcond => ?_, fun hno => ?_⟩⟩⟩
  · obtain ⟨i, l, l', hl, hrow, hl'⟩ := exec_edge hs hq hk hn
    obtain ⟨⟨hbind, -⟩, hedges⟩ := ((s.edgeAt i l).fixedEdge n falling).boundEdge_lines n falling
    rw [State.accepted_edge _ hb hw] at hrow hl'
    rw [State.lines_of_rest ((s.edgeAt i l).fixedEdge_rest n falling)] at hbind hedges
    have hbinding := hl.binding (bindingIndex n falling)
    obtain ⟨hb0, he0, -⟩ := hl
    obtain ⟨hb1, he1, -⟩ := hl'
    refine ⟨_, hrow, ?_, ?_⟩
    · rw [State.picks_lines]; exact hb1.trans (hbind.trans hb0)
    · rw [State.picks_lines]
      refine he1.trans (hedges.trans ?_)
      change (if (l.binding _).enable then l.edges ||| _ else l.edges) = _
      rw [hbinding, he0]
  · obtain ⟨i, l, l', hl, hrow, hl'⟩ := exec_edge hs hq hk hn
    rw [State.accepted_edge _ hb hw, State.fixedEdge_free _ hfree,
      State.boundEdge_off (by rw [← hoff]; exact congrArg Binding.enable (hl.binding _))] at hrow hl'
    obtain ⟨-, he1, hc1, -⟩ := hl'.trans hl
    refine ⟨_, hrow, ?_⟩
    rw [State.picks_engine, State.picks_lines, State.picks_report_pendingSet, State.picks_pool]
    exact ⟨rfl, he1, hc1, rfl, rfl⟩
  · obtain ⟨i, l, l', hl, -, -, hrow, -, hl'⟩ := exec_bound hs hq hk hn hb hw hfree ha
    refine ⟨_, hrow, ?_⟩
    rw [State.picks_engine, State.picks_lines, State.picks_report_pendingSet]
    exact ⟨rfl, hl'.trans hl, rfl⟩
  · obtain ⟨i, l, l', hl, -, -, hrow, -, hl'⟩ := exec_bound hs hq hk hn hb hw hfree ha
    refine ⟨_, hrow, ?_⟩
    rw [State.picks_engine, State.picks_lines, State.picks_report_pendingSet]
    exact ⟨rfl, hl'.trans hl, State.raise_pendingSet _ _⟩
  · obtain ⟨i, l, l', hl, hc, ho, hrow, hrec, hl'⟩ := exec_bound hs hq hk hn hb hw hfree ha
    rw [show (s.edgeAt i l).boundAction .capture n falling = ((s.edgeAt i l).raise .edge).takeCapture n falling from rfl]
      at hrow hrec
    obtain ⟨-, -, hcap, hover⟩ := hrec
    obtain ⟨hp, hmono⟩ := ((s.edgeAt i l).raise .edge).takeCapture_pends n falling
    rw [State.takeCapture_lines] at hcap hover
    refine ⟨_, hrow, ?_⟩
    rw [State.picks_engine, State.picks_lines, State.picks_isPending, State.picks_isPending, State.withLines_engine,
      State.withLines_lines, State.withLines_report, State.takeCapture_engine]
    refine ⟨rfl, hl'.trans hl, hover.trans ?_, hcap.trans ?_, hmono _ (State.raise_isPending _ _), hp⟩
    · change (l.captureOverrun || l.capture.isSome) = _
      rw [hc, ho]
    · exact congrArg some (State.captureNow_eq _ n falling)
  · obtain ⟨i, l, l', hl, -, -, hrow, -, hl'⟩ := exec_bound hs hq hk hn hb hw hfree ha
    have hp : ((s.edgeAt i l).raise .edge).pause = (((s.edgeAt i l).raise .edge).heldWith .pauseOnly).heldSet :=
      State.pause_running (s := (s.edgeAt i l).raise .edge) hrun hfood
    have he := (congrArg State.engine hp).trans (State.heldSet_engine _)
    exact ⟨_, hrow, by rw [State.picks_engine]; exact congrArg Engine.state he,
      by rw [State.picks_engine]; exact congrArg Engine.holds he, State.edge_kept (State.addHold_within _ _) (by decide) l'⟩
  · obtain ⟨i, l, l', hl, -, -, hrow, -, hl'⟩ := exec_bound hs hq hk hn hb hw hfree ha
    rw [show (s.edgeAt i l).boundAction .resume n falling = (s.edgeAt i l).raise .edge from
      State.unpause_refused (s := (s.edgeAt i l).raise .edge) hno] at hrow
    refine ⟨_, hrow, ?_⟩
    rw [State.picks_engine, State.picks_lines, State.picks_report_pendingSet, State.picks_pool]
    exact ⟨rfl, rfl, hl'.trans hl, State.raise_pendingSet _ _⟩
  · obtain ⟨i, l, l', -, -, -, hrow, -, -⟩ := exec_bound hs hq hk hn hb hw hfree ha
    have hu := State.unpause_unlocked (s := (s.edgeAt i l).raise .edge) hst hh hc hf hl
    have hfields := State.restored_fields (((s.edgeAt i l).raise .edge).withEngine { s.engine with holds := .empty }) hc
    have hedge := State.edge_kept (s := s.edgeAt i l) ((State.unpause_acts _).within) (by decide) l'
    rw [show (s.edgeAt i l).boundAction .resume n falling = _ from hu] at hrow
    rw [hu] at hedge
    refine ⟨_, hrow, ?_⟩
    rw [State.picks_engine, State.picks_weigh, State.picks_reg, State.picks_pool, State.picks_lock]
    obtain ⟨h1, h2, h3, h4, h5, h6, h7, h8, h9, h10, h11, h12⟩ := hfields
    exact ⟨h1, h2, h3, h4, h5, h6, h7, h8, h9, h10, h11, h12, hedge⟩
  · obtain ⟨i, l, l', hl, -, -, hrow, -, hl'⟩ := exec_bound hs hq hk hn hb hw hfree ha
    rw [show (s.edgeAt i l).boundAction .endStep n falling = ((s.edgeAt i l).raise .edge).endStep .completed from
      State.endStepEdge_taken (s := (s.edgeAt i l).raise .edge) hrun hcond] at hrow
    refine ⟨_, hrow, ?_, ?_, State.edge_kept (State.endStep_within _ _) (by decide) l', fun hi hfin => ?_⟩
    · rw [State.picks_engine]; exact (State.endStep_ends _ _).1
    · rw [State.picks_lines]; exact hl'.trans hl
    · rw [State.picks_engine]
      have he := State.endStep_finish (s := (s.edgeAt i l).raise .edge) .completed hi hfin
      obtain ⟨heng, -⟩ := State.enterEnding_fields ((((((s.edgeAt i l).raise .edge).withEngine
        { s.engine.noStep with lastOutcome := some .completed }).clearStepSupervision).clearReference).withEngine
          { s.engine.noStep with lastOutcome := some .completed, index := s.engine.index + 1 }) .completed
      have hend := (congrArg State.engine he).trans heng
      exact ⟨congrArg Engine.state hend, congrArg Engine.recipeOutcome hend⟩
  · obtain ⟨i, l, l', hl, -, -, hrow, -, hl'⟩ := exec_bound hs hq hk hn hb hw hfree ha
    rw [show (s.edgeAt i l).boundAction .endStep n falling = (s.edgeAt i l).raise .edge from
      State.endStepEdge_ignored (s := (s.edgeAt i l).raise .edge) hno] at hrow
    refine ⟨_, hrow, ?_⟩
    rw [State.picks_engine, State.picks_lines, State.picks_report_pendingSet, State.picks_pool]
    exact ⟨rfl, rfl, hl'.trans hl, State.raise_pendingSet _ _⟩

end Sys2Proof.Proofs
end

