-- ==== Sys2Proof/Proofs/CommandRows.lean ====
section
/-! DO STOP, CLEAR and EXTEND accepted, and a PAUSE with the RESUME that takes it back. -/

namespace Sys2Proof.Machine

/-! ### The pattern under a computation of the target -/

/-- The running pattern and where it stands. -/
def Stir.position (x : Stir) : Option Nat × Option StepKind × Nat × Nat := (x.running, x.kind, x.phaseIndex, x.phaseElapsed)

theorem State.computeTarget_position (s : State) : s.computeTarget.stir.position = s.stir.position := by
  have take : ∀ t dir, (s.takeTarget t dir).stir.position = s.stir.position := fun t dir => by
    obtain ⟨last, h⟩ := s.takeTarget_stir t dir
    rw [h]; rfl
  unfold State.computeTarget
  cases s.stirPhase with
  | none => exact take _ _
  | some ph =>
    have key : ∀ (b : Bool) (t : Nat), (if b then s.beginReversal t else s.takeTarget t ph.direction).stir.position =
        s.stir.position := by
      intro b t
      cases b
      · exact take t _
      · rfl
    exact key _ _

/-- The pattern resumed at an ACTIVE entry from saved values (R117). -/
theorem State.enterActive_resumes {s : State} (h : s.engine.sub ≠ .none) :
    s.enterActive.engine = { s.engine with phase := .active } ∧
    s.enterActive.stir.position = (s.current.pattern, some s.current.kind, s.stir.phaseIndex, s.stir.phaseElapsed) ∧
    s.enterActive.stir.torqueCount = s.stir.torqueCount ∧ s.enterActive.stir.overloadCap = s.stir.overloadCap ∧
    s.enterActive.stir.commanded ≤ s.stir.commanded := by
  have he : s.enterActive = (s.withEngine { s.engine with phase := .active }).resumePattern s.current := if_neg h
  obtain ⟨hle, -, hsup⟩ := State.computeTarget_commanded ((s.withEngine { s.engine with phase := .active }).withStir
    { s.stir.clearRuns with running := s.current.pattern, kind := some s.current.kind })
  have hpos := State.computeTarget_position ((s.withEngine { s.engine with phase := .active }).withStir
    { s.stir.clearRuns with running := s.current.pattern, kind := some s.current.kind })
  simp only [Stir.supervision, Prod.mk.injEq] at hsup
  obtain ⟨-, -, hcap, -, -, -, htorque⟩ := hsup
  rw [he]
  exact ⟨State.computeTarget_engine _, hpos, htorque, hcap, hle⟩

/-! ### DO STOP, CLEAR and EXTEND -/

theorem State.enterEnding_steps (s : State) (o : RecipeOutcome) : (s.enterEnding o).steps = s.steps :=
  s.enterEnding_within o .steps (by decide)

theorem State.stepInProgress_none {s : State} (h : s.engine.state = .idle ∨ s.engine.state = .ending ∨ s.engine.state = .faulted) :
    s.stepInProgress = none := by
  unfold State.stepInProgress
  rcases h with h | h | h <;> rw [h]

/-- A DO request without argument taken at once, when its taking gives `u` and answers. -/
theorem exec_answered {c : Instr} {r : Request} {s u : State} {tag : Byte} {st : Status} {bytes : List Byte}
    (hc : requestOf c = some r) (hs : s.free) (hr : r.plain = true) (h : carryOut r s.picks = u)
    (ha : answerFrame tag st bytes ∈ u.report.answers) :
    exec c s = .next u.picks ∧ u.picks.answered (answerFrame tag st bytes) :=
  ⟨(exec_taken hc hs.1 (hs.canTake hr)).trans (by rw [h]), State.picks_answered ha⟩

theorem State.answer_mem (s : State) (tag : Byte) (st : Status) (bytes : List Byte) :
    answerFrame tag st bytes ∈ (s.answer tag st bytes).report.answers := by simp [State.answer]

theorem takeStop_taken {tag : Byte} {s : State} (h : s.engine.state = .running ∨ s.engine.state = .held) :
    takeStop tag [] s = (s.answer tag .ok []).enterEnding .stopped := by
  rcases h with h | h <;> simp [takeStop, h]

theorem takeClear_taken {tag : Byte} {s : State} (h : s.engine.state = .faulted) (hc : s.causePresent = false) :
    takeClear tag [] s = s.clearFault.answer tag .ok [] := by
  simp [takeClear, h, hc]

/-- CLEAR leaves the pool rebuilt and the engine in IDLE (R50). -/
theorem State.clearFault_fields (s : State) :
    s.clearFault.engine = { s.engine with state := .idle, fault := none, further := false, previousTarget := 0 } ∧
    s.clearFault.pool = .rebuilt ∧ s.clearFault.weigh = s.weigh ∧ s.clearFault.report = s.report :=
  ⟨State.restOutputs_engine _, State.restOutputs_pool _, State.restOutputs_weigh _, State.restOutputs_report _⟩

theorem State.clearFault_steps (s : State) : s.clearFault.steps = s.steps := by
  have h : s.clearFault.rest = s.rest := by unfold State.clearFault; simp
  exact State.steps_of_rest h

theorem takeExtend_taken {tag hi lo : Byte} {s : State} {i : Nat} {r : StepRecord} (h : s.stepInProgress = some i)
    (hr : (s.step i).extended (256 * hi.toNat + lo.toNat) = some r) :
    takeExtend tag [hi, lo] s = (s.storeStep i r).answer tag .ok [] := by
  have hw : wordAt [hi, lo] 0 = 256 * hi.toNat + lo.toNat := wordAt_pair hi lo
  unfold takeExtend
  rw [if_neg (by simp), h]
  dsimp only
  rw [hw, hr]

/-! ### What an answer leaves -/

@[simp] theorem State.answer_engine (s : State) (tag : Byte) (st : Status) (bytes : List Byte) :
    (s.answer tag st bytes).engine = s.engine := rfl
@[simp] theorem State.answer_pool (s : State) (tag : Byte) (st : Status) (bytes : List Byte) :
    (s.answer tag st bytes).pool = s.pool := rfl
@[simp] theorem State.answer_weigh (s : State) (tag : Byte) (st : Status) (bytes : List Byte) :
    (s.answer tag st bytes).weigh = s.weigh := rfl
@[simp] theorem State.answer_reg (s : State) (tag : Byte) (st : Status) (bytes : List Byte) :
    (s.answer tag st bytes).reg = s.reg := rfl
@[simp] theorem State.answer_stir (s : State) (tag : Byte) (st : Status) (bytes : List Byte) :
    (s.answer tag st bytes).stir = s.stir := rfl
@[simp] theorem State.answer_lock (s : State) (tag : Byte) (st : Status) (bytes : List Byte) :
    (s.answer tag st bytes).lock = s.lock := rfl
@[simp] theorem State.answer_steps (s : State) (tag : Byte) (st : Status) (bytes : List Byte) :
    (s.answer tag st bytes).steps = s.steps := rfl
@[simp] theorem State.answer_limits (s : State) (tag : Byte) (st : Status) (bytes : List Byte) :
    (s.answer tag st bytes).limits = s.limits := rfl
@[simp] theorem State.answer_patterns (s : State) (tag : Byte) (st : Status) (bytes : List Byte) :
    (s.answer tag st bytes).patterns = s.patterns := rfl
@[simp] theorem State.answer_food (s : State) (tag : Byte) (st : Status) (bytes : List Byte) :
    (s.answer tag st bytes).food = s.food := rfl
@[simp] theorem State.answer_ctl (s : State) (tag : Byte) (st : Status) (bytes : List Byte) :
    (s.answer tag st bytes).ctl = s.ctl := rfl
@[simp] theorem State.answer_suspendRecord (s : State) (tag : Byte) (st : Status) (bytes : List Byte) (r : Holds) :
    (s.answer tag st bytes).suspendRecord r = s.suspendRecord r := rfl

/-! ### PAUSE and RESUME -/

theorem takePause_running {tag : Byte} {s : State} (h : s.engine.state = .running) :
    takePause tag [] s = (s.answer tag .ok []).pause := by
  simp [takePause, h]

theorem takeResume_taken {tag : Byte} {s : State} (h : s.engine.state = .held) (hh : s.engine.holds = .pauseOnly) :
    takeResume tag [] s = (s.answer tag .ok []).unpause := by
  simp [takeResume, h, hh]

theorem State.lockNeeded_congr {s t : State} (hl : t.limits = s.limits) (hp : t.patterns = s.patterns)
    (hc : t.engine.clampedTarget = s.engine.clampedTarget) (r : StepRecord) : t.lockNeeded r = s.lockNeeded r := by
  unfold State.lockNeeded State.highestSpeed State.pattern
  rw [hl, hp, hc]

@[simp] theorem State.picks_suspendRecord (s : State) (r : Holds) : s.picks.suspendRecord r = s.suspendRecord r :=
  State.picks_reads (fun u => u.suspendRecord r) (fun _ _ _ _ => rfl) s

/-- A PAUSE taken with the engine RUNNING, the food channel good and a slot free (R37, R41). -/
theorem State.pause_fields {s : State} {slot : Nat} {free : List Nat} (hs : s.engine.state = .running)
    (hf : s.food.faulted = false) (hfree : s.pool.free = slot :: free) :
    s.pause.engine = { s.engine.noStep with state := .held, holds := .pauseOnly } ∧
    s.pause.pool = { free := free, chain := (slot, .held (s.suspendRecord .pauseOnly)) :: s.pool.chain, depth := s.pool.depth } ∧
    s.pause.reg = { s.reg with
      target := min s.limits.keepWarm s.engine.clampedTarget
      setpoint := (min s.limits.keepWarm s.engine.clampedTarget : Nat), ramp := 0 } ∧
    s.pause.stir = s.stir.zeroed ∧ s.pause.weigh = s.weigh ∧ s.pause.report = (s.raise .held).report ∧
    s.pause.lock.standing = .release ∧ s.pause.rest = s.rest := by
  have hp : s.pool.save (.held (s.suspendRecord .pauseOnly)) =
      { free := free, chain := (slot, .held (s.suspendRecord .pauseOnly)) :: s.pool.chain, depth := s.pool.depth } := by
    simp [Pool.save, hfree]
  have ht : (s.heldWith .pauseOnly).heldTarget = min s.limits.keepWarm s.engine.clampedTarget := by
    rw [State.heldTarget_eq]
    change (if Holds.pauseOnly.gentle = true then min s.limits.keepWarm (if (s.pool.save _).heldRecord.isSome = true
      then s.engine.clampedTarget else s.engine.previousTarget) else 0) = _
    rw [hp]; rfl
  rw [State.pause_running hs hf, State.heldSet_engine, State.heldSet_pool, State.heldSet_reg, State.heldSet_stir,
    State.heldSet_weigh, State.heldSet_report, ht]
  exact ⟨rfl, hp, rfl, rfl, rfl, rfl, rfl, by simp [State.heldSet, State.heldWith]⟩

@[simp] theorem State.restored_engine (s : State) (h : HeldRecord) : (s.restored h).engine = { s.engine with
    state := .running, index := h.index, sub := h.sub, elapsed := h.elapsed, limitElapsed := h.limitElapsed
    reached := h.reached } := rfl
@[simp] theorem State.restored_pool (s : State) (h : HeldRecord) : (s.restored h).pool = s.pool.restore := rfl
@[simp] theorem State.restored_weigh (s : State) (h : HeldRecord) :
    (s.restored h).weigh = { s.weigh with addReference := h.addReference } := rfl
@[simp] theorem State.restored_reg (s : State) (h : HeldRecord) : (s.restored h).reg = { s.reg with
    setpoint := h.setpoint, rampAccumulator := h.rampAccumulator, integrator := h.integrator
    target := s.engine.clampedTarget, ramp := (s.step h.index).ramp, rampCount := 0 } := rfl
@[simp] theorem State.restored_stir (s : State) (h : HeldRecord) : (s.restored h).stir = { s.stir with
    phaseIndex := h.phaseIndex, phaseElapsed := h.phaseElapsed, torqueCount := h.torqueCount
    overloadCap := h.overloadCap } := rfl
@[simp] theorem State.restored_rest (s : State) (h : HeldRecord) : (s.restored h).rest = s.rest := by
  rw [State.restored, State.restoreStir_rest, State.restoreHeld_rest, State.withPool_rest]

/-- The pattern and the engine of a step resumed from a saved phase. -/
theorem State.restored_resumes (s : State) {h : HeldRecord} (hsub : h.sub ≠ .none) :
    (s.restored h).unlocked.enterActive.engine = { s.engine with
      state := .running, index := h.index, sub := h.sub, elapsed := h.elapsed, limitElapsed := h.limitElapsed
      reached := h.reached, lockNeed := false, phase := .active } ∧
    (s.restored h).unlocked.enterActive.stir.position =
      ((s.step h.index).pattern, some (s.step h.index).kind, h.phaseIndex, h.phaseElapsed) ∧
    (s.restored h).unlocked.enterActive.stir.torqueCount = h.torqueCount ∧
    (s.restored h).unlocked.enterActive.stir.overloadCap = h.overloadCap ∧
    (s.restored h).unlocked.enterActive.stir.commanded ≤ s.stir.commanded ∧
    (s.restored h).unlocked.enterActive.rest = s.rest := by
  have hs : (s.restored h).unlocked.engine.sub ≠ .none := by rw [State.unlocked_engine, State.restored_engine]; exact hsub
  obtain ⟨ae, apos, atq, acap, acom⟩ := State.enterActive_resumes hs
  have hc : (s.restored h).unlocked.current = s.step h.index := rfl
  rw [hc] at apos
  rw [State.unlocked_stir, State.restored_stir] at apos atq acap acom
  rw [State.unlocked_engine, State.restored_engine] at ae
  exact ⟨ae, apos, atq, acap, acom, by simp [State.unlocked]⟩

/-- A state in HELD by PAUSE alone, whose saved step came from `s`, resumes that step (R38, R46). -/
theorem State.unpause_restores {s y : State} {slot : Nat} {free : List Nat} (ha : s.active = true)
    (hh : s.engine.holds = .empty) (hsub : s.engine.sub ≠ .none) (hl : s.lockNeeded s.current = false)
    (hneed : s.engine.lockNeed = false) (hfree : s.pool.free = slot :: free) (hf : s.food.faulted = false)
    (hpat : s.current.pattern.isSome = true)
    (he : y.engine = { s.engine.noStep with state := .held, holds := .pauseOnly })
    (hp : y.pool = { free := free, chain := (slot, .held (s.suspendRecord .pauseOnly)) :: s.pool.chain, depth := s.pool.depth })
    (hw : y.weigh = s.weigh) (hst : y.stir = s.stir.zeroed) (hsteps : y.steps = s.steps) (hlim : y.limits = s.limits)
    (hpats : y.patterns = s.patterns) (hfood : y.food = s.food) :
    y.unpause.engine = s.engine ∧ y.unpause.pool = s.pool ∧ y.unpause.weigh = s.weigh ∧
    y.unpause.reg = { y.reg with
      setpoint := s.reg.setpoint, rampAccumulator := s.reg.rampAccumulator, integrator := s.reg.integrator
      target := s.engine.clampedTarget, ramp := s.current.ramp, rampCount := 0 } ∧
    y.unpause.stir.position = (s.current.pattern, some s.current.kind, s.stir.phaseIndex, s.stir.phaseElapsed) ∧
    y.unpause.stir.torqueCount = s.stir.torqueCount ∧ y.unpause.stir.overloadCap = s.stir.overloadCap ∧
    y.unpause.stir.commanded = 0 ∧ y.unpause.lock.standing = .release ∧ y.unpause.steps = s.steps ∧ y.unpause.report = y.report := by
  have hcur : y.step s.engine.index = s.current := by unfold State.current State.step; rw [hsteps]
  have hneed' : y.lockNeeded (y.step s.engine.index) = false := by
    rw [hcur, State.lockNeeded_congr hlim hpats (by rw [he]; rfl)]
    exact hl
  have hyf : y.food.faulted = false := by rw [hfood]; exact hf
  have hc : y.pool.chain = (slot, .held (s.suspendRecord .pauseOnly)) :: s.pool.chain := by rw [hp]
  have hst' : y.engine.state = .held := by rw [he]
  have hho : y.engine.holds = .pauseOnly := by rw [he]
  rw [State.unpause_unlocked (s := y) (h := s.suspendRecord .pauseOnly) hst' hho hc hyf hneed']
  obtain ⟨ae, apos, atq, acap, acom, arest⟩ := State.restored_resumes (y.withEngine { y.engine with holds := .empty })
    (h := s.suspendRecord .pauseOnly) hsub
  have hphase : s.engine.phase = .active := by simp_all [State.active]
  have hrun : s.engine.state = .running := State.running_of_active ha
  rw [State.enterActive_pool, State.enterActive_weigh, State.enterActive_reg, State.enterActive_lock, State.unlocked_pool,
    State.unlocked_weigh, State.unlocked_reg, State.restored_pool, State.restored_weigh, State.restored_reg]
  refine ⟨ae.trans ?_, (Pool.restore_cons hc).trans ?_, ?_, ?_, apos.trans ?_, atq, acap, ?_, State.unlocked_standing _,
    (State.steps_of_rest arest).trans hsteps, (State.enterActive_report _).trans (State.unlocked_report _)⟩
  · change { y.engine with
      state := .running, holds := .empty, index := s.engine.index, sub := s.engine.sub, elapsed := s.engine.elapsed
      limitElapsed := s.engine.limitElapsed, reached := s.engine.reached, lockNeed := false, phase := .active } = s.engine
    rw [he, ← hh, ← hneed, ← hphase, ← hrun]
    rfl
  · rw [hp]
    dsimp only
    rw [← hfree]
  · change { y.weigh with addReference := s.weigh.addReference } = _
    rw [hw]
  · change { y.reg with
      setpoint := s.reg.setpoint, rampAccumulator := s.reg.rampAccumulator, integrator := s.reg.integrator
      target := y.engine.clampedTarget, ramp := (y.step s.engine.index).ramp, rampCount := 0 } = _
    rw [hcur, he]
    rfl
  · change ((y.step s.engine.index).pattern, some (y.step s.engine.index).kind,
      (if s.current.pattern.isSome = true then s.stir.phaseIndex else 0),
      (if s.current.pattern.isSome = true then s.stir.phaseElapsed else 0)) = _
    rw [hcur, if_pos hpat, if_pos hpat]
  · refine Nat.le_zero.1 (acom.trans (le_of_eq ?_))
    change y.stir.commanded = 0
    rw [hst]; rfl

end Sys2Proof.Machine
namespace Sys2Proof.Proofs
open Sys2Proof.Machine

/-- Settles O57: what STOP, CLEAR and EXTEND leave where they are accepted. -/
theorem stopClearExtend : Obligations.StopClearExtend := by
  intro s tag hi lo hs
  refine ⟨fun h => ?_, fun h hc => ?_, fun i hi' hc => ?_, fun i hi' hc hl => ?_⟩
  · obtain ⟨he, hp, hreg, hcom, hrun, hst, hw, hrep⟩ := (s.picks.answer tag .ok []).enterEnding_fields .stopped
    have hsteps := (s.picks.answer tag .ok []).enterEnding_steps .stopped
    obtain ⟨hrow, hans⟩ := exec_answered (c := .doStop tag []) (tag := tag) (st := .ok) (bytes := []) rfl hs rfl
      (takeStop_taken (s := s.picks) (by rwa [State.picks_engine])) (by rw [hrep]; exact s.picks.answer_mem tag .ok [])
    generalize (s.picks.answer tag .ok []).enterEnding .stopped = u at *
    have hp' : u.pool = s.pool.freeAll := hp.trans (congrArg Pool.freeAll s.picks_pool)
    have hend : u.engine.state = .ending := by rw [he]
    refine ⟨_, hrow, hans, ?_⟩
    rw [State.picks_engine, State.picks_pool, State.picks_reg, State.picks_stir, State.picks_lock, State.picks_weigh,
      State.picks_stepInProgress, State.picks_report_pendingSet, State.picks_steps]
    refine ⟨?_, ?_, ?_, fun hsound => ?_, ?_, ?_, ?_, hcom, hrun, hst, ?_, State.stepInProgress_none (.inr (.inl hend)), ?_, ?_⟩
    · refine he.trans ?_
      change { s.picks.engine.noStep with state := .ending, holds := .empty, recipeOutcome := some RecipeOutcome.stopped } = _
      rw [State.picks_engine]; rfl
    · rw [hp']; rfl
    · rw [hp']; rfl
    · rw [hp', Pool.freeAll_of_sound hsound]; decide
    · rw [hreg]; rfl
    · rw [hreg]; rfl
    · rw [hreg]
      change s.picks.reg.integrator = _
      rw [State.picks_reg]
    · rw [hw]
    · rw [hrep]
      exact s.picks_report_pendingSet
    · exact hsteps.trans s.picks_steps
  · obtain ⟨he, hp, hw, hrep⟩ := s.picks.clearFault_fields
    have hsteps := s.picks.clearFault_steps
    obtain ⟨hrow, hans⟩ := exec_answered (c := .doClear tag []) (tag := tag) (st := .ok) (bytes := []) rfl hs rfl
      (takeClear_taken (s := s.picks) (by rwa [State.picks_engine]) (by rwa [State.picks_causePresent]))
      (s.picks.clearFault.answer_mem tag .ok [])
    refine ⟨_, hrow, hans, ?_⟩
    rw [State.picks_engine, State.picks_pool, State.picks_weigh, State.picks_report_pendingSet, State.picks_steps]
    refine ⟨he.trans (by rw [State.picks_engine]), hp, ?_, hsteps.trans s.picks_steps, hw.trans s.picks_weigh⟩
    exact (congrArg Report.pendingSet hrep).trans s.picks_report_pendingSet
  · refine State.accepts_of (u := s.picks.storeStep i { s.step i with
      duration := min ((s.step i).duration + (256 * hi.toNat + lo.toNat)) 65535 }) rfl hs rfl
      (takeExtend_taken (by rwa [State.picks_stepInProgress]) ?_) (by simp [State.storeStep])
    rw [State.picks_step, StepRecord.extended, if_pos hc]
  · refine State.accepts_of (u := s.picks.storeStep i { s.step i with
      limit := min ((s.step i).limit + (256 * hi.toNat + lo.toNat)) 65535 }) rfl hs rfl
      (takeExtend_taken (by rwa [State.picks_stepInProgress]) ?_) (by simp [State.storeStep])
    rw [State.picks_step, StepRecord.extended, if_neg hc, if_pos hl]

/-- Settles O56: PAUSE saves the step in the free slot, and RESUME takes it back from there. -/
theorem pauseThenResumeRestores : Obligations.PauseThenResumeRestores := by
  intro s tag₁ tag₂ slot free hcalm hroom ha hh hsub hl hneed hfree hf htarget hrunning hpat
  have hs : s.free := ⟨hcalm, by omega⟩
  have hrun : s.engine.state = .running := State.running_of_active ha
  obtain ⟨pe, pp, preg, pst, pw, prep, plock, prest⟩ := State.pause_fields (s := s.picks.answer tag₁ .ok []) (slot := slot)
    (free := free) (by simpa using hrun) (by simpa using hf) (by simpa using hfree)
  have hanswers : ((s.picks.answer tag₁ .ok []).raise .held).report.answers = s.picks.report.answers ++ [answerFrame tag₁ .ok []] :=
    (State.raise_lanes _ .held).1
  obtain ⟨hrow₁, hans₁⟩ := exec_answered (c := .doPause tag₁ []) (tag := tag₁) (st := .ok) (bytes := []) rfl hs rfl
    (takePause_running (s := s.picks) (by simpa using hrun)) (by rw [prep, hanswers]; simp)
  generalize (s.picks.answer tag₁ .ok []).pause = p at *
  have pe' : p.engine = { s.engine.noStep with state := .held, holds := .pauseOnly } := by
    simpa [Engine.noStep] using pe
  have pp' : p.pool = { free := free, chain := (slot, .held (s.suspendRecord .pauseOnly)) :: s.pool.chain, depth := s.pool.depth } := by
    simpa using pp
  have preg' : p.reg = { s.reg with
      target := min s.limits.keepWarm s.engine.clampedTarget
      setpoint := (min s.limits.keepWarm s.engine.clampedTarget : Nat), ramp := 0 } := by simpa using preg
  have pst' : p.stir = s.stir.zeroed := by simpa using pst
  have pw' : p.weigh = s.weigh := by simpa using pw
  have psteps : p.steps = s.steps := (State.steps_of_rest prest).trans s.picks_steps
  have plim : p.limits = s.limits := (State.limits_of_rest prest).trans s.picks_limits
  have ppat : p.patterns = s.patterns := (State.patterns_of_rest prest).trans s.picks_patterns
  have pfood : p.food = s.food := (State.food_of_rest prest).trans s.picks_food
  have pqueue : p.ctl.queue = [] := by
    rw [State.ctl_of_rest prest, State.answer_ctl, State.picks_queue]; exact hcalm
  have plen : p.report.answers.length < 4 := by
    have hle := s.picks_answers_le
    rw [prep, hanswers, List.length_append, List.length_singleton]
    omega
  have pfree : p.picks.free := ⟨by rw [State.picks_queue]; exact pqueue, p.picks_answers_le.trans_lt plen⟩
  have pheld : p.picks.picks.engine.state = .held ∧ p.picks.picks.engine.holds = .pauseOnly := by simp [pe']
  obtain ⟨ue, up, uw, ureg, upos, utq, ucap, ucom, ulock, usteps, urep⟩ := State.unpause_restores (s := s)
    (y := p.picks.picks.answer tag₂ .ok []) ha hh hsub hl hneed hfree hf hpat (by simpa using pe') (by simpa using pp')
    (by simpa using pw') (by simpa using pst') (by simpa using psteps) (by simpa using plim) (by simpa using ppat)
    (by simpa using pfood)
  obtain ⟨hrow₂, hans₂⟩ := exec_answered (c := .doResume tag₂ []) (tag := tag₂) (st := .ok) (bytes := []) rfl pfree rfl
    (takeResume_taken (s := p.picks.picks) pheld.1 pheld.2) (by rw [urep]; exact State.answer_mem _ _ _ _)
  have hprog : p.stepInProgress = some s.engine.index := by
    unfold State.stepInProgress
    rw [pe', pp']
    rfl
  simp only [Stir.position, Prod.mk.injEq] at upos
  obtain ⟨upos1, -, upos3, upos4⟩ := upos
  refine ⟨_, _, hrow₁, hrow₂, ?_⟩
  rw [State.picks_engine, State.picks_stir, State.picks_reg, State.picks_isPending, State.picks_stepInProgress,
    State.picks_engine, State.picks_pool, State.picks_weigh, State.picks_reg, State.picks_stir, State.picks_steps,
    State.picks_lock, ureg]
  exact ⟨by rw [pe'], by rw [pe']; rfl, by rw [pst']; rfl, by rw [preg'], by rw [prep]; exact State.raise_isPending _ _, hprog,
    hans₁, hans₂, ue, up, uw, htarget.symm, rfl, rfl, rfl, rfl, rfl, upos1.trans hrunning.symm, upos3, upos4, utq, ucap, ucom,
    usteps, ulock⟩

end Sys2Proof.Proofs
end

