-- ==== Sys2Proof/Proofs/CallRows.lean ====
section
/-! A step start at a CALL and at a RETURN record, and the STARVED hold it may come to. -/

namespace Sys2Proof.Machine

/-! ### A STARVED hold -/

/-- The reasons of a STARVED hold (R45). -/
def State.starvedReasons (s : State) : Holds :=
  { Holds.empty with
    starved := true, mains := !s.sched.mainsPresent
    sensor := !s.intake.levels.live || (decide (0 < s.engine.previousTarget) && !s.intake.temp.live) }

/-- The engine and the pool at a STARVED hold, STARVED and HELD raised, before the outputs. -/
def State.starvedWith (s : State) (i : Nat) : State :=
  (((s.withPool (s.pool.save (.starved s.starvedReasons i))).withEngine
    { s.engine.noStep with state := .held, index := i, holds := s.starvedReasons }).raise .starved).raise .held

theorem State.enterStarved_of_safe {s : State} (hf : s.food.faulted = false) (i : Nat) :
    s.enterStarved i = (s.starvedWith i).heldSet := State.heldOutputs_of_safe (.inr hf)

/-- What a STARVED hold leaves (R45). -/
theorem State.enterStarved_fields {s : State} (hf : s.food.faulted = false) (i : Nat) :
    (s.enterStarved i).engine = { s.engine.noStep with state := .held, index := i, holds := s.starvedReasons } ∧
    (s.enterStarved i).pool = s.pool.save (.starved s.starvedReasons i) ∧
    (s.enterStarved i).report = ((s.raise .starved).raise .held).report := by
  rw [State.enterStarved_of_safe hf, State.heldSet_engine, State.heldSet_pool, State.heldSet_report]
  exact ⟨rfl, rfl, rfl⟩

theorem Pool.save_cons {p : Pool} {n : Nat} {free : List Nat} (h : p.free = n :: free) (c : Context) :
    p.save c = { p with free := free, chain := (n, c) :: p.chain } := by
  unfold Pool.save; rw [h]

/-- The pool of a STARVED hold, the head of the free list given. -/
theorem State.enterStarved_pool {s : State} {n : Nat} {free : List Nat} (hf : s.food.faulted = false)
    (hfree : s.pool.free = n :: free) (i : Nat) : (s.enterStarved i).pool =
      { free := free, chain := (n, .starved s.starvedReasons i) :: s.pool.chain, depth := s.pool.depth } :=
  (State.enterStarved_fields hf i).2.1.trans (Pool.save_cons hfree _)

/-! ### The step start at CALL and RETURN -/

theorem chainFuel_succ_succ : ∃ n, chainFuel = n + 1 + 1 := ⟨2 ^ 200 - 2, by norm_num [chainFuel]⟩

section
variable {s : State} {i : Nat} (fuel : Nat)

/-- A CALL that finds the depth limit or no room (R57 items 1 and 2). -/
theorem stepStart_call_refused (hi : i < 256) (hk : (s.step i).kind = .call) :
    (s.pool.depth = s.limits.depthLimit →
      stepStart (fuel + 1) i s = (s.withEngine { s.engine with index := i }).raiseFault .callDepth) ∧
    (s.pool.depth ≠ s.limits.depthLimit → s.pool.free.length ≤ 1 →
      stepStart (fuel + 1) i s = (s.withEngine { s.engine with index := i }).raiseFault .callPool) := by
  rw [stepStart, if_neg (by omega)]
  dsimp only
  rw [hk]
  exact ⟨fun h => if_pos h, fun h hl => (if_neg h).trans (if_pos hl)⟩

/-- A CALL taken (R57 item 3). -/
theorem stepStart_call (hi : i < 256) (hk : (s.step i).kind = .call) (hd : s.pool.depth ≠ s.limits.depthLimit)
    (hl : 1 < s.pool.free.length) : stepStart (fuel + 1) i s = stepStart fuel (s.step i).routine
      (((s.withEngine { s.engine with index := i }).withPool (s.pool.saveCall
        { returnIndex := i + 1, routine := (s.step i).routine, remaining := (s.step i).repeats - 1 })).poolLowTest
        s.pool.free.length) := by
  rw [stepStart, if_neg (by omega)]
  dsimp only
  rw [hk]
  exact (if_neg hd).trans (if_neg (by omega))

/-- A RETURN, by the head of the chain (R59). -/
theorem stepStart_ret (hi : i < 256) (hk : (s.step i).kind = .ret) :
    (s.pool.chain = [] → stepStart (fuel + 1) i s = (s.withEngine { s.engine with index := i }).raiseFault .returnEmpty) ∧
    (s.pool.heldRecord.isSome = true ∨ s.pool.pendingIndex.isSome = true →
      stepStart (fuel + 1) i s = (s.withEngine { s.engine with index := i }).raiseFault .contextKind) ∧
    (∀ n c rest, s.pool.chain = (n, .call c) :: rest → 0 < c.remaining →
      stepStart (fuel + 1) i s = stepStart fuel c.routine ((s.withEngine { s.engine with index := i }).withPool
        { s.pool with chain := (n, .call { c with remaining := c.remaining - 1 }) :: rest })) ∧
    (∀ n c rest, s.pool.chain = (n, .call c) :: rest → c.remaining = 0 →
      stepStart (fuel + 1) i s = stepStart fuel c.returnIndex ((s.withEngine { s.engine with index := i }).withPool
        s.pool.dropCall)) := by
  rw [stepStart, if_neg (by omega)]
  dsimp only
  rw [hk]
  refine ⟨fun h => by rw [h], fun h => ?_, fun n c rest h hr => by rw [h]; exact if_pos hr,
    fun n c rest h hr => by rw [h]; exact if_neg (by omega)⟩
  unfold Pool.heldRecord Pool.pendingIndex at h
  split at h
  · next r _ hc => rw [hc]
  · split at h
    · next r _ _ hc => rw [hc]
    · simp at h

end

theorem State.poolLowTest_fields (s : State) (before : Nat) : (s.poolLowTest before).engine = s.engine ∧
    (s.poolLowTest before).pool = s.pool ∧ (s.poolLowTest before).food = s.food ∧ (s.poolLowTest before).steps = s.steps ∧
    (s.limits.warnLevel < before → s.pool.free.length ≤ s.limits.warnLevel →
      (s.poolLowTest before).report.isPending .poolLow = true) := by
  unfold State.poolLowTest
  split
  · exact ⟨rfl, rfl, rfl, rfl, fun _ _ => State.raise_isPending _ _⟩
  · next h =>
    simp only [Bool.and_eq_true, decide_eq_true_eq] at h
    exact ⟨rfl, rfl, rfl, rfl, fun h1 h2 => absurd ⟨h1, h2⟩ h⟩

end Sys2Proof.Machine

namespace Sys2Proof.Proofs
open Sys2Proof.Machine

/-- Settles O54: the step start at a CALL and at a RETURN, to an EMPTY entry where it goes on. -/
theorem callAndReturn : Obligations.CallAndReturn := by
  intro s t i j n m rest free c hi ht hf hrun
  obtain ⟨fuel, hfuel⟩ := chainFuel_succ_succ
  have ht' : t = stepStart (fuel + 1 + 1) i s := by rw [ht, State.startStep, hfuel]
  have fault : ∀ code, t = (s.withEngine { s.engine with index := i }).raiseFault code →
      (s.withEngine { s.engine with index := i }).faultedWith t code := fun code h =>
    by
    rw [h]
    exact State.raiseFault_faultedWith (s := s.withEngine { s.engine with index := i })
      (show s.engine.state ≠ .faulted by rw [hrun]; decide) code
  refine ⟨fun hk hd => ?_, fun hk hd hl => ?_, fun hk hd hfree hr hj he => ?_, fun hk hc => ?_, fun hk hc => ?_,
    fun hk hc hrem hr he hfree => ?_, fun hk hc hrem hr he => ?_⟩
  · exact fault _ (ht'.trans ((stepStart_call_refused _ hi hk).1 hd))
  · exact fault _ (ht'.trans ((stepStart_call_refused _ hi hk).2 hd hl))
  · rw [stepStart_call _ hi hk hd (by rw [hfree]; simp), hr] at ht'
    have hsave : s.pool.saveCall { returnIndex := i + 1, routine := j, remaining := (s.step i).repeats - 1 } =
        { free := m :: free, chain := (n, .call ⟨i + 1, j, (s.step i).repeats - 1⟩) :: s.pool.chain, depth := s.pool.depth + 1 } := by
      unfold Pool.saveCall
      rw [Pool.save_cons hfree]
    rw [hsave] at ht'
    obtain ⟨le, lp, lf, ls, low⟩ := State.poolLowTest_fields ((s.withEngine { s.engine with index := i }).withPool
      { free := m :: free, chain := (n, .call ⟨i + 1, j, (s.step i).repeats - 1⟩) :: s.pool.chain, depth := s.pool.depth + 1 })
      s.pool.free.length
    generalize State.poolLowTest _ _ = u at *
    rw [stepStart_empty _ hj (by unfold State.step; rw [ls]; exact he)] at ht'
    obtain ⟨he, hp, hrep⟩ := State.enterStarved_fields (s := u) (by rw [lf]; exact hf) j
    rw [← ht'] at he hp hrep
    rw [Pool.save_cons (p := u.pool) (n := m) (free := free) (by rw [lp]; rfl), lp] at hp
    rw [hp, he, hrep]
    refine ⟨rfl, rfl, rfl, rfl, rfl, rfl, rfl, fun h1 h2 => ?_⟩
    exact Report.raise_mono _ _ _ (Report.raise_mono _ _ _ (low h1 (by
      rw [hfree] at h2
      simpa using h2)))
  · exact fault _ (ht'.trans ((stepStart_ret _ hi hk).1 hc))
  · exact fault _ (ht'.trans ((stepStart_ret _ hi hk).2.1 hc))
  · obtain ⟨-, -, hret, -⟩ := stepStart_ret (s := s) (fuel + 1) hi hk
    rw [hret n c rest hc hrem, stepStart_empty _ hr (by exact he)] at ht'
    have hp := State.enterStarved_pool (n := m) (free := free) (s := (s.withEngine { s.engine with index := i }).withPool
      { s.pool with chain := (n, .call { c with remaining := c.remaining - 1 }) :: rest }) hf hfree c.routine
    rw [ht', hp]
    exact ⟨rfl, rfl, rfl⟩
  · obtain ⟨-, -, -, hret⟩ := stepStart_ret (s := s) (fuel + 1) hi hk
    rw [hret n c rest hc hrem, stepStart_empty _ hr (by exact he)] at ht'
    have hdrop : s.pool.dropCall = { free := n :: s.pool.free, chain := rest, depth := s.pool.depth - 1 } := by
      unfold Pool.dropCall
      rw [Pool.restore_cons hc]
    have hp := State.enterStarved_pool (n := n) (free := s.pool.free)
      (s := (s.withEngine { s.engine with index := i }).withPool s.pool.dropCall) hf (congrArg Pool.free hdrop) c.returnIndex
    rw [ht', hp]
    change s.pool.dropCall.depth = _ ∧ _ ∧ s.pool.dropCall.chain = _ ∧ _
    rw [hdrop]
    exact ⟨rfl, rfl, rfl, rfl⟩

end Sys2Proof.Proofs
end

