-- ==== Sys2Proof/Proofs/StartRows.lean ====
section
/-! The start of a timed step (R22 to R26): its checks, what it hands on, the hold under a standing condition, the wait in
ENTRY and the fresh ACTIVE entry. -/

namespace Sys2Proof.Machine

/-! ### The engage request -/

theorem State.setLatch_lock (s : State) (c : Latch) : (s.setLatch c).lock = { s.lock with latch := c } := by
  unfold State.setLatch
  split
  · next h => rw [← h]
  · rfl

theorem State.beginEngage_lock (s : State) :
    s.beginEngage.lock = { s.lock with latch := .engage, timer := 0, state := .engaging } := by
  unfold State.beginEngage
  dsimp only
  rw [State.setLockState_lock, State.withLock_lock, State.setLatch_lock]

theorem State.lockRequest_engage_lock (s : State) : (s.lockRequest .engage).lock =
    if s.lock.state = .released then
      { s.lock with standing := .engage, releaseWait := false, latch := .engage, timer := 0, state := .engaging }
    else { s.lock with standing := .engage, releaseWait := false } := by
  by_cases h : s.lock.state = .released
  · rw [if_pos h]
    exact (congrArg State.lock (if_pos h)).trans (State.beginEngage_lock _)
  · rw [if_neg h]
    exact congrArg State.lock (if_neg h)

/-! ### The fresh ACTIVE entry -/

/-- The caps read the limits, the lock state, the food channel, the step kind, the calibration and the overload cap. -/
theorem State.cappedSpeed_congr {s t : State} (hl : t.limits = s.limits) (hk : t.lock.state = s.lock.state)
    (hf : t.food = s.food) (hc : t.cal = s.cal) (hx : t.stir.kind = s.stir.kind)
    (ho : t.stir.overloadCap = s.stir.overloadCap) (v : Nat) : t.cappedSpeed v = s.cappedSpeed v := by
  unfold State.cappedSpeed State.speedCaps State.hotCapped
  rw [hl, hk, hf, hc, hx, ho]

/-- The pattern of a fresh ACTIVE entry runs from its first phase, the runs cleared (R26, R117). -/
theorem State.enterActive_starts {s : State} (h : s.engine.sub = .none) :
    let t := s.enterActive
    t.stir.position = (s.current.pattern, some s.current.kind, 0, 0) ∧
    t.stir.supervision = (0, 0, s.stir.overloadCap, 0, 0, true, s.stir.torqueCount) ∧
    t.stir.commanded ≤ s.stir.commanded ∧
    (s.current.pattern = none → t.stir.target = 0 ∧ t.stir.commanded = 0) ∧
    (∀ p, s.current.pattern = some p → t.stir.target = t.cappedSpeed ((s.pattern p).phase 0).speed) := by
  obtain ⟨e, he⟩ : ∃ e, s.enterActive = (((s.withEngine e).withStir { s.stir.clearRuns with
      running := s.current.pattern, kind := some s.current.kind, phaseIndex := 0, phaseElapsed := 0 }).computeTarget) :=
    ⟨_, if_pos h⟩
  dsimp only
  rw [he]
  generalize hu : (s.withEngine e).withStir { s.stir.clearRuns with
      running := s.current.pattern, kind := some s.current.kind, phaseIndex := 0, phaseElapsed := 0 } = u
  obtain ⟨hle, hbound, hsup⟩ := u.computeTarget_commanded
  have hpos := u.computeTarget_position
  have htarget := u.computeTarget_target
  have hphase : u.stirPhase = s.current.pattern.map fun p => (s.pattern p).phase 0 := by subst hu; rfl
  rw [hphase] at htarget
  have hcom : u.stir.commanded = s.stir.commanded := by subst hu; rfl
  refine ⟨hpos.trans (by subst hu; rfl), hsup.trans (by subst hu; rfl), hcom ▸ hle, fun hp => ?_, fun p hp => ?_⟩
  · rw [hp] at htarget
    have hz : u.computeTarget.stir.target = 0 := htarget
    exact ⟨hz, Nat.le_zero.1 (hz ▸ hbound)⟩
  · rw [hp] at htarget
    refine htarget.trans ?_
    simp only [Stir.position, Stir.supervision, Prod.mk.injEq] at hpos hsup
    exact (State.cappedSpeed_congr (State.limits_of_rest u.computeTarget_rest) (congrArg Lock.state u.computeTarget_lock)
      (State.food_of_rest u.computeTarget_rest) (State.cal_of_rest u.computeTarget_rest) hpos.2.1 hsup.2.2.1 _).symm

/-! ### The checks, the lock need and the standing conditions in the words of the statements -/

theorem lt_foldl_max {n : Nat} (f : Nat → Nat) : ∀ (l : List Nat) (m : Nat),
    n < l.foldl (fun m j => max m (f j)) m ↔ n < m ∨ ∃ j ∈ l, n < f j
  | [], m => by simp
  | a :: l, m => by
    rw [List.foldl_cons, lt_foldl_max f l, lt_max_iff]
    simp [or_assoc]

theorem State.lockNeeded_iff (s : State) (r : StepRecord) :
    s.lockNeeded r = true ↔ s.needsLock r s.engine.clampedTarget := by
  have hspeed : s.limits.lidFreeSpeed < s.highestSpeed r ↔ ∃ p, r.pattern = some p ∧ ∃ j, j < (s.pattern p).count ∧
      s.limits.lidFreeSpeed < ((s.pattern p).phase j).speed := by
    unfold State.highestSpeed
    cases hp : r.pattern with
    | none => simp
    | some p =>
      dsimp only
      rw [lt_foldl_max]
      simp
  simp only [State.lockNeeded, State.needsLock, Bool.or_eq_true, decide_eq_true_eq, hspeed, or_assoc]

theorem State.startCheck_hollow {s : State} {r : StepRecord} (h : s.hollow r) : s.startCheck r = some .patternEmpty := by
  obtain ⟨p, hp, hc⟩ := h
  unfold State.startCheck
  rw [hp]
  simp [hc]

theorem State.startCheck_not_hollow {s : State} {r : StepRecord} (h : ¬ s.hollow r) :
    s.startCheck r = if r.kind = .add && s.cal.gain = 0 then some .uncalibrated else none := by
  unfold State.startCheck
  cases hp : r.pattern with
  | none => rfl
  | some p =>
    have hc : (s.pattern p).count ≠ 0 := fun hc => h ⟨p, hp, hc⟩
    simp [hc]

theorem State.relevantStalled_iff {s : State} {r : StepRecord} (hs : s.engine.state = .running) (hr : s.current = r) :
    s.relevantStalled = true ↔ s.startStalled r s.engine.clampedTarget := by
  have hrec : s.recordInProgress = some r := by
    unfold State.recordInProgress State.stepInProgress
    rw [hs, ← hr]; rfl
  simp only [State.relevantStalled, State.relevant, hs, State.relevantTo, hrec, State.startStalled, Intake.stream,
    List.any_cons, List.any_nil, Bool.or_false, Bool.or_eq_true, Bool.and_eq_true, decide_eq_true_eq, Bool.not_eq_true',
    Bool.true_and]
  tauto

/-! ### What a timed step start hands on -/

/-- The regulator a timed step start leaves, the target given (R22 items 3 and 4). -/
def State.startReg (s : State) (r : StepRecord) (target : Nat) : Regulator := { s.reg with
  integrator := if target = s.engine.previousTarget then s.reg.integrator else 0
  target := target
  ramp := if decide (0 < r.ramp) && decide (0 < target) then r.ramp else 0
  setpoint := if decide (0 < r.ramp) && decide (0 < target) then clampInt 0 400 (s.food.value.getD 0) else target
  rampAccumulator := 0
  rampCount := 0 }

/-- The engine a timed step start leaves, before the standing conditions (R22). -/
def Engine.started (e : Engine) (i target : Nat) : Engine := { e with
  state := .running, index := i, phase := .none, sub := .none, elapsed := 0, limitElapsed := 0, reached := false
  clampedTarget := target, previousTarget := target, holds := .empty }

theorem Report.raise_lastAnnounced (q : Report) (n : Notice) : (q.raise n).lastAnnounced = q.lastAnnounced := by
  unfold Report.raise
  split <;> rfl

theorem State.announceStep_eq (s : State) (r : StepRecord) (i : Nat) : ∃ q, s.announceStep r i = s.withReport q ∧
    (r.flags.announce = true → q.lastAnnounced = some i ∧ q.isPending .step = true) ∧
    (r.flags.announce = false → q = s.report) := by
  unfold State.announceStep
  cases r.flags.announce with
  | false => exact ⟨s.report, rfl, fun h => Bool.noConfusion h, fun _ => rfl⟩
  | true =>
    refine ⟨_, rfl, fun _ => ⟨?_, State.raise_isPending _ _⟩, fun h => Bool.noConfusion h⟩
    unfold Report.raise
    split <;> rfl

/-- The state of a timed step start up to the standing conditions, block by block. -/
theorem State.startSet_eq (s : State) (i : Nat) (r : StepRecord) : ∃ q,
    s.startSet i r = (((((s.withEngine (s.engine.started i (min r.target s.limits.maxFoodTarget))).withReg
      (s.startReg r (min r.target s.limits.maxFoodTarget))).withStir
      { s.stir with torqueCount := 0, overloadCap := none }).withWeigh { s.weigh with addReference := none }).withReport q) ∧
    (r.flags.announce = true → q.lastAnnounced = some i ∧ q.isPending .step = true) ∧
    (r.flags.announce = false → q = s.report) := by
  obtain ⟨q, h, h1, h2⟩ := State.announceStep_eq (((s.startBase i r).withEngine
    (s.startBase i r).engine.noStep).clearStepSupervision.clearReference) r i
  exact ⟨q, h, h1, h2⟩

/-- `y` is `s` with the start of the timed step `r` at index `i` handed on, before the standing conditions (R22). -/
structure State.StartedAs (s y : State) (i : Nat) (r : StepRecord) (target : Nat) : Prop where
  engine : y.engine = s.engine.started i target
  reg : y.reg = s.startReg r target
  stir : y.stir = { s.stir with torqueCount := 0, overloadCap := none }
  weigh : y.weigh = { s.weigh with addReference := none }
  pool : y.pool = s.pool
  lock : y.lock = s.lock
  rest : y.rest = s.rest
  announced : r.flags.announce = true → y.report.lastAnnounced = some i ∧ y.report.isPending .step = true
  silent : r.flags.announce = false → y.report = s.report

theorem State.startSet_rest (s : State) (i : Nat) (r : StepRecord) : (s.startSet i r).rest = s.rest := by
  simp [State.startSet, State.startBase, State.handStepTarget]

theorem State.startSet_started (s : State) (i : Nat) (r : StepRecord) :
    s.StartedAs (s.startSet i r) i r (min r.target s.limits.maxFoodTarget) := by
  obtain ⟨q, h, h1, h2⟩ := s.startSet_eq i r
  have hrest := s.startSet_rest i r
  rw [h] at hrest ⊢
  exact ⟨rfl, rfl, rfl, rfl, rfl, rfl, hrest, h1, h2⟩

section
variable {s y : State} {i target : Nat} {r : StepRecord} (h : s.StartedAs y i r target)
include h

theorem State.StartedAs.current (hr : s.step i = r) : y.current = r := by
  have hsteps : y.steps = s.steps := State.steps_of_rest h.rest
  unfold State.current State.step
  rw [hsteps, h.engine]
  exact hr

theorem State.StartedAs.needs (hr : s.step i = r) : y.lockNeeded y.current = true ↔ s.needsLock r target := by
  have hc : y.engine.clampedTarget = target := by rw [h.engine]; rfl
  rw [h.current hr, State.lockNeeded_iff, hc]
  unfold State.needsLock State.pattern
  rw [State.limits_of_rest h.rest, State.patterns_of_rest h.rest]

theorem State.StartedAs.stalled (hr : s.step i = r) : y.relevantStalled = true ↔ s.startStalled r target := by
  have hc : y.engine.clampedTarget = target := by rw [h.engine]; rfl
  rw [State.relevantStalled_iff (by rw [h.engine]; rfl) (h.current hr), hc]
  unfold State.startStalled
  rw [State.intake_of_rest h.rest]

/-- What R22 hands on is kept by what follows, when that leaves these values. -/
theorem State.StartedAs.hands {t : State} (hindex : t.engine.index = y.engine.index)
    (hclamped : t.engine.clampedTarget = y.engine.clampedTarget)
    (hprevious : t.engine.previousTarget = y.engine.previousTarget) (helapsed : t.engine.elapsed = y.engine.elapsed)
    (hlimit : t.engine.limitElapsed = y.engine.limitElapsed) (htorque : t.stir.torqueCount = y.stir.torqueCount)
    (hcap : t.stir.overloadCap = y.stir.overloadCap) (hweigh : t.weigh = y.weigh)
    (hintegrator : t.reg.integrator = y.reg.integrator) (hlast : t.report.lastAnnounced = y.report.lastAnnounced)
    (hstep : y.report.isPending .step = true → t.report.isPending .step = true)
    (ht : target = min r.target s.limits.maxFoodTarget) : s.startHands t i s.engine.previousTarget r := by
  unfold State.startHands
  rw [hindex, hclamped, hprevious, helapsed, hlimit, htorque, hcap, hweigh, hintegrator, hlast, h.engine, h.stir, h.weigh,
    h.reg, ← ht]
  refine ⟨rfl, rfl, rfl, rfl, rfl, rfl, rfl, rfl, rfl, fun ha => ⟨(h.announced ha).1, hstep (h.announced ha).2⟩, fun ha => ?_⟩
  rw [h.silent ha]

/-! ### A hold at once -/

theorem State.StartedAs.holds {t : State} {x : Holds} (hx : x.gentle = false)
    (ht : t = (y.withEngine { y.engine with phase := .entry }).enterHold x)
    (htarget : target = min r.target s.limits.maxFoodTarget) :
    s.startHands t i s.engine.previousTarget r ∧ t.engine.state = .held ∧ t.engine.holds = x ∧ t.reg.target = 0 ∧
    t.stir.commanded = 0 ∧ t.lock.standing = .release ∧ t.lock.state = s.lock.state ∧ t.report.isPending .held = true ∧
    (∀ slot free, s.pool.free = slot :: free → ∃ v : HeldRecord,
      t.pool = { free := free, chain := (slot, .held v) :: s.pool.chain, depth := s.pool.depth } ∧ v.index = i ∧
      v.phase = .entry ∧ v.sub = .none ∧ v.elapsed = 0 ∧ v.limitElapsed = 0 ∧ v.reasons = x) := by
  rw [State.enterHold_of_safe (.inl hx)] at ht
  have hz : ((y.withEngine { y.engine with phase := .entry }).heldWith x).heldTarget = 0 := by
    rw [State.heldTarget_eq]
    exact if_neg (by rw [show ((y.withEngine { y.engine with phase := .entry }).heldWith x).engine.holds = x from rfl, hx]; decide)
  subst ht
  refine ⟨h.hands ?_ ?_ ?_ ?_ ?_ ?_ ?_ ?_ ?_ ?_ ?_ htarget, ?_⟩
  · rw [State.heldSet_engine]; rfl
  · rw [State.heldSet_engine]; rfl
  · rw [State.heldSet_engine]; rfl
  · rw [State.heldSet_engine, h.engine]; rfl
  · rw [State.heldSet_engine, h.engine]; rfl
  · rw [State.heldSet_stir]; rfl
  · rw [State.heldSet_stir]; rfl
  · rw [State.heldSet_weigh]; rfl
  · rw [State.heldSet_reg]; rfl
  · rw [State.heldSet_report]
    exact Report.raise_lastAnnounced _ _
  · intro hp
    rw [State.heldSet_report]
    exact Report.raise_mono _ _ _ hp
  · rw [State.heldSet_engine, State.heldSet_reg, State.heldSet_stir, State.heldSet_standing, State.heldSet_lock_state,
      State.heldSet_report, State.heldSet_pool, hz]
    refine ⟨rfl, rfl, rfl, rfl, rfl, congrArg Lock.state h.lock, State.raise_isPending _ _, fun slot free hfree => ?_⟩
    refine ⟨(y.withEngine { y.engine with phase := .entry }).suspendRecord x, ?_, ?_, rfl, ?_, ?_, ?_, rfl⟩
    · refine (Pool.save_cons (p := y.pool) (by rw [h.pool]; exact hfree) _).trans ?_
      rw [h.pool]
    · exact congrArg Engine.index h.engine
    · exact congrArg Engine.sub h.engine
    · exact congrArg Engine.elapsed h.engine
    · exact congrArg Engine.limitElapsed h.engine

/-! ### No hold: ENTRY or ACTIVE -/

theorem State.StartedAs.heats {t : State} (ht : t.reg = y.reg) : s.startHeats t r target := by
  unfold State.startHeats
  rw [ht, h.reg]
  refine ⟨rfl, rfl, rfl, fun ⟨h1, h2⟩ => ?_, fun hz => ?_⟩
  · have hb : (decide (0 < r.ramp) && decide (0 < target)) = true := by simp [h1, h2]
    refine ⟨if_pos hb, fun v hv => (if_pos hb).trans ?_⟩
    rw [hv, clampInt_eq (by decide), min_comm]
    rfl
  · have hb : ¬ (decide (0 < r.ramp) && decide (0 < target)) = true := by
      rcases hz with hz | hz <;> simp [hz]
    exact ⟨if_neg hb, if_neg hb⟩

/-- ACTIVE entry from a state `z` that has the start handed on, whatever its lock. -/
theorem State.StartedAs.enters {z : State} {b : Bool} (he : z.engine = { y.engine with lockNeed := b }) (hreg : z.reg = y.reg)
    (hstir : z.stir = y.stir) (hweigh : z.weigh = y.weigh) (hpool : z.pool = y.pool) (hreport : z.report = y.report)
    (hrest : z.rest = y.rest) (hr : s.step i = r) (htarget : target = min r.target s.limits.maxFoodTarget) :
    let t := z.enterActive
    s.startHands t i s.engine.previousTarget r ∧ t.engine.state = .running ∧ t.engine.holds = .empty ∧ t.pool = s.pool ∧
    s.startHeats t r target ∧ t.engine.lockNeed = b ∧ t.lock = z.lock ∧ s.activeFresh t r target ∧
    t.engine = { s.engine.started i target with
      lockNeed := b, phase := .active, reached := decide (target = 0), sub := firstSubPhase r.kind (decide (target = 0)) } ∧
    t.report = y.report := by
  have hsteps : z.steps = s.steps := (State.steps_of_rest hrest).trans (State.steps_of_rest h.rest)
  have hpats : z.patterns = s.patterns := (State.patterns_of_rest hrest).trans (State.patterns_of_rest h.rest)
  have hcur : z.current = r := by
    unfold State.current State.step
    rw [hsteps, he, h.engine]
    exact hr
  have hsub : z.engine.sub = .none := by rw [he, h.engine]; rfl
  have hact : z.activeEngine = { s.engine.started i target with
      lockNeed := b, phase := .active, reached := decide (target = 0), sub := firstSubPhase r.kind (decide (target = 0)) } := by
    unfold State.activeEngine
    rw [if_pos hsub, hcur, he, h.engine]
    rfl
  obtain ⟨hpos, hsup, hcom, hnone, hsome⟩ := State.enterActive_starts hsub
  rw [hcur] at hpos hnone hsome
  rw [hstir, h.stir] at hsup hcom
  simp only [Stir.position, Stir.supervision, Prod.mk.injEq] at hpos hsup
  obtain ⟨p1, p2, p3, p4⟩ := hpos
  obtain ⟨q1, q2, q3, q4, q5, q6, q7⟩ := hsup
  dsimp only
  refine ⟨h.hands ?_ ?_ ?_ ?_ ?_ ?_ ?_ ?_ ?_ ?_ ?_ htarget, ?_, ?_, ?_, h.heats ?_, ?_, State.enterActive_lock z, ?_,
    (State.enterActive_engine z).trans hact, (State.enterActive_report z).trans hreport⟩
  · rw [State.enterActive_engine, hact, h.engine]
  · rw [State.enterActive_engine, hact, h.engine]
  · rw [State.enterActive_engine, hact, h.engine]
  · rw [State.enterActive_engine, hact, h.engine]
  · rw [State.enterActive_engine, hact, h.engine]
  · rw [q7, h.stir]
  · rw [q3, h.stir]
  · rw [State.enterActive_weigh, hweigh]
  · rw [State.enterActive_reg, hreg]
  · rw [State.enterActive_report, hreport]
  · rw [State.enterActive_report, hreport]; exact id
  · rw [State.enterActive_engine, hact]; rfl
  · rw [State.enterActive_engine, hact]; rfl
  · rw [State.enterActive_pool, hpool, h.pool]
  · rw [State.enterActive_reg, hreg]
  · rw [State.enterActive_engine, hact]
  · unfold State.activeFresh
    rw [State.enterActive_engine, hact]
    refine ⟨rfl, rfl, fun hk => ?_, fun hk => ?_, fun hk => ?_, p1, p2, p3, p4, q1, q2, q4, q5, q6, hcom, hnone, fun p hp => ?_⟩
    · dsimp only
      rw [hk]
      by_cases h0 : target = 0 <;> simp [firstSubPhase, h0]
    · dsimp only
      rw [hk]; rfl
    · dsimp only
      rw [hk]; rfl
    · have hpp : z.pattern p = s.pattern p := by unfold State.pattern; rw [hpats]
      rw [hsome p hp, hpp]

/-- A step that needs the lock waits in ENTRY while the lock is not ENGAGED (R24). -/
theorem State.StartedAs.waits {t : State}
    (ht : t = ((((y.withEngine { y.engine with lockNeed := true }).withEngine
      { y.engine with lockNeed := true, phase := .entry }).stirZero).lockRequest .engage))
    (htarget : target = min r.target s.limits.maxFoodTarget) :
    s.startHands t i s.engine.previousTarget r ∧ t.engine.state = .running ∧ t.engine.holds = .empty ∧ t.pool = s.pool ∧
    s.startHeats t r target ∧ t.engine.lockNeed = true ∧ t.engine.phase = .entry ∧ t.engine.sub = .none ∧
    t.engine.reached = false ∧ t.stir.commanded = 0 ∧ t.stir.running = none ∧
    t.lock = if s.lock.state = .released then
      { s.lock with standing := .engage, releaseWait := false, latch := .engage, timer := 0, state := .engaging }
      else { s.lock with standing := .engage, releaseWait := false } := by
  have he : t.engine = { s.engine.started i target with lockNeed := true, phase := .entry } := by
    rw [ht, State.lockRequest_engine, State.stirZero_engine, State.withEngine_engine, h.engine]
  have hreg : t.reg = y.reg := by rw [ht, State.lockRequest_reg, State.stirZero_reg]; rfl
  have hrep : t.report = y.report := by rw [ht, State.lockRequest_report, State.stirZero_report]; rfl
  have hweigh : t.weigh = y.weigh := by rw [ht, State.lockRequest_weigh, State.stirZero_weigh]; rfl
  have hpool : t.pool = s.pool := by rw [ht, State.lockRequest_pool, State.stirZero_pool]; exact h.pool
  obtain ⟨l, -, -, hm⟩ := (((y.withEngine { y.engine with lockNeed := true }).withEngine
      { y.engine with lockNeed := true, phase := .entry }).stirZero).lockRequest_moves .engage
  rw [← ht] at hm
  have hstill := hm.still (by rw [State.withLock_stir, State.stirZero_stir]; exact Stir.zeroed_still _)
  have hsup := hm.supervision
  rw [State.withLock_stir, State.stirZero_stir, State.withEngine_stir, State.withEngine_stir, h.stir] at hsup
  simp only [Stir.supervision, Prod.mk.injEq] at hsup
  obtain ⟨-, -, hcap, -, -, -, htorque⟩ := hsup
  refine ⟨h.hands ?_ ?_ ?_ ?_ ?_ ?_ ?_ hweigh ?_ ?_ ?_ htarget, ?_, ?_, hpool, h.heats hreg, ?_, ?_, ?_, ?_, hstill.2.2, hstill.1, ?_⟩
  · rw [he, h.engine]
  · rw [he, h.engine]
  · rw [he, h.engine]
  · rw [he, h.engine]
  · rw [he, h.engine]
  · rw [htorque, h.stir]; rfl
  · rw [hcap, h.stir]; rfl
  · rw [hreg]
  · rw [hrep]
  · rw [hrep]; exact id
  · rw [he]; rfl
  · rw [he]; rfl
  · rw [he]
  · rw [he]
  · rw [he]; rfl
  · rw [he]; rfl
  · rw [ht, State.lockRequest_engage_lock, State.stirZero_lock]
    exact congrArg (fun l : Lock => if l.state = .released then
      { l with standing := .engage, releaseWait := false, latch := .engage, timer := 0, state := .engaging }
      else { l with standing := .engage, releaseWait := false }) h.lock

end

/-! ### The entry by lock need and lock state -/

theorem State.decideEntry_engaged {s : State} (h : s.lockNeeded s.current = true) (hl : s.lock.state = .engaged) :
    s.decideEntry = ((s.withEngine { s.engine with lockNeed := true }).lockRequest .engage).enterActive := by
  unfold State.decideEntry
  dsimp only
  rw [h]
  exact (if_pos rfl).trans (if_pos hl)

theorem State.decideEntry_waiting {s : State} (h : s.lockNeeded s.current = true) (hl : s.lock.state ≠ .engaged) :
    s.decideEntry = (((s.withEngine { s.engine with lockNeed := true }).withEngine
      { s.engine with lockNeed := true, phase := .entry }).stirZero).lockRequest .engage := by
  unfold State.decideEntry
  dsimp only
  rw [h]
  exact (if_pos rfl).trans (if_neg hl)

theorem State.lockRequest_engage_of_not_released {s : State} (h : s.lock.state ≠ .released) :
    s.lockRequest .engage = s.withLock { s.lock with standing := .engage, releaseWait := false } := if_neg h

/-! ### The cases of a timed step start -/

section
variable {s : State} {i target : Nat} {r : StepRecord}

theorem State.startTimed_checked (hh : ¬ s.hollow r) (hg : ¬ (r.kind = .add ∧ s.cal.gain = 0))
    (hf : ¬ (0 < target ∧ s.food.faulted = true)) (ht : target = min r.target s.limits.maxFoodTarget) :
    s.startTimed i r = if (s.startSet i r).standingHolds = .empty then (s.startSet i r).decideEntry
      else ((s.startSet i r).withEngine { (s.startSet i r).engine with phase := .entry }).enterHold
        (s.startSet i r).standingHolds := by
  have hc : s.startCheck r = none := by
    rw [State.startCheck_not_hollow hh]
    exact if_neg (by simpa using hg)
  rw [State.startTimed_eq, hc]
  refine if_neg ?_
  change ¬ (decide (0 < min r.target s.limits.maxFoodTarget) && s.food.faulted) = true
  rw [← ht]
  simpa using hf

/-- The standing conditions of the start (R23). -/
theorem State.StartedAs.standing {y : State} (h : s.StartedAs y i r target) :
    y.standingHolds = { Holds.empty with mains := !s.sched.mainsPresent, sensor := y.relevantStalled } := by
  unfold State.standingHolds
  rw [State.sched_of_rest h.rest]

theorem State.startTimed_holds (hr : s.step i = r) (hh : ¬ s.hollow r) (hg : ¬ (r.kind = .add ∧ s.cal.gain = 0))
    (hf : ¬ (0 < target ∧ s.food.faulted = true)) (ht : target = min r.target s.limits.maxFoodTarget)
    (hst : s.sched.mainsPresent = false ∨ s.startStalled r target) : ∃ sensor : Bool, (sensor = true ↔ s.startStalled r target) ∧
      ({ Holds.empty with mains := !s.sched.mainsPresent, sensor := sensor } : Holds).gentle = false ∧
      s.startTimed i r = ((s.startSet i r).withEngine { (s.startSet i r).engine with phase := .entry }).enterHold
        { Holds.empty with mains := !s.sched.mainsPresent, sensor := sensor } := by
  have h := s.startSet_started i r
  rw [← ht] at h
  have hany : s.sched.mainsPresent = false ∨ (s.startSet i r).relevantStalled = true := hst.imp_right (h.stalled hr).2
  refine ⟨(s.startSet i r).relevantStalled, h.stalled hr, ?_, ?_⟩
  · refine Holds.not_gentle_of ?_
    rcases hany with hm | hm <;> simp [hm]
  · rw [State.startTimed_checked hh hg hf ht, h.standing]
    refine if_neg ?_
    rcases hany with hm | hm <;> simp [hm, Holds.empty]

theorem State.startTimed_runs (hr : s.step i = r) (hh : ¬ s.hollow r) (hg : ¬ (r.kind = .add ∧ s.cal.gain = 0))
    (hf : ¬ (0 < target ∧ s.food.faulted = true)) (ht : target = min r.target s.limits.maxFoodTarget)
    (hm : s.sched.mainsPresent = true) (hst : ¬ s.startStalled r target) :
    s.startTimed i r = (s.startSet i r).decideEntry := by
  have h := s.startSet_started i r
  rw [← ht] at h
  rw [State.startTimed_checked hh hg hf ht, h.standing, Bool.eq_false_iff.2 (fun hs => hst ((h.stalled hr).1 hs)), hm]
  exact if_pos rfl

end

@[simp] theorem State.unlocked_lock_state (s : State) : s.unlocked.lock.state = s.lock.state := rfl

/-- What a timed step start leaves is what the statements say of it. -/
theorem State.startTimed_timedStart {s : State} {i : Nat} {r : StepRecord} (hs : s.engine.state ≠ .faulted)
    (hr : s.step i = r) : s.timedStart (s.startTimed i r) i s.engine.previousTarget r := by
  have fault : ∀ code, s.startCheck r = some code →
      (s.withEngine { s.engine with index := i }).faultedWith (s.startTimed i r) code := fun code hc => by
    rw [State.startTimed_eq, hc]
    exact State.raiseFault_faultedWith (s := s.withEngine { s.engine with index := i }) hs code
  refine ⟨fun hh => fault _ (State.startCheck_hollow hh), fun hh hg => fault _ ?_, fun hh hg target ht => ⟨fun hf => ?_, fun hf => ?_⟩⟩
  · rw [State.startCheck_not_hollow hh]
    exact if_pos (by simpa using hg)
  · have hc : s.startCheck r = none := by
      rw [State.startCheck_not_hollow hh]
      exact if_neg (by simpa using hg)
    have he : s.startTimed i r = (s.startBase i r).raiseFault .foodSensor := by
      rw [State.startTimed_eq, hc]
      refine if_pos ?_
      change (decide (0 < min r.target s.limits.maxFoodTarget) && s.food.faulted) = true
      rw [← ht]
      simpa using hf
    rw [he]
    exact State.faultedWith_of (s := s.withEngine { s.engine with index := i }) (u := s.startBase i r)
      (show EngineState.running ≠ .faulted by decide) rfl rfl _
  · have h := s.startSet_started i r
    rw [← ht] at h
    by_cases hst : s.sched.mainsPresent = false ∨ s.startStalled r target
    · obtain ⟨sensor, hsensor, hgentle, he⟩ := State.startTimed_holds hr hh hg hf ht hst
      obtain ⟨hands, h1, h2, h3, h4, h5, h6, h7, h8⟩ := h.holds hgentle he ht
      refine ⟨hands, fun _ => ⟨h1, by rw [h2], by rw [h2]; exact hsensor, by rw [h2], h3, h4, h5, h6, h7, fun slot free hfree => ?_⟩,
        fun hm hn => ?_⟩
      · obtain ⟨v, hp, hv1, hv2, hv3, hv4, hv5, hv6⟩ := h8 slot free hfree
        rw [hp, h2]
        exact ⟨rfl, rfl, rfl, rfl, v, rfl, hv1, hv2, hv3, hv4, hv5, hv6⟩
      · rcases hst with hst | hst
        · rw [hm] at hst; exact Bool.noConfusion hst
        · exact absurd hst hn
    · rw [not_or, Bool.not_eq_false] at hst
      obtain ⟨hm, hn⟩ := hst
      rw [State.startTimed_runs hr hh hg hf ht hm hn]
      generalize s.startSet i r = y at h
      have hneeds := h.needs hr
      have hlock : y.lock = s.lock := h.lock
      suffices key : s.startHands y.decideEntry i s.engine.previousTarget r ∧
          (y.decideEntry.engine.state = .running ∧ y.decideEntry.engine.holds = .empty ∧
            y.decideEntry.pool = s.pool ∧ s.startHeats y.decideEntry r target ∧
            (y.decideEntry.engine.lockNeed = true ↔ s.needsLock r target) ∧ _) from
        ⟨key.1, fun hx => absurd hx (by rw [not_or, Bool.not_eq_false]; exact ⟨hm, hn⟩), fun _ _ => key.2⟩
      cases hneed : y.lockNeeded y.current with
      | false =>
        have hno : ¬ s.needsLock r target := fun hx => by rw [hneeds.2 hx] at hneed; exact Bool.noConfusion hneed
        rw [State.decideEntry_unlocked hneed]
        obtain ⟨hands, h1, h2, h3, h4, h5, h6, h7, -⟩ := h.enters (z := y.unlocked) (b := false) (State.unlocked_engine _)
          (State.unlocked_reg _) (State.unlocked_stir _) (State.unlocked_weigh _) (State.unlocked_pool _)
          (State.unlocked_report _) (by simp [State.unlocked]) hr ht
        refine ⟨hands, h1, h2, h3, h4, ?_, fun hx => absurd hx hno, fun _ => ⟨?_, ?_⟩, fun hx => absurd hx hno, fun _ => ⟨?_, h7⟩⟩
        · exact ⟨fun hx => absurd (h5.symm.trans hx) (by decide), fun hx => absurd hx hno⟩
        · exact (congrArg Lock.standing h6).trans (State.unlocked_standing _)
        · exact (congrArg Lock.state h6).trans (y.unlocked_lock_state.trans (congrArg Lock.state hlock))
        · exact (congrArg Lock.state h6).trans (y.unlocked_lock_state.trans (congrArg Lock.state hlock))
      | true =>
        have hyes := hneeds.1 hneed
        by_cases hl : s.lock.state = .engaged
        · have hl' : y.lock.state = .engaged := by rw [hlock]; exact hl
          rw [State.decideEntry_engaged hneed hl', State.lockRequest_engage_of_not_released
            (s := y.withEngine { y.engine with lockNeed := true })
            (show y.lock.state ≠ .released by rw [hl']; decide)]
          obtain ⟨hands, h1, h2, h3, h4, h5, h6, h7, -⟩ := h.enters (b := true)
            (z := (y.withEngine { y.engine with lockNeed := true }).withLock
              { y.lock with standing := .engage, releaseWait := false }) rfl rfl rfl rfl rfl rfl rfl hr ht
          refine ⟨hands, h1, h2, h3, h4, ⟨fun _ => hyes, fun _ => h5⟩, fun _ => ?_, fun hx => absurd hyes hx,
            fun _ hx => absurd hl hx, fun _ => ⟨?_, h7⟩⟩
          · exact ⟨congrArg Lock.standing h6, congrArg Lock.releaseWait h6⟩
          · have hstate : y.lock.state = s.lock.state := congrArg Lock.state hlock
            exact (congrArg Lock.state h6).trans hstate
        · have hl' : y.lock.state ≠ .engaged := by rw [hlock]; exact hl
          obtain ⟨hands, h1, h2, h3, h4, h5, h6, h7, h8, h9, h10, h11⟩ := h.waits (State.decideEntry_waiting hneed hl') ht
          refine ⟨hands, h1, h2, h3, h4, ⟨fun _ => hyes, fun _ => h5⟩, fun _ => ?_, fun hx => absurd hyes hx,
            fun _ _ => ⟨h6, h7, h8, h9, h10, ?_⟩, fun hx => absurd hx (by rw [not_or, not_not]; exact ⟨hyes, hl⟩)⟩
          · rw [h11]
            split <;> exact ⟨rfl, rfl⟩
          · rw [h11]
            split <;> rfl

/-! ### The statement of a timed step start under the picks, and from a state that differs elsewhere -/

@[simp] theorem State.picks_cappedSpeed (s : State) (v : Nat) : s.picks.cappedSpeed v = s.cappedSpeed v :=
  State.picks_reads (fun u => u.cappedSpeed v) (fun _ _ _ _ => rfl) s

theorem State.faultedWith_picks_iff {s t : State} {code : FaultCode} : s.faultedWith t.picks code ↔ s.faultedWith t code := by
  unfold State.faultedWith
  simp

/-- The picks at the end of a row leave what is said of a timed step start. -/
theorem State.timedStart.picks {s t : State} {i previous : Nat} {r : StepRecord} (h : s.timedStart t i previous r) :
    s.timedStart t.picks i previous r := by
  simp only [State.timedStart, State.startHands, State.startHeats, State.activeFresh, State.faultedWith_picks_iff,
    State.picks_engine, State.picks_pool, State.picks_reg, State.picks_stir, State.picks_lock, State.picks_weigh,
    State.picks_isPending, State.picks_report_lastAnnounced, State.picks_cappedSpeed] at h ⊢
  exact h

/-- What is said of a timed step start reads these parts of the state before it. -/
theorem State.timedStart.congr {s s' t : State} {i previous : Nat} {r : StepRecord} (h : s.timedStart t i previous r)
    (hpat : s.patterns = s'.patterns) (hpool : s.pool = s'.pool) (hcal : s.cal = s'.cal) (hlim : s.limits = s'.limits)
    (hfood : s.food = s'.food) (hsched : s.sched = s'.sched) (hintake : s.intake = s'.intake) (hlock : s.lock = s'.lock)
    (hreg : s.reg.integrator = s'.reg.integrator) (hlast : s.report.lastAnnounced = s'.report.lastAnnounced)
    (hcom : s.stir.commanded = s'.stir.commanded) : s'.timedStart t i previous r := by
  have hfw : ∀ code, (s.withEngine { s.engine with index := i }).faultedWith t code ↔
      (s'.withEngine { s'.engine with index := i }).faultedWith t code :=
    fun code => ⟨fun k => k.congr rfl hpool, fun k => k.congr rfl hpool.symm⟩
  simp only [State.timedStart, State.startHands, State.startHeats, State.activeFresh, State.hollow, State.startStalled,
    State.needsLock, State.pattern, hfw, hpat, hpool, hcal, hlim, hfood, hsched, hintake, hlock, hreg, hlast, hcom] at h ⊢
  exact h

end Sys2Proof.Machine
end

