-- ==== Sys2Proof/Proofs/StepEndRows.lean ====
section
/-! A step that ends and the index the engine reaches then (R34). -/

namespace Sys2Proof.Machine

/-! ### States alike for the engine -/

/-- The states agree in what a step start reads: they may differ in the links, the receivers and the report unit's lanes. -/
structure State.Alike (s u : State) : Prop where
  engine : u.engine = s.engine
  pool : u.pool = s.pool
  reg : u.reg = s.reg
  stir : u.stir = s.stir
  lock : u.lock = s.lock
  steps : u.steps = s.steps
  patterns : u.patterns = s.patterns
  cal : u.cal = s.cal
  limits : u.limits = s.limits
  food : u.food = s.food
  sched : u.sched = s.sched
  intake : u.intake = s.intake
  lastAnnounced : u.report.lastAnnounced = s.report.lastAnnounced

theorem State.Alike.refl (s : State) : s.Alike s := ⟨rfl, rfl, rfl, rfl, rfl, rfl, rfl, rfl, rfl, rfl, rfl, rfl, rfl⟩

theorem State.raise_alike (s : State) (n : Notice) : s.Alike (s.raise n) :=
  ⟨rfl, rfl, rfl, rfl, rfl, rfl, rfl, rfl, rfl, rfl, rfl, rfl, Report.raise_lastAnnounced _ _⟩

theorem State.picks_answer_alike (s : State) (tag : Byte) (st : Status) (bytes : List Byte) :
    s.Alike (s.picks.answer tag st bytes) :=
  ⟨s.picks_engine, s.picks_pool, s.picks_reg, s.picks_stir, s.picks_lock, s.picks_steps, s.picks_patterns, s.picks_cal,
    s.picks_limits, s.picks_food, s.picks_sched, s.picks_intake, s.picks_report_lastAnnounced⟩

theorem State.Alike.step {s u : State} (h : s.Alike u) (i : Nat) : u.step i = s.step i := by
  unfold State.step; rw [h.steps]

/-! ### The end of a step -/

/-- The state in which the next step start is made, after a step has ended with outcome `o` (R34). -/
def State.ended (s : State) (o : StepOutcome) : State :=
  ((s.withEngine { s.engine.noStep with lastOutcome := some o }).clearStepSupervision).clearReference

theorem State.endStep_eq (s : State) (o : StepOutcome) : s.endStep o = (s.ended o).startStep (s.engine.index + 1) := rfl

theorem State.stepInProgress_starved {s : State} {n i : Nat} {x : Holds} {rest : List (Nat × Context)}
    (hs : s.engine.state = .held) (hc : s.pool.chain = (n, .starved x i) :: rest) : s.stepInProgress = none := by
  unfold State.stepInProgress Pool.heldRecord
  rw [hs, hc]; rfl

/-- What each record at the next index comes to. -/
theorem State.endStep_reaches {s u : State} (h : s.Alike u) (o : StepOutcome) (hrun : s.engine.state = .running)
    {slot : Nat} {free : List Nat} :
    (s.engine.index = 255 → (u.endStep o).engine.state = .faulted ∧ (u.endStep o).engine.fault = some .stepRange ∧
      (u.endStep o).engine.index = 255 ∧ (u.endStep o).pool = s.pool) ∧
    (s.engine.index < 255 → (s.step (s.engine.index + 1)).kind = .finish →
      (u.endStep o).engine.state = .ending ∧ (u.endStep o).engine.recipeOutcome = some .completed ∧
      (u.endStep o).engine.index = s.engine.index + 1 ∧ (u.endStep o).pool.chain = [] ∧ (u.endStep o).pool.depth = 0 ∧
      (u.endStep o).reg.target = 0 ∧ (u.endStep o).stir.commanded = 0) ∧
    (s.engine.index < 255 → (s.step (s.engine.index + 1)).kind = .empty → s.pool.free = slot :: free →
      s.food.faulted = false → (u.endStep o).engine.state = .held ∧ (u.endStep o).engine.holds.starved = true ∧
      (u.endStep o).engine.index = s.engine.index + 1 ∧ (u.endStep o).pool.pendingIndex = some (s.engine.index + 1) ∧
      (u.endStep o).pool.free = free ∧ (u.endStep o).pool.depth = s.pool.depth ∧
      (u.endStep o).report.isPending .starved = true ∧ (u.endStep o).report.isPending .held = true ∧
      (u.endStep o).stir.commanded = 0 ∧ (u.endStep o).stepInProgress = none) ∧
    (∀ r, s.engine.index < 255 → r = s.step (s.engine.index + 1) → r.kind = .cook ∨ r.kind = .add ∨ r.kind = .waitUser →
      s.timedStart (u.endStep o) (s.engine.index + 1) s.engine.previousTarget r) := by
  have hi : u.engine.index = s.engine.index := congrArg Engine.index h.engine
  have hstep : ∀ j, (u.ended o).step j = s.step j := h.step
  have hnf : (u.ended o).engine.state ≠ .faulted := by
    change u.engine.state ≠ _
    rw [h.engine, hrun]; decide
  have hpool : (u.ended o).pool = s.pool := h.pool
  rw [State.endStep_eq, hi]
  refine ⟨fun h255 => ?_, fun hlt hk => ?_, fun hlt hk hfree hf => ?_, fun r hlt hr hk => ?_⟩
  · rw [State.startStep_beyond (by omega)]
    obtain ⟨h1, h2, -, -, -, -, -, -, h3, -, -, -, -, -, -, -, h4, -⟩ := State.raiseFault_faultedWith hnf .stepRange
    exact ⟨h1, h2, h3.trans (hi.trans h255), h4.trans hpool⟩
  · rw [State.startStep_finish (by omega) (by rw [hstep]; exact hk)]
    obtain ⟨he, hp, hreg, hcom, -⟩ := State.enterEnding_fields
      ((u.ended o).withEngine { (u.ended o).engine with index := s.engine.index + 1 }) .completed
    rw [he, hp, hreg, hcom]
    exact ⟨rfl, rfl, rfl, rfl, rfl, rfl, rfl⟩
  · obtain ⟨n, hn⟩ := chainFuel_succ
    have hst : (u.ended o).startStep (s.engine.index + 1) = (u.ended o).enterStarved (s.engine.index + 1) := by
      rw [State.startStep, hn, stepStart_empty n (by omega) (by rw [hstep]; exact hk)]
    have hf' : (u.ended o).food.faulted = false := by
      change u.food.faulted = _
      rw [h.food]; exact hf
    have hp := State.enterStarved_pool (s := u.ended o) hf' (by rw [hpool]; exact hfree) (s.engine.index + 1)
    obtain ⟨he, -, hrep⟩ := State.enterStarved_fields (s := u.ended o) hf' (s.engine.index + 1)
    have hcom : ((u.ended o).enterStarved (s.engine.index + 1)).stir.commanded = 0 := by
      rw [State.enterStarved_of_safe hf', State.heldSet_stir]; rfl
    have hstate : ((u.ended o).enterStarved (s.engine.index + 1)).engine.state = .held := by rw [he]
    have hprog := State.stepInProgress_starved hstate (by rw [hp])
    rw [hst, hcom, hprog, hp, he, hrep]
    exact ⟨rfl, rfl, rfl, rfl, rfl, (show (u.ended o).pool.depth = s.pool.depth by rw [hpool]), Report.raise_mono _ _ _ (State.raise_isPending _ _),
      State.raise_isPending _ _, rfl, rfl⟩
  · have ht := State.startTimed_timedStart (r := r) (i := s.engine.index + 1) hnf ((hstep _).trans hr.symm)
    rw [State.startStep_timed (by omega) (by rw [hstep, ← hr]; exact hk), hstep, ← hr]
    have hprev : (u.ended o).engine.previousTarget = s.engine.previousTarget := by
      change u.engine.previousTarget = _
      rw [h.engine]
    have hcom : (u.ended o).stir.commanded = s.stir.commanded := by
      change u.stir.commanded = _
      rw [h.stir]
    have hint : (u.ended o).reg.integrator = s.reg.integrator := congrArg Regulator.integrator h.reg
    rw [hprev] at ht
    exact ht.congr h.patterns h.pool h.cal h.limits h.food h.sched h.intake h.lock hint
      h.lastAnnounced hcom

theorem takeSkip_running {tag : Byte} {s : State} (h : s.engine.state = .running) :
    takeSkip tag [] s = (s.answer tag .ok []).endStep .skipped := by
  simp [takeSkip, h]

theorem State.endStep_answered {s : State} {f : Frame} (h : f ∈ s.report.answers) (o : StepOutcome) :
    f ∈ (s.endStep o).report.answers := by
  obtain ⟨ha, -⟩ := s.endStep_within o .lanes (by decide)
  rwa [ha]

theorem State.endStep_calm {s : State} (h : s.calm) (o : StepOutcome) : (s.endStep o).calm :=
  (s.endStep_within o .queue (by decide)).trans h

end Sys2Proof.Machine

namespace Sys2Proof.Proofs
open Sys2Proof.Machine

/-- Settles O38: the three ends of a step, and the record at the next index. -/
theorem stepEndReachesNext : Obligations.StepEndReachesNext := by
  refine ⟨fun s hs => ⟨fun h => ?_, fun h => ?_⟩, fun s c o tag slot free hs hrun hc => ?_⟩
  · have he : s.durationExpires = s := if_neg (by rcases h with h | h <;> simp [h])
    exact State.leadsTo_of (c := .stepDurationExpiry) (u := s) (congrArg (fun u : State => Host.Outcome.next u.settle) he) hs rfl
  · have he : s.limitExpires = s := if_neg (by simp [h])
    exact State.leadsTo_of (c := .stepLimitExpiry) (u := s) (congrArg (fun u : State => Host.Outcome.next u.settle) he) hs rfl
  · obtain ⟨u, hu, hrow, hlimit, hans⟩ : ∃ u, s.Alike u ∧ exec c s = .next (u.endStep o).picks ∧
        (o = .limit → u.report.isPending .limit = true) ∧
        (o = .skipped → (u.endStep o).picks.answered (answerFrame tag .ok [])) := by
      rcases hc with ⟨rfl, rfl, hr, hcond⟩ | ⟨rfl, rfl, hr⟩ | ⟨rfl, rfl⟩
      · have he : s.durationExpires = s.endStep .completed := if_pos (by simp [hr, hcond])
        exact ⟨s, .refl s, exec_event_picks (c := .stepDurationExpiry) (congrArg (fun u : State => Host.Outcome.next u.settle) he)
          (State.endStep_calm (s := s) hs.1 _), fun h => StepOutcome.noConfusion h, fun h => StepOutcome.noConfusion h⟩
      · have he : s.limitExpires = (s.raise .limit).endStep .limit := if_pos hr
        exact ⟨s.raise .limit, s.raise_alike _, exec_event_picks (c := .stepLimitExpiry) (congrArg (fun u : State => Host.Outcome.next u.settle) he)
          (State.endStep_calm (s := s.raise .limit) hs.1 _), fun _ => State.raise_isPending _ _, fun h => StepOutcome.noConfusion h⟩
      · obtain ⟨h1, h2⟩ := exec_answered (c := .doSkip tag []) (tag := tag) (st := .ok) (bytes := []) rfl hs rfl
          (takeSkip_running (s := s.picks) (by rwa [State.picks_engine]))
          (State.endStep_answered (State.answer_mem _ _ _ _) _)
        exact ⟨_, s.picks_answer_alike tag .ok [], h1, fun h => StepOutcome.noConfusion h, fun _ => h2⟩
    obtain ⟨hrange, hfinish, hempty, htimed⟩ := State.endStep_reaches hu o hrun (slot := slot) (free := free)
    refine ⟨_, hrow, ?_⟩
    simp only [State.picks_engine, State.picks_weigh, State.picks_isPending, State.picks_pool, State.picks_reg,
      State.picks_stir, State.picks_stepInProgress]
    exact ⟨(State.endStep_ends _ _).1, (State.endStep_ends _ _).2,
      fun h => u.endStep_within o .notices (by decide) _ (hlimit h), hans, hrange, hfinish, hempty,
      fun r hlt hr hk => (htimed r hlt hr hk).picks⟩

end Sys2Proof.Proofs
end

