-- ==== Sys2Proof/Proofs/StartCommandRows.lean ====
section
/-! DO START (R36). -/

namespace Sys2Proof.Machine

theorem byteAt_one (i : Byte) : byteAt [i] 0 = i.toNat := rfl

/-- The state from which DO START makes its step start: the answer given, the outcomes cleared, no previous target. -/
def State.cleared (s : State) (tag : Byte) : State :=
  (s.picks.answer tag .ok []).withEngine { s.engine with lastOutcome := none, recipeOutcome := none, previousTarget := 0 }

theorem takeStart_busy {tag i : Byte} {s : State} (h : s.engine.state ≠ .idle) : takeStart tag [i] s = s.answer tag .busy [] := by
  simp [takeStart, h]

theorem takeStart_notReady {tag i : Byte} {s : State} (h : s.engine.state = .idle) (hr : s.ready = false) :
    takeStart tag [i] s = s.answer tag .notReady [] := by
  simp [takeStart, h, hr]

theorem takeStart_taken {tag i : Byte} {s : State} (h : s.engine.state = .idle) (hr : s.ready = true) :
    takeStart tag [i] s.picks = (s.cleared tag).startStep i.toNat := by
  unfold takeStart State.cleared
  rw [if_neg (by simp), if_neg (by simp [h]), if_neg (by simp [hr])]
  dsimp only
  rw [State.answer_engine, State.picks_engine, byteAt_one]

theorem State.ready_iff (s : State) : s.ready = true ↔ s.base.loaded = true ∧ s.food.loaded = true ∧ s.board.loaded = true ∧
    s.lines.lid.level = .high ∧ s.lines.bowl.level = .high ∧ s.causePresent = false := by
  simp [State.ready, and_assoc]

/-- The row of a DO START that is accepted. -/
theorem exec_start {s : State} {tag i : Byte} (hs : s.free) (h : s.engine.state = .idle) (hr : s.ready = true) :
    exec (.doStart tag [i]) s = .next ((s.cleared tag).startStep i.toNat).picks ∧
    ((s.cleared tag).startStep i.toNat).picks.answered (answerFrame tag .ok []) := by
  refine exec_answered (c := .doStart tag [i]) rfl hs rfl (takeStart_taken h hr) ?_
  obtain ⟨ha, -⟩ := stepStart_within chainFuel i.toNat (s.cleared tag) .lanes (by decide)
  rw [State.startStep, ha]
  exact State.answer_mem _ _ _ _

section
variable {s : State} {tag : Byte}

theorem State.cleared_step (i : Nat) : (s.cleared tag).step i = s.step i := s.picks_step i
theorem State.cleared_pool : (s.cleared tag).pool = s.pool := s.picks_pool
theorem State.cleared_reg : (s.cleared tag).reg = s.reg := s.picks_reg
theorem State.cleared_lock : (s.cleared tag).lock = s.lock := s.picks_lock
theorem State.cleared_limits : (s.cleared tag).limits = s.limits := s.picks_limits
theorem State.cleared_food : (s.cleared tag).food = s.food := s.picks_food
theorem State.cleared_sched : (s.cleared tag).sched = s.sched := s.picks_sched
theorem State.cleared_intake : (s.cleared tag).intake = s.intake := s.picks_intake

/-- A timed step start by DO START. -/
theorem State.cleared_startStep (i : Nat) (hi : i < 256) {r : StepRecord} (hr : r = s.step i)
    (hk : r.kind = .cook ∨ r.kind = .add ∨ r.kind = .waitUser) : (s.cleared tag).startStep i = (s.cleared tag).startTimed i r := by
  rw [State.startStep_timed hi (by rw [State.cleared_step, ← hr]; exact hk), State.cleared_step, ← hr]

theorem State.cleared_timedStart (h : s.engine.state ≠ .faulted) (i : Nat) {r : StepRecord} (hr : r = s.step i) :
    s.timedStart ((s.cleared tag).startTimed i r) i 0 r :=
  (State.startTimed_timedStart (s := s.cleared tag) (r := r) h ((State.cleared_step i).trans hr.symm)).congr s.picks_patterns
    s.picks_pool s.picks_cal s.picks_limits s.picks_food s.picks_sched s.picks_intake s.picks_lock
    (congrArg Regulator.integrator s.picks_reg) s.picks_report_lastAnnounced (congrArg Stir.commanded s.picks_stir)

end

/-- A timed step start that no hold and no lock need stops, in full. -/
theorem State.startTimed_unlocked {s : State} {i target : Nat} {r : StepRecord} (hr : s.step i = r) (hh : ¬ s.hollow r)
    (hg : ¬ (r.kind = .add ∧ s.cal.gain = 0)) (hf : ¬ (0 < target ∧ s.food.faulted = true))
    (ht : target = min r.target s.limits.maxFoodTarget) (hm : s.sched.mainsPresent = true) (hst : ¬ s.startStalled r target)
    (hn : ¬ s.needsLock r target) :
    let t := s.startTimed i r
    s.startHands t i s.engine.previousTarget r ∧ t.pool = s.pool ∧ s.startHeats t r target ∧ t.lock.standing = .release ∧
    s.activeFresh t r target ∧
    t.engine = { s.engine.started i target with
      lockNeed := false, phase := .active, reached := decide (target = 0), sub := firstSubPhase r.kind (decide (target = 0)) } ∧
    (r.flags.announce = false → t.report = s.report) := by
  have h := s.startSet_started i r
  rw [← ht] at h
  dsimp only
  rw [State.startTimed_runs hr hh hg hf ht hm hst]
  generalize s.startSet i r = y at h
  have hneed : y.lockNeeded y.current = false := Bool.eq_false_iff.2 fun hx => hn ((h.needs hr).1 hx)
  rw [State.decideEntry_unlocked hneed]
  obtain ⟨hands, -, -, h3, h4, -, h6, h7, h8, h9⟩ := h.enters (z := y.unlocked) (b := false) (State.unlocked_engine _)
    (State.unlocked_reg _) (State.unlocked_stir _) (State.unlocked_weigh _) (State.unlocked_pool _)
    (State.unlocked_report _) (by simp [State.unlocked]) hr ht
  exact ⟨hands, h3, h4, (congrArg Lock.standing h6).trans (State.unlocked_standing _), h7, h8, fun ha => h9.trans (h.silent ha)⟩

/-- The lock of a timed step start that waits for it in ENTRY. -/
theorem State.startTimed_waiting_lock {s : State} {i target : Nat} {r : StepRecord} (hr : s.step i = r) (hh : ¬ s.hollow r)
    (hg : ¬ (r.kind = .add ∧ s.cal.gain = 0)) (hf : ¬ (0 < target ∧ s.food.faulted = true))
    (ht : target = min r.target s.limits.maxFoodTarget) (hm : s.sched.mainsPresent = true) (hst : ¬ s.startStalled r target)
    (hn : s.needsLock r target) (hl : s.lock.state ≠ .engaged) :
    (s.startTimed i r).lock = if s.lock.state = .released then
      { s.lock with standing := .engage, releaseWait := false, latch := .engage, timer := 0, state := .engaging }
      else { s.lock with standing := .engage, releaseWait := false } := by
  have h := s.startSet_started i r
  rw [← ht] at h
  rw [State.startTimed_runs hr hh hg hf ht hm hst]
  generalize s.startSet i r = y at h
  obtain ⟨-, -, -, -, -, -, -, -, -, -, -, hlock⟩ := h.waits
    (State.decideEntry_waiting ((h.needs hr).2 hn) (by rw [h.lock]; exact hl)) ht
  exact hlock

/-- A step without a pattern is not hollow. -/
theorem State.not_hollow_of_none {s : State} {r : StepRecord} (h : r.pattern = none) : ¬ s.hollow r := by
  rintro ⟨p, hp, -⟩
  rw [h] at hp
  exact nomatch hp

/-- The relevant streams of a COOK step without a pattern. -/
theorem State.startStalled_cook {s : State} {r : StepRecord} (hk : r.kind = .cook) (hp : r.pattern = none) (target : Nat) :
    s.startStalled r target ↔ s.intake.levels.live = false ∨ (0 < target ∧ s.intake.temp.live = false) := by
  simp [State.startStalled, hk, hp]

/-- The lock need of a step without a pattern. -/
theorem State.needsLock_none {s : State} {r : StepRecord} (hp : r.pattern = none) (target : Nat) :
    s.needsLock r target ↔ r.flags.forceLock = true ∨ s.limits.lockTemp < target := by
  simp [State.needsLock, hp]

end Sys2Proof.Machine

namespace Sys2Proof.Proofs
open Sys2Proof.Machine

/-- Settles O53: the refusals of DO START, and the timed step start it makes. -/
theorem startCommand : Obligations.StartCommand := by
  intro s tag i r target hs
  have hi : i.toNat < 256 := i.isLt
  refine ⟨fun h => ?_, fun h hno => ?_, fun h hb hf hd hlid hbowl hc hr hk hp hramp hforce ht hlt hm hlev htemp => ?_,
    fun h hready hr hk hp ht hfood => ⟨fun hm hlev htemp hneed => ?_, fun slot free sensor hfree hsensor hhold => ?_⟩,
    fun h hready hr hk => ?_⟩
  · exact State.refuses_of rfl hs rfl (takeStart_busy (by rwa [State.picks_engine]))
  · refine State.refuses_of rfl hs rfl (takeStart_notReady (by rwa [State.picks_engine]) ?_)
    rw [State.picks_ready, Bool.eq_false_iff, Ne, State.ready_iff]
    rintro ⟨h1, h2, h3, h4, h5, h6⟩
    rcases hno with hn | hn | hn | hn | hn | hn
    · rw [h1] at hn; exact Bool.noConfusion hn
    · rw [h2] at hn; exact Bool.noConfusion hn
    · rw [h3] at hn; exact Bool.noConfusion hn
    · exact hn h4
    · exact hn h5
    · rw [h6] at hn; exact Bool.noConfusion hn
  · obtain ⟨hrow, hans⟩ := exec_start (tag := tag) (i := i) hs h (s.ready_iff.2 ⟨hb, hf, hd, hlid, hbowl, hc⟩)
    rw [State.cleared_startStep i.toNat hi hr (.inl hk)] at hrow hans
    have hno : ¬ s.needsLock r target := by
      rw [State.needsLock_none hp, hforce]
      rintro (hx | hx)
      · exact Bool.noConfusion hx
      · omega
    have hlive : ¬ s.startStalled r target := by
      rw [State.startStalled_cook hk hp, hlev]
      rintro (hx | ⟨hx, hy⟩)
      · exact Bool.noConfusion hx
      · rw [(htemp hx).1] at hy; exact Bool.noConfusion hy
    have hgood : ¬ (0 < target ∧ s.food.faulted = true) := fun ⟨hx, hy⟩ => by
      rw [(htemp hx).2] at hy; exact Bool.noConfusion hy
    obtain ⟨hands, hpool, heats, hlock, hact, heng, hrep⟩ := State.startTimed_unlocked (s := s.cleared tag) (r := r)
      ((State.cleared_step i.toNat).trans hr.symm) (State.not_hollow_of_none hp) (by rw [hk]; exact fun hx => nomatch hx.1)
      (by rw [State.cleared_food]; exact hgood) (by rw [State.cleared_limits]; exact ht) (by rw [State.cleared_sched]; exact hm)
      (by unfold State.startStalled at hlive ⊢; rw [State.cleared_intake]; exact hlive)
      (by rw [State.needsLock_none hp, State.cleared_limits]; rw [State.needsLock_none hp] at hno; exact hno)
    generalize (s.cleared tag).startTimed i.toNat r = t at *
    obtain ⟨-, -, -, -, -, -, -, href, hint, hann, -⟩ := hands
    obtain ⟨hz1, -, -, -, hz⟩ := heats
    obtain ⟨hramp0, hset⟩ := hz (.inl hramp)
    obtain ⟨-, -, -, -, -, hrunning, -, -, -, -, -, -, -, -, -, hstill, -⟩ := hact
    refine ⟨_, hrow, hans, ?_⟩
    rw [State.picks_engine, State.picks_reg, State.picks_pool, State.picks_lock, State.picks_stir, State.picks_weigh,
      State.picks_stepInProgress, State.picks_report_lastAnnounced, State.picks_isPending, State.picks_report_pendingSet]
    refine ⟨?_, hz1, hset, hramp0, ?_, hpool.trans State.cleared_pool, hlock, hrunning.trans hp, (hstill hp).2, href, ?_, hann,
      fun ha => ?_⟩
    · have hsub : firstSubPhase .cook (decide (target = 0)) = if target = 0 then .reached else .approach := by
        by_cases h0 : target = 0 <;> simp [firstSubPhase, h0]
      rw [heng, hk, hsub]
      rfl
    · rw [hint, State.cleared_limits, State.cleared_reg, ← ht]; rfl
    · unfold State.stepInProgress
      rw [heng]; rfl
    · rw [hrep ha]
      exact ⟨s.picks_report_lastAnnounced, s.picks_report_pendingSet⟩
  · obtain ⟨hrow, hans⟩ := exec_start (tag := tag) (i := i) hs h hready
    rw [State.cleared_startStep i.toNat hi hr (.inl hk)] at hrow hans
    have hyes : s.needsLock r target := (State.needsLock_none hp target).2 hneed
    have hlive : ¬ s.startStalled r target := by
      rw [State.startStalled_cook hk hp, hlev]
      rintro (hx | ⟨hx, hy⟩)
      · exact Bool.noConfusion hx
      · rw [htemp hx] at hy; exact Bool.noConfusion hy
    have hgood : ¬ (0 < target ∧ s.food.faulted = true) := fun ⟨hx, hy⟩ => by
      rw [hfood hx] at hy; exact Bool.noConfusion hy
    have hnh : ¬ s.hollow r := State.not_hollow_of_none hp
    have hna : ¬ (r.kind = .add ∧ s.cal.gain = 0) := by rw [hk]; exact fun hx => nomatch hx.1
    obtain ⟨-, -, hstart⟩ := State.cleared_timedStart (s := s) (tag := tag) (by rw [h]; decide) i.toNat hr
    obtain ⟨-, hgo⟩ := hstart hnh hna target ht
    obtain ⟨hands, -, hruns⟩ := hgo hgood
    obtain ⟨hrun, -, -, heats, hneeds, hstand, -, hwait, hact⟩ := hruns hm hlive
    have hlock : s.lock.state ≠ .engaged → ((s.cleared tag).startTimed i.toNat r).lock = if s.lock.state = .released then
        { s.lock with standing := .engage, releaseWait := false, latch := .engage, timer := 0, state := .engaging }
        else { s.lock with standing := .engage, releaseWait := false } := fun hne => by
      refine (State.startTimed_waiting_lock (s := s.cleared tag) (target := target) (r := r)
        ((State.cleared_step i.toNat).trans hr.symm) (State.not_hollow_of_none hp) (by rw [hk]; exact fun hx => nomatch hx.1) (by rw [State.cleared_food]; exact hgood)
        (by rw [State.cleared_limits]; exact ht) (by rw [State.cleared_sched]; exact hm)
        (by unfold State.startStalled at hlive ⊢; rw [State.cleared_intake]; exact hlive)
        (by rw [State.needsLock_none hp, State.cleared_limits]; exact hneed) (by rw [State.cleared_lock]; exact hne)).trans ?_
      rw [State.cleared_lock]
    generalize (s.cleared tag).startTimed i.toNat r = t at *
    obtain ⟨hindex, hclamped, -⟩ := hands
    obtain ⟨htarget, -⟩ := heats
    refine ⟨_, hrow, hans, ?_⟩
    rw [State.picks_engine, State.picks_reg, State.picks_lock, State.picks_stir]
    refine ⟨hrun, hindex, hneeds.2 hyes, hclamped.trans ht.symm, (hstand hyes).1, (hstand hyes).2, htarget, ?_, fun hl => ?_,
      fun hl => ?_, fun hl => ?_⟩
    · by_cases hl : s.lock.state = .engaged
      · obtain ⟨-, -, -, -, -, -, -, -, -, -, -, -, -, -, -, -, hstill, -⟩ := hact (.inr hl)
        exact (hstill hp).2
      · exact (hwait hyes hl).2.2.2.1
    · have hne : s.lock.state ≠ .engaged := by rw [hl]; decide
      rw [hlock hne, if_pos hl]
      exact ⟨(hwait hyes hne).1, (hwait hyes hne).2.1, rfl, rfl, rfl⟩
    · have hne : s.lock.state ≠ .engaged := by rcases hl with hl | hl | hl <;> rw [hl] <;> decide
      have hnr : s.lock.state ≠ .released := by rcases hl with hl | hl | hl <;> rw [hl] <;> decide
      rw [hlock hne, if_neg hnr]
      exact ⟨(hwait hyes hne).1, (hwait hyes hne).2.1, rfl, rfl⟩
    · obtain ⟨hstate, hphase, -⟩ := hact (.inr hl)
      exact ⟨hphase, hstate.trans hl⟩
  · obtain ⟨hrow, hans⟩ := exec_start (tag := tag) (i := i) hs h hready
    rw [State.cleared_startStep i.toNat hi hr (.inl hk)] at hrow hans
    have hgood : ¬ (0 < target ∧ s.food.faulted = true) := fun ⟨hx, hy⟩ => by
      rw [hfood hx] at hy; exact Bool.noConfusion hy
    have hset := State.startSet_started (s.cleared tag) i.toNat r
    rw [State.cleared_limits, ← ht] at hset
    obtain ⟨x, hx, hgentle, he⟩ := State.startTimed_holds (s := s.cleared tag) (target := target) (r := r)
      ((State.cleared_step i.toNat).trans hr.symm) (State.not_hollow_of_none hp) (by rw [hk]; exact fun hx => nomatch hx.1)
      (by rw [State.cleared_food]; exact hgood) (by rw [State.cleared_limits]; exact ht)
      (by rw [State.cleared_sched, State.startStalled_cook hk hp, State.cleared_intake, ← hsensor]; exact hhold)
    have hxs : x = sensor := by
      rw [State.startStalled_cook hk hp, State.cleared_intake, ← hsensor] at hx
      exact Bool.eq_iff_iff.2 hx
    rw [State.cleared_sched, hxs] at hgentle he
    obtain ⟨hands, h1, h2, h3, h4, h5, h6, h7, h8⟩ := hset.holds hgentle he (by rw [State.cleared_limits]; exact ht)
    obtain ⟨v, hpool, hv1, hv2, hv3, hv4, hv5, hv6⟩ := h8 slot free (by rw [State.cleared_pool]; exact hfree)
    obtain ⟨hindex, -⟩ := hands
    rw [State.cleared_pool] at hpool
    refine ⟨_, v, hrow, hans, ?_⟩
    rw [State.picks_engine, State.picks_reg, State.picks_lock, State.picks_pool, State.picks_isPending]
    exact ⟨h1, hindex, h2, hpool, hv1, hv2, hv3, hv4, hv5, hv6.trans h2.symm, h6.trans (by rw [State.cleared_lock]), h5, h3, h7⟩
  · obtain ⟨hrow, hans⟩ := exec_start (tag := tag) (i := i) hs h hready
    rw [State.cleared_startStep i.toNat hi hr hk] at hrow hans
    exact ⟨_, hrow, hans, (State.cleared_timedStart (by rw [h]; decide) i.toNat hr).picks⟩

end Sys2Proof.Proofs
end

