-- ==== Sys2Proof/Proofs/StepWriteRows.lean ====
section
/-! STEP_WRITE and STEP_READ (R7 to R16). -/

namespace Sys2Proof.Machine

theorem State.step_storeStep_same (s : State) {i : Nat} (hi : i < 256) (r : StepRecord) : (s.storeStep i r).step i = r := by
  simp [State.step, State.storeStep, hi]

theorem State.step_storeStep_other (s : State) {i j : Nat} (h : j ≠ i) (r : StepRecord) :
    (s.storeStep i r).step j = s.step j := by
  simp [State.step, State.storeStep, Ne.symm h]

/-- The state after an accepted STEP_WRITE, before the engine has it (R7). -/
def State.written (s : State) (tag : Byte) (i : Nat) (r : StepRecord) : State :=
  (s.picks.storeStep i r.stored).answer tag .ok []

section
variable {s : State} {tag i : Byte} {bytes : List Byte} {r : StepRecord}

theorem takeStepWrite_protected (hlen : bytes.length = 16) (h : s.stepInProgress = some i.toNat) :
    takeStepWrite tag (i :: bytes) s = s.answer tag .isProtected [] := by
  unfold takeStepWrite
  rw [if_neg (by simp [hlen])]
  exact if_pos h

theorem takeStepWrite_invalid (hlen : bytes.length = 16) (h : s.stepInProgress ≠ some i.toNat)
    (hr : ∀ r, readStep bytes = some r → r.valid = false) :
    takeStepWrite tag (i :: bytes) s = s.answer tag .badField [] := by
  unfold takeStepWrite
  rw [if_neg (by simp [hlen])]
  refine (if_neg h).trans ?_
  rw [List.drop_succ_cons, List.drop_zero]
  cases hd : readStep bytes with
  | none => rfl
  | some r => exact if_neg (by rw [hr r hd]; decide)

theorem takeStepWrite_accepted (hlen : bytes.length = 16) (h : s.stepInProgress ≠ some i.toNat)
    (hr : readStep bytes = some r) (hv : r.valid = true) :
    takeStepWrite tag (i :: bytes) s.picks = (s.written tag i.toNat r).starvedWrite i.toNat r.kind := by
  unfold takeStepWrite
  rw [if_neg (by simp [hlen])]
  refine (if_neg (by rw [State.picks_stepInProgress]; exact h)).trans ?_
  rw [List.drop_succ_cons, List.drop_zero, hr]
  exact if_pos hv

/-- A write that does not reach the engine. -/
theorem State.starvedWrite_silent {k : Nat} {kind : StepKind} (h : ¬ (s.engine.state = .held ∧ s.engine.holds.starved = true ∧
    s.pool.pendingIndex = some k ∧ kind ≠ .empty)) : s.starvedWrite k kind = s :=
  if_neg (by simpa [and_assoc] using h)

theorem State.starvedWrite_drops {k : Nat} {kind : StepKind} (h1 : s.engine.state = .held) (h2 : s.engine.holds.starved = true)
    (h3 : s.pool.pendingIndex = some k) (h4 : kind ≠ .empty) :
    s.starvedWrite k kind = s.keepHolds { s.engine.holds with starved := false } :=
  if_pos (by simp [h1, h2, h3, h4])

/-- With a pending index no started step is held. -/
theorem Pool.heldRecord_of_pending {p : Pool} {k : Nat} (h : p.pendingIndex = some k) : p.heldRecord = none := by
  unfold Pool.pendingIndex at h
  split at h
  · next hc => unfold Pool.heldRecord; rw [hc]
  · exact nomatch h

theorem State.no_step_of_pending {k : Nat} (hs : s.engine.state = .held) (h : s.pool.pendingIndex = some k) (j : Nat) :
    s.stepInProgress ≠ some j := by
  unfold State.stepInProgress
  rw [hs, Pool.heldRecord_of_pending h]
  exact fun hx => nomatch hx

end

/-- The state from which a STARVED hold resumes at its pending index (R46). -/
def State.unstarved (s : State) (slot : Nat) (rest : List (Nat × Context)) : State :=
  (s.withPool { free := slot :: s.pool.free, chain := rest, depth := s.pool.depth }).withEngine
    { s.engine with state := .running, holds := .empty }

theorem State.keepHolds_unstarved {s : State} {slot k : Nat} {x : Holds} {rest : List (Nat × Context)}
    (hs : s.engine.state = .held) (hh : s.engine.holds = { Holds.empty with starved := true })
    (hc : s.pool.chain = (slot, .starved x k) :: rest) :
    s.keepHolds { s.engine.holds with starved := false } = (s.unstarved slot rest).startStep k := by
  have h0 : { s.engine.holds with starved := false } = Holds.empty := by rw [hh]; rfl
  rw [h0, State.keepHolds_last hs (by rw [hh]; decide)]
  unfold State.resume
  rw [State.withEngine_pool, hc, Pool.restore_cons hc]
  rfl

/-- The removal of STARVED that leaves a reason (R16, R35). -/
theorem State.keepHolds_starved {s : State} {h : Holds} {k : Nat} (hs : s.engine.state = .held)
    (hh : h = { s.engine.holds with starved := false }) (hst : s.engine.holds.starved = true) (h0 : h ≠ .empty)
    (hp : s.pool.pendingIndex = some k)
    (hsafe : s.food.faulted = false ∨ h.lid = true ∨ h.bowl = true ∨ h.mains = true ∨ h.sensor = true) :
    let t := s.keepHolds h
    t.engine = { s.engine with holds := h } ∧ t.pool = s.pool ∧ t.stir.commanded = 0 ∧ t.lock.standing = .release ∧
    t.reg.target = (if h.lid ∨ h.bowl ∨ h.mains ∨ h.sensor then 0 else min s.limits.keepWarm s.engine.previousTarget) ∧
    t.report = s.report ∧ t.rest = s.rest := by
  have hne : h ≠ s.engine.holds := fun he => by
    rw [he] at hh
    have hx := congrArg Holds.starved hh
    rw [hst] at hx
    exact Bool.noConfusion hx
  have he : s.keepHolds h = (s.withEngine { s.engine with holds := h }).heldSet := by
    rw [State.keepHolds_rest_reason hs hne h0]
    exact State.heldOutputs_of_safe (s := s.withEngine { s.engine with holds := h })
      (hsafe.symm.imp (fun hx => Holds.not_gentle_of hx) id)
  dsimp only
  rw [he, State.heldSet_engine, State.heldSet_pool, State.heldSet_stir, State.heldSet_standing, State.heldSet_report,
    State.heldSet_reg]
  refine ⟨rfl, rfl, rfl, rfl, ?_, rfl, by simp [State.heldSet]⟩
  have hr : s.pool.heldRecord = none := Pool.heldRecord_of_pending hp
  refine (State.heldTarget_eq _).trans ?_
  change (if h.gentle = true then min s.limits.keepWarm (if s.pool.heldRecord.isSome = true then s.engine.clampedTarget
    else s.engine.previousTarget) else 0) = _
  rw [hr]
  by_cases hg : h.gentle = true
  · obtain ⟨g1, g2, g3, g4⟩ := h.gentle_iff.1 hg
    exact (if_pos hg).trans (if_neg (by simp [g1, g2, g3, g4])).symm
  · have hcause : h.lid = true ∨ h.bowl = true ∨ h.mains = true ∨ h.sensor = true := by
      by_contra hx
      simp only [not_or, Bool.not_eq_true] at hx
      exact hg (h.gentle_iff.2 ⟨hx.1, hx.2.1, hx.2.2.1, hx.2.2.2⟩)
    rw [if_neg hg, if_pos hcause]

section
variable {s : State} {tag : Byte} {i : Nat} {r : StepRecord}

theorem State.written_engine : (s.written tag i r).engine = s.engine := s.picks_engine
theorem State.written_pool : (s.written tag i r).pool = s.pool := s.picks_pool
theorem State.written_step (hi : i < 256) : (s.written tag i r).step i = r.stored := s.picks.step_storeStep_same hi _
theorem State.written_step_other {j : Nat} (h : j ≠ i) : (s.written tag i r).step j = s.step j :=
  (s.picks.step_storeStep_other h _).trans (s.picks_step j)

/-- The write that ends a STARVED hold: the fresh step starts at its index (R16, R46). -/
theorem State.written_starts {slot : Nat} {x : Holds} {rest : List (Nat × Context)} (hi : i < 256)
    (hs : s.engine.state = .held) (hh : s.engine.holds = { Holds.empty with starved := true })
    (hc : s.pool.chain = (slot, .starved x i) :: rest) (hk : r.kind = .cook ∨ r.kind = .add ∨ r.kind = .waitUser) :
    (s.written tag i r).starvedWrite i r.kind = ((s.written tag i r).unstarved slot rest).startTimed i r.stored ∧
    (s.withPool { free := slot :: s.pool.free, chain := rest, depth := s.pool.depth }).timedStart
      (((s.written tag i r).unstarved slot rest).startTimed i r.stored) i s.engine.previousTarget r.stored ∧
    (((s.written tag i r).unstarved slot rest).startTimed i r.stored).steps = (s.written tag i r).steps ∧
    (((s.written tag i r).unstarved slot rest).startTimed i r.stored).report.answers = (s.written tag i r).report.answers := by
  have he : (s.written tag i r).engine = s.engine := State.written_engine
  have hpl : (s.written tag i r).pool = s.pool := State.written_pool
  have hc' : (s.written tag i r).pool.chain = (slot, .starved x i) :: rest := by rw [hpl]; exact hc
  have hp : (s.written tag i r).pool.pendingIndex = some i := by unfold Pool.pendingIndex; rw [hc']
  have hne : r.kind ≠ .empty := by rcases hk with hk | hk | hk <;> rw [hk] <;> decide
  have hv : ((s.written tag i r).unstarved slot rest).step i = r.stored := State.written_step (s := s) (tag := tag) (r := r) hi
  refine ⟨?_, ?_, State.startTimed_within _ i _ .steps (by decide), ?_⟩
  · rw [State.starvedWrite_drops (by rw [he]; exact hs) (by rw [he, hh]) hp hne,
      State.keepHolds_unstarved (by rw [he]; exact hs) (by rw [he]; exact hh) hc', State.startStep_timed hi (by rw [hv]; exact hk), hv]
  · have ht := State.startTimed_timedStart (s := (s.written tag i r).unstarved slot rest) (r := r.stored) (i := i)
      (show EngineState.running ≠ .faulted by decide) hv
    have hprev : ((s.written tag i r).unstarved slot rest).engine.previousTarget = s.engine.previousTarget := by
      change (s.written tag i r).engine.previousTarget = _
      rw [he]
    rw [hprev] at ht
    have hpool : ((s.written tag i r).unstarved slot rest).pool =
        { free := slot :: s.pool.free, chain := rest, depth := s.pool.depth } := by
      change Pool.mk (slot :: (s.written tag i r).pool.free) rest (s.written tag i r).pool.depth = _
      rw [hpl]
    exact ht.congr s.picks_patterns hpool s.picks_cal s.picks_limits s.picks_food s.picks_sched s.picks_intake s.picks_lock
      (congrArg Regulator.integrator s.picks_reg) s.picks_report_lastAnnounced (congrArg Stir.commanded s.picks_stir)
  · obtain ⟨ha, -⟩ := State.startTimed_within ((s.written tag i r).unstarved slot rest) i r.stored .lanes (by decide)
    exact ha

end

end Sys2Proof.Machine

namespace Sys2Proof.Proofs
open Sys2Proof.Machine

/-- Settles O47: the refusals and the storing of STEP_WRITE, the STARVED hold it ends, and STEP_READ. -/
theorem stepWriteAndRead : Obligations.StepWriteAndRead := by
  intro s tag i bytes hs hlen
  have hi : i.toNat < 256 := i.isLt
  have accepted : ∀ {r}, s.stepInProgress ≠ some i.toNat → readStep bytes = some r → r.valid = true →
      ∀ u, u = (s.written tag i.toNat r).starvedWrite i.toNat r.kind → answerFrame tag .ok [] ∈ u.report.answers →
      exec (.stepWrite tag (i :: bytes)) s = .next u.picks ∧ u.picks.answered (answerFrame tag .ok []) :=
    fun hnp hr hv u hu ha => exec_answered rfl hs rfl ((takeStepWrite_accepted hlen hnp hr hv).trans hu.symm) ha
  refine ⟨fun h => ?_, fun h hr => ?_, fun r h hr hv hno => ?_, fun r hst hstar hp hr hv hk h0 hsafe => ?_,
    fun r slot x rest hst hh hc hr hv hk => ?_, fun r target slot x rest hst hh hc hr hv hk hpat hramp hforce ht hlt hm hlev htemp => ?_, ?_⟩
  · exact State.refuses_of rfl hs rfl (takeStepWrite_protected hlen (by rwa [State.picks_stepInProgress]))
  · exact State.refuses_of rfl hs rfl (takeStepWrite_invalid hlen (by rwa [State.picks_stepInProgress]) hr)
  · refine State.accepts_of (u := s.picks.storeStep i.toNat r.stored) rfl hs rfl
      ((takeStepWrite_accepted hlen h hr hv).trans (State.starvedWrite_silent ?_)) ?_
    · change ¬ (s.picks.engine.state = .held ∧ s.picks.engine.holds.starved = true ∧ s.picks.pool.pendingIndex = some i.toNat ∧ _)
      rw [State.picks_engine, State.picks_pool]
      exact hno
    · simp [State.storeStep, StepRecord.stored]
  · have he : (s.written tag i.toNat r).engine = s.engine := State.written_engine
    have hpl : (s.written tag i.toNat r).pool = s.pool := State.written_pool
    obtain ⟨k1, k2, k3, k4, k5, k6, k7⟩ := State.keepHolds_starved (s := s.written tag i.toNat r) (k := i.toNat)
      (by rw [he]; exact hst) (by rw [he]) (by rw [he]; exact hstar) h0 (by rw [hpl]; exact hp)
      (hsafe.imp_left fun hx => (congrArg Channel.faulted s.picks_food).trans hx)
    have hdrop := State.starvedWrite_drops (s := s.written tag i.toNat r) (k := i.toNat) (kind := r.kind) (by rw [he]; exact hst)
      (by rw [he]; exact hstar) (by rw [hpl]; exact hp) hk
    rw [he] at hdrop k1 k5
    generalize State.keepHolds _ _ = u at *
    obtain ⟨hrow, hans⟩ := accepted (State.no_step_of_pending hst hp i.toNat) hr hv u hdrop.symm
      (by rw [k6]; exact State.answer_mem _ _ _ _)
    have hsteps : ∀ j, u.step j = (s.written tag i.toNat r).step j := fun j => by
      unfold State.step
      rw [State.steps_of_rest k7]
    refine ⟨_, hrow, hans, ?_⟩
    rw [State.picks_step, State.picks_engine, State.picks_pool, State.picks_stir, State.picks_lock, State.picks_reg]
    refine ⟨(hsteps _).trans (State.written_step hi), by rw [k1]; exact hst, by rw [k1], k2.trans hpl, k3, k4, k5.trans ?_, fun j hj => ?_⟩
    · rw [show (s.written tag i.toNat r).limits = s.limits from s.picks_limits]
    · rw [State.picks_step, hsteps, State.written_step_other hj]
  · obtain ⟨hstart, htimed, -, hrep⟩ := State.written_starts (s := s) (tag := tag) hi hst hh hc hk
    have hp : s.pool.pendingIndex = some i.toNat := by unfold Pool.pendingIndex; rw [hc]
    obtain ⟨hrow, hans⟩ := accepted (State.no_step_of_pending hst hp i.toNat) hr hv _ hstart.symm
      (by rw [hrep]; exact State.answer_mem _ _ _ _)
    exact ⟨_, hrow, hans, htimed.picks⟩
  · obtain ⟨hstart, htimed, hsteps, hrep⟩ := State.written_starts (s := s) (tag := tag) hi hst hh hc (.inl hk)
    have hp : s.pool.pendingIndex = some i.toNat := by unfold Pool.pendingIndex; rw [hc]
    obtain ⟨hrow, hans⟩ := accepted (State.no_step_of_pending hst hp i.toNat) hr hv _ hstart.symm
      (by rw [hrep]; exact State.answer_mem _ _ _ _)
    generalize State.startTimed _ _ _ = u at *
    have hno : ¬ s.needsLock r.stored target := by
      rw [State.needsLock_none (r := r.stored) hpat, show r.stored.flags.forceLock = false from hforce]
      rintro (hx | hx)
      · exact Bool.noConfusion hx
      · omega
    have hlive : ¬ s.startStalled r.stored target := by
      rw [State.startStalled_cook (r := r.stored) hk hpat, hlev]
      rintro (hx | ⟨hx, hy⟩)
      · exact Bool.noConfusion hx
      · rw [(htemp hx).1] at hy; exact Bool.noConfusion hy
    have hgood : ¬ (0 < target ∧ s.food.faulted = true) := fun ⟨hx, hy⟩ => by
      rw [(htemp hx).2] at hy; exact Bool.noConfusion hy
    obtain ⟨-, -, hgo⟩ := htimed
    obtain ⟨-, hgo⟩ := hgo (State.not_hollow_of_none (r := r.stored) hpat)
      (fun hx => absurd (show r.kind = .add from hx.1) (by rw [hk]; decide)) target ht
    obtain ⟨⟨hindex, hclamped, -, helapsed, hlimit, -⟩, -, hruns⟩ := hgo hgood
    obtain ⟨hrun, hholds, hpool, ⟨htarget, -⟩, -, -, -, -, hact⟩ := hruns hm hlive
    obtain ⟨-, hphase, -⟩ := hact (.inl hno)
    refine ⟨_, hrow, hans, ?_⟩
    rw [State.picks_step, State.picks_engine, State.picks_reg, State.picks_pool, State.picks_stepInProgress]
    refine ⟨?_, hrun, hindex, hphase, helapsed, hlimit, hholds, hclamped.trans ht.symm, htarget, hpool, ?_⟩
    · unfold State.step
      rw [hsteps]
      exact State.written_step hi
    · unfold State.stepInProgress
      rw [hrun, hindex]
  · refine State.accepts_of (u := s.picks) rfl hs rfl ?_ (by simp)
    change s.picks.answer tag .ok (byte i.toNat :: (s.picks.step i.toNat).encode) = _
    rw [State.picks_step, byte_toNat]

end Sys2Proof.Proofs
end

