-- ==== Sys2Proof/Proofs/SendRows.lean ====
section
/-! The two transmitters: what the free drive transmitter and the free upstream transmitter pick (R144, R145, R158). -/

namespace Sys2Proof.Machine

/-! ### The drive link -/

/-- What the free drive transmitter picks, by its order (R144). -/
theorem State.pickDrive_free {s : State} (h : s.drive.sending = none) :
    (∀ x, s.drive.heatMarked = true → s.drive.heat = some x →
      s.pickDrive = s.withDrive { s.drive with heatMarked := false, sending := some (s.outgoing (.heat x)) }) ∧
    (s.drive.heatMarked = false → s.drive.spinMarked = true → s.pickDrive = s.withDrive { s.drive with
      spinMarked := false, sending := some (s.outgoing (.spin s.drive.spinSpeed s.drive.spinDirection)) }) ∧
    (s.drive.heatMarked = false → s.drive.spinMarked = false → s.drive.latchMarked = true → s.pickDrive =
      s.withDrive { s.drive with latchMarked := false, sending := some (s.outgoing (.latch s.drive.latch)) }) ∧
    (∀ p rest, s.drive.heatMarked = false → s.drive.spinMarked = false → s.drive.latchMarked = false →
      s.drive.passQueue = p :: rest → s.pickDrive = s.withDrive { s.drive with passQueue := rest, sending := some (.pass p) }) ∧
    (s.drive.heatMarked = false → s.drive.spinMarked = false → s.drive.latchMarked = false → s.drive.passQueue = [] →
      s.pickDrive = s) := by
  unfold State.pickDrive
  dsimp only
  rw [h]
  refine ⟨fun x hm hx => ?_, fun hm hs => ?_, fun hm hs hl => ?_, fun p rest hm hs hl hp => ?_, fun hm hs hl hp => ?_⟩
  · rw [hm, hx]; rfl
  · rw [hm, hs]; rfl
  · rw [hm, hs, hl]; rfl
  · rw [hm, hs, hl, hp]; rfl
  · rw [hm, hs, hl, hp]; rfl

/-- A marked SPIN frame stays marked or goes out. -/
theorem State.pickDrive_spin {s : State} (h : s.drive.spinMarked = true) : s.pickDrive.drive.spinMarked = true ∨
    s.pickDrive.drive.sending = some (s.outgoing (.spin s.drive.spinSpeed s.drive.spinDirection)) := by
  unfold State.pickDrive
  dsimp only
  split
  · exact .inl h
  · split
    · exact .inl h
    · exact .inr rfl

/-- A marked LATCH frame stays marked or goes out. -/
theorem State.pickDrive_latch {s : State} (h : s.drive.latchMarked = true) : s.pickDrive.drive.latchMarked = true ∨
    s.pickDrive.drive.sending = some (s.outgoing (.latch s.drive.latch)) := by
  unfold State.pickDrive
  dsimp only
  split
  · exact .inl h
  · split
    · exact .inl h
    · split
      · exact .inl h
      · exact .inr rfl

/-- The LATCH frame as it goes out: REST in rehearsal, unless RELEASE while the unlock conditions hold (R145). -/
theorem State.outgoing_latch (s : State) (c : Latch) : s.outgoing (.latch c) =
    .latch (if s.ctl.rehearsal = true ∧ ¬ (c = .release ∧ s.unlockConditions = true) then .rest else c) := by
  unfold State.outgoing
  cases s.ctl.rehearsal
  · simp
  · by_cases hc : c = .release ∧ s.unlockConditions = true
    · obtain ⟨rfl, hu⟩ := hc
      simp [hu]
    · have hb : (decide (c = .release) && s.unlockConditions) = false := by
        rw [Bool.eq_false_iff]; simpa using hc
      simp only [hb, if_true, if_false, Bool.false_eq_true, true_and, hc, not_false_eq_true]

/-- The refresh timer of the frame whose send has completed is 0 (R143). -/
def Drive.refreshed (d : Drive) (f : DriveFrame) : Drive :=
  match f with
  | .spin _ _ => { d with spinTimer := 0 }
  | .latch _ => { d with latchTimer := 0 }
  | .heat _ => d
  | .pass _ => d

theorem Drive.sendDone_eq {d : Drive} {f : DriveFrame} (h : d.sending = some f) :
    d.sendDone = { d.refreshed f with sending := none } := by
  unfold Drive.sendDone Drive.refreshed
  rw [h]
  cases f <;> rfl

/-! ### The upstream link -/

/-- What the free upstream transmitter picks, by its order (R158). -/
theorem State.pickUpstream_free {s : State} (h : s.report.sending = none) :
    (s.report.resetAnswer = true → s.ctl.permission = .wait → s.pickUpstream = s) ∧
    (∀ a rest, s.report.resetAnswer = true → s.ctl.permission = .go → s.report.answers = a :: rest →
      s.pickUpstream = s.withReport { s.report with answers := rest, resetAnswer := false, sending := some a }) ∧
    (∀ f, s.report.resetAnswer = false → s.ctl.flowSlot = some f → s.pickUpstream =
      (s.withCtl { s.ctl with flowSlot := none }).withReport { s.report with sending := some f.frame }) ∧
    (s.report.resetAnswer = false → s.ctl.flowSlot = none → s.ctl.permission = .wait → s.pickUpstream = s) ∧
    (s.report.resetAnswer = false → s.ctl.flowSlot = none → s.ctl.permission = .go → s.report.announce = true →
      s.pickUpstream = s.withReport { s.report with announce := false, sending := some s.noticeFrame }) ∧
    (∀ a rest, s.report.resetAnswer = false → s.ctl.flowSlot = none → s.ctl.permission = .go → s.report.announce = false →
      s.report.answers = a :: rest → s.pickUpstream = s.withReport { s.report with answers := rest, sending := some a }) ∧
    (∀ a rest, s.report.resetAnswer = false → s.ctl.flowSlot = none → s.ctl.permission = .go → s.report.announce = false →
      s.report.answers = [] → s.report.readings = a :: rest →
      s.pickUpstream = s.withReport { s.report with readings := rest, sending := some a }) ∧
    (s.report.resetAnswer = false → s.ctl.flowSlot = none → s.ctl.permission = .go → s.report.announce = false →
      s.report.answers = [] → s.report.readings = [] → s.pickUpstream = s) := by
  unfold State.pickUpstream
  dsimp only
  rw [h]
  refine ⟨fun h1 h2 => ?_, fun a rest h1 h2 h3 => ?_, fun f h1 h2 => ?_, fun h1 h2 h3 => ?_, fun h1 h2 h3 h4 => ?_,
    fun a rest h1 h2 h3 h4 h5 => ?_, fun a rest h1 h2 h3 h4 h5 h6 => ?_, fun h1 h2 h3 h4 h5 h6 => ?_⟩
  · rw [h1, h2]; rfl
  · rw [h1, h2, h3]; rfl
  · rw [h1, h2]; rfl
  · rw [h1, h2, h3]; rfl
  · rw [h1, h2, h3, h4]; rfl
  · rw [h1, h2, h3, h4, h5]; rfl
  · rw [h1, h2, h3, h4, h5, h6]; rfl
  · rw [h1, h2, h3, h4, h5, h6]; rfl

theorem State.pickDrive_ctl (s : State) : s.pickDrive.ctl = s.ctl := by
  obtain ⟨d, h, -⟩ := s.pickDrive_eq
  rw [h]; rfl

theorem State.pickDrive_noticeFrame (s : State) : s.pickDrive.noticeFrame = s.noticeFrame := by
  obtain ⟨d, h, -⟩ := s.pickDrive_eq
  rw [h]; rfl

end Sys2Proof.Machine

namespace Sys2Proof.Proofs
open Sys2Proof.Machine

/-- Settles O44: the refreshes mark their frame, and a completion lets the transmitter pick in order. -/
theorem driveSending : Obligations.DriveSending := by
  intro s hs
  refine ⟨fun h => ?_, fun h => ?_, fun f d hf hd => ?_⟩
  · have hu : s.spinRefreshExpires = s.withDrive { s.drive with spinTimer := 50, spinMarked := true } := if_pos h
    refine ⟨_, exec_event_picks (c := .spinRefresh) (congrArg (fun u : State => Host.Outcome.next u.settle) hu) hs, ?_, ?_, ?_⟩
    · rw [State.picks_drive_spinTimer]; rfl
    · rw [State.picks_content]; rfl
    · rw [State.picks_drive]
      exact State.pickDrive_spin (s := s.withDrive { s.drive with spinTimer := 50, spinMarked := true }) rfl
  · have hu : s.latchRefreshExpires = s.withDrive { s.drive with latchTimer := 100, latchMarked := true } := if_pos h
    refine ⟨_, exec_event_picks (c := .latchRefresh) (congrArg (fun u : State => Host.Outcome.next u.settle) hu) hs, ?_, ?_, ?_⟩
    · rw [State.picks_drive_latchTimer]; rfl
    · rw [State.picks_content]; rfl
    · rw [State.picks_drive]
      exact State.pickDrive_latch (s := s.withDrive { s.drive with latchTimer := 100, latchMarked := true }) rfl
  · have hd' : d = s.drive.refreshed f := hd.trans (by cases f <;> rfl)
    have hu : s.withDrive s.drive.sendDone = s.withDrive { d with sending := none } := by
      rw [Drive.sendDone_eq hf, hd']
    obtain ⟨p1, p2, p3, p4, p5⟩ := State.pickDrive_free (s := s.withDrive { d with sending := none }) rfl
    refine ⟨_, exec_event_picks (c := .driveSendComplete) (congrArg (fun u : State => Host.Outcome.next u.settle) hu) hs, ?_, ?_⟩
    · rw [State.picks_content]; rfl
    · rw [State.picks_drive]
      refine ⟨fun x hm hx => ?_, fun hm hsp => ?_, fun hm hsp hl => ?_, fun p rest hm hsp hl hp => ?_, fun hm hsp hl hp => ?_⟩
      · rw [p1 x hm hx]
        cases hr : s.ctl.rehearsal <;> simp [State.outgoing, hr]
      · rw [p2 hm hsp]
        cases hr : s.ctl.rehearsal <;> simp [State.outgoing, hr]
      · rw [p3 hm hsp hl]
        exact congrArg (fun x => { d with latchMarked := false, sending := some x })
          (State.outgoing_latch (s.withDrive { d with sending := none }) d.latch)
      · rw [p4 p rest hm hsp hl hp]; rfl
      · rw [p5 hm hsp hl hp]; rfl

/-- Settles O45: a completion frees the transmitter, which picks in order. -/
theorem upstreamSending : Obligations.UpstreamSending := by
  intro s hs
  have hrow : exec .upstreamSendComplete s = .next (s.withReport { s.report with sending := none }).picks :=
    exec_event_picks (u := s.withReport { s.report with sending := none }) rfl hs
  have hrep : (s.withReport { s.report with sending := none }).pickDrive.report = { s.report with sending := none } :=
    State.pickDrive_report _
  have hctl : (s.withReport { s.report with sending := none }).pickDrive.ctl = s.ctl := State.pickDrive_ctl _
  have hnotice : (s.withReport { s.report with sending := none }).pickDrive.noticeFrame = s.noticeFrame :=
    State.pickDrive_noticeFrame _
  refine ⟨_, hrow, (State.picks_content _).trans rfl, ?_⟩
  unfold State.picks
  generalize (s.withReport { s.report with sending := none }).pickDrive = u at *
  obtain ⟨p1, p2, p3, p4, p5, p6, p7, p8⟩ := State.pickUpstream_free (s := u) (by rw [hrep])
  rw [hrep, hctl] at p1 p2 p3 p4 p5 p6 p7 p8
  refine ⟨fun h1 h2 => ?_, fun a rest h1 h2 h3 => ?_, fun f h1 h2 => ?_, fun h1 h2 h3 => ?_, fun h1 h2 h3 h4 => ?_,
    fun h1 h2 h3 h4 => ⟨fun a rest h5 => ?_, fun a rest h5 h6 => ?_, fun h5 h6 => ?_⟩⟩
  · rw [p1 h1 h2, hrep, hctl]; exact ⟨rfl, rfl⟩
  · rw [p2 a rest h1 h2 h3]; exact ⟨rfl, rfl, rfl, congrArg Control.flowSlot hctl⟩
  · rw [p3 f h1 h2]; exact ⟨rfl, rfl, rfl⟩
  · rw [p4 h1 h2 h3, hrep]; exact ⟨rfl, rfl, rfl⟩
  · rw [p5 h1 h2 h3 h4, hnotice]; exact ⟨rfl, rfl, rfl, rfl⟩
  · rw [p6 a rest h1 h2 h3 h4 h5]; exact ⟨rfl, rfl, rfl⟩
  · rw [p7 a rest h1 h2 h3 h4 h5 h6]; exact ⟨rfl, rfl⟩
  · rw [p8 h1 h2 h3 h4 h5 h6, hrep]

end Sys2Proof.Proofs
end

