-- ==== Sys2Proof/Proofs/QueueRows.lean ====
section
/-! The watch on the host, the command queue and the reading lane (R146 to R150, R153, R157). -/

namespace Sys2Proof.Machine

/-! ### The watch on the host -/

theorem State.supervisionExpires_running {s : State} (h : s.ctl.supervision = .running) : s.supervisionExpires =
    (s.withCtl { s.ctl with supervision := .expired, supervisionCount := s.ctl.period }).raiseFault .hostLost := if_pos h

theorem State.supervisionExpires_idle {s : State} (h : s.ctl.supervision ≠ .running) : s.supervisionExpires = s := if_neg h

theorem State.quietExpires_quiet {s : State} (h : s.ctl.supervision = .disarmed) (hq : s.ctl.quietRaised = false) :
    s.quietExpires = (s.withCtl { s.ctl with quietCount := 2550, quietRaised := true }).raise .hostQuiet :=
  if_pos (by simp [Control.quietRuns, h, hq])

theorem State.quietExpires_idle {s : State} (h : s.ctl.supervision ≠ .disarmed ∨ s.ctl.quietRaised = true) :
    s.quietExpires = s := if_neg (by rcases h with h | h <;> simp [Control.quietRuns, h])

/-! ### The reading lane -/

theorem appendReading_eq (lane : List Frame) (f : Frame) :
    appendReading lane f = (if lane.length < 4 then lane else lane.drop 1) ++ [f] := by
  unfold appendReading
  by_cases h : lane.length < 4
  · rw [if_pos h, if_neg (by omega)]
  · rw [if_neg h, if_pos (by omega), List.drop_one]

/-- The free upstream transmitter takes the oldest reading, or no reading (R158). -/
theorem State.pickUpstream_readings {s : State} (h : s.report.sending = none) :
    s.pickUpstream.report.readings = s.report.readings ∨
    (s.pickUpstream.report.readings = s.report.readings.tail ∧ s.pickUpstream.report.sending = s.report.readings.head?) := by
  unfold State.pickUpstream
  dsimp only
  rw [h]
  simp only [Option.isSome_none, Bool.false_eq_true, if_false]
  split
  · split <;> exact .inl rfl
  · split
    · exact .inl rfl
    · split
      · exact .inl rfl
      · split
        · exact .inl rfl
        · split
          · exact .inl rfl
          · split
            · next a rest hr => exact .inr (by rw [hr]; exact ⟨rfl, rfl⟩)
            · exact .inl rfl

theorem State.picks_readings {s : State} (h : s.report.sending = none) : s.picks.report.readings = s.report.readings ∨
    (s.picks.report.readings = s.report.readings.tail ∧ s.picks.report.sending = s.report.readings.head?) := by
  have hr := s.pickDrive_report
  have hp := State.pickUpstream_readings (s := s.pickDrive) (by rw [hr]; exact h)
  rw [hr] at hp
  exact hp

/-- The length and five bytes of a READING (R164). -/
theorem State.readingFrame_bytes (s : State) : s.readingFrame.payload.length = 35 ∧
    s.readingFrame.payload[2]? = some (byte s.engine.index) ∧
    s.readingFrame.payload[3]? = some (byte (seconds s.reported.2.2.1 / 256)) ∧
    s.readingFrame.payload[4]? = some (byte (seconds s.reported.2.2.1)) ∧
    s.readingFrame.payload[22]? = some (byte s.reg.kB) ∧ s.readingFrame.payload[23]? = some (byte s.reg.kS) := by
  unfold State.readingFrame
  generalize seconds s.reported.2.2.1 = n
  simp [word, tripleInt, reportedTemp, wordInt]

/-! ### The command queue -/

/-- A head that cannot be taken stays, with the rest of the queue behind it (R150). -/
theorem settleWith_of_stuck (fuel : Nat) {s : State} (h : ∀ x ∈ s.ctl.queue.head?, s.picks.canTake x = false) :
    settleWith fuel s = s.picks := by
  cases fuel with
  | zero => rfl
  | succ n =>
    rw [settleWith, State.picks_queue]
    cases hq : s.ctl.queue with
    | nil => rfl
    | cons x xs => exact if_neg (by rw [h x (by rw [hq]; rfl)]; decide)

/-- A head that can be taken is carried out (R150). -/
theorem settleWith_takes (fuel : Nat) {s : State} {head : Request} {rest : List Request} (hq : s.ctl.queue = head :: rest)
    (h : s.picks.canTake head = true) : settleWith (fuel + 1) s =
      settleWith fuel (carryOut head (s.picks.withCtl (s.picks.ctl.dequeue rest))) := by
  rw [settleWith, State.picks_queue, hq]
  exact if_pos h

/-- Without room in the answer lane no answered request can be taken (R150). -/
theorem State.canTake_of_full {s : State} {r : Request} (hi : r.kind ≠ .inject) (hp : r.kind ≠ .pass)
    (h : 4 ≤ s.report.answers.length) : s.canTake r = false := by
  have hlen : decide (s.report.answers.length < 4) = false := decide_eq_false (by omega)
  have hempty : s.report.answers.isEmpty = false := by
    rw [List.isEmpty_eq_false_iff]
    rintro he
    rw [he] at h
    exact absurd h (by decide)
  unfold State.canTake
  split
  case h_1 hk => exact absurd hk hi
  case h_2 hk => exact absurd hk hp
  case h_3 => split <;> assumption
  all_goals exact hlen

/-- The free upstream transmitter sends the oldest answer when nothing goes before it (R158). -/
theorem State.picks_pops_answer {s : State} {a : Frame} {lane : List Frame} (h : s.report.sending = none)
    (ha : s.report.answers = a :: lane) (hreset : s.report.resetAnswer = false) (hflow : s.ctl.flowSlot = none)
    (hgo : s.ctl.permission = .go) (hann : s.report.announce = false) :
    s.picks.report = { s.report with answers := lane, sending := some a } ∧ s.picks.ctl = s.ctl := by
  have hr := s.pickDrive_report
  have hk := s.pickDrive_ctl
  obtain ⟨-, -, -, -, -, pick, -, -⟩ := State.pickUpstream_free (s := s.pickDrive) (by rw [hr]; exact h)
  rw [State.picks, pick a lane (by rw [hr]; exact hreset) (by rw [hk]; exact hflow) (by rw [hk]; exact hgo)
    (by rw [hr]; exact hann) (by rw [hr]; exact ha)]
  exact ⟨by rw [hr]; rfl, hk⟩

theorem State.picks_ctl_busy {s : State} (h : s.report.sending.isSome = true) : s.picks.ctl = s.ctl := by
  rw [State.picks, State.pickUpstream_busy (by rw [State.pickDrive_report]; exact h), State.pickDrive_ctl]

/-- The queue's tail takes a request while there is room, below the count of the WAIT mark (R148, R149). -/
theorem State.enqueue_of_room {s : State} (h : s.ctl.queue.length < 16) (r : Request) :
    s.enqueue r = s.withCtl ({ s.ctl with queue := s.ctl.queue ++ [r] } : Control).waitMark := if_pos h

theorem State.enqueue_full {s : State} (h : 16 ≤ s.ctl.queue.length) (r : Request) :
    s.enqueue r = (s.withCtl { s.ctl with overrun := true }).raise .link := if_neg (by omega)

theorem Control.waitMark_silent {c : Control} (h : c.queue.length ≠ 12) : c.waitMark = c := if_neg (fun hc => h hc.1)

theorem Control.waitMark_marks {c : Control} (h : c.queue.length = 12) (hs : c.signalled = .go) :
    c.waitMark = ({ c with signalled := .wait } : Control).placeFlow .wait := if_pos ⟨h, hs⟩

theorem Control.placeFlow_empty {c : Control} (h : c.flowSlot = none) (f : Flow) : c.placeFlow f = { c with flowSlot := some f } := by
  unfold Control.placeFlow; rw [h]

theorem Control.placeFlow_other {c : Control} {g : Flow} (h : c.flowSlot = some g) {f : Flow} (hg : g ≠ f) :
    c.placeFlow f = { c with flowSlot := none } := by
  unfold Control.placeFlow; rw [h]; exact if_neg hg

/-- The WAIT mark, the flow slot empty (R149). -/
theorem Control.waitMark_empty {c : Control} (h : c.queue.length = 12) (hs : c.signalled = .go) (hf : c.flowSlot = none) :
    c.waitMark = { c with signalled := .wait, flowSlot := some .wait } :=
  (Control.waitMark_marks h hs).trans (Control.placeFlow_empty (c := { c with signalled := .wait }) hf _)

/-- The WAIT mark, a GO still in the flow slot (R149). -/
theorem Control.waitMark_go {c : Control} (h : c.queue.length = 12) (hs : c.signalled = .go) (hf : c.flowSlot = some .go) :
    c.waitMark = { c with signalled := .wait, flowSlot := none } :=
  (Control.waitMark_marks h hs).trans (Control.placeFlow_other (c := { c with signalled := .wait }) hf (by decide))

/-- The GO mark at a taking that brings the count to 4, the flow slot empty (R149). -/
theorem Control.dequeue_marks {c : Control} (hf : c.flowSlot = none) (rest : List Request) :
    (c.dequeue rest).queue = rest ∧
    (rest.length = 4 → c.signalled = .wait → (c.dequeue rest).signalled = .go ∧ (c.dequeue rest).flowSlot = some .go) ∧
    (rest.length ≠ 4 ∨ c.signalled = .go → (c.dequeue rest).signalled = c.signalled ∧ (c.dequeue rest).flowSlot = none) := by
  unfold Control.dequeue Control.signalGo
  dsimp only
  by_cases h4 : rest.length = 4
  · rw [if_pos h4]
    by_cases hw : c.signalled = .wait
    · rw [if_pos hw, Control.placeFlow_empty (by exact hf)]
      exact ⟨rfl, fun _ _ => ⟨rfl, rfl⟩, fun h => by
        rcases h with h | h
        · exact absurd h4 h
        · rw [hw] at h; exact Flow.noConfusion h⟩
    · rw [if_neg hw]
      exact ⟨rfl, fun _ h => absurd h hw, fun _ => ⟨rfl, hf⟩⟩
  · rw [if_neg h4]
    exact ⟨rfl, fun h => absurd h h4, fun _ => ⟨rfl, hf⟩⟩

end Sys2Proof.Machine

namespace Sys2Proof.Proofs
open Sys2Proof.Machine

/-- Settles O42: supervision, the quiet count, and the frames that restart both. -/
theorem hostWatch : Obligations.HostWatch := by
  intro s c hs hc
  obtain rfl : c = s.ctl.hostSeen := hc
  refine ⟨State.leadsTo_of (c := .hostWait) (u := s.hostSeen.hostFlow .wait) rfl hs rfl,
    State.leadsTo_of (c := .hostGo) (u := s.hostSeen.hostFlow .go) rfl hs rfl, fun kind payload hw => ?_, fun h => ?_, fun h => ?_,
    fun h hq => ?_, fun h => ?_⟩
  · exact State.leadsTo_of (c := .misplacedFrame kind payload) (u := s.hostSeen.raise .link)
      (congrArg (fun u : State => Host.Outcome.next u.settle) (State.controlFrame_misplaced hw s)) hs rfl
  · exact State.leadsTo_of (c := .supervisionExpiry) (u := s)
      (congrArg (fun u : State => Host.Outcome.next u.settle) (State.supervisionExpires_idle h)) hs rfl
  · have hctl : ((s.withCtl { s.ctl with supervision := .expired, supervisionCount := s.ctl.period }).raiseFault .hostLost).ctl =
        { s.ctl with supervision := .expired, supervisionCount := s.ctl.period } := State.ctl_of_rest (State.raiseFault_rest _ _)
    refine ⟨_, exec_event_picks (c := .supervisionExpiry) (congrArg (fun u : State => Host.Outcome.next u.settle)
      (State.supervisionExpires_running h)) (show State.calm _ from (congrArg Control.queue hctl).trans hs), ?_, ?_, fun hn => ?_, fun hf => ?_⟩
    · rw [State.picks_ctl_supervision, hctl]
    · rw [State.picks_ctl_period, hctl]
    · exact State.faultedWith_picks_iff.2 (State.faultedWith_of (s := s)
        (u := s.withCtl { s.ctl with supervision := .expired, supervisionCount := s.ctl.period }) hn rfl rfl _)
    · rw [State.picks_engine, State.picks_pool, State.raiseFault_of_faulted
        (s := s.withCtl { s.ctl with supervision := .expired, supervisionCount := s.ctl.period }) hf]
      split
      · next hx =>
        have hx' : s.engine.further = true := hx
        refine ⟨?_, rfl⟩
        change s.engine = _
        rw [← hx']
      · exact ⟨rfl, rfl⟩
  · exact State.leadsTo_of (c := .hostQuiet) (u := (s.withCtl { s.ctl with quietCount := 2550, quietRaised := true }).raise .hostQuiet)
      (congrArg (fun u : State => Host.Outcome.next u.settle) (State.quietExpires_quiet h hq)) hs rfl
  · exact State.leadsTo_of (c := .hostQuiet) (u := s)
      (congrArg (fun u : State => Host.Outcome.next u.settle) (State.quietExpires_idle h)) hs rfl

/-- Settles O43: the READING of an interval joins the lane, and its bytes. -/
theorem readingInterval : Obligations.ReadingInterval := by
  intro s lane hs hlane
  have hlane' : s.readingExpires.report.readings = lane := (appendReading_eq _ _).trans hlane.symm
  have hmem : s.readingFrame ∈ lane := by rw [hlane]; simp
  have hbytes := s.readingFrame_bytes
  rw [seconds_eq] at hbytes
  refine ⟨⟨_, exec_event_picks (c := .readingInterval) (u := s.readingExpires) rfl hs, (State.picks_content _).trans rfl, ?_,
    fun hb => ?_, fun hb => ?_⟩, rfl, hbytes⟩
  · cases hb : s.report.sending with
    | some f =>
      have hr : s.readingExpires.picks.report = s.readingExpires.report :=
        State.picks_report_busy (show s.report.sending.isSome = true by rw [hb]; rfl)
      exact .inl (by rw [hr, hlane']; exact hmem)
    | none =>
      rcases State.picks_readings (s := s.readingExpires) hb with h | ⟨h1, h2⟩
      · exact .inl (by rw [h, hlane']; exact hmem)
      · rw [hlane'] at h1 h2
        cases lane with
        | nil => exact absurd hmem (by simp)
        | cons x xs =>
          rcases List.mem_cons.1 hmem with hx | hx
          · exact .inr (by rw [h2, hx]; rfl)
          · exact .inl (by rw [h1]; exact hx)
  · have hr : s.readingExpires.picks.report = s.readingExpires.report := State.picks_report_busy (show s.report.sending.isSome = true from hb)
    rw [hr]
    exact ⟨hlane', rfl⟩
  · rcases State.picks_readings (s := s.readingExpires) hb with h | ⟨h1, h2⟩
    · exact .inl (h.trans hlane')
    · rw [hlane'] at h1 h2
      exact .inr ⟨h1, h2⟩

/-- Settles O46: the arrivals at a queue whose head waits, the taking that a completion allows, and the taking at once. -/
theorem requestQueue : Obligations.RequestQueue := by
  intro s r head rest c hc
  obtain rfl : c = s.ctl.hostSeen := hc
  refine ⟨fun hq hi hp hb hfull => ?_, fun tag a lane hq hnext ha hlen hreset hflow hgo hann => ?_, fun tag hs => ?_⟩
  · have stuck : ∀ u : State, u.report.sending = s.report.sending → u.report.answers = s.report.answers →
        (∃ tail, u.ctl.queue = head :: tail) → u.settle = u.picks := fun u hsend hans ⟨tail, hu⟩ =>
      settleWith_of_stuck _ fun x hx => by
      rw [hu] at hx
      obtain rfl : head = x := Option.some.inj hx
      exact State.canTake_of_full hi hp (by rw [State.picks_report_busy (by rw [hsend]; exact hb), hans]; exact hfull)
    have row : exec (.requestArrival r.kind r.payload) s = .next (s.hostSeen.enqueue r).settle := rfl
    have room : ∀ k : Control, (s.hostSeen.withCtl k).ctl.queue = s.ctl.queue ++ [r] → s.hostSeen.enqueue r = s.hostSeen.withCtl k →
        exec (.requestArrival r.kind r.payload) s = .next (s.hostSeen.withCtl k).picks := fun k hkq hk => by
      rw [row, hk]
      exact congrArg Host.Outcome.next (stuck (s.hostSeen.withCtl k) rfl rfl ⟨rest ++ [r], by rw [hkq, hq]; rfl⟩)
    refine ⟨fun h16 h11 => ?_, fun h11 hsig hslot => ?_, fun h11 hsig hslot => ?_, fun h16 => ?_⟩
    · have he : s.hostSeen.enqueue r = s.hostSeen.withCtl { s.ctl.hostSeen with queue := s.ctl.queue ++ [r] } := by
        rw [State.enqueue_of_room (s := s.hostSeen) h16]
        exact congrArg _ (Control.waitMark_silent (by
          change (s.ctl.queue ++ [r]).length ≠ 12
          rw [List.length_append, List.length_singleton]; omega))
      exact ⟨_, room _ rfl he, (State.picks_content _).trans rfl⟩
    · have he : s.hostSeen.enqueue r = s.hostSeen.withCtl
          { s.ctl.hostSeen with queue := s.ctl.queue ++ [r], signalled := .wait, flowSlot := some .wait } := by
        rw [State.enqueue_of_room (s := s.hostSeen) (by change s.ctl.queue.length < 16; omega)]
        refine congrArg _ (Control.waitMark_empty (c := { s.ctl.hostSeen with queue := s.ctl.queue ++ [r] }) ?_ hsig hslot)
        change (s.ctl.queue ++ [r]).length = 12
        rw [List.length_append, List.length_singleton, h11]
      refine ⟨_, room _ rfl he, ?_⟩
      rw [State.picks_ctl_busy (by exact hb), State.picks_report_pendingSet]
      exact ⟨rfl, rfl, rfl, rfl⟩
    · have he : s.hostSeen.enqueue r = s.hostSeen.withCtl
          { s.ctl.hostSeen with queue := s.ctl.queue ++ [r], signalled := .wait, flowSlot := none } := by
        rw [State.enqueue_of_room (s := s.hostSeen) (by change s.ctl.queue.length < 16; omega)]
        refine congrArg _ (Control.waitMark_go (c := { s.ctl.hostSeen with queue := s.ctl.queue ++ [r] }) ?_ hsig hslot)
        change (s.ctl.queue ++ [r]).length = 12
        rw [List.length_append, List.length_singleton, h11]
      refine ⟨_, room _ rfl he, ?_⟩
      rw [State.picks_ctl_busy (by exact hb)]
      exact ⟨rfl, rfl, rfl⟩
    · have he : s.hostSeen.enqueue r = (s.hostSeen.withCtl { s.ctl.hostSeen with overrun := true }).raise .link :=
        State.enqueue_full (s := s.hostSeen) h16 r
      obtain ⟨hans, -, hsend⟩ := (s.hostSeen.withCtl { s.ctl.hostSeen with overrun := true }).raise_lanes .link
      refine ⟨_, row.trans (congrArg Host.Outcome.next ?_), (State.picks_content _).trans rfl⟩
      rw [he]
      exact stuck _ hsend hans ⟨rest, hq⟩
  · obtain ⟨hpicks, hpctl⟩ := State.picks_pops_answer (s := s.withReport { s.report with sending := none }) rfl ha hreset hflow hgo hann
    have hpool := (s.withReport { s.report with sending := none }).picks_pool
    have htake : (s.withReport { s.report with sending := none }).picks.canTake ⟨.getChain, [tag]⟩ = true := by
      change decide (_ < 4) = true
      rw [hpicks]
      exact decide_eq_true (by change lane.length < 4; omega)
    have hrow : exec .upstreamSendComplete s =
        .next (settleWith rest.length ((((s.withReport { s.report with sending := none }).picks.withCtl
          ((s.withReport { s.report with sending := none }).picks.ctl.dequeue rest)).answer tag .ok
            (s.withReport { s.report with sending := none }).picks.pool.summary))) := by
      have hfuel : (s.withReport { s.report with sending := none }).ctl.queue.length = rest.length + 1 := congrArg List.length hq
      change Host.Outcome.next (settleWith _ _) = _
      rw [hfuel, settleWith_takes (s := s.withReport { s.report with sending := none }) rest.length hq htake]
      rfl
    rw [hpool, hpctl] at hrow
    generalize (s.withReport { s.report with sending := none }).picks = u at *
    have hbusy : ((u.withCtl (s.ctl.dequeue rest)).answer tag .ok s.pool.summary).report.sending.isSome = true := by
      change u.report.sending.isSome = true
      rw [hpicks]; rfl
    have hlane : u.report.answers = lane := by rw [hpicks]
    obtain ⟨hdq, hdgo, hdkeep⟩ := Control.dequeue_marks hflow rest
    have hstuck : settleWith rest.length ((u.withCtl (s.ctl.dequeue rest)).answer tag .ok s.pool.summary) =
        ((u.withCtl (s.ctl.dequeue rest)).answer tag .ok s.pool.summary).picks := settleWith_of_stuck _ fun x hx => by
      have hx' : x ∈ rest.head? := by
        change x ∈ (s.ctl.dequeue rest).queue.head? at hx
        rwa [hdq] at hx
      refine State.canTake_of_full (hnext x hx').1 (hnext x hx').2 ?_
      rw [State.picks_report_busy hbusy]
      change 4 ≤ (u.report.answers ++ [_]).length
      rw [hlane, List.length_append, hlen, List.length_singleton]
    refine ⟨_, hrow.trans (congrArg Host.Outcome.next hstuck), ?_⟩
    rw [State.picks_report_busy hbusy, State.picks_ctl_busy hbusy]
    refine ⟨?_, hdq, ?_, hdgo, hdkeep⟩
    · change u.report.sending = _
      rw [hpicks]
    · change u.report.answers ++ _ = _
      rw [hlane]
  · have hrow := exec_arrival_answers (k := .getChain) (payload := [tag]) (tag := tag) (st := .ok) (bytes := s.pool.summary) hs rfl (by
      change s.hostSeen.picks.answer tag .ok s.hostSeen.picks.pool.summary = _
      rw [State.picks_pool]; rfl)
    obtain ⟨t, h1, h2, h3⟩ := hrow
    exact ⟨t, h1, h3, h2⟩

end Sys2Proof.Proofs
end

