-- ==== Sys2Proof/Proofs/RampRows.lean ====
section
/-! The setpoint ramp, the phases and the ramp of the motor (R97, R118 to R122). -/

namespace Sys2Proof.Machine

/-! ### One millisecond at a timer -/

/-- The content after one millisecond at a timer, the tick before the picks given. -/
theorem State.elapses_of {s u : State} {timer : Timer} (h : s.timerTick timer = u.settle) (hq : u.calm) {x : State}
    (hx : u.content = x.content) : s.elapses timer x := by
  unfold State.elapses
  rw [h, State.settle_content hq, hx]

/-- A row whose expiry changes nothing. -/
theorem State.leadsTo_self {s u : State} {c : Instr} (h : exec c s = .next u.settle) (hu : u = s) (hs : s.calm) :
    s.leadsTo c s := State.leadsTo_of (u := s) (h.trans (by rw [hu])) hs rfl

/-! ### The setpoint ramp -/

/-- The move of the setpoint in closed form (R97 item 2). -/
theorem rampMove_eq (target : Int) : ∀ (fuel : Nat) (setpoint : Int) (acc : Nat), acc / 60 ≤ fuel →
    rampMove fuel target setpoint acc =
      ((if setpoint < target then setpoint + (min (acc / 60) (setpoint - target).natAbs : Nat)
        else setpoint - (min (acc / 60) (setpoint - target).natAbs : Nat)),
       acc - 60 * min (acc / 60) (setpoint - target).natAbs)
  | 0, setpoint, acc, h => by
    have h0 : acc / 60 = 0 := by omega
    rw [rampMove, h0]
    simp
  | fuel + 1, setpoint, acc, h => by
    rw [rampMove]
    by_cases hc : 60 ≤ acc ∧ setpoint ≠ target
    · obtain ⟨hacc, hne⟩ := hc
      rw [if_pos ⟨hacc, hne⟩]
      by_cases hlt : setpoint < target
      · rw [if_pos hlt, rampMove_eq target fuel _ _ (by omega)]
        refine Prod.ext_iff.2 ⟨?_, ?_⟩
        · dsimp only
          rw [if_pos hlt]
          split <;> omega
        · dsimp only; omega
      · rw [if_neg hlt, rampMove_eq target fuel _ _ (by omega)]
        refine Prod.ext_iff.2 ⟨?_, ?_⟩
        · dsimp only
          rw [if_neg hlt]
          split <;> omega
        · dsimp only; omega
    · rw [if_neg hc]
      have h0 : min (acc / 60) (setpoint - target).natAbs = 0 := by
        by_cases hacc : 60 ≤ acc
        · have he : setpoint = target := by
            by_contra hne
            exact hc ⟨hacc, hne⟩
          rw [he]; simp
        · omega
      rw [h0]
      simp

/-- The regulator after a ramp second, the steps given (R97). -/
theorem Regulator.rampSecond_eq {g : Regulator} {total steps : Nat} {sp : Int} (ht : total = g.rampAccumulator + g.ramp)
    (hs : steps = min (total / 60) (g.setpoint - g.target).natAbs)
    (hsp : sp = if g.setpoint < g.target then g.setpoint + steps else g.setpoint - steps) :
    g.rampSecond = if sp = g.target then { g with setpoint := sp, rampAccumulator := 0, rampCount := 0, ramp := 0 }
      else { g with setpoint := sp, rampAccumulator := total - 60 * steps, rampCount := 0 } := by
  unfold Regulator.rampSecond
  dsimp only
  rw [rampMove_eq _ _ _ _ (Nat.div_le_self _ _), ← ht, ← hs, ← hsp]

/-! ### The motor's target -/

theorem State.computeTarget_phase {s : State} {ph : StirPhase} (h : s.stirPhase = some ph) {t : Nat}
    (ht : t = s.cappedSpeed ph.speed) : s.computeTarget =
      if 0 < t ∧ (∃ d, s.stir.lastDirection = some d ∧ d ≠ ph.direction) ∧ s.stir.reversal = false then s.beginReversal t
      else s.takeTarget t ph.direction := by
  unfold State.computeTarget
  rw [h]
  dsimp only
  rw [← ht]
  refine if_congr ?_ rfl rfl
  cases hl : s.stir.lastDirection <;> simp [and_assoc]

/-- A change of the commanded speed or direction is handed in a SPIN frame (R121). -/
theorem State.takeTarget_hands (s : State) (t : Nat) (dir : Direction) :
    (s.takeTarget t dir).stir.commanded ≠ s.stir.commanded ∨ (s.takeTarget t dir).stir.direction ≠ s.stir.direction →
    (s.takeTarget t dir).drive.spinSpeed = (s.takeTarget t dir).stir.commanded ∧
    (s.takeTarget t dir).drive.spinDirection = (s.takeTarget t dir).stir.direction := by
  unfold State.takeTarget
  dsimp only
  split
  · intro _
    rw [State.handSpin_stir_eq]
    exact ⟨rfl, rfl⟩
  · next h =>
    simp only [Bool.or_eq_true, not_or, Bool.not_eq_true] at h
    intro hne
    rcases hne with hne | hne
    · exact absurd (show (if decide (t < s.stir.commanded) = true then t else s.stir.commanded) = s.stir.commanded by
        rw [h.1]; rfl) hne
    · exact absurd (if_neg (by rw [h.2]; decide)) hne

end Sys2Proof.Machine

namespace Sys2Proof.Proofs
open Sys2Proof.Machine

/-- Settles O39: the ramp second in closed form, and the millisecond before it. -/
theorem rampSecond : Obligations.RampSecond := by
  intro s total steps hs
  refine ⟨by simp [State.rampAdvances, and_assoc], fun h => ⟨?_, ?_⟩, fun h hlt => ?_, fun h ht hsteps => ?_⟩
  · exact State.leadsTo_self (c := .rampSecond) (u := s.rampSecondExpires) rfl (if_neg (by rw [h]; decide)) hs
  · exact State.elapses_of (timer := .ramp) (u := s.rampTick) rfl
      (by rw [show s.rampTick = s from if_neg (by rw [h]; decide)]; exact hs)
      (by rw [show s.rampTick = s from if_neg (by rw [h]; decide)])
  · have hu : s.rampTick = s.withReg { s.reg with rampCount := s.reg.rampCount + 1 } := (if_pos h).trans (if_neg (by omega))
    exact State.elapses_of (timer := .ramp) (congrArg State.settle hu) hs rfl
  · have hu : s.rampSecondExpires = s.withReg s.reg.rampSecond := if_pos h
    obtain ⟨sp, hsp⟩ : ∃ sp, sp = if s.reg.setpoint < s.reg.target then s.reg.setpoint + (steps : Int)
        else s.reg.setpoint - steps := ⟨_, rfl⟩
    have hg := Regulator.rampSecond_eq (g := s.reg) ht hsteps hsp
    refine ⟨s.reg.rampSecond, State.leadsTo_of (c := .rampSecond) (congrArg (fun u : State => Host.Outcome.next u.settle) hu) hs rfl,
      fun h999 => ?_, ?_⟩
    · have hv : s.rampTick = s.withReg s.reg.rampSecond := ((if_pos h).trans (if_pos (by omega))).trans hu
      exact State.elapses_of (timer := .ramp) (congrArg State.settle hv) hs rfl
    · rw [← hsp]
      by_cases he : sp = s.reg.target
      · rw [hg, if_pos he]
        exact ⟨rfl, rfl, rfl, rfl, fun hne => absurd he hne, fun _ => ⟨rfl, by simp [State.rampAdvances]⟩⟩
      · rw [hg, if_neg he]
        refine ⟨rfl, rfl, rfl, rfl, fun _ => ⟨rfl, ?_, rfl⟩, fun he' => absurd he' he⟩
        dsimp only
        split at hsp <;> omega

end Sys2Proof.Proofs
end

