-- ==== Sys2Proof/Proofs/StirRows.lean ====
section
/-! The end of a phase and the ramp of the motor (R118 to R122). -/

namespace Sys2Proof.Machine

/-- The state with the phase moved on, before the target is computed (R118). -/
def State.phased (s : State) (next : Nat) : State := s.withStir { s.stir with phaseIndex := next, phaseElapsed := 0 }

theorem State.phaseExpires_eq {s : State} {i next : Nat} (hp : s.phaseTimed = true) (hr : s.stir.running = some i)
    (hn : next = if s.stir.phaseIndex + 1 = (s.pattern i).count then (s.pattern i).loop else s.stir.phaseIndex + 1) :
    s.phaseExpires = (s.phased next).computeTarget := by
  unfold State.phaseExpires State.endPhase State.phased
  rw [if_pos hp, hr, hn]

/-- The ramp step of a running pattern (R120). -/
theorem State.stirRampExpires_eq {s : State} {i : Nat} (h : s.ramping = true) (hr : s.stir.running = some i) :
    s.stirRampExpires = (s.withStir { s.stir with
      rampCount := 0
      commanded := min s.stir.target
        (s.stir.commanded + 10 * ((s.pattern i).phase s.stir.phaseIndex).acceleration) }).handSpin := by
  have hph : s.stirPhase = some ((s.pattern i).phase s.stir.phaseIndex) := by rw [State.stirPhase, hr]; rfl
  refine (if_pos h).trans ?_
  unfold State.rampStep
  rw [hph]
  rfl

theorem State.ramping_iff {s : State} :
    s.ramping = true ↔ s.stir.commanded < s.stir.target ∧ s.stir.reversal = false := by
  simp [State.ramping]

end Sys2Proof.Machine

namespace Sys2Proof.Proofs
open Sys2Proof.Machine

/-- Settles O40: the phase that follows and its target, a reversal begun or the target taken; the ramp step. -/
theorem stirPhaseAndRamp : Obligations.StirPhaseAndRamp := by
  intro s hs
  refine ⟨fun h => State.leadsTo_self (c := .phaseEnd) (u := s.phaseExpires) rfl (if_neg (by rw [h]; decide)) hs,
    fun i next capped p ph htimed hrun hp hnext hph hcap => ?_, fun h => ⟨?_, ?_⟩, State.ramping_iff, fun i h hrun => ?_,
    fun h hlt => ?_, fun h hge => ?_⟩
  · subst hp
    have hu := State.phaseExpires_eq htimed hrun hnext
    have hphase : (s.phased next).stirPhase = some ph := by
      rw [hph, State.stirPhase, show (s.phased next).stir.running = some i from hrun]; rfl
    have hct : (s.phased next).computeTarget =
        if 0 < capped ∧ (∃ d, s.stir.lastDirection = some d ∧ d ≠ ph.direction) ∧ s.stir.reversal = false then
          (s.phased next).beginReversal capped
        else (s.phased next).takeTarget capped ph.direction :=
      State.computeTarget_phase hphase (hcap.trans (State.cappedSpeed_congr rfl rfl rfl rfl rfl rfl _).symm)
    have hcalm : (s.phased next).computeTarget.calm := (congrArg Control.queue (State.ctl_of_rest (State.computeTarget_rest (s.phased next)))).trans hs
    have hpos := (s.phased next).computeTarget_position
    simp only [Stir.position, Prod.mk.injEq] at hpos
    obtain ⟨-, -, hindex, helapsed⟩ := hpos
    have htarget : (s.phased next).computeTarget.stir.target = capped := by
      rw [State.computeTarget_target, hphase, hcap]
      exact State.cappedSpeed_congr rfl rfl rfl rfl rfl rfl _
    refine ⟨_, exec_event_picks (c := .phaseEnd) (congrArg (fun u : State => Host.Outcome.next u.settle) hu) hcalm, ?_⟩
    simp only [State.picks_stir, State.picks_engine, State.picks_reg, State.picks_lock, State.picks_pool,
      State.picks_drive_spinSpeed, State.picks_drive_spinDirection, State.computeTarget_engine, State.computeTarget_reg,
      State.computeTarget_lock, State.computeTarget_pool]
    refine ⟨hindex, helapsed, htarget, rfl, rfl, rfl, rfl, fun hpositive hrev hturn => ?_, fun hstay => ?_⟩
    · rw [hct, if_pos ⟨hpositive, hturn, hrev⟩]
      unfold State.beginReversal
      rw [State.handSpin_stir_eq]
      exact ⟨rfl, rfl, rfl, rfl⟩
    · have hnot : ¬ (0 < capped ∧ (∃ d, s.stir.lastDirection = some d ∧ d ≠ ph.direction) ∧ s.stir.reversal = false) := by
        rintro ⟨hpositive, ⟨d, hd, hne⟩, hrev⟩
        rcases hstay with hl | hl | hzero | hr
        · rw [hl] at hd; cases hd
        · rw [hl] at hd; exact hne (Option.some.inj hd).symm
        · omega
        · rw [hr] at hrev; cases hrev
      have hhands := (s.phased next).takeTarget_hands capped ph.direction
      rw [hct, if_neg hnot]
      obtain ⟨last, htake⟩ := (s.phased next).takeTarget_stir capped ph.direction
      refine ⟨by rw [htake]; rfl, by rw [htake]; rfl, fun hrev hpositive => ?_, fun hkeep => ?_, hhands⟩
      · rw [htake]
        dsimp only [State.phased]
        by_cases hd : s.stir.direction = ph.direction <;> simp [hrev, hpositive, hd]
      · rw [htake]
        refine if_neg ?_
        rcases hkeep with hr | hzero
        · simp [State.phased, hr]
        · simp [hzero]
  · exact State.leadsTo_self (c := .stirRampStep) (u := s.stirRampExpires) rfl (if_neg (by rw [h]; decide)) hs
  · have hu : s.stirRampTick = s := if_neg (by rw [h]; decide)
    exact State.elapses_of (timer := .stirRamp) (congrArg State.settle hu) hs rfl
  · have hu := State.stirRampExpires_eq h hrun
    refine ⟨_, exec_event_picks (c := .stirRampStep) (congrArg (fun u : State => Host.Outcome.next u.settle) hu)
      (show State.calm _ from (congrArg Control.queue (State.ctl_of_rest (State.handSpin_rest _))).trans hs), ?_⟩
    simp only [State.picks_stir, State.picks_engine, State.picks_lock, State.picks_drive_spinSpeed,
      State.picks_drive_spinDirection]
    rw [State.handSpin_stir_eq]
    exact ⟨rfl, rfl, rfl, rfl, rfl, rfl, rfl, rfl⟩
  · have hu : s.stirRampTick = s.withStir { s.stir with rampCount := s.stir.rampCount + 1 } :=
      (if_pos h).trans (if_neg (by omega))
    exact State.elapses_of (timer := .stirRamp) (congrArg State.settle hu) hs rfl
  · have hu : s.stirRampTick = s.stirRampExpires := (if_pos h).trans (if_pos hge)
    exact congrArg (fun u : State => Host.Outcome.next u.settle) hu.symm

end Sys2Proof.Proofs
end

