-- ==== Sys2Proof/Proofs/LockRows.lean ====
section
/-! The timeouts of the lock and the end of the cool-down (R134 to R136). -/

namespace Sys2Proof.Machine

/-! ### The LATCH slot -/

theorem State.computeTarget_latchSlot (s : State) : s.computeTarget.drive.latch = s.drive.latch :=
  (s.computeTarget_within .lock (by decide)).2

theorem State.stirZero_latchSlot (s : State) : s.stirZero.drive.latch = s.drive.latch :=
  (s.stirZero_within .lock (by decide)).2

theorem State.setLatch_latchSlot (s : State) (c : Latch) :
    (s.setLatch c).drive.latch = if s.lock.latch = c then s.drive.latch else c := by
  unfold State.setLatch
  split <;> rfl

theorem State.lockReleased_latchSlot (s : State) :
    s.lockReleased.drive.latch = if s.lock.latch = .rest then s.drive.latch else .rest :=
  (State.computeTarget_latchSlot _).trans (s.setLatch_latchSlot .rest)

theorem State.raiseFault_latchSlot (s : State) (code : FaultCode) :
    (s.raiseFault code).drive.latch = s.drive.latch := by
  by_cases h : s.engine.state = .faulted
  · rw [State.raiseFault_of_faulted h]
    split <;> rfl
  · rw [State.raiseFault_of_not_faulted h]
    exact State.stirZero_latchSlot _

/-! ### A judgement of the unlock conditions -/

theorem State.beginRelease_lock (s : State) :
    s.beginRelease.lock = { s.lock with state := .releasing, latch := .release, timer := 0, releaseWait := false } := by
  unfold State.beginRelease
  dsimp only
  rw [State.setLockState_lock]
  dsimp only [State.withLock]
  rw [State.setLatch_lock]

theorem State.judgeLock_releases {s : State} (h : s.lock.state = .engaged) (hw : s.lock.releaseWait = true)
    (hu : s.unlockConditions = true) : s.judgeLock = s.beginRelease := by
  unfold State.judgeLock
  rw [h]
  exact if_pos (by rw [hw, hu]; rfl)

theorem State.judgeLock_unawaited {s : State} (h : s.lock.state ≠ .releasing) (hw : s.lock.releaseWait = false) :
    s.judgeLock = s := by
  unfold State.judgeLock
  cases hk : s.lock.state
  case engaged => exact if_neg (by rw [hw]; exact Bool.false_ne_true)
  case releasing => exact absurd hk h
  all_goals rfl

theorem State.judgeLock_pool_coolDown (s : State) :
    s.judgeLock.pool = s.pool ∧ s.judgeLock.lock.coolDown = s.lock.coolDown := by
  have h := s.judgeLock_spared
  simp only [State.spared, Prod.mk.injEq] at h
  exact ⟨h.1, h.2.2⟩

/-! ### The three expiries -/

/-- The lock released at the end of an engage that did not complete (R134). -/
def State.gaveUp (s : State) : State := s.lockTimerFull.lockReleased

theorem State.gaveUp_engine (s : State) : s.gaveUp.engine = s.engine := s.lockTimerFull.lockReleased_moves.engine

theorem State.gaveUp_pool (s : State) : s.gaveUp.pool = s.pool := s.lockTimerFull.lockReleased_moves.pool

@[simp] theorem State.lockTimerFull_rest (s : State) : s.lockTimerFull.rest = s.rest := rfl

theorem State.engageExpires_eq {s : State} (h : s.lock.state = .engaging) :
    s.engageExpires = if s.inEntry then s.gaveUp.raiseFault .lockTimeout else s.gaveUp := if_pos h

theorem State.releaseExpires_eq {s : State} (h : s.lock.state = .releasing) :
    s.releaseExpires = (s.lockTimerFull.raise .lockStuck).lockEngaged false := if_pos h

theorem State.lockEngaged_notices (s : State) (w : Bool) : (s.lockEngaged w).report = s.report := by
  rw [State.lockEngaged_eq]
  have h := (s.lockMadeEngaged_moves w).report
  split
  · exact (State.enterActive_report _).trans h
  · exact h

theorem State.coolDownExpires_eq {s : State} (h : s.lock.coolDown < 600000) :
    s.coolDownExpires = (s.withLock { s.lock with coolDown := 600000 }).judgeLock := if_pos h

end Sys2Proof.Machine

namespace Sys2Proof.Proofs
open Sys2Proof.Machine

/-- Settles O41: each timeout of the lock as the change of the lock it makes, then the engine's part in it. -/
theorem lockTimeouts : Obligations.LockTimeouts := by
  intro s hs
  refine ⟨fun h => State.leadsTo_self (c := .lockEngageTimeout) (u := s.engageExpires) rfl (if_neg h) hs, fun h => ?_,
    fun h => State.leadsTo_self (c := .lockReleaseTimeout) (u := s.releaseExpires) rfl (if_neg h) hs, fun h => ?_,
    fun h => State.leadsTo_self (c := .coolDownComplete) (u := s.coolDownExpires) rfl (if_neg (Nat.not_lt.2 h)) hs,
    fun h => ?_⟩
  · have hcalm : s.engageExpires.calm :=
      (congrArg Control.queue (State.ctl_of_rest (by rw [State.engageExpires_eq h]; split <;> simp [State.gaveUp]))).trans hs
    refine ⟨_, exec_event_picks (c := .lockEngageTimeout) (u := s.engageExpires) rfl hcalm, ?_⟩
    obtain ⟨hstate, hlatch, -⟩ := s.lockTimerFull.lockReleased_lock
    have hslot := s.lockTimerFull.lockReleased_latchSlot
    rw [State.picks_lock, State.picks_drive_latch, State.picks_engine, State.picks_pool, State.faultedWith_picks_iff,
      State.engageExpires_eq h]
    by_cases hentry : s.inEntry = true
    · rw [if_pos hentry, State.raiseFault_latchSlot]
      obtain ⟨hfstate, hflatch⟩ := s.gaveUp.raiseFault_lock .lockTimeout
      have hne : s.gaveUp.engine.state ≠ .faulted := by
        have hrun : s.engine.state = .running := by
          simp only [State.inEntry, Bool.and_eq_true, decide_eq_true_eq] at hentry
          exact hentry.1
        rw [s.gaveUp_engine, hrun]; decide
      exact ⟨hfstate.trans hstate, hflatch.trans hlatch, hslot,
        fun _ => State.faultedWith_of hne (congrArg Engine.index s.gaveUp_engine) s.gaveUp_pool _,
        fun hno => absurd hentry (by rw [hno]; decide)⟩
    · rw [if_neg hentry]
      exact ⟨hstate, hlatch, hslot, fun hyes => absurd hyes hentry, fun _ => ⟨s.gaveUp_engine, s.gaveUp_pool⟩⟩
  · have hu := State.releaseExpires_eq h
    have hcalm : s.releaseExpires.calm :=
      (congrArg Control.queue (State.ctl_of_rest (by rw [hu]; simp))).trans hs
    refine ⟨_, exec_event_picks (c := .lockReleaseTimeout) (u := s.releaseExpires) rfl hcalm, ?_⟩
    obtain ⟨hstate, hlatch, hwait⟩ := (s.lockTimerFull.raise .lockStuck).lockMadeEngaged_lock false
    rw [State.picks_lock, State.picks_engine, State.picks_pool, State.picks_isPending, hu, State.lockEngaged_lock,
      State.lockEngaged_pool, State.lockEngaged_notices]
    exact ⟨hstate, hlatch, hwait, State.raise_isPending _ _, rfl,
      fun hentry => (State.lockEngaged_moves (s := s.lockTimerFull.raise .lockStuck) hentry false).engine⟩
  · obtain ⟨v, hv⟩ : ∃ v, v = s.withLock { s.lock with coolDown := 600000 } := ⟨_, rfl⟩
    have hu : s.coolDownExpires = v.judgeLock := by rw [hv]; exact State.coolDownExpires_eq h
    have hcalm : s.coolDownExpires.calm :=
      (congrArg Control.queue (State.ctl_of_rest (by rw [hu, State.judgeLock_rest, hv]; rfl))).trans hs
    refine ⟨_, exec_event_picks (c := .coolDownComplete) (u := s.coolDownExpires) rfl hcalm, ?_⟩
    obtain ⟨hpool, hcool⟩ := v.judgeLock_pool_coolDown
    rw [State.picks_lock, State.picks_engine, State.picks_pool, hu, ← hv]
    refine ⟨hcool.trans (by rw [hv]; rfl), fun hentry => ?_, hpool.trans (by rw [hv]; rfl), fun hk hw hunlock => ?_,
      fun hk hw => ?_⟩
    · exact (State.judgeLock_moves (s := v) (by rw [hv]; exact hentry)).engine.trans (by rw [hv]; rfl)
    · rw [State.judgeLock_releases (by rw [hv]; exact hk) (by rw [hv]; exact hw) hunlock, State.beginRelease_lock]
      exact ⟨rfl, rfl, rfl⟩
    · rw [State.judgeLock_unawaited (by rw [hv]; exact hk) (by rw [hv]; exact hw), hv]
      exact ⟨rfl, rfl⟩

end Sys2Proof.Proofs
end

