-- ==== Sys2Proof/Proofs/TimeRows.lean ====
section
/-! One millisecond of the timebase: the order of the timers, and what it is at each (R27, R97, R118, R120, R133, R135, R140,
R143, R153, R157, R159). -/

namespace Sys2Proof.Machine

/-! ### The order of the timers -/

theorem permutation_perm {α : Type} : ∀ (fuel : Nat) (l : List α) (n : Nat), l.length = fuel → (permutation fuel l n).Perm l
  | 0, l, n, h => by rw [List.length_eq_zero_iff.1 h]; exact .refl _
  | fuel + 1, l, n, h => by
    have hi : n % l.length < l.length := Nat.mod_lt _ (by omega)
    have ih := permutation_perm fuel (l.eraseIdx (n % l.length)) (n / l.length) (by rw [List.length_eraseIdx_of_lt hi]; omega)
    rw [permutation, List.getElem?_eq_getElem hi]
    exact (ih.cons _).trans (List.getElem_cons_eraseIdx_perm hi)

/-! ### A millisecond before the last, and the last -/

/-- A tick of a known outcome. -/
theorem State.elapses_to {s u : State} {timer : Timer} (h : s.timerTick timer = u.settle) (hq : u.calm) :
    s.elapses timer u := State.elapses_of h hq rfl

/-- A tick that does what a row does. -/
theorem State.expiresAs_of {s u v : State} {c : Instr} {timer : Timer} (hc : exec c s = .next u.settle)
    (ht : v.timerTick timer = u.settle) : s.expiresAs c (v.timerTick timer) := by
  rw [ht]; exact hc

/-! ### The step timers -/

/-- The engine with its two timers counted (R27). -/
def State.counted (s : State) : Engine := { s.engine with
  elapsed := if s.elapsedRuns then min (s.engine.elapsed + 1) 65535000 else s.engine.elapsed
  limitElapsed := min (s.engine.limitElapsed + 1) 65535000 }

theorem State.stepTick_time {s : State} (h : s.active = true) (hc : s.current.condition = some .time) :
    s.stepTick = if s.current.duration * 1000 ≤ s.counted.elapsed then (s.withEngine s.counted).durationExpires
      else s.withEngine s.counted := (if_pos h).trans (if_pos hc)

theorem State.stepTick_limit {s : State} (h : s.active = true) (hc : s.current.condition ≠ some .time) :
    s.stepTick = if s.current.limit * 1000 ≤ s.counted.limitElapsed then (s.withEngine s.counted).limitExpires
      else s.withEngine s.counted := (if_pos h).trans (if_neg hc)

theorem State.limitExpires_unlimited {s : State} (h : s.current.limit = 0) : s.limitExpires = s :=
  if_neg (by simp [State.limitRuns, h])

/-! ### The other timers -/

theorem State.phaseTick_eq {s : State} {ph : StirPhase} (h : s.phaseTimed = true) (hp : s.stirPhase = some ph) :
    s.phaseTick = if ph.duration * 100 ≤ s.stir.phaseElapsed + 1 then s.phaseExpires
      else s.withStir { s.stir with phaseElapsed := s.stir.phaseElapsed + 1 } := by
  unfold State.phaseTick
  rw [hp]
  exact if_pos h

theorem State.phaseTick_untimed {s : State} (h : s.phaseTimed = false) : s.phaseTick = s := by
  unfold State.phaseTick
  split
  · rfl
  · exact if_neg (by rw [h]; decide)

theorem State.releaseExpires_of_not_releasing {s : State} (h : s.lock.state ≠ .releasing) : s.releaseExpires = s := if_neg h

theorem State.engageExpires_lockState {s : State} (h : s.lock.state = .engaging) : s.engageExpires.lock.state = .released := by
  have hr : s.gaveUp.lock.state = .released := s.lockTimerFull.lockReleased_lock.1
  rw [State.engageExpires_eq h]
  split
  · exact (s.gaveUp.raiseFault_lock _).1.trans hr
  · exact hr

/-- The lock's expiry is that of the operation under way. -/
theorem State.lockTick_full {s : State} (h : s.limits.lockTimeout ≤ s.lock.timer + 1) :
    (s.lock.state = .engaging → s.lockTick = s.engageExpires) ∧ (s.lock.state = .releasing → s.lockTick = s.releaseExpires) := by
  have tick : s.lock.state = .engaging ∨ s.lock.state = .releasing → s.lockTick = s.engageExpires.releaseExpires :=
    fun hk => (if_pos hk).trans (if_pos h)
  refine ⟨fun hk => (tick (.inl hk)).trans (State.releaseExpires_of_not_releasing ?_), fun hk => (tick (.inr hk)).trans ?_⟩
  · rw [State.engageExpires_lockState hk]; decide
  · rw [State.engageExpires, if_neg (by rw [hk]; decide)]

theorem State.watchTick_idle {s : State}
    (h : s.ctl.supervision = .expired ∨ s.ctl.supervision = .disarmed ∧ s.ctl.quietRaised = true) : s.watchTick = s := by
  unfold State.watchTick Control.quietRuns
  rcases h with h | ⟨h, hq⟩
  · simp [h]
  · simp [h, hq]

theorem State.watchTick_quiet {s : State} (h : s.ctl.supervision = .disarmed) (hq : s.ctl.quietRaised = false) :
    s.watchTick = if 2550 ≤ s.ctl.quietCount + 1 then s.quietExpires
      else s.withCtl { s.ctl with quietCount := s.ctl.quietCount + 1 } :=
  (if_neg (by rw [h]; decide)).trans (if_pos (by simp [Control.quietRuns, h, hq]))

/-- The row that takes the stall of a stream. -/
theorem exec_stall {k : StreamId} {c : Instr} (h : (k, c) ∈ [(StreamId.weigh, Instr.weighStall), (.temp, .tempStall),
    (.motor, .motorStall), (.levels, .levelsStall), (.zero, .mainsLoss)]) (s : State) :
    exec c s = .next (s.stall k).settle := by
  simp only [List.mem_cons, Prod.mk.injEq, List.not_mem_nil, or_false] at h
  rcases h with ⟨rfl, rfl⟩ | ⟨rfl, rfl⟩ | ⟨rfl, rfl⟩ | ⟨rfl, rfl⟩ | ⟨rfl, rfl⟩ <;> rfl

theorem State.streamTick_live {s : State} {k : StreamId} (h : (s.intake.stream k).live = true) :
    s.streamTick k = if k.deadline ≤ (s.intake.stream k).since + 1 then s.stall k
      else s.withIntake (s.intake.setStream k ⟨true, (s.intake.stream k).since + 1⟩) := by
  refine (if_pos h).trans ?_
  rw [show { s.intake.stream k with since := (s.intake.stream k).since + 1 } = Stream.mk true ((s.intake.stream k).since + 1)
    from congrArg (Stream.mk · _) h]

/-! ### What a millisecond is at each timer -/

section
variable {s : State} (hs : s.calm)
include hs

theorem State.elapses_self {timer : Timer} (h : s.timerTick timer = s.settle) : s.elapses timer s := State.elapses_to h hs

theorem State.tick_step_time {e : Engine} (h : s.active = true) (he : e = s.counted)
    (hc : s.current.condition = some .time) :
    (e.elapsed < s.current.duration * 1000 → s.elapses .step (s.withEngine e)) ∧
    (s.current.duration * 1000 ≤ e.elapsed → (s.withEngine e).expiresAs .stepDurationExpiry (s.timerTick .step)) := by
  subst he
  have ht := State.stepTick_time h hc
  exact ⟨fun hlt => State.elapses_to (timer := .step) (congrArg State.settle (ht.trans (if_neg (by omega)))) hs,
    fun hge => State.expiresAs_of (c := .stepDurationExpiry) (timer := .step) rfl
      (congrArg State.settle (ht.trans (if_pos hge)))⟩

theorem State.tick_step_limit {e : Engine} (h : s.active = true) (he : e = s.counted)
    (hc : s.current.condition ≠ some .time) :
    (s.current.limit = 0 ∨ e.limitElapsed < s.current.limit * 1000 → s.elapses .step (s.withEngine e)) ∧
    (0 < s.current.limit → s.current.limit * 1000 ≤ e.limitElapsed →
      (s.withEngine e).expiresAs .stepLimitExpiry (s.timerTick .step)) := by
  subst he
  have ht := State.stepTick_limit h hc
  refine ⟨fun hn => State.elapses_to (timer := .step) (congrArg State.settle (ht.trans ?_)) hs,
    fun _ hge => State.expiresAs_of (c := .stepLimitExpiry) (timer := .step) rfl
      (congrArg State.settle (ht.trans (if_pos hge)))⟩
  rcases hn with hzero | hlt
  · rw [State.limitExpires_unlimited (s := s.withEngine s.counted) hzero, ite_self]
  · exact if_neg (by omega)

theorem State.tick_phase {ph : StirPhase} (h : s.phaseTimed = true) (hp : s.stirPhase = some ph) :
    (s.stir.phaseElapsed + 1 < ph.duration * 100 →
      s.elapses .phase (s.withStir { s.stir with phaseElapsed := s.stir.phaseElapsed + 1 })) ∧
    (ph.duration * 100 ≤ s.stir.phaseElapsed + 1 → s.expiresAs .phaseEnd (s.timerTick .phase)) := by
  have ht := State.phaseTick_eq h hp
  exact ⟨fun hlt => State.elapses_to (timer := .phase) (congrArg State.settle (ht.trans (if_neg (by omega)))) hs,
    fun hge => State.expiresAs_of (c := .phaseEnd) (timer := .phase) rfl (congrArg State.settle (ht.trans (if_pos hge)))⟩

theorem State.tick_stream {k : StreamId} {c : Instr} (h : (k, c) ∈ [(StreamId.weigh, Instr.weighStall), (.temp, .tempStall),
    (.motor, .motorStall), (.levels, .levelsStall), (.zero, .mainsLoss)]) :
    ((s.intake.stream k).live = false → s.elapses (.stream k) s) ∧
    ((s.intake.stream k).live = true → (s.intake.stream k).since + 1 < k.deadline →
      s.elapses (.stream k) (s.withIntake (s.intake.setStream k ⟨true, (s.intake.stream k).since + 1⟩))) ∧
    ((s.intake.stream k).live = true → k.deadline ≤ (s.intake.stream k).since + 1 →
      s.expiresAs c (s.timerTick (.stream k))) := by
  refine ⟨fun hl => State.elapses_self hs (congrArg State.settle (if_neg (by rw [hl]; decide))), fun hl hlt => ?_, fun hl hge => ?_⟩
  · exact State.elapses_to (timer := .stream k)
      (congrArg State.settle ((State.streamTick_live hl).trans (if_neg (by omega)))) hs
  · exact State.expiresAs_of (exec_stall h s) (congrArg State.settle ((State.streamTick_live hl).trans (if_pos hge)))

theorem State.tick_supervision (h : s.ctl.supervision = .running) :
    (s.ctl.supervisionCount + 1 < s.ctl.period →
      s.elapses .watch (s.withCtl { s.ctl with supervisionCount := s.ctl.supervisionCount + 1 })) ∧
    (s.ctl.period ≤ s.ctl.supervisionCount + 1 → s.expiresAs .supervisionExpiry (s.timerTick .watch)) := by
  have ht : s.watchTick = if s.ctl.period ≤ s.ctl.supervisionCount + 1 then s.supervisionExpires
      else s.withCtl { s.ctl with supervisionCount := s.ctl.supervisionCount + 1 } := if_pos h
  exact ⟨fun hlt => State.elapses_to (timer := .watch) (congrArg State.settle (ht.trans (if_neg (by omega)))) hs,
    fun hge => State.expiresAs_of (c := .supervisionExpiry) (timer := .watch) rfl
      (congrArg State.settle (ht.trans (if_pos hge)))⟩

theorem State.tick_quiet (h : s.ctl.supervision = .disarmed) (hq : s.ctl.quietRaised = false) :
    (s.ctl.quietCount + 1 < 2550 → s.elapses .watch (s.withCtl { s.ctl with quietCount := s.ctl.quietCount + 1 })) ∧
    (2550 ≤ s.ctl.quietCount + 1 → s.expiresAs .hostQuiet (s.timerTick .watch)) := by
  have ht := State.watchTick_quiet h hq
  exact ⟨fun hlt => State.elapses_to (timer := .watch) (congrArg State.settle (ht.trans (if_neg (by omega)))) hs,
    fun hge => State.expiresAs_of (c := .hostQuiet) (timer := .watch) rfl (congrArg State.settle (ht.trans (if_pos hge)))⟩

theorem State.tick_gap {rx : Rx} {x : Receiver} (hx : x = s.receiver rx) :
    (x.state = .hunt → s.elapses (.gap rx) s) ∧
    (x.state ≠ .hunt → x.gap + 1 < 3 → s.elapses (.gap rx) (s.setReceiver rx { x with gap := x.gap + 1 })) ∧
    (x.state ≠ .hunt → 3 ≤ x.gap + 1 → s.expiresAs (.receiverGapTimeout rx) (s.timerTick (.gap rx))) := by
  subst hx
  refine ⟨fun hh => State.elapses_self hs (congrArg State.settle (if_pos hh)), fun hh hlt => ?_, fun hh hge => ?_⟩
  · exact State.elapses_to (timer := .gap rx) (congrArg State.settle ((if_neg hh).trans (if_neg (by omega))))
      (State.setReceiver_calm hs rx _)
  · exact State.expiresAs_of (c := .receiverGapTimeout rx) (timer := .gap rx) rfl
      (congrArg State.settle ((if_neg hh).trans (if_pos hge)))

end

end Sys2Proof.Machine

namespace Sys2Proof.Proofs
open Sys2Proof.Machine

/-- Settles O2: the seventeen timers in some order, and each timer's own millisecond by `tick_…`. -/
theorem emptyQueueIsOneMillisecond : Obligations.EmptyQueueIsOneMillisecond := by
  refine ⟨fun s => ⟨_, permutation_perm allTimers.length allTimers (Config.tickOrder s.choices) rfl, rfl⟩, fun s hs => ?_⟩
  have self : ∀ {timer : Timer}, s.timerTick timer = s.settle → s.elapses timer s := fun h => State.elapses_self hs h
  refine ⟨fun h => self (timer := .step) (congrArg State.settle (if_neg (by rw [h]; decide))),
    fun e h he => ⟨State.tick_step_time hs h he, State.tick_step_limit hs h he⟩,
    fun h => self (timer := .phase) (congrArg State.settle (State.phaseTick_untimed h)),
    fun ph h hp => State.tick_phase hs h hp,
    fun h1 h2 => self (timer := .lock) (congrArg State.settle (if_neg (by simp [h1, h2]))),
    fun h hlt => State.elapses_to (timer := .lock) (congrArg State.settle ((if_pos h).trans (if_neg (by omega)))) hs,
    fun hge => ⟨fun h => State.expiresAs_of (c := .lockEngageTimeout) (timer := .lock) rfl
        (congrArg State.settle ((State.lockTick_full hge).1 h)),
      fun h => State.expiresAs_of (c := .lockReleaseTimeout) (timer := .lock) rfl
        (congrArg State.settle ((State.lockTick_full hge).2 h))⟩,
    fun hlt => State.elapses_to (timer := .coolDown) (congrArg State.settle (if_neg (by omega))) hs,
    fun he => State.expiresAs_of (c := .coolDownComplete) (timer := .coolDown) rfl
      (congrArg State.settle (if_pos (by omega))),
    fun hge => self (timer := .coolDown) (congrArg State.settle ((if_pos (by omega)).trans (if_neg (by omega)))),
    fun k c h => State.tick_stream hs h, fun h => State.tick_supervision hs h, fun h hq => State.tick_quiet hs h hq,
    fun h => self (timer := .watch) (congrArg State.settle (State.watchTick_idle h)),
    fun hlt => State.elapses_to (timer := .reading) (congrArg State.settle (if_neg (by omega))) hs,
    fun hge => State.expiresAs_of (c := .readingInterval) (timer := .reading) rfl (congrArg State.settle (if_pos hge)),
    fun hne => State.elapses_to (timer := .spin) (congrArg State.settle (if_neg hne)) hs,
    fun he => State.expiresAs_of (c := .spinRefresh) (timer := .spin) rfl (congrArg State.settle (if_pos he)),
    fun hne => State.elapses_to (timer := .latch) (congrArg State.settle (if_neg hne)) hs,
    fun he => State.expiresAs_of (c := .latchRefresh) (timer := .latch) rfl (congrArg State.settle (if_pos he)),
    fun rx x hx => State.tick_gap hs hx⟩

end Sys2Proof.Proofs
end

