-- ==== Sys2Proof/Proofs/StallRows.lean ====
section
/-! The stalls of the streams and what their owners and the engine do at them (R140, R72, R128, R34, R44). -/

namespace Sys2Proof.Machine

/-- The intake with a stream stalled (R140). -/
def State.stalled (s : State) (k : StreamId) : State :=
  s.withIntake { s.intake.setStream k ⟨false, k.deadline⟩ with lastSeq := none }

/-- The owners of a stream have seen its stall. -/
def State.toldStall (s : State) (k : StreamId) : State := (s.stalled k).stallReaders k

theorem State.stall_of_dead {s : State} {k : StreamId} (h : (s.intake.stream k).live = false) : s.stall k = s :=
  if_neg (by rw [h]; decide)

theorem State.stall_of_live {s : State} {k : StreamId} (h : (s.intake.stream k).live = true) : s.stall k =
    if (s.toldStall k).relevant k then (s.toldStall k).addHold .sensorOnly else s.toldStall k := if_pos h

theorem Intake.stream_setStream (i : Intake) (k m : StreamId) (x : Stream) :
    (i.setStream k x).stream m = if m = k then x else i.stream m := by
  cases k <;> cases m <;> rfl

theorem Intake.stream_forgotten (i : Intake) (m : StreamId) : ({ i with lastSeq := none } : Intake).stream m = i.stream m := by
  cases m <;> rfl

theorem State.stalled_stream (s : State) (k m : StreamId) :
    (s.stalled k).intake.stream m = if m = k then ⟨false, k.deadline⟩ else s.intake.stream m :=
  (Intake.stream_forgotten _ m).trans (s.intake.stream_setStream k m _)

/-! ### The mains loss -/

/-- The mains LOST and the elements off, before the engine takes it (R112). -/
def State.lostMains (s : State) : State :=
  (s.withSched { s.sched with mainsPresent := false, lastHeat := ⟨s.sched.lastHeat.position, false, false⟩ }).handHeat
    ⟨s.sched.lastHeat.position, false, false⟩

theorem State.mainsLost_present {s : State} (h : s.sched.mainsPresent = true) :
    s.mainsLost = s.lostMains.addHold .mainsOnly := by
  unfold State.mainsLost
  rw [if_pos h]
  rfl

theorem State.mainsLost_lost {s : State} (h : s.sched.mainsPresent = false) : s.mainsLost = s := if_neg (by rw [h]; decide)

theorem State.addHold_intake (s : State) (r : Holds) : (s.addHold r).intake = s.intake := State.intake_of_rest (by simp)

/-! ### The intake at a stall -/

theorem State.stallReaders_intake (s : State) (k : StreamId) : (s.stallReaders k).intake = s.intake := by
  cases k with
  | weigh => rfl
  | temp => rfl
  | motor => exact State.intake_of_rest (State.judgeLock_rest _)
  | levels => rfl
  | zero =>
    show s.mainsLost.intake = _
    cases h : s.sched.mainsPresent
    · rw [State.mainsLost_lost h]
    · rw [State.mainsLost_present h, State.addHold_intake]; rfl

theorem State.stall_intake {s : State} {k : StreamId} (h : (s.intake.stream k).live = true) :
    (s.stall k).intake = (s.stalled k).intake := by
  have ht : (s.toldStall k).intake = (s.stalled k).intake := (s.stalled k).stallReaders_intake k
  rw [State.stall_of_live h, apply_ite State.intake, State.addHold_intake, ite_self, ht]

theorem State.stall_calm {s : State} (h : s.calm) (k : StreamId) : (s.stall k).calm := by
  have hq : (s.stall k).ctl.queue = s.ctl.queue := (s.stall_acts k).within .queue (by cases k <;> decide)
  exact hq.trans h

/-! ### What is relevant to the engine -/

theorem State.recordInProgress_running {s : State} (h : s.engine.state = .running) : s.recordInProgress = some s.current := by
  unfold State.recordInProgress State.stepInProgress
  rw [h]
  rfl

theorem State.relevant_weigh_running {s : State} (h : s.engine.state = .running) :
    s.relevant .weigh = decide (s.current.kind = .add) := by
  unfold State.relevant
  rw [h]
  dsimp only [State.relevantTo]
  rw [State.recordInProgress_running h]

theorem State.relevant_levels {s : State} (h : s.engine.state = .running ∨ s.engine.state = .held) :
    s.relevant .levels = true := by
  unfold State.relevant
  rcases h with h | h <;> rw [h] <;> rfl

theorem State.relevant_resting {s : State} (h : s.engine.state = .idle ∨ s.engine.state = .ending ∨ s.engine.state = .faulted)
    (k : StreamId) : s.relevant k = false := by
  unfold State.relevant
  rcases h with h | h | h <;> rw [h]

theorem State.relevant_zero (s : State) : s.relevant .zero = false := by
  unfold State.relevant
  split <;> rfl

/-- The engine waits for a stalled stream exactly when a stream relevant to it is STALLED (R44). -/
theorem State.relevantStalled_exists {s : State} :
    s.relevantStalled = true ↔ ∃ m, s.relevant m = true ∧ (s.intake.stream m).live = false := by
  simp only [State.relevantStalled, List.any_eq_true, Bool.and_eq_true, Bool.not_eq_true']
  refine ⟨fun ⟨m, _, h⟩ => ⟨m, h⟩, fun ⟨m, hm, hl⟩ => ⟨m, ?_, hm, hl⟩⟩
  cases m
  case zero => rw [State.relevant_zero] at hm; cases hm
  all_goals decide

/-! ### Holds that let no heat through -/

theorem State.enterHold_strict {s : State} {r : Holds} (hg : r.gentle = false) :
    (s.enterHold r).engine = { s.engine.noStep with state := .held, holds := r } ∧
    (s.enterHold r).pool = s.pool.save (.held (s.suspendRecord r)) ∧
    (s.enterHold r).reg.target = 0 ∧ (s.enterHold r).stir.commanded = 0 ∧ (s.enterHold r).weigh = s.weigh ∧
    (s.enterHold r).report.isPending .held = true := by
  have ht : (s.heldWith r).heldTarget = 0 := by
    rw [State.heldTarget_eq]
    exact if_neg (by rw [show (s.heldWith r).engine.holds = r from rfl, hg]; decide)
  rw [State.enterHold_of_safe (.inl hg)]
  simp only [State.heldSet_engine, State.heldSet_pool, State.heldSet_reg, State.heldSet_stir, State.heldSet_weigh,
    State.heldSet_report]
  exact ⟨rfl, rfl, ht, rfl, rfl, State.raise_isPending _ _⟩

/-- Unlock conditions that do not hold begin no release. -/
theorem State.judgeLock_locked {s : State} (h : s.lock.state ≠ .releasing) (hu : s.unlockConditions = false) :
    s.judgeLock = s := by
  unfold State.judgeLock
  cases hk : s.lock.state
  case engaged => exact if_neg (by rw [hu, Bool.and_false]; exact Bool.false_ne_true)
  case releasing => exact absurd hk h
  all_goals rfl

theorem Lines.clearCounts_line (l : Lines) (n : LineId) : l.clearCounts.line n = { l.line n with agreement := 0 } := by
  cases n <;> rfl

theorem Holds.union_sensorOnly (h : Holds) : h.union .sensorOnly = { h with sensor := true } := by
  simp [Holds.union, Holds.sensorOnly, Holds.empty]

/-! ### A weighing sample outside ACTIVE -/

/-- Outside an ADD step in ACTIVE a WEIGH sample changes the weighing channel alone. -/
theorem State.weighSample_plain {s : State} (h : s.active = false) (r : Int) : ∃ w, s.weighSample r = s.withWeigh w := by
  have plain : ∀ (x : Weigh) (raw : Int), ∃ w, (s.withWeigh x).formWeight raw = s.withWeigh w := fun x raw =>
    ⟨_, State.formWeight_plain (s := s.withWeigh x)
      (by rw [State.inAddRef, show (s.withWeigh x).active = false from h]; rfl)
      (by rw [State.inAddFill, show (s.withWeigh x).active = false from h]; rfl) raw⟩
  have formed : ∀ (x : Weigh) (sum : Int), ∃ w, (s.withWeigh x).formOutput sum = s.withWeigh w := by
    intro x sum
    unfold State.formOutput
    dsimp only
    split
    · exact ⟨_, rfl⟩
    · exact plain _ _
  unfold State.weighSample State.takeSample
  dsimp only
  split
  · split
    · exact ⟨s.weigh, rfl⟩
    · exact ⟨_, rfl⟩
  · split
    · exact ⟨_, rfl⟩
    · split
      · exact formed _ _
      · exact ⟨_, rfl⟩

/-- A frame in sequence of a STALLED stream other than MOTOR: its return, then its sample (R139). -/
theorem State.takeFrame_returns {s : State} {seq : Byte} {x : Sample} (hq : s.inSequence seq) (hk : x.stream ≠ .motor)
    (hl : (s.intake.stream x.stream).live = false) :
    s.takeFrame seq x = (s.seen x.stream seq).dropSensor.deliver x := by
  unfold State.takeFrame State.streamArrival
  rw [State.checkSequence_numbered hq, s.seen_eq]
  have hn : ((s.numbered seq).intake.stream x.stream).live = false := by
    rw [← hl]; exact congrArg _ (Intake.stream_numbered _ _ _)
  dsimp only
  rw [hn, if_neg (by decide), if_neg hk]

theorem State.seen_stream (s : State) (k m : StreamId) (seq : Byte) :
    (s.seen k seq).intake.stream m = if m = k then ⟨true, 0⟩ else s.intake.stream m := by
  rw [s.seen_eq]
  exact (Intake.stream_setStream _ k m _).trans (by rw [show (s.numbered seq).intake.stream m = _ from Intake.stream_numbered _ _ _])

end Sys2Proof.Machine

namespace Sys2Proof.Proofs
open Sys2Proof.Machine

/-- Settles O37: the stalled intake of any stream, then the owners of each and the engine by its state. -/
theorem streamStalls : Obligations.StreamStalls := by
  intro s hs
  have row : ∀ {k : StreamId} {c : Instr}, exec c s = .next (s.stall k).settle → exec c s = .next (s.stall k).picks :=
    fun h => exec_event_picks h (State.stall_calm hs _)
  refine ⟨fun k c h => ⟨fun hl => ?_, fun hl => ?_⟩, fun hstate => ⟨fun hl => ?_, fun hl => ?_, fun hl hk => ?_, fun hl => ?_⟩,
    fun hrun hfree => ⟨fun hl => ?_, fun hl hadd => ?_, fun hl hadd => ?_⟩, fun hheld hl => ?_,
    fun seq raw h hsenses hheld hl hh h0 hf => ?_⟩
  · exact State.leadsTo_self (exec_stall h s) (State.stall_of_dead hl) hs
  · refine ⟨_, row (exec_stall h s), ?_⟩
    rw [State.picks_intake, State.stall_intake hl, State.stalled_stream, if_pos rfl]
    exact ⟨rfl, rfl, fun m hm => by rw [State.stalled_stream, if_neg hm]⟩
  · have hu : s.stall .weigh = s.toldStall .weigh :=
      (State.stall_of_live (k := .weigh) hl).trans (if_neg (by rw [State.relevant_resting (s := s.toldStall .weigh) hstate]; decide))
    exact State.leadsTo_of (c := .weighStall) (u := s.stall .weigh) rfl (State.stall_calm hs _) (by rw [hu]; rfl)
  · have hu : s.stall .temp = s.toldStall .temp :=
      (State.stall_of_live (k := .temp) hl).trans (if_neg (by rw [State.relevant_resting (s := s.toldStall .temp) hstate]; decide))
    exact State.leadsTo_of (c := .tempStall) (u := s.stall .temp) rfl (State.stall_calm hs _) (by rw [hu]; rfl)
  · have hunlock : (s.stalled .motor).motorStalled = (s.stalled .motor).withStir { s.stir with slowRun := 0 } := by
      unfold State.motorStalled
      refine State.judgeLock_locked hk ?_
      unfold State.unlockConditions
      rfl
    have hu : s.stall .motor = (s.stalled .motor).withStir { s.stir with slowRun := 0 } := by
      have ht : s.toldStall .motor = (s.stalled .motor).withStir { s.stir with slowRun := 0 } := hunlock
      rw [State.stall_of_live (k := .motor) hl, ht,
        State.relevant_resting (s := (s.stalled .motor).withStir { s.stir with slowRun := 0 }) hstate]
      exact if_neg (by decide)
    exact State.leadsTo_of (c := .motorStall) (u := s.stall .motor) rfl (State.stall_calm hs _) (by rw [hu]; rfl)
  · have hu : s.stall .levels = s.toldStall .levels :=
      (State.stall_of_live (k := .levels) hl).trans (if_neg (by rw [State.relevant_resting (s := s.toldStall .levels) hstate]; decide))
    refine ⟨_, row (k := .levels) (c := .levelsStall) rfl, ?_⟩
    rw [State.picks_engine, State.picks_pool, State.picks_lines, hu]
    exact ⟨rfl, rfl, fun n => Lines.clearCounts_line _ _, rfl⟩
  · obtain ⟨slot, free, hslot⟩ := List.exists_cons_of_ne_nil hfree
    have hu : s.stall .levels = (s.toldStall .levels).enterHold .sensorOnly :=
      ((State.stall_of_live (k := .levels) hl).trans (if_pos (State.relevant_levels (s := s.toldStall .levels) (.inl hrun)))).trans
        (State.addHold_running (s := s.toldStall .levels) hrun _)
    obtain ⟨heng, hpool, hreg, -, -, -⟩ := State.enterHold_strict (s := s.toldStall .levels) (r := .sensorOnly) rfl
    refine ⟨_, row (k := .levels) (c := .levelsStall) rfl, ?_⟩
    rw [State.picks_engine, State.picks_pool, State.picks_reg, hu, heng, hpool, hreg,
      Pool.save_cons (p := (s.toldStall .levels).pool) hslot]
    exact ⟨rfl, rfl, rfl, rfl, rfl⟩
  · have hr : (s.toldStall .weigh).relevant .weigh = true :=
      (State.relevant_weigh_running (s := s.toldStall .weigh) hrun).trans (decide_eq_true hadd)
    have hu : s.stall .weigh = (s.toldStall .weigh).enterHold .sensorOnly :=
      ((State.stall_of_live (k := .weigh) hl).trans (if_pos hr)).trans (State.addHold_running (s := s.toldStall .weigh) hrun _)
    obtain ⟨heng, -, -, -, hweigh, -⟩ := State.enterHold_strict (s := s.toldStall .weigh) (r := .sensorOnly) rfl
    refine ⟨_, row (k := .weigh) (c := .weighStall) rfl, ?_⟩
    rw [State.picks_engine, State.picks_weigh, hu, heng, hweigh]
    exact ⟨rfl, rfl, rfl⟩
  · have hr : (s.toldStall .weigh).relevant .weigh = false :=
      (State.relevant_weigh_running (s := s.toldStall .weigh) hrun).trans (decide_eq_false hadd)
    have hu : s.stall .weigh = s.toldStall .weigh :=
      (State.stall_of_live (k := .weigh) hl).trans (if_neg (by rw [hr]; decide))
    refine ⟨_, row (k := .weigh) (c := .weighStall) rfl, ?_⟩
    rw [State.picks_engine, State.picks_weigh, hu]
    exact ⟨rfl, rfl⟩
  · have hu : s.stall .levels = (s.toldStall .levels).addHold .sensorOnly :=
      (State.stall_of_live (k := .levels) hl).trans (if_pos (State.relevant_levels (s := s.toldStall .levels) (.inr hheld)))
    obtain ⟨heng, hpool, hreport, hnew, -⟩ := State.addHold_strict (s := s.toldStall .levels) (r := .sensorOnly)
      (h := { s.engine.holds with sensor := true }) hheld s.engine.holds.union_sensorOnly.symm
      (Holds.not_gentle_of (.inr (.inr (.inr rfl))))
    refine ⟨_, row (k := .levels) (c := .levelsStall) rfl, ?_⟩
    rw [State.picks_engine, State.picks_pool, State.picks_report_pendingSet, State.picks_reg, hu]
    exact ⟨heng, hpool, congrArg Report.pendingSet hreport, fun hno => (hnew fun he => by
      have := congrArg Holds.sensor he
      rw [show (s.toldStall .levels).engine.holds.sensor = false from hno] at this
      cases this).1⟩
  · obtain ⟨hrehearsal, hq⟩ := hsenses
    have hframe : s.takeFrame seq (.weigh raw.toInt) = (s.seen .weigh seq).dropSensor.weighSample raw.toInt :=
      State.takeFrame_returns hq StreamId.noConfusion hl
    have hex := exec_sample (c := .weighArrival seq raw) (x := .weigh raw.toInt) rfl hs hrehearsal
    have hdrop : (s.seen .weigh seq).dropSensor = if (s.seen .weigh seq).relevantStalled then s.seen .weigh seq
        else (s.seen .weigh seq).keepHolds h := by rw [hh]; rfl
    have hstalled : (s.seen .weigh seq).relevantStalled = true ↔
        ∃ m, m ≠ .weigh ∧ s.relevant m = true ∧ (s.intake.stream m).live = false := by
      rw [State.relevantStalled_exists]
      refine exists_congr fun m => ?_
      rw [State.seen_stream, show (s.seen .weigh seq).relevant m = s.relevant m from rfl]
      by_cases hm : m = .weigh <;> simp [hm]
    refine ⟨fun hall => ?_, fun hsome => ?_⟩
    · have hno : ¬ (s.seen .weigh seq).relevantStalled = true := fun hr => by
        obtain ⟨m, hm, hrel, hdead⟩ := hstalled.1 hr
        rw [hall m hm hrel] at hdead
        cases hdead
      rw [if_neg hno] at hdrop
      obtain ⟨heng, hpool, -⟩ := State.keepHolds_fields (s := s.seen .weigh seq) hheld h0 hf
      obtain ⟨w, hw⟩ := State.weighSample_plain (s := (s.seen .weigh seq).keepHolds h)
        (by simp [State.active, heng, show (s.seen .weigh seq).engine.state = .held from hheld]) raw.toInt
      have hintake : ((s.seen .weigh seq).keepHolds h).intake = (s.seen .weigh seq).intake :=
        State.intake_of_rest (State.keepHolds_rest _ _)
      refine ⟨_, hex, ?_⟩
      rw [State.picks_engine, State.picks_pool, State.picks_intake, hframe, hdrop, hw]
      exact ⟨heng, hpool, by rw [State.withWeigh_intake, hintake]; rfl⟩
    · rw [if_pos (hstalled.2 hsome)] at hdrop
      obtain ⟨w, hw⟩ := State.weighSample_plain (s := s.seen .weigh seq)
        (by simp [State.active, show (s.seen .weigh seq).engine.state = .held from hheld]) raw.toInt
      refine ⟨_, hex, ?_⟩
      rw [State.picks_engine, State.picks_pool, State.picks_intake, hframe, hdrop, hw]
      exact ⟨rfl, rfl, rfl⟩

end Sys2Proof.Proofs
end

