-- ==== Sys2Proof/Proofs/MainsRows.lean ====
section
/-! The loss and the return of the mains (R112, R113): the MAINS reason through every step start, the frame end and its
HEAT frame, and the two orders of the removal. -/

namespace Sys2Proof.Machine

/-! ### The MAINS reason -/

/-- MAINS is a reason only of a hold, and only while the mains are LOST. -/
def State.mainsAware (s : State) : Prop :=
  s.engine.holds.mains = true → s.engine.state = .held ∧ s.sched.mainsPresent = false

theorem State.mainsAware_of_free {s : State} (h : s.engine.holds.mains = false) : s.mainsAware :=
  fun hm => absurd hm (by rw [h]; decide)

/-- A state with the same hold set and engine state. -/
theorem State.mainsAware.congr {s t : State} (h : s.mainsAware) (hh : t.engine.holds = s.engine.holds)
    (hs : t.engine.state = s.engine.state) (hm : t.sched.mainsPresent = s.sched.mainsPresent) : t.mainsAware := by
  unfold State.mainsAware
  rw [hh, hs, hm]
  exact h

/-- The mains state is part of the rest. -/
theorem State.mains_of_rest {s t : State} (h : t.rest = s.rest) : t.sched.mainsPresent = s.sched.mainsPresent :=
  congrArg Scheduler.mainsPresent (State.sched_of_rest h)

theorem State.raiseFault_mainsAware {s : State} (h : s.mainsAware) (c : FaultCode) : (s.raiseFault c).mainsAware := by
  by_cases hf : s.engine.state = .faulted
  · refine h.congr ?_ ?_ (State.mains_of_rest (State.raiseFault_rest _ _))
    all_goals
      rw [State.raiseFault_of_faulted hf]
      split <;> rfl
  · refine State.mainsAware_of_free ?_
    rw [State.raiseFault_of_not_faulted hf]
    simp [State.raise, State.clearReference, State.clearStepSupervision, Engine.faultedAs, Holds.empty]

theorem State.heldOutputs_mainsAware {s : State} (h : s.mainsAware) : s.heldOutputs.mainsAware := by
  have hset : s.heldSet.mainsAware :=
    h.congr (by rw [State.heldSet_engine]) (by rw [State.heldSet_engine]) (State.mains_of_rest (by simp [State.heldSet]))
  rw [State.heldOutputs_eq]
  split
  · exact State.raiseFault_mainsAware hset _
  · exact hset

theorem State.enterHold_mainsAware {s : State} {r : Holds} (h : r.mains = true → s.sched.mainsPresent = false) :
    (s.enterHold r).mainsAware :=
  State.heldOutputs_mainsAware (s := s.heldWith r) fun hm => ⟨rfl, h hm⟩

theorem State.enterStarved_mainsAware (s : State) (i : Nat) : (s.enterStarved i).mainsAware :=
  State.heldOutputs_mainsAware (s := s.starvedWith i) fun hm => by
    have hlost : (!s.sched.mainsPresent) = true := hm
    exact ⟨rfl, show s.sched.mainsPresent = false by simpa using hlost⟩

/-! ### The engine's operations that keep state and hold set -/

/-- Engine state and hold set. -/
def State.holding (s : State) : EngineState × Holds := (s.engine.state, s.engine.holds)

theorem State.enterActive_holding (s : State) : s.enterActive.holding = s.holding := by
  unfold State.holding
  rw [State.enterActive_engine]
  unfold State.activeEngine
  split <;> rfl

theorem State.lockEngaged_holding (s : State) (w : Bool) : (s.lockEngaged w).holding = s.holding := by
  have h : (s.lockMadeEngaged w).holding = s.holding := by
    unfold State.holding
    rw [(s.lockMadeEngaged_moves w).engine]
  rw [State.lockEngaged_eq]
  split
  · exact (State.enterActive_holding _).trans h
  · exact h

theorem State.judgeLock_holding (s : State) : s.judgeLock.holding = s.holding := by
  unfold State.judgeLock
  split
  · split
    · unfold State.holding
      rw [s.beginRelease_moves.engine]
    · rfl
  · split
    · rfl
    · exact s.lockEngaged_holding _
  all_goals rfl

theorem State.decideEntry_holding (s : State) : s.decideEntry.holding = s.holding := by
  have request : ∀ (u : State) (r : LockRequest), (u.lockRequest r).holding = u.holding := fun u r => by
    unfold State.holding
    rw [State.lockRequest_engine]
  unfold State.decideEntry
  dsimp only
  split
  · split
    · exact (State.enterActive_holding _).trans (request _ _)
    · refine (request _ _).trans ?_
      unfold State.holding
      rw [State.stirZero_engine]
      rfl
  · exact (State.enterActive_holding _).trans (request _ _)

theorem State.decideEntry_reg (s : State) : s.decideEntry.reg = s.reg := by
  unfold State.decideEntry
  dsimp only
  split
  · split <;> simp
  · simp

/-- The chain under a held step. -/
theorem Pool.chain_of_heldRecord {p : Pool} {r : HeldRecord} (h : p.heldRecord = some r) :
    ∃ slot rest, p.chain = (slot, .held r) :: rest := by
  unfold Pool.heldRecord at h
  split at h
  · next slot r' rest hc => exact ⟨slot, rest, by rw [hc, Option.some.inj h]⟩
  · cases h

theorem State.mainsAware.of_holding {s t : State} (h : s.mainsAware) (hh : t.holding = s.holding)
    (hm : t.sched.mainsPresent = s.sched.mainsPresent) : t.mainsAware :=
  h.congr (congrArg Prod.snd hh) (congrArg Prod.fst hh) hm

/-! ### A step start and a resume -/

theorem State.startSet_mainsAware (s : State) (i : Nat) (r : StepRecord) : (s.startSet i r).mainsAware := by
  refine State.mainsAware_of_free ?_
  unfold State.startSet State.announceStep
  split <;> rfl

theorem State.startTimed_mainsAware {s : State} (h : s.mainsAware) (i : Nat) (r : StepRecord) :
    (s.startTimed i r).mainsAware := by
  rw [State.startTimed_eq]
  split
  · exact State.raiseFault_mainsAware (s := s.withEngine { s.engine with index := i }) h _
  · split
    · exact State.raiseFault_mainsAware (State.mainsAware_of_free rfl) _
    · split
      · exact (s.startSet_mainsAware i r).of_holding (State.decideEntry_holding _)
          (State.mains_of_rest (State.decideEntry_rest _))
      · exact State.enterHold_mainsAware (fun hm => by simpa [State.standingHolds] using hm)

theorem State.enterEnding_mainsAware (s : State) (o : RecipeOutcome) : (s.enterEnding o).mainsAware := by
  obtain ⟨h, -⟩ := s.enterEnding_fields o
  exact State.mainsAware_of_free (by rw [h]; rfl)

theorem stepStart_mainsAware : ∀ (fuel i : Nat) {s : State}, s.mainsAware → (stepStart fuel i s).mainsAware
  | 0, _, _, h => h
  | fuel + 1, i, s, h => by
    have here : ∀ x : Pool, ((s.withEngine { s.engine with index := i }).withPool x).mainsAware := fun _ => h
    have fault : ∀ c, ((s.withEngine { s.engine with index := i }).raiseFault c).mainsAware := fun c =>
      State.raiseFault_mainsAware (here s.pool) c
    have low : ∀ (u : State) (n : Nat), u.mainsAware → (u.poolLowTest n).mainsAware := fun u n hu => by
      unfold State.poolLowTest
      split <;> exact hu
    unfold stepStart
    split
    · exact State.raiseFault_mainsAware h _
    · dsimp only
      split
      · exact s.enterStarved_mainsAware i
      · split
        · exact fault _
        · split
          · exact fault _
          · exact stepStart_mainsAware fuel _ (low _ _ (here _))
      · split
        · exact fault _
        · split
          · exact stepStart_mainsAware fuel _ (here _)
          · exact stepStart_mainsAware fuel _ (here _)
        · exact fault _
        · exact fault _
      · exact State.enterEnding_mainsAware _ _
      all_goals exact State.startTimed_mainsAware h i _

theorem State.restoreHeld_holds (s : State) (r : HeldRecord) : (s.restoreHeld r).engine.holds = s.engine.holds := rfl

theorem State.resume_mainsAware {s : State} (h : s.engine.holds.mains = false) : s.resume.mainsAware := by
  have restored : ∀ r, ((s.withPool s.pool.restore).restoreHeld r).mainsAware := fun r =>
    State.mainsAware_of_free (by rw [State.restoreHeld_holds]; exact h)
  have stirred : ∀ (u : State) (r : HeldRecord), u.mainsAware → (u.restoreStir r).mainsAware := fun _ _ hu => hu
  have entered : ∀ u : State, u.mainsAware → u.decideEntry.mainsAware := fun u hu =>
    hu.of_holding (State.decideEntry_holding _) (State.mains_of_rest (State.decideEntry_rest _))
  unfold State.resume
  split
  · exact stepStart_mainsAware _ _ (State.mainsAware_of_free (s := (s.withPool s.pool.restore).withEngine _) h)
  · dsimp only
    split
    · exact State.raiseFault_mainsAware (restored _) _
    · exact entered _ (stirred _ _ (restored _))
  all_goals exact State.raiseFault_mainsAware (State.mainsAware_of_free h) _

/-- Any change of the reasons of a hold that leaves MAINS only while the mains are LOST. -/
theorem State.keepHolds_mainsAware {s : State} {h : Holds} (hs : s.engine.state = .held)
    (hm : h.mains = true → s.sched.mainsPresent = false) : (s.keepHolds h).mainsAware := by
  by_cases he : h = s.engine.holds
  · rw [State.keepHolds_same he]
    exact fun hh => ⟨hs, hm (by rw [he]; exact hh)⟩
  · by_cases h0 : h = .empty
    · subst h0
      rw [State.keepHolds_last hs (Ne.symm he)]
      exact State.resume_mainsAware (s := s.withEngine { s.engine with holds := .empty }) rfl
    · rw [State.keepHolds_rest_reason hs he h0]
      exact State.heldOutputs_mainsAware (s := s.withEngine { s.engine with holds := h }) fun hh => ⟨hs, hm hh⟩

/-! ### A frame end and its HEAT frame -/

/-- The frame end and the HEAT frame decided after it (R106). -/
def State.zeroFrame (s : State) : State := s.frameEnd.cycleHeat

/-- The HEAT frame decided at the frame end. -/
def State.zeroHeat (s : State) : Heat := s.frameEnd.decideHeat

theorem State.zeroFrame_reg (s : State) : s.zeroFrame.reg = s.frameEnd.reg := (s.frameEnd.giveHeat_keeps _).1

theorem State.zeroFrame_sched (s : State) : s.zeroFrame.sched =
    { s.sched with kB := s.nextKB, kS := s.nextKS, lastHeat := s.zeroHeat } := by
  refine (s.frameEnd.giveHeat_keeps _).2.2.2.trans ?_
  rw [State.frameEnd_sched]
  rfl

theorem State.zeroFrame_heat (s : State) : s.zeroFrame.drive.heat = some s.zeroHeat := (s.frameEnd.giveHeat_slot_pool _).1

theorem State.zeroFrame_pool (s : State) : s.zeroFrame.pool = s.pool :=
  (s.frameEnd.giveHeat_slot_pool _).2.trans (by rw [s.frameEnd_eq]; rfl)

theorem State.zeroFrame_rest (s : State) : s.zeroFrame.rest = (s.withSched s.zeroFrame.sched).rest := by
  have h := s.frameEnd.giveHeat_rest s.zeroHeat
  have hs : s.zeroFrame.sched = { s.frameEnd.sched with lastHeat := s.zeroHeat } := (s.frameEnd.giveHeat_keeps _).2.2.2
  rw [hs]
  refine h.trans ?_
  rw [s.frameEnd_eq]
  rfl

theorem State.zeroFrame_holding (s : State) : s.zeroFrame.holding = s.holding := by
  have hf : s.frameEnd.holding = s.holding := by rw [s.frameEnd_eq]; rfl
  unfold State.zeroFrame State.cycleHeat
  rcases s.frameEnd.giveHeat_cases s.frameEnd.decideHeat with h | h
  · rw [h]
    exact (State.judgeLock_holding _).trans hf
  · rw [h]
    exact hf

/-- What the HEAT frame of a frame end is decided by. -/
theorem State.frameEnd_decides (s : State) : s.frameEnd.limits = s.limits ∧ (s.frameEnd.mayHeat ↔ s.mayHeat) ∧
    s.frameEnd.sched.kB = s.nextKB ∧ s.frameEnd.sched.kS = s.nextKS ∧ s.frameEnd.sched.position = s.sched.position := by
  refine ⟨by rw [s.frameEnd_eq]; rfl, by rw [s.frameEnd_eq]; rfl, ?_⟩
  rw [State.frameEnd_sched]
  exact ⟨rfl, rfl, rfl⟩

/-- Element B of the HEAT frame at the position 0. -/
theorem State.zeroHeat_b {s : State} (h : s.sched.position = 0) : s.zeroHeat.b = true ↔ s.mayHeat ∧
    elementDue s.nextKB s.limits.startB s.limits.windowB s.limits.frameLength 0 := by
  obtain ⟨hl, hm, hB, -, hp⟩ := s.frameEnd_decides
  rw [← hm, ← hl, ← hB, ← h, ← hp]
  exact s.frameEnd.decideHeat_b

/-- Element S of the HEAT frame at the position 0. -/
theorem State.zeroHeat_s {s : State} (h : s.sched.position = 0) : s.zeroHeat.s = true ↔ s.mayHeat ∧
    elementDue s.nextKS s.limits.startS s.limits.windowS s.limits.frameLength 0 ∧
    ¬ (s.limits.exclusive = true ∧ elementDue s.nextKB s.limits.startB s.limits.windowB s.limits.frameLength 0) := by
  obtain ⟨hl, hm, hB, hS, hp⟩ := s.frameEnd_decides
  rw [← hm, ← hl, ← hB, ← hS, ← h, ← hp]
  exact s.frameEnd.decideHeat_s

/-- Where heat may not flow the frame has both elements off. -/
theorem State.zeroHeat_off {s : State} (h : ¬ s.mayHeat) : s.zeroHeat.b = false ∧ s.zeroHeat.s = false := by
  have hm : ¬ s.frameEnd.mayHeat := mt s.frameEnd_decides.2.1.1 h
  exact ⟨Bool.eq_false_iff.2 fun hb => hm (s.frameEnd.decideHeat_b.1 hb).1,
    Bool.eq_false_iff.2 fun hb => hm (s.frameEnd.decideHeat_s.1 hb).1⟩

/-- A frame end with the heater target 0. -/
theorem State.nextK_off {s : State} (h : s.reg.target = 0) : s.nextKB = 0 ∧ s.nextKS = 0 := by
  simp [State.nextKB, State.nextKS, State.nextK_zero h]

/-- The frame end of a state is that of the ZERO arrival at its last position. -/
theorem State.frameEnds_frameEnd {s : State} (h : 0 < s.limits.frameLength) : s.frameEnds s.frameEnd.reg := by
  obtain ⟨u, hu, hreg, -⟩ := State.zeroArrival_frameEnd (s := s.atLastPosition) (seq := 0) rfl ⟨rfl, trivial⟩ (.inl rfl) rfl
    (by
      show (s.limits.frameLength - 1 + 1) % s.limits.frameLength = 0
      rw [Nat.sub_add_cancel h, Nat.mod_self])
  refine ⟨u, hu, hreg.trans ?_⟩
  rw [State.frameEnd_reg, State.frameEnd_reg]
  rfl

/-- A frame end computes from the regulator, the limits and the three channels alone (R98 to R101). -/
theorem State.frameEnd_reg_congr {x y : State} (hg : x.reg = y.reg) (hl : x.limits = y.limits) (hb : x.base = y.base)
    (hf : x.food = y.food) (ho : x.board = y.board) : x.frameEnd.reg = y.frameEnd.reg := by
  have hot : x.boardHot = y.boardHot := by rw [State.boardHot, State.boardHot, ho, hl]
  have kmax : x.kmax = y.kmax := by rw [State.kmax, State.kmax, hot, hl]
  have error : x.heatError = y.heatError := by rw [State.heatError, State.heatError, hg, hf]
  have integrator : x.nextIntegrator = y.nextIntegrator := by
    rw [State.nextIntegrator, State.nextIntegrator, kmax, error, hg, hl]
  have k : x.nextK = y.nextK := by rw [State.nextK, State.nextK, kmax, error, integrator, hg, hl]
  have allowance : x.allowance = y.allowance := by rw [State.allowance, State.allowance, hb, hl]
  have cut : x.nextBaseCut = y.nextBaseCut := by rw [State.nextBaseCut, State.nextBaseCut, hb, hg, hl]
  rw [State.frameEnd_reg, State.frameEnd_reg, hot, integrator, cut, hg]
  simp only [State.nextKB, State.nextKS, k, allowance, hl]

/-- A frame end by the regulator `g` and the same limits and channels. -/
theorem State.frameEnds_congr {s x : State} {g : Regulator} (hg : x.reg = g) (hl : x.limits = s.limits) (hb : x.base = s.base)
    (hf : x.food = s.food) (ho : x.board = s.board) (h : 0 < s.limits.frameLength) : (s.withReg g).frameEnds x.frameEnd.reg := by
  rw [State.frameEnd_reg_congr (y := s.withReg g) hg hl hb hf ho]
  exact State.frameEnds_frameEnd h

/-! ### The mains return -/

/-- What a mains return leaves, in whatever order (R113). -/
def State.returned (s : State) : Prop :=
  s.sched.mainsPresent = true ∧ s.sched.position = 0 ∧ s.intake.zero.live = true ∧ s.sched.kB = s.reg.kB ∧
    s.sched.kS = s.reg.kS ∧ s.drive.heat = some s.sched.lastHeat ∧ s.sched.lastHeat.position = 0

theorem State.zeroFrame_returned {s : State} (hm : s.sched.mainsPresent = true) (hp : s.sched.position = 0)
    (hl : s.intake.zero.live = true) : s.zeroFrame.returned := by
  have hi : s.zeroFrame.intake = s.intake := (State.intake_of_rest s.zeroFrame_rest).trans rfl
  unfold State.returned
  rw [State.zeroFrame_sched, State.zeroFrame_reg, State.frameEnd_reg, State.zeroFrame_heat, hi]
  refine ⟨hm, hp, hl, rfl, rfl, rfl, ?_⟩
  show s.frameEnd.sched.position = 0
  rw [State.frameEnd_sched]
  exact hp

theorem State.dropMains_within (s : State) : Within engineParts s s.dropMains := s.keepHolds_within _

theorem State.dropMains_sched (s : State) : s.dropMains.sched = s.sched := s.dropMains_within .sched (by decide)

theorem State.dropMains_intake (s : State) : s.dropMains.intake = s.intake := s.dropMains_within .intake (by decide)

theorem State.dropMains_returned {s : State} (h : s.returned) : s.dropMains.returned := by
  obtain ⟨-, hB, hS, -⟩ := s.dropMains_within .onCounts (by decide)
  have hheat : s.dropMains.drive.heat = s.drive.heat := s.dropMains_within .heatSlot (by decide)
  unfold State.returned
  rw [s.dropMains_sched, s.dropMains_intake, hheat, hB, hS]
  exact h

/-- The mains PRESENT again at position 0, before what follows (R113). -/
def State.atReturn (s : State) : State := s.withSched { s.sched with mainsPresent := true, position := 0 }

/-- The two orders of a removal and a frame end (log 8). -/
def State.eitherOrder (x t : State) : Prop := t = x.dropMains.zeroFrame ∨ t = x.zeroFrame.dropMains

theorem State.mainsReturn_held {s : State} (hs : s.engine.state = .held) (hm : s.engine.holds.mains = true) :
    (s.atReturn.withChoices (s.choices + 1)).eitherOrder s.mainsReturn := by
  have h : s.mainsReturn = if Config.resumeFirst s.choices then (s.atReturn.withChoices (s.choices + 1)).dropMains.zeroFrame
      else (s.atReturn.withChoices (s.choices + 1)).zeroFrame.dropMains := if_pos (by
    show (decide (s.engine.state = .held) && s.engine.holds.mains) = true
    rw [hs, hm]; rfl)
  rw [h]
  exact ite_eq_or_eq _ _ _

theorem State.mainsReturn_unheld {s : State} (h : ¬ (s.engine.state = .held ∧ s.engine.holds.mains = true)) :
    s.mainsReturn = s.atReturn.zeroFrame := if_neg (by
  show ¬ (decide (s.engine.state = .held) && s.engine.holds.mains) = true
  simpa using h)

theorem State.mainsReturn_returned {s : State} (hl : s.intake.zero.live = true) : s.mainsReturn.returned := by
  by_cases h : s.engine.state = .held ∧ s.engine.holds.mains = true
  · obtain ⟨hheld, hm⟩ := h
    rcases State.mainsReturn_held hheld hm with he | he
    · rw [he]
      refine State.zeroFrame_returned ?_ ?_ ?_
      · rw [State.dropMains_sched]; rfl
      · rw [State.dropMains_sched]; rfl
      · rw [State.dropMains_intake]; exact hl
    · rw [he]
      exact State.dropMains_returned (State.zeroFrame_returned rfl rfl hl)
  · rw [State.mainsReturn_unheld h]
    exact State.zeroFrame_returned rfl rfl hl

theorem State.dropMains_mainsAware {s : State} (h : s.engine.state = .held) : s.dropMains.mainsAware :=
  State.keepHolds_mainsAware h (fun hm => absurd hm Bool.false_ne_true)

/-- After the mains return no hold has the reason MAINS. -/
theorem State.mainsReturn_unreasoned {s : State} (h : s.mainsAware) : s.mainsReturn.engine.holds.mains = false := by
  have present : ∀ {u : State}, u.mainsAware → u.sched.mainsPresent = true → u.engine.holds.mains = false := fun hu hp =>
    Bool.eq_false_iff.2 fun hm => absurd (hu hm).2 (by rw [hp]; decide)
  have framed : ∀ u : State, u.zeroFrame.engine.holds = u.engine.holds := fun u => congrArg Prod.snd u.zeroFrame_holding
  by_cases hh : s.engine.state = .held ∧ s.engine.holds.mains = true
  · obtain ⟨hheld, hm⟩ := hh
    rcases State.mainsReturn_held hheld hm with he | he
    · rw [he, framed]
      exact present (State.dropMains_mainsAware hheld) (by rw [State.dropMains_sched]; rfl)
    · have hz : (s.atReturn.withChoices (s.choices + 1)).zeroFrame.engine.state = .held :=
        (congrArg Prod.fst (State.zeroFrame_holding _)).trans hheld
      rw [he]
      exact present (State.dropMains_mainsAware hz) (by rw [State.dropMains_sched, State.zeroFrame_sched]; rfl)
  · rw [State.mainsReturn_unheld hh, framed]
    exact Bool.eq_false_iff.2 fun hm => hh ⟨(h hm).1, hm⟩

/-! ### The removal of MAINS from a hold -/

section
variable {s : State} {h : Holds} (hs : s.engine.state = .held) (hm : s.engine.holds.mains = true)
  (hh : h = { s.engine.holds with mains := false })
include hs hm hh

theorem State.dropMains_reason (h0 : h ≠ .empty) :
    s.dropMains = (s.withEngine { s.engine with holds := h }).heldOutputs := by
  have he : h ≠ s.engine.holds := fun e => by
    have := congrArg Holds.mains e
    rw [hm, hh] at this
    cases this
  rw [State.dropMains, ← hh]
  exact State.keepHolds_rest_reason hs he h0

/-- A hold that lets no heat through stays. -/
theorem State.dropMains_strict (hx : h.gentle = false) :
    s.dropMains.engine = { s.engine with holds := h } ∧ s.dropMains.reg.target = 0 := by
  have h0 : h ≠ .empty := fun e => by rw [e] at hx; exact absurd hx (by decide)
  rw [State.dropMains_reason hs hm hh h0,
    State.heldOutputs_of_safe (s := s.withEngine { s.engine with holds := h }) (.inl hx), State.heldSet_engine, State.heldSet_reg,
    State.heldTarget_eq]
  exact ⟨rfl, if_neg (by rw [show (s.withEngine { s.engine with holds := h }).engine.holds = h from rfl, hx]; decide)⟩

/-- A hold by PAUSE and STARVED keeps warm (R35). -/
theorem State.dropMains_gentle (h0 : h ≠ .empty) (hx : h.gentle = true) (hf : s.food.faulted = false) {keep : Nat}
    (hk : keep = min s.limits.keepWarm
      (if s.pool.heldRecord.isSome then s.engine.clampedTarget else s.engine.previousTarget)) :
    s.dropMains.reg = { s.reg with target := keep, setpoint := keep, ramp := 0 } := by
  have ht : (s.withEngine { s.engine with holds := h }).heldTarget = keep := by
    rw [State.heldTarget_eq, hk]
    exact if_pos hx
  rw [State.dropMains_reason hs hm hh h0,
    State.heldOutputs_of_safe (s := s.withEngine { s.engine with holds := h }) (.inr hf), State.heldSet_reg, ht]
  rfl

/-- The last reason gone, the started step resumes (R46). -/
theorem State.dropMains_resumes (h0 : h = .empty) {r : HeldRecord} (hr : s.pool.heldRecord = some r)
    (hf : s.food.faulted = false) : s.dropMains.engine.state = .running ∧ s.dropMains.reg = { s.reg with
      target := s.engine.clampedTarget, setpoint := r.setpoint, rampAccumulator := r.rampAccumulator
      integrator := r.integrator, ramp := (s.step r.index).ramp, rampCount := 0 } := by
  have hne : s.engine.holds ≠ .empty := fun e => by rw [e] at hm; cases hm
  obtain ⟨slot, rest, hc⟩ := Pool.chain_of_heldRecord hr
  have he : s.dropMains = ((s.withEngine { s.engine with holds := .empty }).restored r).decideEntry := by
    rw [State.dropMains, ← hh, h0, State.keepHolds_last hs hne]
    exact State.resume_started (s := s.withEngine { s.engine with holds := .empty }) hc hf
  rw [he, State.decideEntry_reg, State.restored_reg]
  exact ⟨congrArg Prod.fst (State.decideEntry_holding _), rfl⟩

end

end Sys2Proof.Machine
end

