-- ==== Sys2Proof/Proofs/ReturnRows.lean ====
section
/-! The mains loss at the ZERO stall and the two orders of the mains return (R112, R113; log 8). -/

namespace Sys2Proof.Machine

/-! ### The loss -/

theorem State.stall_zero {s : State} (hl : s.intake.zero.live = true) (hm : s.sched.mainsPresent = true) :
    s.stall .zero = (s.stalled .zero).lostMains.addHold .mainsOnly := by
  have ht : s.toldStall .zero = (s.stalled .zero).lostMains.addHold .mainsOnly := State.mainsLost_present (s := s.stalled .zero) hm
  rw [State.stall_of_live (k := .zero) hl, State.relevant_zero, ht]
  exact if_neg (by decide)

theorem Holds.union_mainsOnly (h : Holds) : h.union .mainsOnly = { h with mains := true } := by
  simp [Holds.union, Holds.mainsOnly, Holds.empty]

theorem State.addHold_slot (s : State) (r : Holds) :
    (s.addHold r).sched = s.sched ∧ (s.addHold r).intake = s.intake ∧ (s.addHold r).drive.heat = s.drive.heat :=
  ⟨s.addHold_within r .sched (by decide), s.addHold_within r .intake (by decide), s.addHold_within r .heatSlot (by decide)⟩

/-! ### The ZERO arrival at which the mains return -/

/-- The arrival hands the return of its stream to the engine, then returns the mains. -/
theorem exec_zeroReturn {s : State} {seq : Byte} (hs : s.calm) (h : s.senses seq) (hl : s.intake.zero.live = false)
    (hm : s.sched.mainsPresent = false) :
    exec (.zeroArrival seq) s = .next (s.seen .zero seq).dropSensor.mainsReturn.picks := by
  obtain ⟨hr, hq⟩ := h
  have hd : (s.seen .zero seq).dropSensor.sched.mainsPresent = false :=
    (State.mains_of_rest (State.dropSensor_rest _)).trans hm
  rw [exec_sample (x := .zero) rfl hs hr, State.takeFrame_returns (x := .zero) hq StreamId.noConfusion hl]
  exact congrArg (fun u : State => Host.Outcome.next u.picks) (if_neg (ne_true_of_eq_false hd))

theorem State.dropSensor_mainsAware {s : State} (hs : s.engine.state = .held) (hm : s.sched.mainsPresent = false) :
    s.dropSensor.mainsAware := by
  unfold State.dropSensor
  split
  · exact fun _ => ⟨hs, hm⟩
  · exact State.keepHolds_mainsAware hs fun _ => hm

/-- A hold that has no SENSOR reason to lose. -/
theorem State.dropSensor_kept {s : State} (h : s.engine.holds.sensor = true → s.relevantStalled = true) : s.dropSensor = s := by
  unfold State.dropSensor
  split
  · rfl
  · next hr =>
    have hn : s.engine.holds.sensor = false := Bool.eq_false_iff.2 fun hs => hr (h hs)
    exact State.keepHolds_same (by rw [← hn])

/-! ### The frame end before the removal -/

/-- With the heater target 0 and heat forbidden, the frame end leaves on-counts 0, both elements off, and engine, pool,
limits, food and step table as they were. -/
theorem State.zeroFrame_cold {x : State} (h0 : x.reg.target = 0) (hm : ¬ x.mayHeat) :
    x.zeroFrame.reg.kB = 0 ∧ x.zeroFrame.reg.kS = 0 ∧ x.zeroFrame.sched.lastHeat.b = false ∧
    x.zeroFrame.sched.lastHeat.s = false ∧ x.zeroFrame.engine = x.engine := by
  obtain ⟨hB, hS⟩ := State.nextK_off h0
  obtain ⟨hb, hs⟩ := State.zeroHeat_off hm
  rw [State.zeroFrame_reg, State.frameEnd_reg, State.zeroFrame_sched]
  refine ⟨hB, hS, hb, hs, ?_⟩
  exact (x.frameEnd.giveHeat_off_lock_engine hb hs).2.trans (by rw [x.frameEnd_eq]; rfl)

/-- The removal keeps what the frame end before it decided. -/
theorem State.dropMains_cold {x : State} (h0 : x.reg.target = 0) (hm : ¬ x.mayHeat) :
    x.zeroFrame.dropMains.reg.kB = 0 ∧ x.zeroFrame.dropMains.reg.kS = 0 ∧
    x.zeroFrame.dropMains.sched.lastHeat.b = false ∧ x.zeroFrame.dropMains.sched.lastHeat.s = false := by
  obtain ⟨hB, hS, hb, hs, -⟩ := State.zeroFrame_cold h0 hm
  obtain ⟨-, hkB, hkS, -⟩ := x.zeroFrame.dropMains_within .onCounts (by decide)
  rw [hkB, hkS, State.dropMains_sched]
  exact ⟨hB, hS, hb, hs⟩

theorem State.mayHeat_held {x : State} (hs : x.engine.state = .held) (hg : x.engine.holds.gentle = false) : ¬ x.mayHeat := by
  rintro ⟨-, -, -, hr | ⟨-, hl, hb, hm, hn⟩⟩
  · rw [hs] at hr; cases hr
  · rw [(Holds.gentle_iff _).2 ⟨hl, hb, hm, hn⟩] at hg; cases hg

/-- The frame end keeps what the removal after it reads. -/
theorem State.zeroFrame_reads {x : State} (h0 : x.reg.target = 0) (hm : ¬ x.mayHeat) :
    x.zeroFrame.engine = x.engine ∧ x.zeroFrame.pool = x.pool ∧ x.zeroFrame.limits = x.limits ∧ x.zeroFrame.food = x.food ∧
    x.zeroFrame.steps = x.steps :=
  ⟨(State.zeroFrame_cold h0 hm).2.2.2.2, x.zeroFrame_pool, (State.limits_of_rest x.zeroFrame_rest).trans rfl,
    (State.food_of_rest x.zeroFrame_rest).trans rfl, (State.steps_of_rest x.zeroFrame_rest).trans rfl⟩

/-- The frame end after the removal computes from the regulator the removal leaves. -/
theorem State.dropMains_frameEnd (x : State) {g : Regulator} (hg : x.dropMains.reg = g) :
    x.dropMains.frameEnd.reg = (x.withReg g).frameEnd.reg :=
  State.frameEnd_reg_congr (y := x.withReg g) hg (State.limits_of_rest x.dropMains_rest) (State.base_of_rest x.dropMains_rest)
    (State.food_of_rest x.dropMains_rest) (State.board_of_rest x.dropMains_rest)

/-! ### The two orders -/

section
variable {x t : State} {h : Holds} (ht : x.eitherOrder t) (hs : x.engine.state = .held) (hm : x.engine.holds.mains = true)
  (h0 : x.reg.target = 0) (hh : h = { x.engine.holds with mains := false })
include ht hs hm h0 hh

/-- Another cause of the hold left: no heat in either order. -/
theorem State.eitherOrder.strict (hx : h.gentle = false) : t.reg.target = 0 ∧ t.reg.kB = 0 ∧ t.reg.kS = 0 ∧
    t.sched.lastHeat.b = false ∧ t.sched.lastHeat.s = false := by
  have hcold : ¬ x.mayHeat := State.mayHeat_held hs (Holds.not_gentle_of (.inr (.inr (.inl hm))))
  rcases ht with rfl | rfl
  · obtain ⟨heng, hreg⟩ := State.dropMains_strict hs hm hh hx
    obtain ⟨hB, hS, hb, hsOff, -⟩ := State.zeroFrame_cold hreg
      (State.mayHeat_held (by rw [heng]; exact hs) (by rw [heng]; exact hx))
    rw [State.zeroFrame_reg, State.frameEnd_reg] at hB hS ⊢
    exact ⟨hreg, hB, hS, hb, hsOff⟩
  · obtain ⟨heng, -⟩ := State.zeroFrame_reads h0 hcold
    obtain ⟨-, hreg⟩ := State.dropMains_strict (s := x.zeroFrame) (by rw [heng]; exact hs) (by rw [heng]; exact hm)
      (by rw [heng]; exact hh) hx
    exact ⟨hreg, State.dropMains_cold h0 hcold⟩

/-- PAUSE or STARVED alone left: the keep-warm value. -/
theorem State.eitherOrder.gentle (hne : h ≠ .empty) (hx : h.gentle = true) (hf : x.food.faulted = false) {keep : Nat}
    (hk : keep = min x.limits.keepWarm
      (if x.pool.heldRecord.isSome then x.engine.clampedTarget else x.engine.previousTarget)) :
    t.reg.target = keep ∧ t.reg.setpoint = keep ∧
    ((t.reg.kB = 0 ∧ t.reg.kS = 0 ∧ t.sched.lastHeat.b = false ∧ t.sched.lastHeat.s = false) ∨
      t.reg = (x.withReg { x.reg with target := keep, setpoint := keep, ramp := 0 }).frameEnd.reg) := by
  have hcold : ¬ x.mayHeat := State.mayHeat_held hs (Holds.not_gentle_of (.inr (.inr (.inl hm))))
  rcases ht with rfl | rfl
  · have hreg := State.dropMains_gentle hs hm hh hne hx hf hk
    have hends := x.dropMains_frameEnd hreg
    rw [State.zeroFrame_reg]
    refine ⟨?_, ?_, .inr hends⟩
    all_goals rw [State.frameEnd_reg, hreg]
  · obtain ⟨heng, hpool, hlim, hfood, -⟩ := State.zeroFrame_reads h0 hcold
    have hreg := State.dropMains_gentle (s := x.zeroFrame) (keep := keep) (by rw [heng]; exact hs) (by rw [heng]; exact hm)
      (by rw [heng]; exact hh) hne hx (by rw [hfood]; exact hf) (by rw [heng, hpool, hlim]; exact hk)
    exact ⟨by rw [hreg], by rw [hreg], .inl (State.dropMains_cold h0 hcold)⟩

/-- No reason left: the started step goes on. -/
theorem State.eitherOrder.resumes (he : h = .empty) {r : HeldRecord} (hr : x.pool.heldRecord = some r)
    (hf : x.food.faulted = false) {g : Regulator} (hg : g = { x.reg with
      target := x.engine.clampedTarget, setpoint := r.setpoint, rampAccumulator := r.rampAccumulator
      integrator := r.integrator, ramp := (x.step r.index).ramp, rampCount := 0 }) :
    t.engine.state = .running ∧ t.reg.target = g.target ∧ t.reg.setpoint = g.setpoint ∧
    ((t.reg.kB = 0 ∧ t.reg.kS = 0 ∧ t.sched.lastHeat.b = false ∧ t.sched.lastHeat.s = false) ∨
      t.reg = (x.withReg g).frameEnd.reg) := by
  have hcold : ¬ x.mayHeat := State.mayHeat_held hs (Holds.not_gentle_of (.inr (.inr (.inl hm))))
  rcases ht with rfl | rfl
  · obtain ⟨hstate, hreg⟩ := State.dropMains_resumes hs hm hh he hr hf
    rw [← hg] at hreg
    have hends := x.dropMains_frameEnd hreg
    rw [State.zeroFrame_reg]
    refine ⟨(congrArg Prod.fst (State.zeroFrame_holding _)).trans hstate, ?_, ?_, .inr hends⟩
    all_goals rw [State.frameEnd_reg, hreg]
  · obtain ⟨heng, hpool, -, hfood, hsteps⟩ := State.zeroFrame_reads h0 hcold
    obtain ⟨hstate, hreg⟩ := State.dropMains_resumes (s := x.zeroFrame) (by rw [heng]; exact hs) (by rw [heng]; exact hm)
      (by rw [heng]; exact hh) he (by rw [hpool]; exact hr) (by rw [hfood]; exact hf)
    refine ⟨hstate, ?_, ?_, .inl (State.dropMains_cold h0 hcold)⟩
    · rw [hreg, heng, hg]
    · rw [hreg, hg]

end

end Sys2Proof.Machine

namespace Sys2Proof.Proofs
open Sys2Proof.Machine

/-- Settles O36: the stall of the ZERO stream by the engine's state; the return, outside a hold by MAINS the frame end alone,
in one both orders of the removal. -/
theorem mainsLossAndReturn : Obligations.MainsLossAndReturn := by
  intro s seq hs
  refine ⟨fun hl hm => ?_, fun hl => ?_, fun hsenses hl hm => ?_⟩
  · have hu := State.stall_zero hl hm
    obtain ⟨hsched, hintake, hheat⟩ := (s.stalled .zero).lostMains.addHold_slot .mainsOnly
    refine ⟨_, exec_event_picks (c := .mainsLoss) (u := s.stall .zero) rfl (State.stall_calm hs _), ?_⟩
    simp only [State.picks_sched, State.picks_intake, State.picks_drive_heat, State.picks_engine, State.picks_pool,
      State.picks_reg, State.picks_stir, State.picks_lock, State.picks_isPending, State.picks_report_pendingSet]
    rw [hu, hsched, hintake, hheat]
    refine ⟨rfl, rfl, rfl, rfl, rfl, rfl, rfl, fun hrun => ?_, fun hheld => ?_, fun hrest => ?_⟩
    · rw [State.addHold_running (s := (s.stalled .zero).lostMains) hrun]
      obtain ⟨heng, -, hreg, hstir, -, hpending⟩ := State.enterHold_strict (s := (s.stalled .zero).lostMains) (r := .mainsOnly) rfl
      rw [heng]
      exact ⟨rfl, rfl, hreg, hstir, hpending⟩
    · obtain ⟨heng, hpool, hreport, hnew, hold⟩ := State.addHold_strict (s := (s.stalled .zero).lostMains) (r := .mainsOnly)
        (h := { s.engine.holds with mains := true }) hheld s.engine.holds.union_mainsOnly.symm
        (Holds.not_gentle_of (.inr (.inr (.inl rfl))))
      refine ⟨heng, hpool, congrArg Report.pendingSet hreport, fun hyes => hold ?_, fun hno => hnew fun he => ?_⟩
      · show _ = s.engine.holds
        rw [← hyes]
      · have := congrArg Holds.mains he
        rw [show (s.stalled .zero).lostMains.engine.holds.mains = false from hno] at this
        cases this
    · rw [State.addHold_other (s := (s.stalled .zero).lostMains)]
      · exact ⟨rfl, rfl, rfl, rfl, rfl⟩
      · show s.engine.state ≠ .running
        rcases hrest with h | h | h <;> rw [h] <;> decide
      · show s.engine.state ≠ .held
        rcases hrest with h | h | h <;> rw [h] <;> decide
  · exact State.leadsTo_self (c := .mainsLoss) (u := s.stall .zero) rfl (State.stall_of_dead hl) hs
  · have hlive : (s.seen .zero seq).dropSensor.intake.zero.live = true := by
      rw [State.intake_of_rest (State.dropSensor_rest _)]; rfl
    obtain ⟨hpresent, hpos, hzero, hB, hS, hheat, hhpos⟩ := State.mainsReturn_returned hlive
    refine ⟨_, exec_zeroReturn hs hsenses hl hm, ?_⟩
    simp only [State.picks_sched, State.picks_intake, State.picks_drive_heat, State.picks_engine, State.picks_reg]
    refine ⟨hpresent, hpos, hzero, fun hheld => ?_, fun hnot => ?_, hB, hS, _, hheat, rfl, hhpos, fun hnot => ?_,
      fun h hheld hmains h0 hsensor hh => ?_⟩
    · exact State.mainsReturn_unreasoned (State.dropSensor_mainsAware (s := s.seen .zero seq) hheld hm)
    · rw [State.dropSensor_of_not_held (s := s.seen .zero seq) hnot,
        State.mainsReturn_unheld (s := s.seen .zero seq) fun hc => hnot hc.1]
      refine ⟨congrArg Prod.fst (State.zeroFrame_holding _), fun hlen => ?_⟩
      rw [State.zeroFrame_reg, State.frameEnd_reg_congr (x := (s.seen .zero seq).atReturn) (y := s) rfl rfl rfl rfl rfl]
      exact State.frameEnds_frameEnd hlen
    · rw [State.dropSensor_of_not_held (s := s.seen .zero seq) hnot,
        State.mainsReturn_unheld (s := s.seen .zero seq) fun hc => hnot hc.1, State.zeroFrame_sched]
      exact ⟨State.zeroHeat_b (s := (s.seen .zero seq).atReturn) rfl, State.zeroHeat_s (s := (s.seen .zero seq).atReturn) rfl⟩
    · rw [State.dropSensor_kept (s := s.seen .zero seq) hsensor]
      have horder := State.mainsReturn_held (s := s.seen .zero seq) hheld hmains
      have hends : ∀ g : Regulator, 0 < s.limits.frameLength → (s.withReg g).frameEnds
          (((s.seen .zero seq).atReturn.withChoices ((s.seen .zero seq).choices + 1)).withReg g).frameEnd.reg := fun g hlen =>
        State.frameEnds_congr (s := s)
          (x := ((s.seen .zero seq).atReturn.withChoices ((s.seen .zero seq).choices + 1)).withReg g) rfl rfl rfl rfl rfl hlen
      refine ⟨fun hcause => horder.strict hheld hmains h0 hh ?_, fun g hne hlid hbowl hsens hf hlen hg => ?_,
        fun g r he hr hf hlen hg => ?_⟩
      · rcases hcause with hc | hc | hc
        · exact Holds.not_gentle_of (.inl hc)
        · exact Holds.not_gentle_of (.inr (.inl hc))
        · exact Holds.not_gentle_of (.inr (.inr (.inr hc)))
      · obtain ⟨keep, hkeep, rfl⟩ := hg
        have hgentle : h.gentle = true := (Holds.gentle_iff _).2 ⟨hlid, hbowl, by rw [hh], hsens⟩
        obtain ⟨htarget, hset, hcases⟩ := horder.gentle hheld hmains h0 hh hne hgentle hf hkeep
        exact ⟨htarget, hset, hcases.imp_right fun hreg => by rw [hreg]; exact hends _ hlen⟩
      · obtain ⟨hstate, htarget, hset, hcases⟩ := horder.resumes hheld hmains h0 hh he hr hf hg
        exact ⟨hstate, htarget, hset, hcases.imp_right fun hreg => by rw [hreg]; exact hends _ hlen⟩

end Sys2Proof.Proofs
end
